-- ==== Sys2Proof/Word.lean ====
section
/-! DEFINITION. The plain types of the model: the machine's words and the fields of its instruction words.
Nothing here has a meaning of its own; what a field does is said where it is read. -/

namespace Sys2Proof

/-- One byte (R5: all multi-byte data is little-endian). -/
abbrev Byte := BitVec 8

/-- A scalar register, an address, a control register: 64 bits (R9). -/
abbrev Word := BitVec 64

/-- One 32-bit word of the instruction stream (R68). -/
abbrev Word32 := BitVec 32

/-- The bits of one vector register or vector queue entry. The largest VLEN is 65,536 bits (R26); bits at the
granted VLEN and above are 0 (R28). Element e at width w is bits [w*e+w-1 : w*e] (R119). -/
abbrev VBits := BitVec 65536

/-- The bits of one mask register: VLEN/8 bits, at most 8,192 (R119). -/
abbrev MBits := BitVec 8192

/-- The number of a scalar register x0 to x31 (R72, R85). -/
abbrev XReg := BitVec 5

/-- A vector operand of class v (R86): 0-31 v0-v31, 32-39 lq0-lq7, 40-43 sq0-sq3; 44-63 are not legal. -/
abbrev VOpd := BitVec 6

/-- A vector operand of class V (R86): v0-v31 only. -/
abbrev VReg := BitVec 5

/-- A mask operand of class m (R86). -/
abbrev MReg := BitVec 3

/-- The governing mask of a vector instruction: fields mask [33:31] and mc [30] (R85). -/
structure Gov where
  mask : BitVec 3
  comp : Bool
  deriving DecidableEq, Repr, Inhabited

/-- The b operand of a form marked S (R86, R122): a vector operand, or the scalar register named by xs. -/
inductive BSrc where
  | vec (v : VOpd)
  | scl (x : XReg)
  deriving DecidableEq, Repr, Inhabited

/-- The identity of a hart slot, as bits 10:0 of `cr.hartid`: die 10:8, core 7:2, slot 1:0 (R110). -/
abbrev HartId := BitVec 11

/-- The number of a die (a stack), 0 to 7 (R1). -/
abbrev DieId := BitVec 3

/-- The number of a core on its die, 0 to 63: core = 8 * row + column (R110). -/
abbrev CoreId := BitVec 6

/-- Which strand of a hart (R11): the single strand of a coupled hart, or one of a decoupled hart's two. -/
inductive Role where
  | single
  | access
  | compute
  deriving DecidableEq, Repr, Inhabited

/-- A barrier's name within its launch (R225): its scope, the domain's place (the die, and the crew's first rank on
that die at core scope), and its id. -/
structure BarrierKey where
  launch : Nat
  scope  : BitVec 3
  die    : Nat
  crew   : Nat
  id     : BitVec 4
  deriving DecidableEq, Repr, Inhabited

/-- Who asks a home or a proxy directory for a line (R377, R378): a core of the home die, a remote die's proxy, or,
at a proxy, one of the die's own cores. -/
inductive Requester where
  | core (c : CoreId)
  | die  (d : DieId)
  deriving DecidableEq, Repr, Inhabited

/-- Which directory a coherence message reaches: the home of the line, or the proxy of a die (R377, R378). -/
inductive Station where
  | home
  | proxy (d : DieId)
  | l1 (d : DieId) (c : CoreId)
  deriving DecidableEq, Repr, Inhabited

/-- How a host request comes (R324, R326): the tenant function 0-64 that it names, the link it comes over, and whether it comes in an IDE stream. -/
structure HostFn where
  fn   : Nat
  link : BitVec 1
  ide  : Bool
  deriving DecidableEq, Repr, Inhabited

/-- Where an error strikes (R395, R398, R399). -/
inductive ErrorSite where
  /-- lane group g of a core: its lanes or register banks -/
  | laneGroup (d : DieId) (c : CoreId) (g : BitVec 3)
  /-- another SRAM of a core -/
  | coreSram (d : DieId) (c : CoreId)
  /-- a DRAM frame, by its physical frame number -/
  | frame (f : Nat)
  /-- the bytes of one tile, by its physical tile number -/
  | tile (t : Nat)
  /-- one cached line, by its physical line number -/
  | line (l : Nat)
  /-- a hart's own state: 0 registers, 1 queues, 2 accumulator store or staging (R350) -/
  | hartState (h : HartId) (sub : BitVec 2)
  /-- a directory, proxy, dispatch unit, walker, window, ring slot or armature buffer of a die (R399) -/
  | shared (d : DieId)
  deriving DecidableEq, Repr, Inhabited

/-- What a platform sensor request reads (R402). -/
inductive Sensor where
  | power
  | current
  | powerReg
  | clock (d : DieId)
  | largestVlen
  | health
  | soft (d : DieId)
  deriving DecidableEq, Repr, Inhabited

end Sys2Proof
end

