-- ==== Sys2Proof/Config.lean ====
section
/-! DEFINITION. What the manual leaves to the device or to a standard outside it: constants with no body, so that no proof can
see what they are and a statement is true whatever they are (notes/assumptions). A free value that may differ from
one use to the next takes the plain counter `State.fresh`, which the step advances. -/

namespace Sys2Proof.Config

/-- R61: how one free sum is evaluated. A leaf names a term of the sum by its place; a node adds two parts, and unless it is the root keeps the
sum exact or rounds it with `extra` bits of precision more than the destination's, in an exponent range with no limit (none) or that goes so many binades
beyond the destination's below and above. -/
inductive SumTree where
  | leaf (i : Nat)
  | node (l r : SumTree) (keepExact : Bool) (extra : Nat) (range : Option (Nat × Nat))
  deriving DecidableEq, Repr, Inhabited

/-- R61: the evaluation the device chooses, in the model a function of the sum's own terms, the format word, the granted VLEN and N (log entry 10). -/
opaque sumTree : List Nat → Word → Nat → Nat → SumTree

/-- R110, `cr.cycle`: how many cycles the n-th step of the model takes; timing is not modelled. -/
opaque cyclesOf : Nat → Nat

/-- R345: what a read of the write-only bits 13:0 of `cr.sresume` delivers, the n-th time. -/
opaque writeOnly : Nat → BitVec 14

/-- R28: whether a line of an L1 lies in the banks that the n-th taking takes; which lines do is not architectural. -/
opaque bankTaken : Nat → Nat → Bool

/-- R157: which of the elements that write one address stands, by the free-value counter and the address. -/
opaque pickWriter : Nat → Nat → Nat

/-- R364: the n-th AES-256 key a glaze unit generates. -/
opaque glazeKey : Nat → BitVec 256

/-- R260, R360: whether what a cache holds of a page or line is still there at the n-th step; which entries a TLB, a walker and an L1 replace is not
architectural. -/
opaque kept : Nat → Nat → Bool

/-- R367: whether the L2 set of a line is full of the lines of held tiles; the sets of the L2 are not given. -/
opaque setFull : List Nat → Nat → Bool

/-- R393: whether the doublewords of the outbound window table grant the device a request of so many bytes at an address; their layout is not given. -/
opaque grants : List (Nat × Word) → Word → Nat → Bool

/-- R380: how many flits of a message, or of its answer, that has not been answered in time were dropped by their CRC, the n-th time. -/
opaque droppedFlits : Nat → Nat × Nat

/-- R286: the deterministic ML-DSA-44 signature under the revision translation key, 2,420 bytes. -/
opaque signTranslation : List Byte → BitVec 19360

/-- R287, R389: ML-DSA-44 verification of (public key, message, signature). -/
opaque verify : List Byte → List Byte → List Byte → Bool

/-- R286, R388: the revision translation public key, 1,312 bytes. -/
opaque translationKey : BitVec 10496

/-- R392: the ML-DSA-44 signature of a measurement response under the device identity key. -/
opaque signIdentity : List Byte → BitVec 19360

/-- R8, R387 `krev`: the fused revision identifier. -/
opaque revision : Word

/-- R286, R288: the version of the translator in the firmware whose body has a hash. -/
opaque translatorVersion : List Byte → BitVec 32

/-- R389: the root key hash fused at manufacture. -/
opaque rootKeyHash : BitVec 256

/-- R392: the bytes of the ROM, measured in block 1. -/
opaque romImage : List Byte

/-- R324: the sizes of the windows of PF0 and PF1, 2^30 to 2^38 bytes, and of a VF, 2^20 to 2^36. -/
opaque barLog : Fin 9
opaque vfBarLog : Fin 17

/-- R387, R390: blown bits of the firmware and the object fuse counter when the module first starts. -/
opaque fusedFirmware : Fin 65
opaque fusedObject : Fin 65

/-- R388: the two flash banks' contents when the module first starts. -/
opaque flashA : List Byte
opaque flashB : List Byte

/-- R345, R391: the entry of the supervisor hart's firmware text on each die; the firmware is not part of the manual. -/
opaque supervisorEntry : Nat → Word

/-- R287: where the loader places an object of so many bytes, the n-th time; a multiple of 64 KiB is taken from it (R408). -/
opaque loadBase : Nat → Nat → Nat

/-- R390: how far a fuse raise had come when power was lost: a value that is cut to the range from old to target. -/
opaque fuseStop : Nat → Nat

/-- R33, R217: how far a slot that is asked to stop for the n-th time goes on: the element group at which lane group j stops, or the unit (j = 0) and
the block of 64 (j = 1) at which a sweep stops. -/
opaque stopPoint : Nat → Nat → Nat

/-- R351: how the n-th error in a hart's own state changes the i-th piece of the state that it strikes. -/
opaque softBits : Nat → Nat → Nat

/-- R395: the lane group in whose register banks the n-th error in a hart's registers lies. -/
opaque errorGroup : Nat → BitVec 3

/-- R349, R99: whether the n-th engine or device choice between two allowed outcomes takes the first. -/
opaque choose : Nat → Bool

end Sys2Proof.Config
end

