-- ==== Sys2Proof/Machine/Number.lean ====
section
/-! DEFINITION. Number formats and exact arithmetic (chapter 02): the thirteen formats (R45, R46, R53), exact results (R48), the
one rounding into a destination (R49 to R52, R55), LNS6 class accumulators (R57, R58), split FP64 (R59), free sums (R61), the
generator's draw (R64) and the format word's fields (R41). -/

namespace Sys2Proof.Machine

/-! ## Formats -/

/-- Container width in bits of format code c (R45, R46, R53). -/
def fmtWidth (c : Nat) : Nat :=
  if c == 1 || c == 2 || c == 13 then 8
  else if c == 3 || c == 4 || c == 9 || c == 10 then 16
  else if c == 5 || c == 6 || c == 11 then 32
  else 64

def isIntFmt (c : Nat) : Bool := 1 ≤ c && c ≤ 8
/-- INT8, INT16, INT32 and INT64 have the odd codes (R45). -/
def isSignedFmt (c : Nat) : Bool := isIntFmt c && c % 2 == 1
def isFloatFmt (c : Nat) : Bool := 9 ≤ c && c ≤ 12
def isLnsFmt (c : Nat) : Bool := c == 13
def isFmt (c : Nat) : Bool := 1 ≤ c && c ≤ 13

/-- Fraction bits of a floating format (R46). -/
def fracBits (c : Nat) : Nat := if c == 9 then 10 else if c == 10 then 7 else if c == 11 then 23 else 52
/-- Exponent bias of a floating format (R46). -/
def fmtBias (c : Nat) : Nat := if c == 9 then 15 else if c == 10 then 127 else if c == 11 then 127 else 1023
def expBits (c : Nat) : Nat := if c == 9 then 5 else if c == 10 then 8 else if c == 11 then 8 else 11

/-- The signed integer format of an element width code (R42). -/
def intFmtOfEw (ew : Nat) : Nat := 2 * ew + 1

/-- +infinity, the canonical NaN and the greatest finite value of a floating format (R46, R47). -/
def infBits (c : Nat) : Nat := (2 ^ expBits c - 1) * 2 ^ fracBits c
def nanBits (c : Nat) : Nat := infBits c + 2 ^ (fracBits c - 1)
def maxFiniteBits (c : Nat) : Nat := infBits c - 1
def signBit (c : Nat) : Nat := 2 ^ (fmtWidth c - 1)
def withSign (c : Nat) (neg : Bool) (b : Nat) : Nat := if neg then signBit c + b else b

/-! ## Values -/

/-- What an operand holds: a value `fin neg m q` is ±m * 2^(q/4) with m > 0. Integers and floating values have q a multiple
of 4; an LNS6 value is m = 1 with q = L - 16 (R53). `nan` is a NaN or NaR. -/
inductive Val where
  | nan
  | inf (neg : Bool)
  | zero (neg : Bool)
  | fin (neg : Bool) (m : Nat) (q : Int)
  deriving DecidableEq, Repr, Inhabited

namespace Val

def ofInt (i : Int) : Val := if i = 0 then .zero false else .fin (i < 0) i.natAbs 0

/-- ±m * 2^e. -/
def ofDyadic (neg : Bool) (m : Nat) (e : Int) : Val := if m = 0 then .zero neg else .fin neg m (4 * e)

def isNan : Val → Bool | .nan => true | _ => false
def isZero : Val → Bool | .zero _ => true | _ => false
def isNeg : Val → Bool | .inf n => n | .zero n => n | .fin n _ _ => n | .nan => false

def neg : Val → Val
  | .nan => .nan | .inf n => .inf (!n) | .zero n => .zero (!n) | .fin n m q => .fin (!n) m q

def abs : Val → Val
  | .nan => .nan | .inf _ => .inf false | .zero _ => .zero false | .fin _ m q => .fin false m q

end Val

/-- Bits w-1:0 of b as a signed number. -/
def signedOf (w b : Nat) : Int :=
  let b := b % 2 ^ w
  if b < 2 ^ (w - 1) then b else (b : Int) - 2 ^ w

/-- The value that the low bits of b hold in format c (R45, R46, R53); with `flush`, a subnormal reads as a zero of its
sign (R52). -/
def readVal (c : Nat) (flush : Bool) (b : Nat) : Val :=
  let b := b % 2 ^ fmtWidth c
  if isIntFmt c then
    if isSignedFmt c then Val.ofInt (signedOf (fmtWidth c) b) else Val.ofInt b
  else if isLnsFmt c then
    if b ≥ 64 then .nan
    else if b % 32 = 0 then (if b = 32 then .nan else .zero false)
    else .fin (b ≥ 32) 1 ((b % 32 : Nat) - 16)
  else
    let neg := b ≥ signBit c
    let e := b / 2 ^ fracBits c % 2 ^ expBits c
    let f := b % 2 ^ fracBits c
    if e = 2 ^ expBits c - 1 then (if f = 0 then .inf neg else .nan)
    else if e = 0 then
      if f = 0 || flush then .zero neg else .fin neg f (4 * (1 - (fmtBias c : Int) - fracBits c))
    else .fin neg (2 ^ fracBits c + f) (4 * ((e : Int) - fmtBias c - fracBits c))

/-! ## Exact magnitudes -/

/-- The greatest r with r^k ≤ n, built from the bit of weight 2^b down. -/
def irootFrom (k n : Nat) : Nat → Nat → Nat
  | 0, r => r
  | b + 1, r => irootFrom k n b (if (r + 2 ^ b) ^ k ≤ n then r + 2 ^ b else r)

/-- The integer k-th root of n, rounded down. -/
def iroot (k n : Nat) : Nat := irootFrom k n (Nat.log2 n / k + 1) 0

/-- A positive real number x, given exactly by `exp` = floor(log2 x) and by, for each k, floor(x * 2^k) with whether that
is x * 2^k itself. -/
structure Mag where
  exp : Int
  scaled : Int → Nat × Bool

/-- floor(n * 2^s), and whether it is exact. -/
def shiftFloor (n : Nat) (s : Int) : Nat × Bool :=
  if 0 ≤ s then (n * 2 ^ s.toNat, true)
  else if Nat.log2 n + 1 < (-s).toNat then (0, n == 0)
  else (n / 2 ^ (-s).toNat, n % 2 ^ (-s).toNat == 0)

/-- m * 2^(q/4), m > 0. -/
def Mag.ofQuarter (m : Nat) (q : Int) : Mag :=
  if q % 4 = 0 then ⟨(Nat.log2 m : Int) + q / 4, fun k => shiftFloor m (q / 4 + k)⟩
  else ⟨((Nat.log2 (m ^ 4) : Int) + q) / 4, fun k =>
    let (n, ex) := shiftFloor (m ^ 4) (q + 4 * k)
    let r := iroot 4 n
    (r, ex && r ^ 4 == n)⟩

/-- floor((n / d) * 2^s), d > 0. -/
def ratioFloor (n d : Nat) (s : Int) : Nat × Bool :=
  if 0 ≤ s then (n * 2 ^ s.toNat / d, n * 2 ^ s.toNat % d == 0)
  else if Nat.log2 n + 1 < (-s).toNat then (0, n == 0)
  else (n / (d * 2 ^ (-s).toNat), n % (d * 2 ^ (-s).toNat) == 0)

/-- floor(log2(n / d)), n and d > 0. -/
def ratioLog (n d : Nat) : Int :=
  let l : Int := (Nat.log2 n : Int) - Nat.log2 d
  if (if 0 ≤ l then d * 2 ^ l.toNat ≤ n else d ≤ n * 2 ^ (-l).toNat) then l else l - 1

/-- (n / d) * 2^e. -/
def Mag.ofRatio (n d : Nat) (e : Int) : Mag := ⟨ratioLog n d + e, fun k => ratioFloor n d (e + k)⟩

/-- The square root of (n / d) * 2^e. -/
def Mag.sqrtRatio (n d : Nat) (e : Int) : Mag :=
  ⟨(ratioLog n d + e) / 2, fun k =>
    let (v, ex) := ratioFloor n d (e + 2 * k)
    let r := iroot 2 v
    (r, ex && r ^ 2 == v)⟩

/-- The integer square root of n, from an s at or above it (Newton's steps fall until they reach it). -/
def isqrtFrom (n : Nat) : Nat → Nat → Nat
  | 0, s => s
  | fuel + 1, s => let t := (s + n / s) / 2; if t < s then isqrtFrom n fuel t else s

/-- Bounds of √(x / 2^p) * 2^p for an x between 2^p and 2^(p+1). -/
def rootBelow (p x : Nat) : Nat := isqrtFrom (x * 2 ^ p) (p + 2) ((x + 2 ^ p) / 2 + 1)

/-- Bounds of a real number times 2^p. -/
structure Bounds where
  lo : Nat
  hi : Nat
  deriving DecidableEq, Repr

/-- Bounds of 2^(0.b1 b2 … bm) * 2^p from the bits of a fraction, the highest first: a product of the square roots of 2, of √2, and so on.
`root` bounds 2^(2^-i) for the last bit seen; a last factor of that root covers the bits that were dropped. -/
def exp2Bounds (p : Nat) (dropped : Bool) : List Bool → Bounds → Bounds → Bounds
  | [], root, acc => if dropped then ⟨acc.lo, acc.hi * root.hi / 2 ^ p + 1⟩ else acc
  | b :: bs, root, acc =>
    let r : Bounds := ⟨rootBelow p root.lo, rootBelow p root.hi + 1⟩
    exp2Bounds p dropped bs r (if b then ⟨acc.lo * r.lo / 2 ^ p, acc.hi * r.hi / 2 ^ p + 1⟩ else acc)

/-- floor(2^(f / 2^j) * 2^s) for 0 ≤ f < 2^j, where 192 bits decide it. The power is irrational, so it lies strictly between its bounds, and
below 2. -/
def exp2Decided (f j : Nat) (s : Int) : Option Nat :=
  let p := 192
  let m := min j p
  let top := f / 2 ^ (j - m)
  let b := exp2Bounds p (m < j) ((List.range m).map (fun i => top.testBit (m - 1 - i))) ⟨2 ^ (p + 1), 2 ^ (p + 1)⟩ ⟨2 ^ p, 2 ^ p⟩
  let sh : Int := s - p
  if 0 < sh then none
  else
    let lo := (shiftFloor b.lo sh).1
    let hi := (shiftFloor (min b.hi (2 ^ (p + 1)) - 1) sh).1
    if lo = hi then some lo else none

/-- 2^(n / 2^j): an exact power of two for j = 0, else irrational. Where 192 bits do not decide a scaled value, it is the integer root. -/
def Mag.exp2 (n : Int) (j : Nat) : Mag :=
  if j = 0 then Mag.ofQuarter 1 (4 * n)
  else ⟨n / 2 ^ j, fun k =>
    let t := n + k * 2 ^ j
    if t < 0 then (0, false)
    else ((exp2Decided (n % 2 ^ j).toNat j (n / 2 ^ j + k)).getD (iroot (2 ^ j) (2 ^ t.toNat)), false)⟩

/-- The least j from `from` on with (n/d)^(2^j) ≥ 2, within the fuel. -/
def logDepth (n d : Nat) : Nat → Nat → Nat
  | 0, j => j
  | fuel + 1, j => if 2 * d ^ (2 ^ j) ≤ n ^ (2 ^ j) then j else logDepth n d fuel (j + 1)

/-- The bits of log2 y for 1 < y < 2, bounded by `b`, as (their number, their value): y is squared, and a square of 2 or more gives a 1 and is
halved. It stops where the bounds do not decide. -/
def log2Bits (p : Nat) : Nat → Bounds → Nat × Nat → Nat × Nat
  | 0, _, acc => acc
  | fuel + 1, b, acc =>
    let lo := b.lo * b.lo / 2 ^ p
    let hi := b.hi * b.hi / 2 ^ p + 1
    if 2 ^ (p + 1) ≤ lo then log2Bits p fuel ⟨lo / 2, hi / 2 + 1⟩ (acc.1 + 1, 2 * acc.2 + 1)
    else if hi ≤ 2 ^ (p + 1) then log2Bits p fuel ⟨lo, hi⟩ (acc.1 + 1, 2 * acc.2)
    else acc

/-- log2(n / d) for n > d > 0 with n / d no power of two: irrational, so no scaled value is exact. Its first bits come from 256 bits of n / d;
what those do not decide comes from powers of n and d. -/
def Mag.log2Ratio (n d : Nat) : Mag :=
  let l := (ratioLog n d).toNat
  let y := n * 2 ^ 256 / (d * 2 ^ l)
  let bits := log2Bits 256 128 ⟨y, y + 1⟩ (0, l)
  ⟨if bits.2 = 0 then -(logDepth n d 1100 1 : Int) else (Nat.log2 bits.2 : Int) - bits.1, fun k =>
    if k ≤ bits.1 then ((shiftFloor bits.2 (k - bits.1)).1, false)
    else ((ratioLog (n ^ (2 ^ k.toNat)) (d ^ (2 ^ k.toNat))).toNat, false)⟩

/-- An exact result (R48): a value of `Val`, or ± a real magnitude. -/
inductive Exact where
  | val (v : Val)
  | real (neg : Bool) (x : Mag)

/-! ## Exact operations -/

/-- The sign of an exact zero sum of two terms of opposite sign: + except under toward −∞ (IEEE 754-2019, R46). -/
def zeroSumNeg (round : Nat) : Bool := round == 2

/-- a + b (R47 for the special values). Both have q a multiple of 4: no admissible format gives another (R128). -/
def addV (round : Nat) : Val → Val → Val
  | .nan, _ => .nan
  | _, .nan => .nan
  | .inf x, .inf y => if x == y then .inf x else .nan
  | .inf x, _ => .inf x
  | _, .inf y => .inf y
  | .zero x, .zero y => .zero (if x == y then x else zeroSumNeg round)
  | .zero _, b => b
  | a, .zero _ => a
  | .fin nx mx qx, .fin ny my qy =>
    let q := min qx qy
    let x : Int := (mx * 2 ^ ((qx - q) / 4).toNat : Nat)
    let y : Int := (my * 2 ^ ((qy - q) / 4).toNat : Nat)
    let s := (if nx then -x else x) + (if ny then -y else y)
    if s = 0 then .zero (zeroSumNeg round) else .fin (s < 0) s.natAbs q

/-- floor((±x ± y) * 2^k) for x = mx * 2^(qx/4) and y = my * 2^(qy/4) with the sum positive, one of them a multiple of a power of two: the
other is scaled so far that the sum loses nothing. -/
def sumScaled (nx : Bool) (mx : Nat) (qx : Int) (ny : Bool) (my : Nat) (qy : Int) (k : Int) : Nat × Bool :=
  let j : Int := max 0 (max (-(qx / 4) - k) (-(qy / 4) - k)) + 4
  let x := (Mag.ofQuarter mx qx).scaled (k + j)
  let y := (Mag.ofQuarter my qy).scaled (k + j)
  -- a scaled value that is not exact lies above its floor, or below its negation's floor
  let part (n : Bool) (v : Nat × Bool) : Int := if n then (if v.2 then -(v.1 : Int) else -(v.1 : Int) - 1) else v.1
  ((part nx x + part ny y).toNat / 2 ^ j.toNat, false)

def subV (round : Nat) (a b : Val) : Val := addV round a b.neg

def mulV : Val → Val → Val
  | .nan, _ => .nan
  | _, .nan => .nan
  | .inf x, .zero _ => let _ := x; .nan
  | .zero _, .inf y => let _ := y; .nan
  | .inf x, b => .inf (x != b.isNeg)
  | a, .inf y => .inf (a.isNeg != y)
  | .zero x, b => .zero (x != b.isNeg)
  | a, .zero y => .zero (a.isNeg != y)
  | .fin nx mx qx, .fin ny my qy => .fin (nx != ny) (mx * my) (qx + qy)

/-- a / b of floating values (R47). -/
def divV : Val → Val → Exact
  | .nan, _ => .val .nan
  | _, .nan => .val .nan
  | .inf x, .inf y => let _ := (x, y); .val .nan
  | .zero x, .zero y => let _ := (x, y); .val .nan
  | .inf x, b => .val (.inf (x != b.isNeg))
  | a, .inf y => .val (.zero (a.isNeg != y))
  | .zero x, b => .val (.zero (x != b.isNeg))
  | a, .zero y => .val (.inf (a.isNeg != y))
  | .fin nx mx qx, .fin ny my qy => .real (nx != ny) (Mag.ofRatio mx my ((qx - qy) / 4))

/-- a − b × trunc(a / b) of floating values; a zero remainder takes the sign of a (R127). With b infinite and a finite trunc(a / b) is 0 and the product
∞ × 0; the manual states no result of its own for it, and the model's is a (the model's choice, log entry 122). -/
def remV : Val → Val → Val
  | .nan, _ => .nan
  | _, .nan => .nan
  | .inf _, _ => .nan
  | _, .zero _ => .nan
  | .zero x, _ => .zero x
  | a, .inf _ => a
  | .fin nx mx qx, .fin _ my qy =>
    let q := min qx qy
    let r := mx * 2 ^ ((qx - q) / 4).toNat % (my * 2 ^ ((qy - q) / 4).toNat)
    if r = 0 then .zero nx else .fin nx r q

/-- √a (R130). -/
def sqrtV : Val → Exact
  | .nan => .val .nan
  | .zero n => .val (.zero n)
  | .inf false => .val (.inf false)
  | .inf true => .val .nan
  | .fin true _ _ => .val .nan
  | .fin false m q => .real false (Mag.sqrtRatio m 1 (q / 4))

/-- 1 / a (R130). -/
def rcpV : Val → Exact
  | .nan => .val .nan
  | .zero n => .val (.inf n)
  | .inf n => .val (.zero n)
  | .fin n m q => .real n (Mag.ofRatio 1 m (-(q / 4)))

/-- 1 / √a (R130). -/
def rsqrtV : Val → Exact
  | .nan => .val .nan
  | .zero n => .val (.inf n)
  | .inf false => .val (.zero false)
  | .inf true => .val .nan
  | .fin true _ _ => .val .nan
  | .fin false m q => .real false (Mag.sqrtRatio 1 m (-(q / 4)))

/-- m * 2^e with the factors of two of m moved into e, as far as the fuel reaches. -/
def oddPart : Nat → Nat → Int → Nat × Int
  | 0, m, e => (m, e)
  | fuel + 1, m, e => if m % 2 = 0 then oddPart fuel (m / 2) (e + 1) else (m, e)

/-- 2^a (R130). -/
def exp2V : Val → Exact
  | .nan => .val .nan
  | .zero _ => .val (.fin false 1 0)
  | .inf false => .val (.inf false)
  | .inf true => .val (.zero false)
  | .fin neg m q =>
    let (o, e) := oddPart (Nat.log2 m + 1) m (q / 4)
    let s : Int := if neg then -(o : Int) else o
    if 0 ≤ e then .real false (Mag.exp2 (s * 2 ^ e.toNat) 0) else .real false (Mag.exp2 s (-e).toNat)

/-- log2 a (R130); log2 of 1 is +0. -/
def log2V : Val → Exact
  | .nan => .val .nan
  | .zero _ => .val (.inf true)
  | .inf false => .val (.inf false)
  | .inf true => .val .nan
  | .fin true _ _ => .val .nan
  | .fin false m q =>
    let (o, e) := oddPart (Nat.log2 m + 1) m (q / 4)
    if o = 1 then .val (Val.ofInt e)
    else if 0 ≤ e then .real false (Mag.log2Ratio (o * 2 ^ e.toNat) 1)
    else if 2 ^ (-e).toNat < o then .real false (Mag.log2Ratio o (2 ^ (-e).toNat))
    else .real true (Mag.log2Ratio (2 ^ (-e).toNat) o)

/-- Whether m1 * 2^(q1/4) is below, equal to or above m2 * 2^(q2/4). -/
def cmpMag (m1 : Nat) (q1 : Int) (m2 : Nat) (q2 : Int) : Ordering :=
  let q := min q1 q2
  compare (m1 ^ 4 * 2 ^ (q1 - q).toNat) (m2 ^ 4 * 2 ^ (q2 - q).toNat)

/-- The exact comparison of two values; none when either is a NaN or NaR. −0 equals +0 (R133). -/
def cmpV : Val → Val → Option Ordering
  | .nan, _ => none
  | _, .nan => none
  | .inf x, .inf y => some (if x == y then .eq else if x then .lt else .gt)
  | .inf x, _ => some (if x then .lt else .gt)
  | _, .inf y => some (if y then .gt else .lt)
  | .zero _, .zero _ => some .eq
  | .zero _, .fin n _ _ => some (if n then .gt else .lt)
  | .fin n _ _, .zero _ => some (if n then .lt else .gt)
  | .fin nx mx qx, .fin ny my qy =>
    some (if nx && !ny then .lt else if !nx && ny then .gt
      else if nx then cmpMag my qy mx qx else cmpMag mx qx my qy)

/-- a + b where one of them may be an LNS6 value, whose logarithm is no whole number: the exact sum, as a real where it is none of `Val`. -/
def addX (round : Nat) (a b : Val) : Exact :=
  match a, b with
  | .fin nx mx qx, .fin ny my qy =>
    if qx % 4 = 0 && qy % 4 = 0 then .val (addV round a b)
    else
      match cmpMag mx qx my qy with
      | .eq => if nx == ny then .val (.fin nx mx (qx + 4)) else .val (.zero (zeroSumNeg round))
      | .gt => .real nx ⟨0, sumScaled false mx qx (nx != ny) my qy⟩
      | .lt => .real ny ⟨0, sumScaled (nx != ny) mx qx false my qy⟩
  | _, _ => .val (addV round a b)

/-- The lesser of two values: a single NaN yields the other operand (R47); −0 is less than +0 (R101, R128). -/
def minV (a b : Val) : Val :=
  if a.isNan then b else if b.isNan then a
  else if a.isZero && b.isZero then (if a.isNeg then a else b)
  else if cmpV a b == some .gt then b else a

def maxV (a b : Val) : Val :=
  if a.isNan then b else if b.isNan then a
  else if a.isZero && b.isZero then (if a.isNeg then b else a)
  else if cmpV a b == some .lt then b else a

/-! ## Rounding into a destination -/

/-- Whether a magnitude that lies above n by the half bit and the sticky part goes up (R49). -/
def roundUp (round : Nat) (neg odd half sticky : Bool) : Bool :=
  if round == 0 then half && (sticky || odd)
  else if round == 1 then false
  else if round == 2 then neg && (half || sticky)
  else if round == 3 then !neg && (half || sticky)
  else half

/-- x rounded to a whole number of units of 2^q: the number of units. -/
def roundUnits (round : Nat) (neg : Bool) (x : Mag) (q : Int) : Nat :=
  let (n2, ex) := x.scaled (1 - q)
  let n := n2 / 2
  if roundUp round neg (n % 2 == 1) (n2 % 2 == 1) (!ex) then n + 1 else n

/-- A converted result: its bits and whether it is out of range (R50). -/
structure Conv where
  bits : Nat
  out  : Bool
  deriving DecidableEq, Repr, Inhabited

/-- What a floating destination receives on overflow (R50). -/
def overflowBits (c round : Nat) (sat neg : Bool) : Nat :=
  if sat then withSign c neg (maxFiniteBits c)
  else if round == 0 || round == 4 || (round == 2 && neg) || (round == 3 && !neg) then withSign c neg (infBits c)
  else withSign c neg (maxFiniteBits c)

/-- ±x into the floating format c (R49 to R52). -/
def roundFloat (c round : Nat) (sat flush neg : Bool) (x : Mag) : Conv :=
  let fb := fracBits c
  let emin : Int := 1 - fmtBias c
  let emax : Int := fmtBias c
  if emax < x.exp then ⟨overflowBits c round sat neg, true⟩
  else
    let wide := roundUnits round neg x (x.exp - fb)
    let tiny := x.exp < emin && !(x.exp + 1 == emin && wide == 2 ^ (fb + 1))
    if flush && tiny then ⟨withSign c neg 0, false⟩
    else
      let q := max (x.exp - fb) (emin - fb)
      let n := roundUnits round neg x q
      if n < 2 ^ fb then ⟨withSign c neg n, false⟩
      else
        -- n units of 2^q, n from 2^fb to 2^(fb+1): biased exponent q + fb + bias, one more when n is 2^(fb+1)
        let e := (q + fb + fmtBias c).toNat
        let b := e * 2 ^ fb + (n - 2 ^ fb)
        if infBits c ≤ b then ⟨overflowBits c round sat neg, true⟩ else ⟨withSign c neg b, false⟩

/-- Least and greatest value of an integer format (R45). -/
def intMin (c : Nat) : Int := if isSignedFmt c then -(2 ^ (fmtWidth c - 1)) else 0
def intMax (c : Nat) : Int := if isSignedFmt c then 2 ^ (fmtWidth c - 1) - 1 else 2 ^ fmtWidth c - 1

/-- i modulo 2^w, as a Nat. -/
def wrapTo (w : Nat) (i : Int) : Nat := (i % 2 ^ w).toNat

/-- An integer into the integer format c (R50). -/
def intoInt (c : Nat) (sat : Bool) (i : Int) : Conv :=
  if i < intMin c then ⟨wrapTo (fmtWidth c) (if sat then intMin c else i), true⟩
  else if intMax c < i then ⟨wrapTo (fmtWidth c) (if sat then intMax c else i), true⟩
  else ⟨wrapTo (fmtWidth c) i, false⟩

/-- ±m * 2^(q/4) into LNS6 (R55): λ = 16 + 4 log2 x, rounded in magnitude. -/
def roundLns (round : Nat) (neg : Bool) (m : Nat) (q : Int) : Conv :=
  let fl : Int := 16 + (Nat.log2 (m ^ 4) : Int) + q
  let exact := 2 ^ Nat.log2 m == m
  let ce : Int := if exact then fl else fl + 1
  let near : Int := 16 + ((Nat.log2 (m ^ 8) : Int) + 2 * q + 1) / 2
  let l : Int := if round == 0 || round == 4 then near else if round == 1 then fl
    else if round == 2 then (if neg then ce else fl) else (if neg then fl else ce)
  if l < 1 then ⟨0, false⟩
  else if 31 < l then ⟨if neg then 63 else 31, true⟩
  else ⟨(if neg then 32 else 0) + l.toNat, false⟩

/-- ±x into LNS6 for an x that is no power of 2^(1/4) (R55): its logarithm from 2,400 bits of x, more than the gap between such a sum and a
power of 2^(1/8) needs. -/
def roundLnsReal (round : Nat) (neg : Bool) (x : Mag) : Conv :=
  let v := (x.scaled 2400).1
  if v = 0 then ⟨0, false⟩
  else
    let fl : Int := 16 + (Nat.log2 (v ^ 4) : Int) - 4 * 2400
    let near : Int := 16 + ((Nat.log2 (v ^ 8) : Int) - 8 * 2400 + 1) / 2
    let l : Int := if round == 0 || round == 4 then near else if round == 1 then fl
      else if round == 2 then (if neg then fl + 1 else fl) else (if neg then fl else fl + 1)
    if l < 1 then ⟨0, false⟩
    else if 31 < l then ⟨if neg then 63 else 31, true⟩
    else ⟨(if neg then 32 else 0) + l.toNat, false⟩

/-- The conversion of an exact result into format c (R48 to R52, R55). -/
def convert (c round : Nat) (sat flush : Bool) : Exact → Conv
  | .val .nan =>
    if isIntFmt c then ⟨0, true⟩ else if isLnsFmt c then ⟨32, false⟩ else ⟨nanBits c, false⟩
  | .val (.inf neg) =>
    if isIntFmt c then ⟨if sat then wrapTo (fmtWidth c) (if neg then intMin c else intMax c) else 0, true⟩
    else if isLnsFmt c then ⟨if neg then 63 else 31, true⟩
    else ⟨withSign c neg (infBits c), false⟩
  | .val (.zero neg) => if isFloatFmt c then ⟨withSign c neg 0, false⟩ else ⟨0, false⟩
  | .val (.fin neg m q) =>
    if isIntFmt c then
      let n : Int := roundUnits round neg (Mag.ofQuarter m q) 0
      intoInt c sat (if neg then -n else n)
    else if isLnsFmt c then roundLns round neg m q
    else roundFloat c round sat flush neg (Mag.ofQuarter m q)
  | .real neg x =>
    if isIntFmt c then
      let n : Int := roundUnits round neg x 0
      intoInt c sat (if neg then -n else n)
    else if isLnsFmt c then roundLnsReal round neg x
    else roundFloat c round sat flush neg x

/-! ## The format word -/

/-- The fields of a format word (R41), with the word itself for the trap value. -/
structure FmtWord where
  raw    : Word
  d      : Nat
  a      : Nat
  b      : Nat
  c      : Nat
  round  : Nat
  sat    : Bool
  ovmask : BitVec 3
  slices : Nat
  flush  : Bool
  deriving DecidableEq, Repr, Inhabited

def FmtWord.ofWord (w : Word) : FmtWord :=
  { raw := w, d := (w.extractLsb' 0 5).toNat, a := (w.extractLsb' 5 5).toNat, b := (w.extractLsb' 10 5).toNat
    c := (w.extractLsb' 15 5).toNat, round := (w.extractLsb' 20 3).toNat, sat := w.getLsbD 23
    ovmask := w.extractLsb' 24 3, slices := (w.extractLsb' 28 3).toNat, flush := w.getLsbD 31 }

/-- The default format word (R42): fmt = 0 selects it. Its `raw` value, which only a trap record shows, is 0. -/
def FmtWord.default (ew : Nat) : FmtWord :=
  { raw := 0, d := intFmtOfEw ew, a := intFmtOfEw ew, b := intFmtOfEw ew, c := intFmtOfEw ew
    round := 0, sat := false, ovmask := 0, slices := 0, flush := false }

/-- The checks of R43 that the word alone decides: reserved bits, codes 14-31, round 5-7, slices 1-2. -/
def FmtWord.shapeOk (f : FmtWord) : Bool :=
  f.raw.extractLsb' 32 32 == 0 && !f.raw.getLsbD 27 && f.d ≤ 13 && f.a ≤ 13 && f.b ≤ 13 && f.c ≤ 13
    && f.round ≤ 4 && f.slices != 1 && f.slices != 2

/-- One conversion under a format word into its dfmt. -/
def FmtWord.convert (f : FmtWord) (x : Exact) : Conv := Machine.convert f.d f.round f.sat f.flush x

/-- The conversion of a combination: sat and ovmask do not apply to the bitwise ops 3 to 5 (R48). -/
def FmtWord.convertOp (f : FmtWord) (op : Nat) (x : Exact) : Conv :=
  if op < 3 then f.convert x else ⟨(Machine.convert f.d f.round false f.flush x).bits, false⟩

def FmtWord.readA (f : FmtWord) (b : Nat) : Val := readVal f.a f.flush b
def FmtWord.readB (f : FmtWord) (b : Nat) : Val := readVal f.b f.flush b
def FmtWord.readC (f : FmtWord) (b : Nat) : Val := readVal f.c f.flush b

/-! ## LNS6 class accumulators -/

/-- Four class accumulators and the NaR flag of one result element (R57). -/
structure ClassAcc where
  acc : List (BitVec 48)
  nar : Bool
  deriving DecidableEq, Repr, Inhabited

def ClassAcc.zero : ClassAcc := ⟨[0, 0, 0, 0], false⟩

/-- Adds one LNS6 term, given as a value ±2^(q/4) (R57): k = floor(q/4), class f = q mod 4, ±2^(k+8) into acc_f. -/
def ClassAcc.add (a : ClassAcc) : Val → ClassAcc
  | .nan => { a with nar := true }
  | .inf _ => { a with nar := true }
  | .zero _ => a
  | .fin neg _ q =>
    let f := (q % 4).toNat
    let t : BitVec 48 := BitVec.ofInt 48 (2 ^ (q / 4 + 8).toNat)
    { a with acc := a.acc.set f ((a.acc.getD f 0) + (if neg then -t else t)) }

/-- The constants T[0..3] of R58 as dyadic values m * 2^-23. -/
def lnsT (f : Nat) : Nat :=
  if f = 0 then 0x800000 else if f = 1 then 0x9837F0 else if f = 2 then 0xB504F3 else 0xD744FD

/-- acc[f] * 2^-8 * T[f], exact. -/
def ClassAcc.term (a : ClassAcc) (f : Nat) : Val :=
  let i := (a.acc.getD f 0).toInt * lnsT f
  if i = 0 then .zero false else .fin (i < 0) i.natAbs (4 * (-31))

/-- The class accumulators as a value of the floating format dfmt (R58); each step may be out of range. -/
def ClassAcc.finish (f : FmtWord) (a : ClassAcc) : Conv :=
  if a.nar then ⟨nanBits f.d, false⟩
  else
    [1, 2, 3].foldl (fun (r : Conv) k =>
      let n := f.convert (.val (addV f.round (readVal f.d f.flush r.bits) (a.term k)))
      ⟨n.bits, r.out || n.out⟩) (f.convert (.val (a.term 0)))

/-- R201: the term value ±2^k × T[f] of an LNS6 product in `dmac`. -/
def lnsTermValue : Val → Val
  | .fin neg m q => .fin neg (m * lnsT (q % 4).toNat) (4 * (q / 4 - 23))
  | v => v

/-! ## Split FP64 -/

/-- R59 step 2: the top 8s bits of a finite value's significand, normalised to 53 bits. -/
def sliceTrunc (s : Nat) : Val → Val
  | .fin neg m q =>
    let sh := Nat.log2 m + 1 - 8 * s
    .fin neg (m / 2 ^ sh * 2 ^ sh) q
  | v => v

/-! ## Order of accumulation -/

/-- The term places a tree uses, left to right. -/
def treeLeaves : Config.SumTree → List Nat
  | .leaf i => [i]
  | .node l r _ _ _ => treeLeaves l ++ treeLeaves r

/-- The exponent of a magnitude: its own, or of a sum with an LNS6 value the one that 2,400 bits of it show. -/
def sumExp (lns : Bool) (x : Mag) : Int := if lns then (Nat.log2 (x.scaled 2400).1 : Int) - 2400 else x.exp

/-- A magnitude rounded to p significand bits with no exponent limit. -/
def roundPrec (round p : Nat) (lns neg : Bool) (x : Mag) : Val :=
  let u := sumExp lns x - (p - 1)
  Val.ofDyadic neg (roundUnits round neg x u) u

/-- A magnitude rounded as a floating format rounds that has c's precision and `extra` bits more, and c's exponents and so many binades below and above
them: its subnormals and its overflow are those of that format. -/
def roundWide (c round extra below above : Nat) (neg : Bool) (x : Mag) : Val :=
  let p : Int := fracBits c + extra
  let emax : Int := fmtBias c + above
  let u := max (x.exp - p) (1 - fmtBias c - below - p)
  let n := roundUnits round neg x u
  if u + Nat.log2 n ≤ emax then Val.ofDyadic neg n u
  else if overflowBits c round false neg == withSign c neg (infBits c) then .inf neg
  else Val.ofDyadic neg (2 ^ (p + 1).toNat - 1) (emax - p)

/-- An intermediate result rounded to a precision and range no smaller than the destination's (R61). An integer destination has its whole numbers, or finer
units, or as many significand bits as it is wide, and LNS6 its own values or dyadic ones of 8 bits and more. -/
def roundMid (f : FmtWord) (extra : Nat) (range : Option (Nat × Nat)) (neg : Bool) (x : Mag) : Val :=
  if isFloatFmt f.d then
    match range with
    | none => roundPrec f.round (fracBits f.d + 1 + extra) false neg x
    | some (below, above) => roundWide f.d f.round extra below above neg x
  else if isLnsFmt f.d then
    match range with
    | none => roundPrec f.round (8 + extra) true neg x
    | some _ => readVal f.d f.flush (f.convert (.real neg x)).bits
  else
    match range with
    | none => roundPrec f.round (fmtWidth f.d + extra) false neg x
    | some (below, _) => Val.ofDyadic neg (roundUnits f.round neg x (-(below : Int))) (-(below : Int))

/-- An intermediate result of an evaluation: kept exact, or rounded. A sum that no dyadic value gives is always rounded. -/
def midVal (f : FmtWord) (keep : Bool) (extra : Nat) (range : Option (Nat × Nat)) : Exact → Val
  | .val (.fin neg m q) =>
    if keep then .fin neg m q
    else if isLnsFmt f.d && range.isSome then readVal f.d f.flush (f.convert (.val (.fin neg m q))).bits
    else roundMid f extra range neg (Mag.ofQuarter m q)
  | .val v => v
  | .real neg x => roundMid f (if keep then extra + 64 else extra) range neg x

/-- Whether an intermediate result is rounded at the destination's own width: to its precision, in its exponent range. -/
def ownWidth (f : FmtWord) (keep : Bool) (extra : Nat) (range : Option (Nat × Nat)) : Bool :=
  isFloatFmt f.d && !keep && extra == 0 && range == some (0, 0)

/-- An intermediate result, and whether its rounding was out of range; where `own` says so, sat and ovmask apply to one at the destination's own
width (R171). -/
def midOut (f : FmtWord) (own keep : Bool) (extra : Nat) (range : Option (Nat × Nat)) (x : Exact) : Val × Bool :=
  if own && ownWidth f keep extra range then
    let c := Machine.convert f.d f.round f.sat false x
    (readVal f.d false c.bits, c.out)
  else (midVal f keep extra range x, false)

/-- The parts of an evaluation (R61), each with whether a rounding in it was out of range. -/
def evalPart (f : FmtWord) (own : Bool) (terms : List Val) : Config.SumTree → Val × Bool
  | .leaf i => (terms.getD i .nan, false)
  | .node l r keep extra range =>
    let a := evalPart f own terms l
    let b := evalPart f own terms r
    let m := midOut f own keep extra range (addX f.round a.1 b.1)
    (m.1, a.2 || b.2 || m.2)

/-- One evaluation of a free sum, before the root's one rounding (R61). -/
def evalTree (f : FmtWord) (own : Bool) (terms : List Val) : Config.SumTree → Exact × Bool
  | .leaf i => (.val (terms.getD i .nan), false)
  | .node l r _ _ _ =>
    let a := evalPart f own terms l
    let b := evalPart f own terms r
    (addX f.round a.1 b.1, a.2 || b.2)

/-- The exact sum of a list of values. -/
def exactSum (round : Nat) : List Val → Val
  | [] => .zero false
  | v :: vs => vs.foldl (addV round) v

/-- The exact sum of the terms, of which the first may be an LNS6 value. -/
def exactTerms (round : Nat) : List Val → Exact
  | [] => .val (.zero false)
  | [v] => .val v
  | v :: vs => addX round v (exactSum round vs)

/-- R61: the free sum of the terms: the device's tree of two or more terms when it uses each once, and otherwise the exact sum, which is
one of the evaluations allowed; the root is rounded once. DESIGN CHOICE (log 10): the tree is a function of this sum's own terms as they are read, the
format word, the granted VLEN and N, so that two sums of one list of terms share one tree; R61 lets it depend on all the data of the instruction, and of the
diagonal ones on `cr.mshape` and `cr.accwin` too. -/
def freeSum (f : FmtWord) (raw : List Nat) (terms : List Val) (vlen n : Nat) (own : Bool := false) : Conv :=
  let t := Config.sumTree raw f.raw vlen n
  let ok := 2 ≤ terms.length && (treeLeaves t).length == terms.length && (List.range terms.length).all (fun i => (treeLeaves t).contains i)
  let x := if ok then evalTree f own terms t else (exactTerms f.round terms, false)
  let c := f.convert x.1
  ⟨c.bits, c.out || x.2⟩

/-! ## The random generator -/

/-- One draw of the counter-based generator (R64). -/
def draw (seed c : Word) (e : Nat) : Word :=
  let z := seed ^^^ (c + BitVec.ofNat 64 e)
  let z := (z ^^^ (z >>> 30)) * 0xBF58476D1CE4E5B9#64
  let z := (z ^^^ (z >>> 27)) * 0x94D049BB133111EB#64
  z ^^^ (z >>> 31)

/-- The top 24 bits of a draw (R67). -/
def drawTop (z : Word) : Nat := (z >>> 40).toNat

end Sys2Proof.Machine
end

