-- ==== Sys2Proof/Machine/Crypto.lean ====
section
/-! DEFINITION. The two standards whose bits the manual's rules fix by name: AES-256-GCM with a 96-bit IV and no additional data (R366; FIPS 197, SP 800-38D)
and SHA3-256 (R286, R389, R392; FIPS 202). -/

namespace Sys2Proof.Machine

/-! ## AES-256 -/

/-- The S-box, a byte each from the least significant byte on. -/
def sboxTable : List Nat :=
  [0x75B227EBE28012079A059618C323C7041531D871F1E5A534CCF73F362693FDB7C072A49CAFA2D4ADF04759FA7DC982CA76ABD7FE2B670130C56F6BF27B777C63,
   0xD2F3FF1021DAB6BCF5389D928F40A351A89F3C507F02F94585334D43FBAAEFD0CF584C4A39BECB6A5BB1FC20ED00D153842FE329B3D63B52A05A6E1B1A2C8309,
   0x08AE7A65EAF4566CA94ED58D6D37C8E779E4959162ACD3C25C2406490A3A32E0DB0B5EDE14B8EE4688902A22DC4F816073195D643D7EA7C41744975FEC130CCD,
   0x16BB54B00F2D99416842E6BF0D89A18CDF2855CEE9871E9B948ED9691198F8E19E1DC186B95735610EF6034866B53E708A8BBD4B1F74DDE8C6B4A61C2E2578BA]

def sbox (x : Nat) : Nat := sboxTable.getD (x / 64) 0 / 2 ^ (8 * (x % 64)) % 256

/-- The product of a field element with x. -/
def xtime (x : Nat) : Nat := if x < 128 then 2 * x else (2 * x - 256) ^^^ 0x1B

/-- A state's bytes, column by column, substituted and shifted along their rows. -/
def subShift (st : List Nat) : List Nat := (List.range 16).map (fun i => sbox (st.getD ((i + 4 * (i % 4)) % 16) 0))

/-- One column mixed. -/
def mixColumn (a b c d : Nat) : List Nat :=
  [xtime a ^^^ xtime b ^^^ b ^^^ c ^^^ d, a ^^^ xtime b ^^^ xtime c ^^^ c ^^^ d, a ^^^ b ^^^ xtime c ^^^ xtime d ^^^ d, xtime a ^^^ a ^^^ b ^^^ c ^^^ xtime d]

def mixColumns : List Nat → List Nat
  | a :: b :: c :: d :: r => mixColumn a b c d ++ mixColumns r
  | r => r

def xorBytes (a b : List Nat) : List Nat := List.zipWith (· ^^^ ·) a b

/-- The n bytes of a number, the most significant first. -/
def bigBytes (n v : Nat) : List Nat := (List.range n).map (fun i => v / 2 ^ (8 * (n - 1 - i)) % 256)

/-- The number of some bytes, the most significant first. -/
def bigNat (b : List Nat) : Nat := b.foldl (fun a x => 256 * a + x) 0

/-- The key schedule from its first eight words on: the words so far, the last first, with `fuel` still to come. -/
def expandKey : Nat → List (List Nat) → List (List Nat)
  | 0, ws => ws
  | fuel + 1, ws =>
    let i := ws.length
    let t := ws.headD []
    let u :=
      if i % 8 = 0 then xorBytes ((t.drop 1 ++ t.take 1).map sbox) [2 ^ (i / 8 - 1), 0, 0, 0]
      else if i % 8 = 4 then t.map sbox
      else t
    expandKey fuel (xorBytes (ws.getD 7 []) u :: ws)

/-- The 15 round keys of a key. -/
def roundKeys (key : BitVec 256) : List (List Nat) :=
  let b := bigBytes 32 key.toNat
  let ws := (expandKey 52 ((List.range 8).map (fun i => (b.drop (4 * i)).take 4)).reverse).reverse
  (List.range 15).map (fun i => ((ws.drop (4 * i)).take 4).flatten)

/-- One block under the round keys. -/
def aesBlock : List (List Nat) → List Nat → List Nat
  | [], st => st
  | [k], st => xorBytes (subShift st) k
  | k :: r, st => aesBlock r (xorBytes (mixColumns (subShift st)) k)

/-- A 16-byte block, as a number, encrypted. -/
def aesEncrypt (ks : List (List Nat)) (v : Nat) : Nat := bigNat (aesBlock (ks.drop 1) (xorBytes (bigBytes 16 v) (ks.headD [])))

/-! ## GCM -/

/-- The product in GF(2^128) of z + x * v over the lowest n bits of x, the highest first. -/
def gfMul (x : Nat) : Nat → Nat → Nat → Nat
  | 0, _, z => z
  | n + 1, v, z =>
    gfMul x n (if v % 2 = 1 then (v / 2) ^^^ (0xE1 * 2 ^ 120) else v / 2) (if x.testBit n then z ^^^ v else z)

/-- GHASH of some blocks under a hash key. -/
def ghash (h : Nat) (blocks : List Nat) : Nat := blocks.foldl (fun y b => gfMul (y ^^^ b) 128 h 0) 0

/-- A list cut into pieces of n, as far as the fuel reaches. -/
def blocksOf (n : Nat) : Nat → List Byte → List (List Byte)
  | 0, _ => []
  | fuel + 1, b => if b.isEmpty then [] else b.take n :: blocksOf n fuel (b.drop n)

/-- A piece of at most 16 bytes as a block with zeros behind it. -/
def blockOf (b : List Byte) : Nat := bigNat (b.map (·.toNat)) * 2 ^ (8 * (16 - b.length))

/-- The ciphertext: counter blocks from the IV's second on. -/
def gcmCipher (key : BitVec 256) (iv : BitVec 96) (b : List Byte) : List Byte :=
  let ks := roundKeys key
  ((blocksOf 16 b.length b).zipIdx).flatMap (fun p =>
    (xorBytes (p.1.map (·.toNat)) (bigBytes 16 (aesEncrypt ks (iv.toNat * 2 ^ 32 + (p.2 + 2) % 2 ^ 32)))).map (BitVec.ofNat 8))

/-- The 128-bit tag of a ciphertext. -/
def gcmTag128 (key : BitVec 256) (iv : BitVec 96) (c : List Byte) : Nat :=
  let ks := roundKeys key
  ghash (aesEncrypt ks 0) ((blocksOf 16 c.length c).map blockOf ++ [8 * c.length]) ^^^ aesEncrypt ks (iv.toNat * 2 ^ 32 + 1)

/-- The leftmost 64 bits of the tag that some bytes have when they are encrypted (R365, R366). -/
def gcmTag (key : BitVec 256) (iv : BitVec 96) (b : List Byte) : BitVec 64 :=
  BitVec.ofNat 64 (gcmTag128 key iv (gcmCipher key iv b) / 2 ^ 64)

/-! ## SHA3-256 -/

def rotl64 (x n : Nat) : Nat := x * 2 ^ n % 2 ^ 64 + x / 2 ^ (64 - n)

/-- The rotation of each lane x + 5 y. -/
def rhoOffsets : List Nat := [0, 1, 62, 28, 27, 36, 44, 6, 55, 20, 3, 10, 43, 25, 39, 41, 45, 15, 21, 8, 18, 2, 61, 56, 14]

/-- The constants of the 24 rounds. -/
def roundConstants : List Nat :=
  [0x1, 0x8082, 0x800000000000808A, 0x8000000080008000, 0x808B, 0x80000001, 0x8000000080008081, 0x8000000000008009]
    ++ [0x8A, 0x88, 0x80008009, 0x8000000A, 0x8000808B, 0x800000000000008B, 0x8000000000008089, 0x8000000000008003]
    ++ [0x8000000000008002, 0x8000000000000080, 0x800A, 0x800000008000000A, 0x8000000080008081, 0x8000000000008080, 0x80000001, 0x8000000080008008]

/-- One round of Keccak-f[1600] on 25 lanes. -/
def keccakRound (a : List Nat) (rc : Nat) : List Nat :=
  let at' (l : List Nat) (x y : Nat) : Nat := l.getD (x % 5 + 5 * (y % 5)) 0
  let c := (List.range 5).map (fun x => at' a x 0 ^^^ at' a x 1 ^^^ at' a x 2 ^^^ at' a x 3 ^^^ at' a x 4)
  let d := (List.range 5).map (fun x => c.getD ((x + 4) % 5) 0 ^^^ rotl64 (c.getD ((x + 1) % 5) 0) 1)
  let t := (List.range 25).map (fun i => rotl64 (a.getD i 0 ^^^ d.getD (i % 5) 0) (rhoOffsets.getD i 0))
  let b := (List.range 25).map (fun i => at' t (i % 5 + 3 * (i / 5)) (i % 5))
  let e := (List.range 25).map (fun i => b.getD i 0 ^^^ ((2 ^ 64 - 1 - at' b (i % 5 + 1) (i / 5)) &&& at' b (i % 5 + 2) (i / 5)))
  match e with
  | x :: r => (x ^^^ rc) :: r
  | [] => []

def keccakF (a : List Nat) : List Nat := roundConstants.foldl keccakRound a

/-- The lanes of a block, each little-endian. -/
def lanesOfBlock (b : List Byte) : List Nat :=
  (List.range 25).map (fun i => bigNat (((b.drop (8 * i)).take 8).map (·.toNat)).reverse)

/-- A message padded to whole blocks of 136 bytes. -/
def sha3Pad (b : List Byte) : List Byte :=
  let n := 135 - b.length % 136
  if n = 0 then b ++ [0x86] else b ++ [0x06] ++ List.replicate (n - 1) 0 ++ [0x80]

/-- The 32 bytes of the SHA3-256 hash of a message. -/
def sha3 (b : List Byte) : List Byte :=
  let st := (blocksOf 136 (b.length + 1) (sha3Pad b)).foldl (fun st p => keccakF (xorBytes st (lanesOfBlock p))) (List.replicate 25 0)
  (st.take 4).flatMap (fun l => ((bigBytes 8 l).reverse).map (BitVec.ofNat 8))

end Sys2Proof.Machine
end

