-- ==== Sys2Proof/Syntax.lean ====
section
/-! DEFINITION. The instructions and events of Psigraloth, one constructor for each row of spec/opcode_table.json:
the scalar words (R72 to R79), the convoy header (R80), the vector instructions (R85 to R87) and the
device's own steps, which have no encoding. A constructor holds only the fields its row uses. -/

namespace Sys2Proof

/-- Field names: `d` destination, `a` and `b` sources, as in R72 and R85; `g` is the governing mask (mask, mc),
`f` the scalar register that holds the format word. -/
inductive Instr where
  -- major 0x01, integer register-register (R74, R93)
  | add (d a b : XReg) | sub (d a b : XReg) | and (d a b : XReg) | or (d a b : XReg) | xor (d a b : XReg)
  | andn (d a b : XReg) | orn (d a b : XReg) | sll (d a b : XReg) | srl (d a b : XReg) | sra (d a b : XReg)
  | rol (d a b : XReg) | mul (d a b : XReg) | mulh (d a b : XReg) | mulhu (d a b : XReg)
  | div (d a b : XReg) | divu (d a b : XReg) | rem (d a b : XReg) | remu (d a b : XReg)
  | min (d a b : XReg) | max (d a b : XReg) | minu (d a b : XReg) | maxu (d a b : XReg)
  | slt (d a b : XReg) | sltu (d a b : XReg)
  | clz (d a : XReg) | ctz (d a : XReg) | popc (d a : XReg) | bswap (d a : XReg)
  /-- `w` is the source width code: 0 .b, 1 .h, 2 .w (R74) -/
  | sext (d a : XReg) (w : BitVec 5) | zext (d a : XReg) (w : BitVec 5)
  -- major 0x02, scalar floating point (R75, R101); `x` is the format code
  | fadd (d a b : XReg) (x : BitVec 5) | fsub (d a b : XReg) (x : BitVec 5) | fmul (d a b : XReg) (x : BitVec 5)
  | fdiv (d a b : XReg) (x : BitVec 5) | fsqrt (d a : XReg) (x : BitVec 5) | fma (d a b : XReg) (x : BitVec 5)
  | fmin (d a b : XReg) (x : BitVec 5) | fmax (d a b : XReg) (x : BitVec 5)
  /-- `s` is the source code, `x` the destination code (R102) -/
  | fcvt (d a : XReg) (s x : BitVec 5)
  | fcmpEq (d a b : XReg) (x : BitVec 5) | fcmpLt (d a b : XReg) (x : BitVec 5) | fcmpLe (d a b : XReg) (x : BitVec 5)
  | fmv (d a : XReg) (x : BitVec 5)
  -- majors 0x03-0x0B, immediates (R73, R76, R95)
  | addi (d a : XReg) (imm : BitVec 16) | andi (d a : XReg) (imm : BitVec 16) | ori (d a : XReg) (imm : BitVec 16)
  | xori (d a : XReg) (imm : BitVec 16)
  | slli (d a : XReg) (n : BitVec 6) | srli (d a : XReg) (n : BitVec 6) | srai (d a : XReg) (n : BitVec 6)
  | roli (d a : XReg) (n : BitVec 6)
  | slti (d a : XReg) (imm : BitVec 16) | sltiu (d a : XReg) (imm : BitVec 16)
  | lui (d : XReg) (imm : BitVec 16) | addhi (d a : XReg) (imm : BitVec 16)
  -- majors 0x10-0x15, scalar memory (R77, R97); `z` is the size code
  | ld (d a : XReg) (z : BitVec 3) (off : BitVec 13) | st (d a : XReg) (z : BitVec 3) (off : BitVec 13)
  | lda (d a : XReg) (z : BitVec 3) (off : BitVec 13) | stl (d a : XReg) (z : BitVec 3) (off : BitVec 13)
  | ll (d a : XReg) (z : BitVec 3) (off : BitVec 13) | sc (d a : XReg) (z : BitVec 3) (off : BitVec 13)
  -- majors 0x18-0x1C, branches and jumps (R78, R103 to R106)
  | b (c : BitVec 4) (a b : XReg) (off : BitVec 12) | jal (d : XReg) (off : BitVec 21)
  | jalr (d a : XReg) (imm : BitVec 16) | bm (c : BitVec 4) (m : BitVec 5) (off : BitVec 12)
  | bq (c : BitVec 4) (off : BitVec 12)
  -- majors 0x20-0x22, queues, control registers, system (R79, R108, R109, R112)
  | qpush (a : XReg) | qpop (d : XReg) | bqpush (a : XReg)
  | crd (d : XReg) (i : BitVec 12) | cwr (a : XReg) (i : BitVec 12) | crs (d a : XReg) (i : BitVec 12)
  | crc (d a : XReg) (i : BitVec 12)
  | trap (c : BitVec 6) | svc (c : BitVec 12) | uiret
  -- major 0x23, vector length (R124), and the portable form's strip opening (R278)
  | vsetvl (d a c : XReg) | vsetvli (d a : XReg) (share : BitVec 4) (cls : BitVec 3) (ew : BitVec 2)
  | setshape (d a : XReg) (share : BitVec 4) (ew : BitVec 2) (cls : BitVec 3)
  -- majors 0x24 and 0x25, synchronisation and launch (R79, chapter 08)
  | fence (s : BitVec 3) | barArrive (id : BitVec 4) (s : BitVec 3) | barWait (id : BitVec 4) (s : BitVec 3)
  | ipost (a : XReg) (c : BitVec 5) | iwait (a : XReg) (c : BitVec 5) | contend (d a : XReg) (s : BitVec 4) | dsync
  | launch (d a : XReg) | lwait (d a : XReg) | hexit
  -- major 0x3F: the header's unit fields in slot order and the raw 64-bit words of the body (R69, R80)
  | convoy (count : BitVec 3) (units : BitVec 18) (body : List (BitVec 64))
  -- vmajor 0x01, VA arithmetic (R127)
  | vadd (d a : VOpd) (b : BSrc) (g : Gov) (f : XReg) | vsub (d a : VOpd) (b : BSrc) (g : Gov) (f : XReg)
  | vmul (d a : VOpd) (b : BSrc) (g : Gov) (f : XReg) | vmulh (d a : VOpd) (b : BSrc) (g : Gov) (f : XReg)
  | vdiv (d a : VOpd) (b : BSrc) (g : Gov) (f : XReg) | vrem (d a : VOpd) (b : BSrc) (g : Gov) (f : XReg)
  | vsqrt (d a : VOpd) (g : Gov) (f : XReg) | vrcp (d a : VOpd) (g : Gov) (f : XReg)
  | vrsqrt (d a : VOpd) (g : Gov) (f : XReg) | vexp2 (d a : VOpd) (g : Gov) (f : XReg)
  | vlog2 (d a : VOpd) (g : Gov) (f : XReg)
  | vfma (d a : VOpd) (b : BSrc) (c : VOpd) (g : Gov) (f : XReg) | vfms (d a : VOpd) (b : BSrc) (c : VOpd) (g : Gov) (f : XReg)
  | vfnma (d a : VOpd) (b : BSrc) (c : VOpd) (g : Gov) (f : XReg)
  | vmin (d a : VOpd) (b : BSrc) (g : Gov) (f : XReg) | vmax (d a : VOpd) (b : BSrc) (g : Gov) (f : XReg)
  | vabs (d a : VOpd) (g : Gov) (f : XReg) | vneg (d a : VOpd) (g : Gov) (f : XReg)
  -- vmajor 0x02, VB integer, logic, compare, convert (R131 to R134)
  | vcvt (d a : VOpd) (g : Gov) (f : XReg)
  | vand (d a : VOpd) (b : BSrc) (g : Gov) (f : XReg) | vor (d a : VOpd) (b : BSrc) (g : Gov) (f : XReg)
  | vxor (d a : VOpd) (b : BSrc) (g : Gov) (f : XReg)
  | vsll (d a : VOpd) (b : BSrc) (g : Gov) (f : XReg) | vsrl (d a : VOpd) (b : BSrc) (g : Gov) (f : XReg)
  | vsra (d a : VOpd) (b : BSrc) (g : Gov) (f : XReg)
  | vclz (d a : VOpd) (g : Gov) (f : XReg) | vpopc (d a : VOpd) (g : Gov) (f : XReg)
  | vcmp (d : MReg) (a : VOpd) (b : BSrc) (c : BitVec 3) (g : Gov) (f : XReg)
  | vclass (d a : VOpd) (g : Gov) (f : XReg)
  -- vmajor 0x03, VM mask (R135)
  | mand (d a b : MReg) | mor (d a b : MReg) | mxor (d a b : MReg) | mandn (d a b : MReg)
  | mnot (d a : MReg) | mmov (d a : MReg) | mset (d : MReg) (v : Bool)
  | mpopc (d : XReg) (a : MReg) | mfirst (d : XReg) (a : MReg) | mbefore (d a : MReg)
  -- vmajor 0x04, VX permute (R136 to R140)
  | vmv (d a : VOpd) (g : Gov) | vbcast (d : VOpd) (x : XReg) (g : Gov)
  | vext (d : XReg) (a : VReg) (x : XReg) | vins (d : VReg) (x : XReg) (i : BitVec 14)
  | vslideup (d a : VOpd) (x : XReg) (k : BitVec 14) (g : Gov) | vslidedn (d a : VOpd) (x : XReg) (k : BitVec 14) (g : Gov)
  | vperm (d a : VOpd) (b : VReg) (g : Gov) | vmerge (d a b : VOpd) (g : Gov) | viota (d : VOpd) (g : Gov)
  -- vmajor 0x05, VX irregular (R141 to R145)
  | vcompress (d a : VOpd) (g : Gov) | vexpand (d a : VOpd) (g : Gov)
  | vprefixpop (d : VOpd) (a : MReg) (g : Gov) | vconflict (d a : VOpd) (g : Gov)
  | vscan (d a : VOpd) (c : MReg) (seg : Bool) (op : BitVec 3) (g : Gov) (f : XReg)
  | vscanf (d a : VOpd) (c : MReg) (seg : Bool) (op : BitVec 3) (g : Gov) (f : XReg)
  | vred (d : XReg) (a : VOpd) (x : XReg) (op : BitVec 3) (g : Gov) (f : XReg)
  | vredf (d : XReg) (a : VOpd) (x : XReg) (op : BitVec 3) (g : Gov) (f : XReg)
  -- vmajor 0x06, VA special (R146 to R148)
  | vprune (d : MReg) (a : VOpd) (c : VReg) (z : Bool) (x : XReg) (g : Gov) (f : XReg)
  | vrand (d : VOpd) (g : Gov) (f : XReg) | vsmfin (d a b : VOpd) (g : Gov) (f : XReg)
  -- vmajors 0x08 and 0x09, loads and stores (R152 to R164); `z` is the size code, `o` the signed offset, `gl` the flag G
  | vld (d : VOpd) (x : XReg) (z : BitVec 3) (o : BitVec 13) (g : Gov)
  | vlds (d : VOpd) (x s : XReg) (z : BitVec 3) (o : BitVec 13) (g : Gov)
  | vldx (d : VOpd) (x : XReg) (b : VReg) (z : BitVec 3) (gl : Bool) (o : BitVec 13) (g : Gov)
  | vldxo (d : VOpd) (x : XReg) (b : VReg) (z : BitVec 3) (gl : Bool) (o : BitVec 13) (g : Gov)
  | vldff (d : VOpd) (x : XReg) (z : BitVec 3) (o : BitVec 13) (g : Gov)
  | vldm (d : MReg) (x : XReg) (o : BitVec 13) | vfill (d : VReg) (x : XReg)
  | vst (a : VOpd) (x : XReg) (z : BitVec 3) (o : BitVec 13) (g : Gov)
  | vsts (a : VOpd) (x s : XReg) (z : BitVec 3) (o : BitVec 13) (g : Gov)
  | vstx (a : VOpd) (x : XReg) (b : VReg) (z : BitVec 3) (gl : Bool) (o : BitVec 13) (g : Gov)
  | vstxo (a : VOpd) (x : XReg) (b : VReg) (z : BitVec 3) (gl : Bool) (o : BitVec 13) (g : Gov)
  | vstm (a : MReg) (x : XReg) (o : BitVec 13) | vspill (a : VReg) (x : XReg)
  -- vmajors 0x0A to 0x0F (R169 to R192); `z` is the two-bit size code of R87
  | vgl (d : VOpd) (x : XReg) (b : VReg) (z : BitVec 2) (g : Gov)
  | vsc (d : MReg) (a : VOpd) (x : XReg) (b : VReg) (z : BitVec 2) (g : Gov)
  | vscc (d : MReg) (a : VOpd) (x : XReg) (b : VReg) (z : BitVec 2) (r : Bool) (op : BitVec 3) (g : Gov) (f : XReg)
  | vxlate (d : VOpd) (a : VReg) (x : XReg) (g : Gov) | vxlateff (d : VOpd) (a : VReg) (x : XReg) (g : Gov)
  | vwait (d : MReg) (a b : VReg) (x : XReg) (z : BitVec 2) (c : BitVec 3) (g : Gov)
  | smap (x b : XReg) (n : BitVec 14) | sunmap (x : XReg) (n : BitVec 14) | sflush (x : XReg) (n : BitVec 14)
  | strm (q : VOpd) (x : XReg) (n : BitVec 3) | strmend (n : BitVec 3)
  | cpy (x : XReg) | cpy2d (x : XReg) | trim (x : XReg) | cpywait (d x : XReg) | vpf (x : XReg) (b : VReg) (g : Gov)
  -- vmajors 0x10 to 0x12, diagonal, sparse, accumulator (R195 to R215)
  | mshape (x : XReg) | maccwin (x : XReg)
  | dmac (d : VReg) (a b : VOpd) (x : XReg) (init : Bool) (g : Gov) (f : XReg)
  | dmacf (d : VReg) (a b : VOpd) (x : XReg) (init : Bool) (g : Gov) (f : XReg)
  | dsweep (a b : VOpd) (x : XReg) (init : Bool) (f : XReg) | dsweepf (a b : VOpd) (x : XReg) (init : Bool) (f : XReg)
  | spsweep (a b : VOpd) (x f : XReg) | spsweepf (a b : VOpd) (x f : XReg)
  | sppack (d a : VOpd) (f : XReg) | spunpack (d a : VOpd) (f : XReg)
  | acld (a : VOpd) (x : XReg) | acst (d : VOpd) (x f : XReg) | aczero (x : XReg) | acmap (d : MReg) (x : XReg)
  -- EVENTS: steps of the device that are no instruction. First those that another step can bring about (the last rows, which come only
  -- from outside a step, stand at the end because Lean compiles no constructed value of a constructor beyond its 245th).
  -- Of a hart and its strands:
  | grantRelay (h : HartId) | streamEntry (h : HartId) (n : BitVec 3) | streamEnd (h : HartId) (n : BitVec 3)
  | commandCompletion (c : Nat) | hartRetirement (h : HartId) | launchCompletion (l : Nat)
  | barrierPhaseCompletion (k : BarrierKey) | contendRound (slot : BitVec 4)
  -- the armature (R34 to R38, R385, R386)
  | rendezvousCompletion (l : Nat) | issueUnit (l : Nat) (d : DieId) | credit (l : Nat) (h : HartId)
  -- the dispatch unit (R336 to R343)
  | waitConditionEvaluation (l : Nat) | readyLaunchEntry (d : DieId) (level : BitVec 3) | crewPlacement (d : DieId)
  -- stopping and resuming (R347 to R357)
  | hartStop (h : HartId) | trapRecord (h : HartId) | resume (d : DieId) (img : BitVec 12) | endLaunch (d : DieId) (img : BitVec 12)
  -- translation (R361)
  | shootdown (d : DieId) (v : Word) | shootdownComplete (d : DieId)
  -- the host's rings (R330 to R334): `fn` is the function (tenant) 0-64
  | ringReset (fn : Nat) (slot : BitVec 3) | ringDisable (fn : Nat) (slot : BitVec 3) | ringWake (fn : Nat) (slot : BitVec 3)
  -- commands of the glaze unit (R370)
  | generate (d : DieId) (tenant : Nat) (slot : BitVec 1) | destroy (d : DieId) (tenant : Nat) (slot : BitVec 1)
  | scrub (d : DieId) (tenant : Nat) (slot : BitVec 1) | clear (d : DieId) (first count : Nat)
  | owner (d : DieId) (first count : Nat) (o : BitVec 7) | glazeCommandEnd (d : DieId)
  -- dies and the kiln controller (R382, R383, R390 to R399)
  | dieFailure (d : DieId) | dieRejoin (d : DieId) (failed : List (CoreId × BitVec 8)) | evacuation (d : DieId) (moves : List (Nat × Nat))
  | dieJoin (d : DieId)
  | fuseRaise (object : Bool) (target : BitVec 8) | fuseRaiseComplete | supervisorFault (d : DieId) (now : Nat)
  | deviceFault (unit : ErrorSite) | drainTimeout (d : DieId) (c : CoreId) | coreRetirement (d : DieId) (c : CoreId)
  -- events that come from outside the device's own steps, or that time brings about
  | strandDeadlock (h : HartId) | waitResumption (h : HartId) (r : Role) | vwaitExpiry (h : HartId) (r : Role)
  | userInterruptDelivery (h : HartId) (r : Role) | streamFault (h : HartId) (n : BitVec 3)
  | resendRequest (l : Nat) (d : DieId) | gracePeriodExpiry (d : DieId) (level : BitVec 3)
  | tlbMissWalk (d : DieId) (c : CoreId) (tenant : Nat) (va : Word)
  | hostWindowRead (f : HostFn) (off : Nat) (size : Nat) | hostWindowWrite (f : HostFn) (off : Nat) (data : List Byte)
  | registerWrite (f : HostFn) (off : Nat) (v : Word)
  -- coherence messages (R376 to R381); `l` is a physical line number, `s` the message's sequence number
  | gets (st : Station) (l : Nat) (r : Requester) (s : BitVec 16) | getm (st : Station) (l : Nat) (r : Requester) (s : BitVec 16)
  | upg (st : Station) (l : Nat) (r : Requester) (s : BitVec 16)
  | pute (st : Station) (l : Nat) (r : Requester) (s : BitVec 16) | putm (st : Station) (l : Nat) (r : Requester) (s : BitVec 16)
  | dwn (l : Nat) (d : DieId) (s : BitVec 16)
  | inv (st : Station) (l : Nat) (s : BitVec 16) | fwdS (st : Station) (l : Nat) (s : BitVec 16) | fwdM (st : Station) (l : Nat) (s : BitVec 16)
  | ack (l : Nat) (r : Requester) (s : BitVec 16)
  | engineClaim (l : Nat) (e : Nat) | engineDone (l : Nat) (e : Nat) | reissueTimeout (src dst : DieId) (s : BitVec 16)
  -- the glaze unit's own steps (R366 to R369); `t` is a physical tile number
  | tileFill (t : Nat) | tileReseal (t : Nat)
  -- start-up, management and the fleet (R387 to R402)
  | powerGood | trainingTimeout (d : DieId)
  | measurements | firmwareUpdate (image : List Byte) | platformMonitoring (s : Sensor) | fileTransfer
  | install (input : List Byte) | load (object : List Byte)
  | powerSample (watts : Nat) (junction dram : Nat) (hot : List (DieId × Nat)) | currentLimit
  | correctedError (e : ErrorSite) (now : Nat) | uncorrectableError (e : ErrorSite)
  | powerLoss | kilnControllerReset | linkTraining (link : BitVec 1) (width rate : Nat) | spdmKeyExchange (fn : Nat) (link : BitVec 1)
  deriving DecidableEq, Repr

end Sys2Proof
end

