-- ==== Sys2Proof/WellFormed.lean ====
section
/-! DEFINITION. Which instructions are legal encodings: the value lists of R74 to R79 and the operand classes of R86 and R87. A
well-formed instruction is one the encoding tables list; what a strand, a mode or a format word forbids is checked when it runs. -/

namespace Sys2Proof

/-- A v operand names v0-v31, lq0-lq7 or sq0-sq3 (R86). -/
def vOk (v : VOpd) : Bool := v.toNat ≤ 43

/-- mc = 1 with mask = 0 traps as illegal (R86). -/
def Gov.ok (g : Gov) : Bool := !(g.mask == 0 && g.comp)

/-- A mask column "req": mask must be 1-7 (R86). -/
def Gov.req (g : Gov) : Bool := g.mask != 0

def BSrc.ok : BSrc → Bool
  | .vec v => vOk v
  | .scl _ => true

/-- A scalar floating format code (R75): FP16, BF16, FP32, FP64. -/
def floatCodeOk (x : BitVec 5) : Bool := 9 ≤ x.toNat && x.toNat ≤ 12

/-- A format code of `fcvt` (R75). -/
def codeOk (x : BitVec 5) : Bool := 1 ≤ x.toNat && x.toNat ≤ 13

/-- The size columns of R77. -/
def loadSizeOk (z : BitVec 3) : Bool := z != 7
def linkSizeOk (z : BitVec 3) : Bool := z == 4 || z == 5 || z == 6
def storeSizeOk (z : BitVec 3) : Bool := z == 0 || z == 2 || z == 4 || z == 6
def condSizeOk (z : BitVec 3) : Bool := z == 4 || z == 6

/-- Element size codes 0-4 of R87, and 0-3 for the indexed forms. -/
def elemSizeOk (z : BitVec 3) : Bool := z.toNat ≤ 4
def indexSizeOk (z : BitVec 3) : Bool := z.toNat ≤ 3
/-- The two-bit size code of 0x0A and 0x0C: 2-3 illegal (R87). -/
def pairSizeOk (z : BitVec 2) : Bool := z.toNat ≤ 1
/-- The op codes of scans, reductions and `vscc`: 6-7 illegal (R87). -/
def opOk (o : BitVec 3) : Bool := o.toNat ≤ 5
/-- A count of 4 KiB units, 1-128 (R87). -/
def unitsOk (n : BitVec 14) : Bool := 1 ≤ n.toNat && n.toNat ≤ 128

/-- The unit code of slot i in the header's 18 unit bits, slot 0 in the highest three (R80). -/
def unitAt (units : BitVec 18) (i : Nat) : BitVec 3 := units.extractLsb' (15 - 3 * i) 3

/-- The header checks of R80: count 1-6, unit codes 0-5 and all different within the count, 0 beyond it. -/
def headerOk (count : BitVec 3) (units : BitVec 18) : Bool :=
  let us := (List.range count.toNat).map (unitAt units)
  1 ≤ count.toNat && count.toNat ≤ 6 && us.all (fun u => u.toNat ≤ 5) && us.Nodup
    && (List.range 6).all (fun i => i < count.toNat || unitAt units i == 0)

/-- Whether an instruction's fields have values the encoding tables list. Events have no encoding. -/
def Instr.wf : Instr → Bool
  | .sext _ _ w | .zext _ _ w => w.toNat ≤ 2
  | .fadd _ _ _ x | .fsub _ _ _ x | .fmul _ _ _ x | .fdiv _ _ _ x | .fma _ _ _ x | .fmin _ _ _ x | .fmax _ _ _ x
  | .fcmpEq _ _ _ x | .fcmpLt _ _ _ x | .fcmpLe _ _ _ x | .fsqrt _ _ x | .fmv _ _ x => floatCodeOk x
  | .fcvt _ _ s x => codeOk s && codeOk x
  | .ld _ _ z _ | .lda _ _ z _ => loadSizeOk z
  | .ll _ _ z _ => linkSizeOk z
  | .st _ _ z _ | .stl _ _ z _ => storeSizeOk z
  | .sc _ _ z _ => condSizeOk z
  | .b c _ _ _ => c.toNat ≤ 5
  | .bm c m _ => c.toNat ≤ 2 && m.toNat ≤ 7
  | .bq c _ => c.toNat ≤ 1
  | .vsetvli _ _ s _ _ | .setshape _ _ s _ _ => s.toNat ≤ 8
  | .fence s => s.toNat ≤ 4
  | .barArrive _ s | .barWait _ s => 1 ≤ s.toNat && s.toNat ≤ 3
  | .convoy c u body => headerOk c u && body.length == c.toNat
  | .vadd d a y g _ | .vsub d a y g _ | .vmul d a y g _ | .vmulh d a y g _ | .vdiv d a y g _ | .vrem d a y g _
  | .vmin d a y g _ | .vmax d a y g _ | .vand d a y g _ | .vor d a y g _ | .vxor d a y g _ | .vsll d a y g _
  | .vsrl d a y g _ | .vsra d a y g _ => vOk d && vOk a && y.ok && g.ok
  | .vsqrt d a g _ | .vrcp d a g _ | .vrsqrt d a g _ | .vexp2 d a g _ | .vlog2 d a g _ | .vabs d a g _ | .vneg d a g _
  | .vcvt d a g _ | .vclz d a g _ | .vpopc d a g _ | .vclass d a g _ => vOk d && vOk a && g.ok
  | .vfma d a y c g _ | .vfms d a y c g _ | .vfnma d a y c g _ => vOk d && vOk a && y.ok && vOk c && g.ok
  | .vcmp _ a y c g _ => vOk a && y.ok && c.toNat ≤ 5 && g.ok
  | .vmv d a g | .vconflict d a g => vOk d && vOk a && g.ok
  | .vbcast d _ g => vOk d && g.ok
  | .vslideup d a _ _ g | .vslidedn d a _ _ g => vOk d && vOk a && g.ok
  | .vperm d a _ g => vOk d && vOk a && g.ok
  | .vmerge d a y g => vOk d && vOk a && vOk y && g.ok && g.req
  | .viota d g => vOk d && g.ok && g.req
  -- R141: vd must not name va
  | .vcompress d a g | .vexpand d a g => vOk d && vOk a && g.ok && g.req && d != a
  | .vprefixpop d _ g => vOk d && g.ok
  | .vscan d a c seg op g _ | .vscanf d a c seg op g _ => vOk d && vOk a && opOk op && g.ok && (seg || c == 0)
  | .vred _ a _ op g _ | .vredf _ a _ op g _ => vOk a && opOk op && g.ok
  | .vprune _ a c z _ g _ => vOk a && g.ok && (z || c == 0)
  | .vrand d g _ => vOk d && g.ok
  | .vsmfin d a y g _ => vOk d && vOk a && vOk y && g.ok
  | .vld d _ z _ g | .vldff d _ z _ g => vOk d && elemSizeOk z && g.ok
  | .vlds d _ _ z _ g => vOk d && elemSizeOk z && g.ok
  | .vldx d _ _ z _ _ g | .vldxo d _ _ z _ _ g => vOk d && indexSizeOk z && g.ok
  | .vst a _ z _ g => vOk a && elemSizeOk z && g.ok
  | .vsts a _ _ z _ g => vOk a && elemSizeOk z && g.ok
  | .vstx a _ _ z _ _ g | .vstxo a _ _ z _ _ g => vOk a && indexSizeOk z && g.ok
  | .vgl d _ _ z g => vOk d && pairSizeOk z && g.ok
  | .vsc _ a _ _ z g => vOk a && pairSizeOk z && g.ok
  | .vscc _ a _ _ z _ op g _ => vOk a && pairSizeOk z && opOk op && g.ok
  | .vxlate d _ _ g | .vxlateff d _ _ g => vOk d && g.ok
  | .vwait _ _ _ _ z c g => pairSizeOk z && c.toNat ≤ 5 && g.ok
  | .smap _ _ n | .sunmap _ n | .sflush _ n => unitsOk n
  | .strm q _ _ => 32 ≤ q.toNat && vOk q
  | .vpf _ _ g => g.ok
  | .dmac _ a y _ _ g _ | .dmacf _ a y _ _ g _ => vOk a && vOk y && g.ok
  | .dsweep a y _ _ _ | .dsweepf a y _ _ _ => vOk a && vOk y
  | .spsweep a y _ _ | .spsweepf a y _ _ => vOk a && vOk y
  | .sppack d a _ | .spunpack d a _ => vOk d && vOk a
  | .acld a _ => vOk a
  | .acst d _ _ => vOk d
  | _ => true

end Sys2Proof
end

