-- ==== Sys2Proof/Decode.lean ====
section
/-! DEFINITION. Decoding and encoding of the instruction stream (R68 to R80, R85 to R87). `decode` is total on any bytes and
rejects by name; every rejected word of text traps as illegal (R88). The encoder follows it, from the same tables. -/

namespace Sys2Proof

/-- Why a word is no instruction (R88). -/
inductive Reject where
  /-- a major or vmajor that the tables do not name; the all-zero word has major 0 -/
  | reserved
  /-- a sub, cond, size, sel, kind, func, x or op value that is not listed -/
  | selector
  /-- a non-zero field that the format or row requires to be 0 -/
  | nonzeroField
  /-- an operand value outside its class, or a mask field its row forbids -/
  | operand
  /-- the bytes end before the instruction does -/
  | truncated
  deriving DecidableEq, Repr

/-- The instruction if the fields its row does not use are 0. -/
def ifZero (unused : Bool) (i : Instr) : Except Reject Instr := if unused then .ok i else .error .nonzeroField

/-- The instruction if its fields' values are the listed ones. -/
def ifWf (i : Instr) : Except Reject Instr := if i.wf then .ok i else .error .operand

/-! ## Scalar words -/

/-- Major 0x01 (R74). -/
def decodeInt (d a b : XReg) (sub : BitVec 6) (x : BitVec 5) : Except Reject Instr :=
  let bin (i : Instr) := ifZero (x == 0) i
  let un (i : Instr) := ifZero (x == 0 && b == 0) i
  match sub.toNat with
  | 0x00 => bin (.add d a b) | 0x01 => bin (.sub d a b) | 0x02 => bin (.and d a b) | 0x03 => bin (.or d a b)
  | 0x04 => bin (.xor d a b) | 0x05 => bin (.andn d a b) | 0x06 => bin (.orn d a b)
  | 0x08 => bin (.sll d a b) | 0x09 => bin (.srl d a b) | 0x0A => bin (.sra d a b) | 0x0B => bin (.rol d a b)
  | 0x10 => bin (.mul d a b) | 0x11 => bin (.mulh d a b) | 0x12 => bin (.mulhu d a b)
  | 0x14 => bin (.div d a b) | 0x15 => bin (.divu d a b) | 0x16 => bin (.rem d a b) | 0x17 => bin (.remu d a b)
  | 0x18 => bin (.min d a b) | 0x19 => bin (.max d a b) | 0x1A => bin (.minu d a b) | 0x1B => bin (.maxu d a b)
  | 0x1C => bin (.slt d a b) | 0x1D => bin (.sltu d a b)
  | 0x20 => un (.clz d a) | 0x21 => un (.ctz d a) | 0x22 => un (.popc d a) | 0x23 => un (.bswap d a)
  | 0x24 => ifZero (b == 0) (.sext d a x) | 0x25 => ifZero (b == 0) (.zext d a x)
  | _ => .error .selector

/-- Major 0x02 (R75). -/
def decodeFloat (d a b : XReg) (sub : BitVec 6) (x : BitVec 5) : Except Reject Instr :=
  match sub.toNat with
  | 0x00 => .ok (.fadd d a b x) | 0x01 => .ok (.fsub d a b x) | 0x02 => .ok (.fmul d a b x) | 0x03 => .ok (.fdiv d a b x)
  | 0x04 => ifZero (b == 0) (.fsqrt d a x) | 0x05 => .ok (.fma d a b x) | 0x06 => .ok (.fmin d a b x)
  | 0x07 => .ok (.fmax d a b x) | 0x08 => .ok (.fcvt d a b x) | 0x09 => .ok (.fcmpEq d a b x)
  | 0x0A => .ok (.fcmpLt d a b x) | 0x0B => .ok (.fcmpLe d a b x) | 0x0C => ifZero (b == 0) (.fmv d a x)
  | _ => .error .selector

/-- Major 0x07 (R76). -/
def decodeShift (d a : XReg) (imm : BitVec 16) : Except Reject Instr :=
  let n := imm.extractLsb' 0 6
  let k (i : Instr) := ifZero (imm.extractLsb' 10 6 == 0 && imm.extractLsb' 6 2 == 0) i
  match (imm.extractLsb' 8 2).toNat with
  | 0 => k (.slli d a n) | 1 => k (.srli d a n) | 2 => k (.srai d a n) | _ => k (.roli d a n)

/-- Majors 0x20 to 0x25 (R79, R278). -/
def decodeSX (major : BitVec 6) (d a : XReg) (sel : BitVec 16) : Except Reject Instr :=
  let hi := (sel.extractLsb' 12 4).toNat
  let lo := sel.extractLsb' 0 12
  match major.toNat with
  | 0x20 =>
    match sel.toNat with
    | 0 => ifZero (d == 0) (.qpush a)
    | 1 => ifZero (a == 0) (.qpop d)
    | 2 => ifZero (d == 0) (.bqpush a)
    | _ => .error .selector
  | 0x21 =>
    match hi with
    | 0 => ifZero (a == 0) (.crd d lo)
    | 1 => ifZero (d == 0) (.cwr a lo)
    | 2 => .ok (.crs d a lo)
    | 3 => .ok (.crc d a lo)
    | _ => .error .selector
  | 0x22 =>
    match hi with
    | 0 => ifZero (d == 0 && a == 0 && sel.extractLsb' 6 6 == 0) (.trap (sel.extractLsb' 0 6))
    | 1 => ifZero (d == 0 && a == 0) (.svc lo)
    | 2 => ifZero (d == 0 && a == 0 && lo == 0) .uiret
    | _ => .error .selector
  | 0x23 =>
    if sel.getLsbD 15 then
      ifZero (sel.extractLsb' 0 6 == 0) (.vsetvli d a (sel.extractLsb' 11 4) (sel.extractLsb' 8 3) (sel.extractLsb' 6 2))
    else if sel.getLsbD 14 then
      ifZero (sel.extractLsb' 8 2 == 0 && sel.extractLsb' 0 3 == 0)
        (.setshape d a (sel.extractLsb' 10 4) (sel.extractLsb' 6 2) (sel.extractLsb' 3 3))
    else ifZero (sel.extractLsb' 5 9 == 0) (.vsetvl d a (sel.extractLsb' 0 5))
  | 0x24 =>
    match hi with
    | 0 => ifZero (d == 0 && a == 0 && sel.extractLsb' 3 9 == 0) (.fence (sel.extractLsb' 0 3))
    | 1 => ifZero (d == 0 && a == 0 && sel.extractLsb' 8 4 == 0 && !sel.getLsbD 3)
        (.barArrive (sel.extractLsb' 4 4) (sel.extractLsb' 0 3))
    | 2 => ifZero (d == 0 && a == 0 && sel.extractLsb' 8 4 == 0 && !sel.getLsbD 3)
        (.barWait (sel.extractLsb' 4 4) (sel.extractLsb' 0 3))
    | 3 => ifZero (d == 0 && sel.extractLsb' 9 3 == 0 && sel.extractLsb' 0 4 == 0) (.ipost a (sel.extractLsb' 4 5))
    | 4 => ifZero (d == 0 && sel.extractLsb' 9 3 == 0 && sel.extractLsb' 0 4 == 0) (.iwait a (sel.extractLsb' 4 5))
    | 5 => ifZero (sel.extractLsb' 8 4 == 0 && sel.extractLsb' 0 4 == 0) (.contend d a (sel.extractLsb' 4 4))
    | 6 => ifZero (d == 0 && a == 0 && lo == 0) .dsync
    | _ => .error .selector
  | _ =>
    match hi with
    | 0 => ifZero (lo == 0) (.launch d a)
    | 1 => ifZero (lo == 0) (.lwait d a)
    | 2 => ifZero (d == 0 && a == 0 && lo == 0) .hexit
    | _ => .error .selector

/-- The fields of a scalar word, by its major (R72, R73), before the values are checked. -/
def decodeFields (w : Word32) : Except Reject Instr :=
  let d : XReg := w.extractLsb' 21 5
  let a : XReg := w.extractLsb' 16 5
  let b : XReg := w.extractLsb' 11 5
  let imm : BitVec 16 := w.extractLsb' 0 16
  let z : BitVec 3 := w.extractLsb' 13 3
  let off : BitVec 13 := w.extractLsb' 0 13
  let major : BitVec 6 := w.extractLsb' 26 6
  match major.toNat with
  | 0x01 => decodeInt d a b (w.extractLsb' 5 6) (w.extractLsb' 0 5)
  | 0x02 => decodeFloat d a b (w.extractLsb' 5 6) (w.extractLsb' 0 5)
  | 0x03 => .ok (.addi d a imm) | 0x04 => .ok (.andi d a imm) | 0x05 => .ok (.ori d a imm) | 0x06 => .ok (.xori d a imm)
  | 0x07 => decodeShift d a imm
  | 0x08 => .ok (.slti d a imm) | 0x09 => .ok (.sltiu d a imm)
  | 0x0A => ifZero (a == 0) (.lui d imm)
  | 0x0B => .ok (.addhi d a imm)
  | 0x10 => .ok (.ld d a z off) | 0x11 => .ok (.st d a z off) | 0x12 => .ok (.lda d a z off)
  | 0x13 => .ok (.stl d a z off) | 0x14 => .ok (.ll d a z off) | 0x15 => .ok (.sc d a z off)
  | 0x18 => .ok (.b (w.extractLsb' 12 4) d a (w.extractLsb' 0 12))
  | 0x19 => .ok (.jal d (w.extractLsb' 0 21))
  | 0x1A => .ok (.jalr d a imm)
  | 0x1B => ifZero (a == 0) (.bm (w.extractLsb' 12 4) d (w.extractLsb' 0 12))
  | 0x1C => ifZero (d == 0 && a == 0) (.bq (w.extractLsb' 12 4) (w.extractLsb' 0 12))
  | 0x20 | 0x21 | 0x22 | 0x23 | 0x24 | 0x25 => decodeSX major d a imm
  | _ => .error .reserved

/-- One scalar word (R68): any word but a convoy header. -/
def decodeWord (w : Word32) : Except Reject Instr := (decodeFields w).bind ifWf

/-! ## Vector instructions -/

/-- The fields of a 64-bit vector instruction (R85). -/
structure VFields where
  vmajor : BitVec 6
  vd     : BitVec 6
  va     : BitVec 6
  vb     : BitVec 6
  vc     : BitVec 6
  g      : Gov
  fmt    : XReg
  xs     : XReg
  func   : BitVec 6
  imm    : BitVec 14
  deriving DecidableEq, Repr

def VFields.ofWord (w : BitVec 64) : VFields :=
  { vmajor := w.extractLsb' 58 6, vd := w.extractLsb' 52 6, va := w.extractLsb' 46 6, vb := w.extractLsb' 40 6
    vc := w.extractLsb' 34 6, g := ⟨w.extractLsb' 31 3, w.getLsbD 30⟩, fmt := w.extractLsb' 25 5
    xs := w.extractLsb' 20 5, func := w.extractLsb' 14 6, imm := w.extractLsb' 0 14 }

namespace VFields

/-- No governing mask (mask and mc 0). -/
def noGov (f : VFields) : Bool := f.g.mask == 0 && !f.g.comp
/-- The low bits of a field of class x, V or m. -/
def lo5 (v : BitVec 6) : BitVec 5 := v.extractLsb' 0 5
def lo3 (v : BitVec 6) : BitVec 3 := v.extractLsb' 0 3
/-- Whether a field lies in class x or V (0-31), or in class m (0-7). -/
def in5 (v : BitVec 6) : Bool := v.toNat < 32
def in3 (v : BitVec 6) : Bool := v.toNat < 8
/-- The b operand of an S form: func[5] = 1 takes xs and needs vb = 0; func[5] = 0 needs xs = 0 (R86). -/
def bsrc (f : VFields) : BSrc := if f.func.getLsbD 5 then .scl f.xs else .vec f.vb
def bsrcOk (f : VFields) : Bool := if f.func.getLsbD 5 then f.vb == 0 else f.xs == 0
def func5 (f : VFields) : Nat := (f.func.extractLsb' 0 5).toNat
def noS (f : VFields) : Bool := !f.func.getLsbD 5

end VFields

/-- An instruction if its unused fields are 0 and its class fields in range. -/
def ifBoth (zero cls : Bool) (i : Instr) : Except Reject Instr :=
  if !zero then .error .nonzeroField else if !cls then .error .operand else .ok i

open VFields in
/-- vmajor 0x01 (R87). -/
def decodeVA (f : VFields) : Except Reject Instr :=
  let b := f.bsrc
  let ab (i : Instr) := ifZero (f.bsrcOk && f.vc == 0 && f.imm == 0) i
  let abc (i : Instr) := ifZero (f.bsrcOk && f.imm == 0) i
  let un (i : Instr) := ifZero (f.noS && f.vb == 0 && f.vc == 0 && f.xs == 0 && f.imm == 0) i
  match f.func5 with
  | 0x00 => ab (.vadd f.vd f.va b f.g f.fmt) | 0x01 => ab (.vsub f.vd f.va b f.g f.fmt)
  | 0x02 => ab (.vmul f.vd f.va b f.g f.fmt) | 0x03 => ab (.vmulh f.vd f.va b f.g f.fmt)
  | 0x04 => ab (.vdiv f.vd f.va b f.g f.fmt) | 0x05 => ab (.vrem f.vd f.va b f.g f.fmt)
  | 0x06 => un (.vsqrt f.vd f.va f.g f.fmt) | 0x07 => un (.vrcp f.vd f.va f.g f.fmt)
  | 0x08 => un (.vrsqrt f.vd f.va f.g f.fmt) | 0x09 => un (.vexp2 f.vd f.va f.g f.fmt)
  | 0x0A => un (.vlog2 f.vd f.va f.g f.fmt)
  | 0x0C => abc (.vfma f.vd f.va b f.vc f.g f.fmt) | 0x0D => abc (.vfms f.vd f.va b f.vc f.g f.fmt)
  | 0x0E => abc (.vfnma f.vd f.va b f.vc f.g f.fmt)
  | 0x10 => ab (.vmin f.vd f.va b f.g f.fmt) | 0x11 => ab (.vmax f.vd f.va b f.g f.fmt)
  | 0x12 => un (.vabs f.vd f.va f.g f.fmt) | 0x13 => un (.vneg f.vd f.va f.g f.fmt)
  | _ => .error .selector

open VFields in
/-- vmajor 0x02 (R87). -/
def decodeVB (f : VFields) : Except Reject Instr :=
  let b := f.bsrc
  let ab (i : Instr) := ifZero (f.bsrcOk && f.vc == 0 && f.imm == 0) i
  let un (i : Instr) := ifZero (f.noS && f.vb == 0 && f.vc == 0 && f.xs == 0 && f.imm == 0) i
  match f.func5 with
  | 0x00 => un (.vcvt f.vd f.va f.g f.fmt)
  | 0x01 => ab (.vand f.vd f.va b f.g f.fmt) | 0x02 => ab (.vor f.vd f.va b f.g f.fmt)
  | 0x03 => ab (.vxor f.vd f.va b f.g f.fmt) | 0x04 => ab (.vsll f.vd f.va b f.g f.fmt)
  | 0x05 => ab (.vsrl f.vd f.va b f.g f.fmt) | 0x06 => ab (.vsra f.vd f.va b f.g f.fmt)
  | 0x07 => un (.vclz f.vd f.va f.g f.fmt) | 0x08 => un (.vpopc f.vd f.va f.g f.fmt)
  | 0x09 => ifBoth (f.bsrcOk && f.vc == 0 && f.imm.extractLsb' 3 11 == 0) (in3 f.vd)
      (.vcmp (lo3 f.vd) f.va b (f.imm.extractLsb' 0 3) f.g f.fmt)
  | 0x0A => un (.vclass f.vd f.va f.g f.fmt)
  | _ => .error .selector

open VFields in
/-- vmajor 0x03 (R87): mask, mc, fmt, xs and vc must be 0. -/
def decodeVM (f : VFields) : Except Reject Instr :=
  let z0 := f.vc == 0 && f.noGov && f.fmt == 0 && f.xs == 0
  let d := lo3 f.vd
  let a := lo3 f.va
  let b := lo3 f.vb
  let ab (i : Instr) := ifBoth (z0 && f.imm == 0) (in3 f.vd && in3 f.va && in3 f.vb) i
  let un (i : Instr) := ifBoth (z0 && f.vb == 0 && f.imm == 0) (in3 f.vd && in3 f.va) i
  let ux (i : Instr) := ifBoth (z0 && f.vb == 0 && f.imm == 0) (in5 f.vd && in3 f.va) i
  match f.func.toNat with
  | 0x00 => ab (.mand d a b) | 0x01 => ab (.mor d a b) | 0x02 => ab (.mxor d a b) | 0x03 => ab (.mandn d a b)
  | 0x04 => un (.mnot d a) | 0x05 => un (.mmov d a)
  | 0x06 => ifBoth (z0 && f.va == 0 && f.vb == 0 && f.imm.extractLsb' 1 13 == 0) (in3 f.vd) (.mset d (f.imm.getLsbD 0))
  | 0x07 => ux (.mpopc (lo5 f.vd) a) | 0x08 => ux (.mfirst (lo5 f.vd) a)
  | 0x09 => un (.mbefore d a)
  | _ => .error .selector

open VFields in
/-- vmajor 0x04 (R87): fmt and vc must be 0. -/
def decodePermute (f : VFields) : Except Reject Instr :=
  let z0 := f.vc == 0 && f.fmt == 0
  match f.func.toNat with
  | 0x00 => ifZero (z0 && f.vb == 0 && f.xs == 0 && f.imm == 0) (.vmv f.vd f.va f.g)
  | 0x01 => ifZero (z0 && f.va == 0 && f.vb == 0 && f.imm == 0) (.vbcast f.vd f.xs f.g)
  | 0x02 => ifBoth (z0 && f.vb == 0 && f.imm == 0 && f.noGov) (in5 f.vd && in5 f.va) (.vext (lo5 f.vd) (lo5 f.va) f.xs)
  | 0x03 => ifBoth (z0 && f.va == 0 && f.vb == 0 && f.noGov) (in5 f.vd) (.vins (lo5 f.vd) f.xs f.imm)
  | 0x04 => ifZero (z0 && f.vb == 0) (.vslideup f.vd f.va f.xs f.imm f.g)
  | 0x05 => ifZero (z0 && f.vb == 0) (.vslidedn f.vd f.va f.xs f.imm f.g)
  | 0x06 => ifBoth (z0 && f.xs == 0 && f.imm == 0) (in5 f.vb) (.vperm f.vd f.va (lo5 f.vb) f.g)
  | 0x07 => ifZero (z0 && f.xs == 0 && f.imm == 0) (.vmerge f.vd f.va f.vb f.g)
  | 0x08 => ifZero (z0 && f.va == 0 && f.vb == 0 && f.xs == 0 && f.imm == 0) (.viota f.vd f.g)
  | _ => .error .selector

open VFields in
/-- vmajor 0x05 (R87): vb must be 0. -/
def decodeIrregular (f : VFields) : Except Reject Instr :=
  let op := f.imm.extractLsb' 0 3
  let scan (i : Instr) := ifBoth (f.vb == 0 && f.xs == 0 && f.imm.extractLsb' 4 10 == 0) (in3 f.vc) i
  let red (i : Instr) := ifBoth (f.vb == 0 && f.vc == 0 && f.imm.extractLsb' 3 11 == 0) (in5 f.vd) i
  let plain := f.vb == 0 && f.vc == 0 && f.xs == 0 && f.imm == 0 && f.fmt == 0
  match f.func.toNat with
  | 0x00 => ifZero plain (.vcompress f.vd f.va f.g) | 0x01 => ifZero plain (.vexpand f.vd f.va f.g)
  | 0x02 => ifBoth plain (in3 f.va) (.vprefixpop f.vd (lo3 f.va) f.g)
  | 0x03 => ifZero plain (.vconflict f.vd f.va f.g)
  | 0x04 => scan (.vscan f.vd f.va (lo3 f.vc) (f.imm.getLsbD 3) op f.g f.fmt)
  | 0x05 => scan (.vscanf f.vd f.va (lo3 f.vc) (f.imm.getLsbD 3) op f.g f.fmt)
  | 0x06 => red (.vred (lo5 f.vd) f.va f.xs op f.g f.fmt)
  | 0x07 => red (.vredf (lo5 f.vd) f.va f.xs op f.g f.fmt)
  | _ => .error .selector

open VFields in
/-- vmajor 0x06 (R87). -/
def decodeSpecial (f : VFields) : Except Reject Instr :=
  match f.func.toNat with
  | 0x00 => ifBoth (f.vb == 0 && f.imm.extractLsb' 1 13 == 0) (in3 f.vd && in5 f.vc)
      (.vprune (lo3 f.vd) f.va (lo5 f.vc) (f.imm.getLsbD 0) f.xs f.g f.fmt)
  | 0x01 => ifZero (f.va == 0 && f.vb == 0 && f.vc == 0 && f.xs == 0 && f.imm == 0) (.vrand f.vd f.g f.fmt)
  | 0x02 => ifZero (f.vc == 0 && f.xs == 0 && f.imm == 0) (.vsmfin f.vd f.va f.vb f.g f.fmt)
  | _ => .error .selector

open VFields in
/-- vmajor 0x08, loads (R87): va, vc and fmt must be 0; G is legal only in the indexed forms. -/
def decodeLoad (f : VFields) : Except Reject Instr :=
  let z0 := f.va == 0 && f.vc == 0 && f.fmt == 0
  let z := f.func.extractLsb' 3 3
  let o := f.imm.extractLsb' 0 13
  let gl := f.imm.getLsbD 13
  match (f.func.extractLsb' 0 3).toNat with
  | 0 => ifZero (z0 && f.vb == 0 && !gl) (.vld f.vd f.xs z o f.g)
  | 1 => ifBoth (z0 && !gl) (in5 f.vb) (.vlds f.vd f.xs (lo5 f.vb) z o f.g)
  | 2 => ifBoth z0 (in5 f.vb) (.vldx f.vd f.xs (lo5 f.vb) z gl o f.g)
  | 3 => ifBoth z0 (in5 f.vb) (.vldxo f.vd f.xs (lo5 f.vb) z gl o f.g)
  | 4 => ifZero (z0 && f.vb == 0 && !gl) (.vldff f.vd f.xs z o f.g)
  | 5 => ifBoth (z0 && f.vb == 0 && !gl && z == 0 && f.noGov) (in3 f.vd) (.vldm (lo3 f.vd) f.xs o)
  | 6 => ifBoth (z0 && f.vb == 0 && f.imm == 0 && z == 0 && f.noGov) (in5 f.vd) (.vfill (lo5 f.vd) f.xs)
  | _ => .error .selector

open VFields in
/-- vmajor 0x09, stores (R87): vd, vc and fmt must be 0; form 4 does not exist. -/
def decodeStore (f : VFields) : Except Reject Instr :=
  let z0 := f.vd == 0 && f.vc == 0 && f.fmt == 0
  let z := f.func.extractLsb' 3 3
  let o := f.imm.extractLsb' 0 13
  let gl := f.imm.getLsbD 13
  match (f.func.extractLsb' 0 3).toNat with
  | 0 => ifZero (z0 && f.vb == 0 && !gl) (.vst f.va f.xs z o f.g)
  | 1 => ifBoth (z0 && !gl) (in5 f.vb) (.vsts f.va f.xs (lo5 f.vb) z o f.g)
  | 2 => ifBoth z0 (in5 f.vb) (.vstx f.va f.xs (lo5 f.vb) z gl o f.g)
  | 3 => ifBoth z0 (in5 f.vb) (.vstxo f.va f.xs (lo5 f.vb) z gl o f.g)
  | 5 => ifBoth (z0 && f.vb == 0 && !gl && z == 0 && f.noGov) (in3 f.va) (.vstm (lo3 f.va) f.xs o)
  | 6 => ifBoth (z0 && f.vb == 0 && f.imm == 0 && z == 0 && f.noGov) (in5 f.va) (.vspill (lo5 f.va) f.xs)
  | _ => .error .selector

open VFields in
/-- vmajors 0x0A to 0x0C: atomic, translate, wait (R87). -/
def decodeAtomic (f : VFields) : Except Reject Instr :=
  let z := f.func.extractLsb' 4 2
  let r := f.func.getLsbD 3
  match f.vmajor.toNat, (f.func.extractLsb' 0 3).toNat with
  | 0x0A, 0 => ifBoth (!r && f.va == 0 && f.vc == 0 && f.fmt == 0 && f.imm == 0) (in5 f.vb) (.vgl f.vd f.xs (lo5 f.vb) z f.g)
  | 0x0A, 1 => ifBoth (!r && f.vc == 0 && f.fmt == 0 && f.imm == 0) (in3 f.vd && in5 f.vb)
      (.vsc (lo3 f.vd) f.va f.xs (lo5 f.vb) z f.g)
  | 0x0A, 2 => ifBoth (f.vc == 0 && f.imm.extractLsb' 3 11 == 0) (in3 f.vd && in5 f.vb)
      (.vscc (lo3 f.vd) f.va f.xs (lo5 f.vb) z r (f.imm.extractLsb' 0 3) f.g f.fmt)
  | 0x0B, _ =>
    let k (i : Instr) := ifBoth (f.vb == 0 && f.vc == 0 && f.fmt == 0 && f.imm == 0) (in5 f.va) i
    match f.func.toNat with
    | 0 => k (.vxlate f.vd (lo5 f.va) f.xs f.g)
    | 1 => k (.vxlateff f.vd (lo5 f.va) f.xs f.g)
    | _ => .error .selector
  | 0x0C, _ => ifBoth (f.func.extractLsb' 0 4 == 0 && f.vc == 0 && f.fmt == 0 && f.imm.extractLsb' 3 11 == 0)
      (in3 f.vd && in5 f.va && in5 f.vb) (.vwait (lo3 f.vd) (lo5 f.va) (lo5 f.vb) f.xs z (f.imm.extractLsb' 0 3) f.g)
  | _, _ => .error .selector

open VFields in
/-- vmajors 0x0D to 0x0F: stash, stream, engine command (R87). -/
def decodeCommand (f : VFields) : Except Reject Instr :=
  let z0 := f.va == 0 && f.vc == 0 && f.fmt == 0
  let n := f.imm.extractLsb' 0 3
  match f.vmajor.toNat, f.func.toNat with
  | 0x0D, 0 => ifBoth (z0 && f.vd == 0 && f.noGov) (in5 f.vb) (.smap f.xs (lo5 f.vb) f.imm)
  | 0x0D, 1 => ifZero (z0 && f.vd == 0 && f.vb == 0 && f.noGov) (.sunmap f.xs f.imm)
  | 0x0D, 2 => ifZero (z0 && f.vd == 0 && f.vb == 0 && f.noGov) (.sflush f.xs f.imm)
  | 0x0E, 0 => ifZero (z0 && f.vb == 0 && f.noGov && f.imm.extractLsb' 3 11 == 0) (.strm f.vd f.xs n)
  | 0x0E, 1 => ifZero (z0 && f.vd == 0 && f.vb == 0 && f.xs == 0 && f.noGov && f.imm.extractLsb' 3 11 == 0) (.strmend n)
  | 0x0F, 0 => ifZero (z0 && f.vd == 0 && f.vb == 0 && f.noGov && f.imm == 0) (.cpy f.xs)
  | 0x0F, 1 => ifZero (z0 && f.vd == 0 && f.vb == 0 && f.noGov && f.imm == 0) (.cpy2d f.xs)
  | 0x0F, 2 => ifBoth (z0 && f.vb == 0 && f.noGov && f.imm == 0) (in5 f.vd) (.cpywait (lo5 f.vd) f.xs)
  | 0x0F, 3 => ifZero (z0 && f.vd == 0 && f.vb == 0 && f.noGov && f.imm == 0) (.trim f.xs)
  | 0x0F, 4 => ifBoth (z0 && f.vd == 0 && f.imm == 0) (in5 f.vb) (.vpf f.xs (lo5 f.vb) f.g)
  | _, _ => .error .selector

open VFields in
/-- vmajors 0x10 to 0x12: diagonal, sparse, accumulator (R87, R197). -/
def decodeDG (f : VFields) : Except Reject Instr :=
  let init := f.imm.getLsbD 0
  let initOk := f.imm.extractLsb' 1 13 == 0
  let zx := f.vd == 0 && f.va == 0 && f.vb == 0 && f.vc == 0 && f.noGov && f.fmt == 0 && f.imm == 0
  match f.vmajor.toNat, f.func.toNat with
  | 0x10, 0 => ifZero zx (.mshape f.xs)
  | 0x10, 1 => ifZero zx (.maccwin f.xs)
  | 0x10, 2 => ifBoth (f.vc == 0 && initOk) (in5 f.vd) (.dmac (lo5 f.vd) f.va f.vb f.xs init f.g f.fmt)
  | 0x10, 3 => ifBoth (f.vc == 0 && initOk) (in5 f.vd) (.dmacf (lo5 f.vd) f.va f.vb f.xs init f.g f.fmt)
  | 0x10, 4 => ifZero (f.vd == 0 && f.vc == 0 && f.noGov && initOk) (.dsweep f.va f.vb f.xs init f.fmt)
  | 0x10, 5 => ifZero (f.vd == 0 && f.vc == 0 && f.noGov && initOk) (.dsweepf f.va f.vb f.xs init f.fmt)
  | 0x11, 0 => ifZero (f.vd == 0 && f.vc == 0 && f.noGov && f.imm == 0) (.spsweep f.va f.vb f.xs f.fmt)
  | 0x11, 1 => ifZero (f.vd == 0 && f.vc == 0 && f.noGov && f.imm == 0) (.spsweepf f.va f.vb f.xs f.fmt)
  | 0x11, 2 => ifZero (f.vb == 0 && f.vc == 0 && f.noGov && f.xs == 0 && f.imm == 0) (.sppack f.vd f.va f.fmt)
  | 0x11, 3 => ifZero (f.vb == 0 && f.vc == 0 && f.noGov && f.xs == 0 && f.imm == 0) (.spunpack f.vd f.va f.fmt)
  | 0x12, 0 => ifZero (f.vd == 0 && f.vb == 0 && f.vc == 0 && f.noGov && f.fmt == 0 && f.imm == 0) (.acld f.va f.xs)
  | 0x12, 1 => ifZero (f.va == 0 && f.vb == 0 && f.vc == 0 && f.noGov && f.imm == 0) (.acst f.vd f.xs f.fmt)
  | 0x12, 2 => ifZero zx (.aczero f.xs)
  | 0x12, 3 => ifBoth (f.va == 0 && f.vb == 0 && f.vc == 0 && f.noGov && f.fmt == 0 && f.imm == 0) (in3 f.vd)
      (.acmap (lo3 f.vd) f.xs)
  | _, _ => .error .selector

/-- The unit of a vmajor (R87): 0 VA, 1 VB, 2 VX, 3 VM, 4 LS, 5 DG; none for an illegal vmajor. -/
def unitOf (vmajor : BitVec 6) : Option (BitVec 3) :=
  match vmajor.toNat with
  | 0x01 | 0x06 => some 0
  | 0x02 => some 1
  | 0x04 | 0x05 => some 2
  | 0x03 => some 3
  | 0x08 | 0x09 | 0x0A | 0x0B | 0x0C | 0x0D | 0x0E | 0x0F => some 4
  | 0x10 | 0x11 | 0x12 => some 5
  | _ => none

/-- One 64-bit vector instruction (R85 to R87). -/
def decodeVec (w : BitVec 64) : Except Reject Instr :=
  let f := VFields.ofWord w
  let r := match f.vmajor.toNat with
    | 0x01 => decodeVA f
    | 0x02 => decodeVB f
    | 0x03 => decodeVM f
    | 0x04 => decodePermute f
    | 0x05 => decodeIrregular f
    | 0x06 => decodeSpecial f
    | 0x08 => decodeLoad f
    | 0x09 => decodeStore f
    | 0x0A | 0x0B | 0x0C => decodeAtomic f
    | 0x0D | 0x0E | 0x0F => decodeCommand f
    | 0x10 | 0x11 | 0x12 => decodeDG f
    | _ => .error .reserved
  r.bind ifWf

/-! ## The stream -/

/-- Little-endian bytes as a number (R5). -/
def leNat : List Byte → Nat
  | [] => 0
  | b :: bs => b.toNat + 256 * leNat bs

/-- The n little-endian bytes of a number (R5). -/
def leBytes : Nat → Nat → List Byte
  | 0, _ => []
  | n + 1, v => BitVec.ofNat 8 v :: leBytes n (v / 256)

/-- A word is a convoy header when its bits 31:26 are 0x3F (R68). -/
def isHeader (w : Word32) : Bool := w.extractLsb' 26 6 == 0x3F

/-- The slot count of a header, and the number of 64-bit instructions its body holds: none for count 0 or 7 (R71). -/
def headerCount (w : Word32) : BitVec 3 := w.extractLsb' 23 3
def bodySlots (w : Word32) : Nat := if headerCount w == 7 then 0 else (headerCount w).toNat

/-- A header with its body (R69, R80); bits 4:0 must be 0. -/
def decodeConvoy (w : Word32) (body : List (BitVec 64)) : Except Reject Instr :=
  ifZero (w.extractLsb' 0 5 == 0) (.convoy (headerCount w) (w.extractLsb' 5 18) body)

/-- The first n 8-byte groups of a byte list. -/
def takeDwords : Nat → List Byte → List (BitVec 64)
  | 0, _ => []
  | n + 1, bs => BitVec.ofNat 64 (leNat (bs.take 8)) :: takeDwords n (bs.drop 8)

/-- The instruction that a list of bytes begins with, and the bytes after it (R68, R69). -/
def decode (bs : List Byte) : Except Reject (Instr × List Byte) :=
  if bs.length < 4 then .error .truncated
  else
    let w : Word32 := BitVec.ofNat 32 (leNat (bs.take 4))
    if isHeader w then
      let n := bodySlots w
      if bs.length < 4 + 8 * n then .error .truncated
      else (decodeConvoy w (takeDwords n (bs.drop 4))).map (fun i => (i, bs.drop (4 + 8 * n)))
    else (decodeWord w).map (fun i => (i, bs.drop 4))

/-- The longest instruction: a header and six 64-bit slots, 52 bytes (R69). -/
def maxBytes : Nat := 52

/-- The instruction that `decode` reads from a table word: its bits little-endian, and zeros above them (R68). -/
def decodeTableWord (nbits w : Nat) : Option Instr :=
  match decode (leBytes (nbits / 8) w ++ List.replicate (maxBytes - nbits / 8) 0) with
  | .ok (i, _) => some i
  | .error _ => none

/-! ## Encoding -/

/-- The scalar formats of R72. -/
def packS3 (major : BitVec 6) (d a b : XReg) (sub : BitVec 6) (x : BitVec 5) : Word32 := major ++ d ++ a ++ b ++ sub ++ x
def packSI (major : BitVec 6) (d a : XReg) (imm : BitVec 16) : Word32 := major ++ d ++ a ++ imm
def packSM (major : BitVec 6) (d a : XReg) (z : BitVec 3) (off : BitVec 13) : Word32 := major ++ d ++ a ++ z ++ off
def packSB (major : BitVec 6) (a b : BitVec 5) (c : BitVec 4) (off : BitVec 12) : Word32 := major ++ a ++ b ++ c ++ off
def packSJ (major : BitVec 6) (d : XReg) (off : BitVec 21) : Word32 := major ++ d ++ off

/-- The word of a scalar instruction (R72 to R79, R278); none for a convoy, a vector instruction or an event. -/
def encodeWord : Instr → Option Word32
  | .add d a b => some (packS3 1 d a b 0x00 0) | .sub d a b => some (packS3 1 d a b 0x01 0)
  | .and d a b => some (packS3 1 d a b 0x02 0) | .or d a b => some (packS3 1 d a b 0x03 0)
  | .xor d a b => some (packS3 1 d a b 0x04 0) | .andn d a b => some (packS3 1 d a b 0x05 0)
  | .orn d a b => some (packS3 1 d a b 0x06 0) | .sll d a b => some (packS3 1 d a b 0x08 0)
  | .srl d a b => some (packS3 1 d a b 0x09 0) | .sra d a b => some (packS3 1 d a b 0x0A 0)
  | .rol d a b => some (packS3 1 d a b 0x0B 0) | .mul d a b => some (packS3 1 d a b 0x10 0)
  | .mulh d a b => some (packS3 1 d a b 0x11 0) | .mulhu d a b => some (packS3 1 d a b 0x12 0)
  | .div d a b => some (packS3 1 d a b 0x14 0) | .divu d a b => some (packS3 1 d a b 0x15 0)
  | .rem d a b => some (packS3 1 d a b 0x16 0) | .remu d a b => some (packS3 1 d a b 0x17 0)
  | .min d a b => some (packS3 1 d a b 0x18 0) | .max d a b => some (packS3 1 d a b 0x19 0)
  | .minu d a b => some (packS3 1 d a b 0x1A 0) | .maxu d a b => some (packS3 1 d a b 0x1B 0)
  | .slt d a b => some (packS3 1 d a b 0x1C 0) | .sltu d a b => some (packS3 1 d a b 0x1D 0)
  | .clz d a => some (packS3 1 d a 0 0x20 0) | .ctz d a => some (packS3 1 d a 0 0x21 0)
  | .popc d a => some (packS3 1 d a 0 0x22 0) | .bswap d a => some (packS3 1 d a 0 0x23 0)
  | .sext d a w => some (packS3 1 d a 0 0x24 w) | .zext d a w => some (packS3 1 d a 0 0x25 w)
  | .fadd d a b x => some (packS3 2 d a b 0x00 x) | .fsub d a b x => some (packS3 2 d a b 0x01 x)
  | .fmul d a b x => some (packS3 2 d a b 0x02 x) | .fdiv d a b x => some (packS3 2 d a b 0x03 x)
  | .fsqrt d a x => some (packS3 2 d a 0 0x04 x) | .fma d a b x => some (packS3 2 d a b 0x05 x)
  | .fmin d a b x => some (packS3 2 d a b 0x06 x) | .fmax d a b x => some (packS3 2 d a b 0x07 x)
  | .fcvt d a s x => some (packS3 2 d a s 0x08 x) | .fcmpEq d a b x => some (packS3 2 d a b 0x09 x)
  | .fcmpLt d a b x => some (packS3 2 d a b 0x0A x) | .fcmpLe d a b x => some (packS3 2 d a b 0x0B x)
  | .fmv d a x => some (packS3 2 d a 0 0x0C x)
  | .addi d a i => some (packSI 0x03 d a i) | .andi d a i => some (packSI 0x04 d a i)
  | .ori d a i => some (packSI 0x05 d a i) | .xori d a i => some (packSI 0x06 d a i)
  | .slli d a n => some (packSI 0x07 d a (0#6 ++ 0#2 ++ 0#2 ++ n)) | .srli d a n => some (packSI 0x07 d a (0#6 ++ 1#2 ++ 0#2 ++ n))
  | .srai d a n => some (packSI 0x07 d a (0#6 ++ 2#2 ++ 0#2 ++ n)) | .roli d a n => some (packSI 0x07 d a (0#6 ++ 3#2 ++ 0#2 ++ n))
  | .slti d a i => some (packSI 0x08 d a i) | .sltiu d a i => some (packSI 0x09 d a i)
  | .lui d i => some (packSI 0x0A d 0 i) | .addhi d a i => some (packSI 0x0B d a i)
  | .ld d a z o => some (packSM 0x10 d a z o) | .st d a z o => some (packSM 0x11 d a z o)
  | .lda d a z o => some (packSM 0x12 d a z o) | .stl d a z o => some (packSM 0x13 d a z o)
  | .ll d a z o => some (packSM 0x14 d a z o) | .sc d a z o => some (packSM 0x15 d a z o)
  | .b c a b o => some (packSB 0x18 a b c o) | .jal d o => some (packSJ 0x19 d o)
  | .jalr d a i => some (packSI 0x1A d a i) | .bm c m o => some (packSB 0x1B m 0 c o) | .bq c o => some (packSB 0x1C 0 0 c o)
  | .qpush a => some (packSI 0x20 0 a 0) | .qpop d => some (packSI 0x20 d 0 1) | .bqpush a => some (packSI 0x20 0 a 2)
  | .crd d i => some (packSI 0x21 d 0 (0#4 ++ i)) | .cwr a i => some (packSI 0x21 0 a (1#4 ++ i))
  | .crs d a i => some (packSI 0x21 d a (2#4 ++ i)) | .crc d a i => some (packSI 0x21 d a (3#4 ++ i))
  | .trap c => some (packSI 0x22 0 0 (0#4 ++ 0#6 ++ c)) | .svc c => some (packSI 0x22 0 0 (1#4 ++ c))
  | .uiret => some (packSI 0x22 0 0 0x2000)
  | .vsetvl d a c => some (packSI 0x23 d a (0#1 ++ 0#10 ++ c))
  | .vsetvli d a s c e => some (packSI 0x23 d a (1#1 ++ s ++ c ++ e ++ 0#6))
  | .setshape d a s e c => some (packSI 0x23 d a (1#2 ++ s ++ 0#2 ++ e ++ c ++ 0#3))
  | .fence s => some (packSI 0x24 0 0 (0#4 ++ 0#9 ++ s))
  | .barArrive i s => some (packSI 0x24 0 0 (1#4 ++ 0#4 ++ i ++ 0#1 ++ s))
  | .barWait i s => some (packSI 0x24 0 0 (2#4 ++ 0#4 ++ i ++ 0#1 ++ s))
  | .ipost a c => some (packSI 0x24 0 a (3#4 ++ 0#3 ++ c ++ 0#4)) | .iwait a c => some (packSI 0x24 0 a (4#4 ++ 0#3 ++ c ++ 0#4))
  | .contend d a s => some (packSI 0x24 d a (5#4 ++ 0#4 ++ s ++ 0#4)) | .dsync => some (packSI 0x24 0 0 0x6000)
  | .launch d a => some (packSI 0x25 d a 0) | .lwait d a => some (packSI 0x25 d a 0x1000)
  | .hexit => some (packSI 0x25 0 0 0x2000)
  | _ => none

/-- A vector instruction's fields in place (R85). -/
def packV (f : VFields) : BitVec 64 :=
  f.vmajor ++ f.vd ++ f.va ++ f.vb ++ f.vc ++ f.g.mask ++ BitVec.ofBool f.g.comp ++ f.fmt ++ f.xs ++ f.func ++ f.imm

/-- A 5-bit or 3-bit register number in a 6-bit operand field. -/
def w5 (v : BitVec 5) : BitVec 6 := 0#1 ++ v
def w3 (v : BitVec 3) : BitVec 6 := 0#3 ++ v

/-- No governing mask. -/
def Gov.none : Gov := ⟨0, false⟩

/-- All fields 0 but the vmajor and func. -/
def VFields.base (vmajor func : BitVec 6) : VFields :=
  { vmajor := vmajor, vd := 0, va := 0, vb := 0, vc := 0, g := Gov.none, fmt := 0, xs := 0, func := func, imm := 0 }

/-- The fields of an S form's b operand (R86): vb, or func[5] and xs. -/
def VFields.withB (f : VFields) : BSrc → VFields
  | .vec v => { f with vb := v }
  | .scl x => { f with xs := x, func := f.func ||| 0x20 }

/-- A form of vmajor `m` with destination, a, b, mask and format. -/
def vABform (m func : BitVec 6) (d a : VOpd) (b : BSrc) (g : Gov) (f : XReg) : VFields :=
  ({ VFields.base m func with vd := d, va := a, g := g, fmt := f } : VFields).withB b
def vUform (m func : BitVec 6) (d a : VOpd) (g : Gov) (f : XReg) : VFields :=
  { VFields.base m func with vd := d, va := a, g := g, fmt := f }
/-- func of a load or store: size in [5:3], form in [2:0]. -/
def memFunc (z form : BitVec 3) : BitVec 6 := z ++ form
/-- imm14 of a load or store: G in bit 13, the signed offset below it. -/
def memImm (gl : Bool) (o : BitVec 13) : BitVec 14 := BitVec.ofBool gl ++ o

/-- The fields of a vector instruction (R85 to R87); none for any other. -/
def encodeFields : Instr → Option VFields
  | .vadd d a b g f => some (vABform 0x01 0x00 d a b g f) | .vsub d a b g f => some (vABform 0x01 0x01 d a b g f)
  | .vmul d a b g f => some (vABform 0x01 0x02 d a b g f) | .vmulh d a b g f => some (vABform 0x01 0x03 d a b g f)
  | .vdiv d a b g f => some (vABform 0x01 0x04 d a b g f) | .vrem d a b g f => some (vABform 0x01 0x05 d a b g f)
  | .vsqrt d a g f => some (vUform 0x01 0x06 d a g f) | .vrcp d a g f => some (vUform 0x01 0x07 d a g f)
  | .vrsqrt d a g f => some (vUform 0x01 0x08 d a g f) | .vexp2 d a g f => some (vUform 0x01 0x09 d a g f)
  | .vlog2 d a g f => some (vUform 0x01 0x0A d a g f)
  | .vfma d a b c g f => some { vABform 0x01 0x0C d a b g f with vc := c }
  | .vfms d a b c g f => some { vABform 0x01 0x0D d a b g f with vc := c }
  | .vfnma d a b c g f => some { vABform 0x01 0x0E d a b g f with vc := c }
  | .vmin d a b g f => some (vABform 0x01 0x10 d a b g f) | .vmax d a b g f => some (vABform 0x01 0x11 d a b g f)
  | .vabs d a g f => some (vUform 0x01 0x12 d a g f) | .vneg d a g f => some (vUform 0x01 0x13 d a g f)
  | .vcvt d a g f => some (vUform 0x02 0x00 d a g f)
  | .vand d a b g f => some (vABform 0x02 0x01 d a b g f) | .vor d a b g f => some (vABform 0x02 0x02 d a b g f)
  | .vxor d a b g f => some (vABform 0x02 0x03 d a b g f) | .vsll d a b g f => some (vABform 0x02 0x04 d a b g f)
  | .vsrl d a b g f => some (vABform 0x02 0x05 d a b g f) | .vsra d a b g f => some (vABform 0x02 0x06 d a b g f)
  | .vclz d a g f => some (vUform 0x02 0x07 d a g f) | .vpopc d a g f => some (vUform 0x02 0x08 d a g f)
  | .vcmp d a b c g f => some { vABform 0x02 0x09 (w3 d) a b g f with imm := 0#11 ++ c }
  | .vclass d a g f => some (vUform 0x02 0x0A d a g f)
  | .mand d a b => some { VFields.base 0x03 0x00 with vd := w3 d, va := w3 a, vb := w3 b }
  | .mor d a b => some { VFields.base 0x03 0x01 with vd := w3 d, va := w3 a, vb := w3 b }
  | .mxor d a b => some { VFields.base 0x03 0x02 with vd := w3 d, va := w3 a, vb := w3 b }
  | .mandn d a b => some { VFields.base 0x03 0x03 with vd := w3 d, va := w3 a, vb := w3 b }
  | .mnot d a => some { VFields.base 0x03 0x04 with vd := w3 d, va := w3 a }
  | .mmov d a => some { VFields.base 0x03 0x05 with vd := w3 d, va := w3 a }
  | .mset d v => some { VFields.base 0x03 0x06 with vd := w3 d, imm := 0#13 ++ BitVec.ofBool v }
  | .mpopc d a => some { VFields.base 0x03 0x07 with vd := w5 d, va := w3 a }
  | .mfirst d a => some { VFields.base 0x03 0x08 with vd := w5 d, va := w3 a }
  | .mbefore d a => some { VFields.base 0x03 0x09 with vd := w3 d, va := w3 a }
  | .vmv d a g => some { VFields.base 0x04 0x00 with vd := d, va := a, g := g }
  | .vbcast d x g => some { VFields.base 0x04 0x01 with vd := d, xs := x, g := g }
  | .vext d a x => some { VFields.base 0x04 0x02 with vd := w5 d, va := w5 a, xs := x }
  | .vins d x i => some { VFields.base 0x04 0x03 with vd := w5 d, xs := x, imm := i }
  | .vslideup d a x k g => some { VFields.base 0x04 0x04 with vd := d, va := a, xs := x, imm := k, g := g }
  | .vslidedn d a x k g => some { VFields.base 0x04 0x05 with vd := d, va := a, xs := x, imm := k, g := g }
  | .vperm d a b g => some { VFields.base 0x04 0x06 with vd := d, va := a, vb := w5 b, g := g }
  | .vmerge d a b g => some { VFields.base 0x04 0x07 with vd := d, va := a, vb := b, g := g }
  | .viota d g => some { VFields.base 0x04 0x08 with vd := d, g := g }
  | .vcompress d a g => some { VFields.base 0x05 0x00 with vd := d, va := a, g := g }
  | .vexpand d a g => some { VFields.base 0x05 0x01 with vd := d, va := a, g := g }
  | .vprefixpop d a g => some { VFields.base 0x05 0x02 with vd := d, va := w3 a, g := g }
  | .vconflict d a g => some { VFields.base 0x05 0x03 with vd := d, va := a, g := g }
  | .vscan d a c s o g f => some { vUform 0x05 0x04 d a g f with vc := w3 c, imm := 0#10 ++ BitVec.ofBool s ++ o }
  | .vscanf d a c s o g f => some { vUform 0x05 0x05 d a g f with vc := w3 c, imm := 0#10 ++ BitVec.ofBool s ++ o }
  | .vred d a x o g f => some { vUform 0x05 0x06 (w5 d) a g f with xs := x, imm := 0#11 ++ o }
  | .vredf d a x o g f => some { vUform 0x05 0x07 (w5 d) a g f with xs := x, imm := 0#11 ++ o }
  | .vprune d a c z x g f => some { vUform 0x06 0x00 (w3 d) a g f with vc := w5 c, xs := x, imm := 0#13 ++ BitVec.ofBool z }
  | .vrand d g f => some { VFields.base 0x06 0x01 with vd := d, g := g, fmt := f }
  | .vsmfin d a b g f => some { vUform 0x06 0x02 d a g f with vb := b }
  | .vld d x z o g => some { VFields.base 0x08 (memFunc z 0) with vd := d, xs := x, g := g, imm := memImm false o }
  | .vlds d x s z o g => some { VFields.base 0x08 (memFunc z 1) with vd := d, xs := x, vb := w5 s, g := g, imm := memImm false o }
  | .vldx d x b z gl o g => some { VFields.base 0x08 (memFunc z 2) with vd := d, xs := x, vb := w5 b, g := g, imm := memImm gl o }
  | .vldxo d x b z gl o g => some { VFields.base 0x08 (memFunc z 3) with vd := d, xs := x, vb := w5 b, g := g, imm := memImm gl o }
  | .vldff d x z o g => some { VFields.base 0x08 (memFunc z 4) with vd := d, xs := x, g := g, imm := memImm false o }
  | .vldm d x o => some { VFields.base 0x08 (memFunc 0 5) with vd := w3 d, xs := x, imm := memImm false o }
  | .vfill d x => some { VFields.base 0x08 (memFunc 0 6) with vd := w5 d, xs := x }
  | .vst a x z o g => some { VFields.base 0x09 (memFunc z 0) with va := a, xs := x, g := g, imm := memImm false o }
  | .vsts a x s z o g => some { VFields.base 0x09 (memFunc z 1) with va := a, xs := x, vb := w5 s, g := g, imm := memImm false o }
  | .vstx a x b z gl o g => some { VFields.base 0x09 (memFunc z 2) with va := a, xs := x, vb := w5 b, g := g, imm := memImm gl o }
  | .vstxo a x b z gl o g => some { VFields.base 0x09 (memFunc z 3) with va := a, xs := x, vb := w5 b, g := g, imm := memImm gl o }
  | .vstm a x o => some { VFields.base 0x09 (memFunc 0 5) with va := w3 a, xs := x, imm := memImm false o }
  | .vspill a x => some { VFields.base 0x09 (memFunc 0 6) with va := w5 a, xs := x }
  | .vgl d x b z g => some { VFields.base 0x0A (z ++ 0#1 ++ 0#3) with vd := d, xs := x, vb := w5 b, g := g }
  | .vsc d a x b z g => some { VFields.base 0x0A (z ++ 0#1 ++ 1#3) with vd := w3 d, va := a, xs := x, vb := w5 b, g := g }
  | .vscc d a x b z r o g f =>
    some { vUform 0x0A (z ++ BitVec.ofBool r ++ 2#3) (w3 d) a g f with xs := x, vb := w5 b, imm := 0#11 ++ o }
  | .vxlate d a x g => some { VFields.base 0x0B 0 with vd := d, va := w5 a, xs := x, g := g }
  | .vxlateff d a x g => some { VFields.base 0x0B 1 with vd := d, va := w5 a, xs := x, g := g }
  | .vwait d a b x z c g =>
    some { VFields.base 0x0C (z ++ 0#4) with vd := w3 d, va := w5 a, vb := w5 b, xs := x, g := g, imm := 0#11 ++ c }
  | .smap x b n => some { VFields.base 0x0D 0 with xs := x, vb := w5 b, imm := n }
  | .sunmap x n => some { VFields.base 0x0D 1 with xs := x, imm := n }
  | .sflush x n => some { VFields.base 0x0D 2 with xs := x, imm := n }
  | .strm q x n => some { VFields.base 0x0E 0 with vd := q, xs := x, imm := 0#11 ++ n }
  | .strmend n => some { VFields.base 0x0E 1 with imm := 0#11 ++ n }
  | .cpy x => some { VFields.base 0x0F 0 with xs := x } | .cpy2d x => some { VFields.base 0x0F 1 with xs := x }
  | .trim x => some { VFields.base 0x0F 3 with xs := x }
  | .cpywait d x => some { VFields.base 0x0F 2 with vd := w5 d, xs := x }
  | .vpf x b g => some { VFields.base 0x0F 4 with xs := x, vb := w5 b, g := g }
  | .mshape x => some { VFields.base 0x10 0 with xs := x } | .maccwin x => some { VFields.base 0x10 1 with xs := x }
  | .dmac d a b x i g f => some { vUform 0x10 2 (w5 d) a g f with vb := b, xs := x, imm := 0#13 ++ BitVec.ofBool i }
  | .dmacf d a b x i g f => some { vUform 0x10 3 (w5 d) a g f with vb := b, xs := x, imm := 0#13 ++ BitVec.ofBool i }
  | .dsweep a b x i f => some { VFields.base 0x10 4 with va := a, vb := b, xs := x, fmt := f, imm := 0#13 ++ BitVec.ofBool i }
  | .dsweepf a b x i f => some { VFields.base 0x10 5 with va := a, vb := b, xs := x, fmt := f, imm := 0#13 ++ BitVec.ofBool i }
  | .spsweep a b x f => some { VFields.base 0x11 0 with va := a, vb := b, xs := x, fmt := f }
  | .spsweepf a b x f => some { VFields.base 0x11 1 with va := a, vb := b, xs := x, fmt := f }
  | .sppack d a f => some { VFields.base 0x11 2 with vd := d, va := a, fmt := f }
  | .spunpack d a f => some { VFields.base 0x11 3 with vd := d, va := a, fmt := f }
  | .acld a x => some { VFields.base 0x12 0 with va := a, xs := x }
  | .acst d x f => some { VFields.base 0x12 1 with vd := d, xs := x, fmt := f }
  | .aczero x => some { VFields.base 0x12 2 with xs := x }
  | .acmap d x => some { VFields.base 0x12 3 with vd := w3 d, xs := x }
  | _ => none

/-- The 64 bits of a vector instruction. -/
def encodeVec (i : Instr) : Option (BitVec 64) := (encodeFields i).map packV

/-- A convoy's header word (R80). -/
def packHeader (count : BitVec 3) (units : BitVec 18) : Word32 := 0x3F#6 ++ count ++ units ++ 0#5

/-- The 32-bit words of an instruction as text holds it, lowest address first (R69); none for an event. A vector instruction
stands in text only within a convoy (R68): its two words alone are given. -/
def encode (i : Instr) : Option (List Word32) :=
  match i with
  | .convoy c u body => some (packHeader c u :: body.flatMap (fun w => [w.extractLsb' 0 32, w.extractLsb' 32 32]))
  | i =>
    match encodeWord i with
    | some w => some [w]
    | none => (encodeVec i).map (fun w => [w.extractLsb' 0 32, w.extractLsb' 32 32])

/-- The instruction's word for a trap record's value: a scalar word or header zero-extended, or bits 63:0 of a vector
instruction (R350). -/
def instrWord (i : Instr) : Word :=
  match i with
  | .convoy c u _ => (packHeader c u).setWidth 64
  | i =>
    match encodeWord i with
    | some w => w.setWidth 64
    | none => (encodeVec i).getD 0

end Sys2Proof
end

