-- ==== Sys2Proof/Machine/State.lean ====
section
/-! DEFINITION. The state of the whole package as plain data (R9, R110, R352 and the chapters on the device): the hart that issues,
the other harts, the cores and dies, memory with its tiles and directories, the dispatch units, the host side and the kiln
controller; and the state right after power-good. -/

namespace Sys2Proof.Machine

/-! ## Reasons to stop -/

/-- A stop of the model that is no trap of the machine. -/
inductive Fault where
  /-- raised by the event that stops a hart (HART_STOP), when the image slot that it would write lies at a physical address that names no memory
  (R346, R374), which the manual gives no result; safe -/
  | noMemory (address : Nat)
  deriving DecidableEq, Repr

/-- Why an instruction has no meaning here. -/
inductive Refusal where
  /-- raised by an arm of `exec` whose instruction is not modelled yet; safe -/
  | notModelled (mnemonic : String)
  deriving DecidableEq, Repr

/-! ## Memory -/

/-- Physical memory as the bytes that differ from 0, addresses strictly rising. A byte not listed reads 0 (a clear tile reads as zeros, R365). -/
abbrev Memory := List Host.Cell

/-! ## Harts and strands -/

/-- A hart of a launch by its launch, die and rank (R21); the supervisor hart of die d is (0, d, 0). -/
structure HartKey where
  launch : Nat
  die    : DieId
  rank   : Nat
  deriving DecidableEq, Repr, Inhabited

/-- What a trap record says of a trap (R350). -/
structure Trap where
  cls    : Nat
  sub    : Nat
  value  : Word
  /-- the trapping scalar word or convoy header -/
  pc     : Word
  /-- 0-5 a convoy slot, 7 a scalar word or a fetch -/
  slot   : Nat
  elem   : Nat
  sflag  : Bool
  stream : Nat
  entry  : Nat
  deriving DecidableEq, Repr, Inhabited

/-- Why a strand waits. Each names what would end it, which `stallOver` reads. -/
inductive Stall where
  /-- R15: a full or empty vector queue, by its number 32-43 -/
  | pushFull (q : VOpd) | popEmpty (q : VOpd)
  /-- R208: a sweep stages from both of two queues, and neither has a filled entry -/
  | popEither (a b : VOpd)
  /-- R15: xq or bq, in the direction access to compute (`ac`) or back -/
  | xqFull (ac : Bool) | xqEmpty (ac : Bool) | bqFull (ac : Bool) | bqEmpty (ac : Bool)
  /-- R18: the bound of `cr.ahead` -/
  | ahead
  /-- R29: the compute strand's `vsetvl` waits for the access strand's next one -/
  | mateVsetvl
  /-- R28, R29: a changed grant waits: destination, n, share, class and width of the `vsetvl` -/
  | regrant (d : XReg) (n : Nat) (share cls : Nat) (ew : BitVec 2)
  /-- R29: as `regrant`, for a `setshape` -/
  | reshape (d : XReg) (n nr : Nat) (share cls : Nat) (ew : BitVec 2)
  /-- R245: the other strand has not executed `hexit` -/
  | mateHexit
  /-- R116: a `trap` while the other strand is in the handler -/
  | handler
  /-- R240, R186: 32 incomplete launches, or engine commands -/
  | launches | commands
  | barrier (k : BarrierKey) (a : Nat)
  | iwait (c : BitVec 5) (n : Int) | ipost (c : BitVec 5) (n : Int)
  | lwait (w : Word) | cpywait (w : Word)
  /-- R175: `vwait` reads again at each turn -/
  | vwait
  /-- R231: registered for a round of this slot -/
  | contend (slot : BitVec 4)
  /-- R36: at a rendezvous point of its launch -/
  | rendezvous
  /-- R35: the lead hart's lag bound, or a hart level with the lead -/
  | lead
  /-- R361: a shootdown is running -/
  | shootdown
  /-- R190: the line is an engine's -/
  | engine (line : Nat)
  /-- R83: a scalar instruction behind a convoy in flight waits until it has drained -/
  | convoy
  /-- R184: the end of a stream waits for the entry it has begun -/
  | stream (n : BitVec 3)
  deriving DecidableEq, Repr, Inhabited

/-- One slot of a convoy in flight (R32, R82, R352). -/
structure Slot where
  instr : Instr
  fmtw  : Word
  xsv   : Word
  xbv   : Word
  rbase : Word
  /-- elements complete in each logical lane group -/
  ctr   : Vector (BitVec 16) 8
  /-- the slot's own entry of a load or store queue is reserved -/
  pushed : Bool
  done  : Bool
  /-- the descriptor, specification or die base table read at dispatch (R411) -/
  desc  : BitVec 512
  /-- the elements that a `vwait` in progress has met (R175), that a `vxlateff` has found out of range, or of those that a load with G = 1 has completed
  the ones that name another die (R36) -/
  met   : MBits
  /-- bytes that a sweep has staged of its A and its B operand (R208) -/
  staged : Nat × Nat
  /-- `cr.ew` at dispatch, of which the default format word is made (R42) -/
  ew    : BitVec 2
  /-- x24-x31 named the shadow copies at dispatch (R114) -/
  shadow : Bool
  /-- a stop is asked for: the slot goes on to the stop points of R33 and R217 that this number chooses -/
  stop  : Option Nat
  /-- what the slot waits for while later slots of its convoy go on (R218) -/
  held  : Option Stall
  deriving DecidableEq, Repr

/-- What the device keeps of a slot in flight beside the image: whether it is complete, which its counters do not show at length 0; whether its
queue entry is reserved; `cr.ew` and the bank of x24-x31 at dispatch; and the elements of a `vxlateff` found out of range, or of a load with G = 1 that
name another die. -/
structure Kept where
  done   : Bool
  pushed : Bool
  ew     : BitVec 2
  shadow : Bool
  met    : MBits
  deriving DecidableEq, Repr, Inhabited

/-- What an image carries for a slot of a convoy in flight (R352, R353): the captured values and counters. -/
structure Captured where
  fmtw  : Word
  xsv   : Word
  xbv   : Word
  rbase : Word
  ctr   : Vector (BitVec 16) 8
  /-- kept beside the image: bytes a sweep has staged, and the slot's own record; none where the device has kept none -/
  staged : Nat × Nat
  kept   : Option Kept
  deriving DecidableEq, Repr, Inhabited

/-- `ll`'s reservation (R99): address, width in bytes and physical line. -/
structure Reservation where
  ea   : Word
  size : Nat
  line : Nat
  deriving DecidableEq, Repr, Inhabited

/-- The length and width of a strip, with the rows, row length and row capacity of a Mygar one (R30, R125, R279). -/
structure Strip where
  vl     : BitVec 14
  ew     : BitVec 2
  rows   : Nat
  rowLen : Nat
  rowCap : Nat
  deriving DecidableEq, Repr, Inhabited

/-- A convoy that a user interrupt has set aside (R177, R236): the address of its header and its slots, the return point of the interrupt, the strip of
the convoy where an instruction behind it had opened another, and its issue unit. -/
structure Aside where
  pc    : Word
  slots : List Slot
  ret   : Word
  strip : Option Strip
  unit  : Nat
  deriving DecidableEq, Repr

/-- One strand (R9, R11). -/
structure Strand where
  pc      : Word
  x       : Vector Word 32
  /-- x24-x31 of the user handler -/
  shadow  : Vector Word 8
  vl      : BitVec 14
  ew      : BitVec 2
  /-- `hexit` executed -/
  hexited : Bool
  /-- the slots of the convoy in flight at pc -/
  convoy  : Option (List Slot)
  /-- a convoy that a user interrupt has set aside at its `vwait` or `cpywait` (R177, R236) -/
  aside   : Option Aside
  /-- the record of a convoy in flight at an image's stop, until the word at pc is fetched (R353) -/
  resumed : Option (List Captured)
  stall   : Option Stall
  /-- with a convoy in flight at pc: where the scalar instructions behind it have got to, and what they wait for (R83, R114); `none` stands
  for the word after the convoy -/
  ahead   : Option (Word × Option Stall)
  /-- the strip that a scalar instruction behind the convoy in flight has opened; the convoy's own strip is in the fields beside this one (R28, R83) -/
  later   : Option Strip
  /-- the issue unit of the convoy in flight (R34) -/
  unit    : Nat
  /-- the shape of a Mygar strip (R279): rows, row length and row capacity -/
  rows    : Nat
  rowLen  : Nat
  rowCap  : Nat
  /-- the text it executes is a Mygar translation, with its two-dimensional registers (R278, R283) -/
  portable : Bool
  /-- when the stream last issued; 0 for never (R344) -/
  lastIssue : Nat
  resv    : Option Reservation
  /-- physical lines linked by `vgl` (R169) -/
  links   : List Nat
  /-- how many `vsetvl` this strand has executed in the hart's life (R29) -/
  strips  : Nat
  deriving DecidableEq, Repr

/-- A vector queue entry (R15, R17): its bits, whether every element is filled, and the pusher's vl. -/
structure QEntry where
  bits : VBits
  full : Bool
  vl   : BitVec 14
  deriving DecidableEq, Repr, Inhabited

/-- A pending user interrupt (R113): the strand it goes to, its code and completion word. -/
structure UserInt where
  access : Bool
  code   : BitVec 6
  cword  : Word
  deriving DecidableEq, Repr, Inhabited

/-- A mapped 4 KiB stash unit (R178): stash unit number, virtual unit address, and what the address translated to when it was mapped: the physical
address, if it had one, and whether a 512 MiB leaf gave it (R179, R361). -/
structure StashUnit where
  unit : Nat
  base : Nat
  pa   : Option Nat
  large : Bool
  deriving DecidableEq, Repr, Inhabited

/-- A bound stream (R181, R182). -/
structure Stream where
  num    : BitVec 3
  queue  : VOpd
  spec   : BitVec 512
  /-- next entry, and the elements of it that a fault has left; none while the entry has not begun -/
  entry  : Nat
  left   : List Nat
  /-- elements the stream's entries hold: vl at `strm` -/
  vl     : Nat
  fault  : Option Trap
  deriving DecidableEq, Repr, Inhabited

/-- A hart's entry in the lane allocation table (R24, R26). `cls` is 0 before the first `vsetvl`. -/
structure Grant where
  share  : Nat
  cls    : Nat
  groups : Nat
  banks  : Nat
  /-- the granted VLEN in bits, 0 for none -/
  vlen   : Nat
  short  : Bool
  deriving DecidableEq, Repr, Inhabited

/-- Where a hart stands. -/
inductive Status where
  | running
  /-- R341: placed, not yet issuing -/
  | held
  /-- a stop is requested: reason 0 pre-emption, 1 trap, 2 armature stop (R347) -/
  | stopping (reason : Nat)
  /-- stopped, its image written -/
  | stopped (reason : Nat) (image : Nat)
  /-- both strands have executed `hexit` and the work drains (R31) -/
  | retiring
  deriving DecidableEq, Repr, Inhabited

/-- The vector and mask registers (R9, R119). -/
structure VecRegs where
  v : Vector VBits 32
  m : Vector MBits 8
  deriving DecidableEq, Repr

/-- The queues between the strands (R15). -/
structure Queues where
  lq   : Vector (List QEntry) 8
  sq   : Vector (List QEntry) 4
  xqAC : List Word
  xqCA : List Word
  bqAC : List Bool
  bqCA : List Bool
  deriving DecidableEq, Repr

/-- The hart's accumulator share with its presence bits, bit j for offset lo + j, and the operand staging (R203, R208, R352). -/
structure AccStore where
  acc     : BitVec 2097152
  present : BitVec 65536
  stageA  : BitVec 524288
  stageB  : BitVec 524288
  /-- the share, in 8 KiB units -/
  accs    : Nat
  deriving DecidableEq, Repr

/-- The control registers a hart has one of, as they read (R110). -/
structure CtrlRegs where
  ahead  : Word
  seed   : Word
  rngctr : Word
  mshape : Word
  accwin : Word
  dprog  : Word
  uivec  : Word
  upc    : Word
  ucause : Word
  utval  : Word
  itlo   : Word
  itcnt  : Word
  itstep : Word
  launch : Word
  instret : Word
  dit    : Word
  deriving DecidableEq, Repr, Inhabited

/-- What the two strands of a hart share (R9, R110). -/
structure Hart where
  /-- false in a machine in which no hart runs -/
  live   : Bool
  id     : HartId
  key    : HartKey
  status : Status
  trap   : Option Trap
  /-- the strand of the pending trap is the access strand -/
  trapAccess : Bool
  supervisor : Bool
  tenant : Nat
  regs   : VecRegs
  q      : Queues
  dg     : AccStore
  stash  : Nat
  stashMap : List StashUnit
  streams  : List Stream
  grant  : Grant
  /-- R357: the VLEN saved in the image of an unpinned hart that has not executed its first `vsetvl` since -/
  savedVlen : Nat
  cr     : CtrlRegs
  -- small state
  latch  : Word
  latchValid : Bool
  pending : List UserInt
  /-- vlenlog of the launch record (R162) -/
  recVlen : Nat
  /-- issue units consumed (R35) -/
  units  : Nat
  deriving DecidableEq, Repr

/-- A hart with its strands: the single or access strand, and the compute strand of a decoupled hart. -/
structure HartBox where
  hart : Hart
  s0   : Strand
  s1   : Option Strand
  deriving DecidableEq, Repr

/-! ## Cores, dies and placement -/

/-- A translation held by a core's TLB (R360): the virtual page in 64 KiB units, whether it stands for a 512 MiB leaf, and the
leaf entry. -/
structure TlbEntry where
  die : DieId
  core : CoreId
  tenant : Nat
  page : Nat
  large : Bool
  pte : Word
  deriving DecidableEq, Repr, Inhabited

/-- An upper-level entry that the walkers of a die hold (R360): the level, the first 64 KiB page that the entry stands for, and the entry. -/
structure WalkerEntry where
  die : DieId
  tenant : Nat
  level : Nat
  page : Nat
  pte : Word
  deriving DecidableEq, Repr, Inhabited

/-- A core that differs from a fresh one: retirement byte, draining, errors, and L1 banks (R28, R395, R396). -/
structure CoreRec where
  die    : DieId
  core   : CoreId
  lgmask : BitVec 8
  draining : Bool
  /-- lane groups to be retired once a draining core holds no hart -/
  due    : BitVec 8
  /-- its second of draining is over, so that the crews still on it are pre-empted (R396) -/
  overdue : Bool
  /-- uncorrectable errors so far (R395) -/
  ues    : Nat
  l1Banks  : Nat
  deriving DecidableEq, Repr, Inhabited

/-- An image slot in use (R346, R350): the hart saved in it, why it stopped, whether it keeps its hart slot, and whether its
record has been answered. -/
structure Image where
  slot   : Nat
  key    : HartKey
  reason : Nat
  inPlace : Bool
  answered : Bool
  owner  : HartId
  /-- what the device keeps beside the image: the streams' progress, user interrupts beyond the 16 that the image
  holds (R113), the bytes staged by a sweep in progress, the convoys that a user interrupt set aside, the issue units consumed (R38), the
  strips of the strands (R29) and the short flag (R356) -/
  streams : List Stream
  later  : List UserInt
  staged : Nat × Nat
  aside0 : Option Aside
  aside1 : Option Aside
  /-- the address of each strand's convoy in flight with where its scalar instructions have got to (R83) and the strip they have opened, and the
  records of its slots -/
  ahead0 : Option (Word × Word)
  ahead1 : Option (Word × Word)
  later0 : Option Strip
  later1 : Option Strip
  kept0  : List Kept
  kept1  : List Kept
  /-- the issue unit of the convoy in flight, where it is one of the launch's units (R34) -/
  flight : Option Nat
  /-- the registers of a hart that holds no grant, with the VLEN they were saved at (R357) -/
  held   : Option (VecRegs × Nat)
  units  : Nat
  strips : Nat × Nat
  /-- the grant's short flag -/
  short  : Bool
  /-- of strand 0 and of strand 1: translated text (R283), with rows, row length and row capacity (R279) -/
  portable : Bool × Bool
  shapes : (Nat × Nat × Nat) × (Nat × Nat × Nat)
  deriving DecidableEq, Repr, Inhabited

/-- The supervisor registers of a die, as they read (R345); `cr.spriv` and the write-only `cr.sresume` are not stored. -/
structure SupRegs where
  strapq : Word
  simg   : Word
  sshoot : Word
  sbanks : Word
  sroot  : Word
  deriving DecidableEq, Repr, Inhabited

/-- A glaze unit's registers (R369). -/
structure GlazeRegs where
  gcmd   : Word
  busy   : Bool
  result : Nat
  garg   : Word
  tfcount : Nat
  tenant : Nat
  tagfail : Bool
  wrapblk : Bool
  due    : Bool
  /-- the tiles of a `clear` that still wait for an engine's lines (R377) -/
  clearing : List Nat
  /-- the tiles of a `scrub` under way whose fills wait (R367, R370) -/
  scrubbing : List Nat
  deriving DecidableEq, Repr, Inhabited

/-- `ksoft` of a die (R398). -/
structure SoftCounts where
  frret  : Nat
  ue     : Nat
  cedram : Nat
  cesram : Nat
  deriving DecidableEq, Repr, Inhabited

/-- The per-die part: supervisor registers (R345), the dispatch unit's grace register (R342), `pkdie` (R382), the glaze unit's
registers (R369), `ksoft` (R398). -/
structure Die where
  /-- 0 absent, 1 joining, 2 full, 3 memory-only, 4 offline (R382) -/
  state  : Nat
  lostpg : Bool
  crcerr : Nat
  reissue : Nat
  stale  : Nat
  /-- the plinth works (R383) -/
  plinth : Bool
  cycle0 : Nat
  sup    : SupRegs
  trapSeq : Nat
  /-- image slots of the unanswered trap records -/
  unanswered : List Nat
  images : List Image
  grace  : Nat
  /-- microseconds since power-good of the last supervisor fault -/
  superFault : Option Nat
  glaze  : GlazeRegs
  soft   : SoftCounts
  /-- core clock in MHz, doubled refresh, throttled for heat (R401) -/
  clock  : Nat
  dref   : Bool
  limthm : Bool
  deriving DecidableEq, Repr, Inhabited

/-- Who issued a launch: a hart, or entry of a ring slot of a function with its interrupt. -/
inductive Issuer where
  | hart (k : HartKey)
  | ring (fn : Nat) (slot : BitVec 3) (irq : Bool) (ivec : Nat)
  deriving DecidableEq, Repr, Inhabited

/-- A contender waiting for a round (R232). -/
structure Contender where
  slot : BitVec 4
  tag  : BitVec 12
  word : BitVec 43
  hart : HartKey
  deriving DecidableEq, Repr, Inhabited

/-- A launch with the copy of its record (R237, R240). -/
structure Launch where
  id     : Nat
  tenant : Nat
  addr   : Word
  record : BitVec 2048
  issuer : Issuer
  dies   : List DieId
  /-- R341: package sequence number of a launch under the armature -/
  seq    : Option Nat
  /-- crews placed so far, per die -/
  placed : List (DieId × Nat)
  /-- harts retired and drained -/
  retired : List HartKey
  /-- fail cause and owner of the completion word -/
  failed : Option (Nat × Nat)
  /-- the armature broadcasts (R341) -/
  started : Bool
  /-- units the lead has issued, and the branch outcomes of the last 64: unit number and target (R37, R385) -/
  outcomes : List (Nat × Word)
  /-- the last units that the lead die's armature port has fetched: number, pc and bytes (R34, R385) -/
  text   : List (Nat × Word × List Byte)
  /-- units sent to each die, and consumed per hart by credits (R385) -/
  sent   : List (DieId × Nat)
  credits : List (HartKey × Nat)
  /-- each hart's last branch outcome by unit, and those its credits have carried to the lead (R385) -/
  branches : List (HartKey × Nat × Word)
  told   : List (HartKey × Nat × Word)
  /-- harts waiting at a rendezvous point, with its issue unit (R36) -/
  arrived : List (HartKey × Nat)
  /-- harts that a completed rendezvous has let go, with its issue unit -/
  passed : List (HartKey × Nat)
  /-- the contenders of harts that wait at a `contend`, which register together (R36, R317) -/
  joining : List Contender
  deriving DecidableEq, Repr

/-- A launch in a die's wait pool or priority queue (R336): with its place of entry, and whether its conditions have held. -/
structure Queued where
  die    : DieId
  launch : Nat
  level  : Nat
  pooled : Bool
  ready  : Bool
  entry  : Nat
  /-- the core on which victims have been pre-empted for the launch's next crew (R342) -/
  target : Option CoreId
  deriving DecidableEq, Repr, Inhabited

/-- A placed or pre-empted crew (R22): its ranks start at `first`; `placedAt` orders placements. -/
structure Crew where
  die    : DieId
  core   : CoreId
  launch : Nat
  first  : Nat
  size   : Nat
  placedAt : Nat
  /-- stopped by pre-emption or an armature stop, waiting to be placed again -/
  waiting : Bool
  /-- pre-empted since it was placed: a hart of it that a trap has stopped leaves its slot after its record (R349, R354) -/
  preempted : Bool
  deriving DecidableEq, Repr, Inhabited

/-- A claimed iteration channel (R228): frontier F and the iterations posted beyond it. -/
structure Channel where
  die    : DieId
  launch : Nat
  num    : BitVec 5
  front  : Int
  posted : List Int
  deriving DecidableEq, Repr, Inhabited

/-- A barrier's completed-phase count (R226). -/
structure Barrier where
  key   : BarrierKey
  phase : Nat
  deriving DecidableEq, Repr, Inhabited

/-- A member's arrival count and outstanding flag (R226). -/
structure Arrival where
  key   : BarrierKey
  hart  : HartKey
  count : Nat
  outstanding : Bool
  deriving DecidableEq, Repr, Inhabited

/-- An incomplete engine command (R186 to R190). -/
structure Command where
  id     : Nat
  hart   : HartKey
  access : Bool
  /-- 0 `cpy`, 1 `cpy2d`, 3 `trim` -/
  kind   : Nat
  desc   : BitVec 512
  tenant : Nat
  die    : DieId
  /-- the physical destination lines the engine owns -/
  lines  : List Nat
  /-- the completion word of a command that has done its work and waits to store the word (R189, R190) -/
  word   : Option Word
  deriving DecidableEq, Repr

/-! ## Coherence and sealed memory -/

/-- Kinds of poison (R376): a failed seal, or a lost line. -/
inductive Poison where
  | seal | lost
  deriving DecidableEq, Repr, Inhabited

/-- The state of a line in an L1 or stash (R376); I is not listed. -/
inductive L1State where
  | S | E | M | P (k : Poison)
  deriving DecidableEq, Repr, Inhabited

/-- The state of a line at its home directory (R377); I is not listed. -/
inductive HomeState where
  | S (cores : List CoreId) (dies : List DieId)
  | X (o : Requester)
  | G (engine : Nat)
  | P (k : Poison)
  deriving DecidableEq, Repr, Inhabited

/-- The state of a remote-homed line at a die's proxy directory (R378); I is not listed. -/
inductive ProxyState where
  | S (cores : List CoreId)
  | X (c : CoreId)
  deriving DecidableEq, Repr, Inhabited

structure L1Line where
  die : DieId
  core : CoreId
  line : Nat
  st : L1State
  /-- the hart whose stash holds the line, if it is a stash line (R263) -/
  stash : Option HartId
  deriving DecidableEq, Repr, Inhabited

/-- A line of a stream page in a core's L1, without directory tracking: the line as it was filled, with the core's own later stores (R260). -/
structure StreamCopy where
  die : DieId
  core : CoreId
  line : Nat
  bits : BitVec 1024
  deriving DecidableEq, Repr, Inhabited

/-- A request that waits at a home (R377): who asks, for reading or for writing; of a die's request, the core behind its proxy, where the request
names one; and the number of a numbered message. -/
structure Ask where
  who   : Requester
  write : Bool
  core  : Option CoreId
  num   : Option (BitVec 16)
  /-- a read that asks for a copy of a line of a stream page -/
  stream : Bool
  deriving DecidableEq, Repr, Inhabited

/-- What waits behind an engine that owns a line: a request, or another engine's claim. -/
inductive Waiting where
  | ask (a : Ask)
  | claim (e : Nat)
  deriving DecidableEq, Repr, Inhabited

structure HomeLine where
  line : Nat
  st : HomeState
  /-- requests and claims queued while an engine owns the line, in arrival order -/
  queue : List Waiting
  deriving DecidableEq, Repr, Inhabited

structure ProxyLine where
  die : DieId
  line : Nat
  st : ProxyState
  deriving DecidableEq, Repr, Inhabited

/-- The answer to a numbered message (R381). -/
inductive Reply where
  | data | ack
  | poison (k : Poison)
  deriving DecidableEq, Repr, Inhabited

/-- A receiver's window for one sender, an agent of a die (R380, R381): the numbers handled among the last 64, each in progress (none) or done with its
answer, and the highest seen. -/
structure Window where
  src : DieId
  agent : BitVec 5
  dst : DieId
  high : BitVec 16
  seen : List (BitVec 16 × Option Reply)
  deriving DecidableEq, Repr, Inhabited

/-- A numbered message awaiting its answer (R380), with its timeouts so far, and the message as it arrives; `claim` is the line and the engine of a claim. -/
structure Sent where
  src : DieId
  agent : BitVec 5
  dst : DieId
  seq : BitVec 16
  timeouts : Nat
  msg : Option Instr
  claim : Option (Nat × Nat)
  deriving DecidableEq, Repr

/-- A tile's record (R365). `state`: 0 clear, 1 sealed, 2 poisoned, 3 read as poisoned. -/
structure TileRec where
  tile : Nat
  slot : Bool
  state : Nat
  counter : BitVec 32
  tag : BitVec 64
  deriving DecidableEq, Repr, Inhabited

/-- A filled key slot of a die's glaze unit (R364): the key and when it was generated. -/
structure KeySlot where
  die : DieId
  tenant : Nat
  slot : Bool
  key : BitVec 256
  gen : Nat
  deriving DecidableEq, Repr, Inhabited

/-- A frame whose owner is not 0x7F, unassigned (R363). -/
structure FrameOwner where
  frame : Nat
  owner : BitVec 7
  deriving DecidableEq, Repr, Inhabited

structure Coherence where
  l1     : List L1Line
  streams : List StreamCopy
  home   : List HomeLine
  proxy  : List ProxyLine
  windows : List Window
  sent   : List Sent
  /-- what has arrived at a line's home, or waits at its sender, and cannot be handled yet: the fill of its tile waits (R367), or a home or a proxy has 64
  messages unanswered (R380) -/
  delayed : List (Nat × Waiting)
  tlb    : List TlbEntry
  walkers : List WalkerEntry
  deriving DecidableEq, Repr

structure Sealed where
  tiles  : List TileRec
  keys   : List KeySlot
  owners : List FrameOwner
  /-- physical tiles whose lines are in L2, and the dirty lines among them -/
  inL2   : List Nat
  dirty  : List Nat
  /-- held write-backs (R367), by tile -/
  held   : List Nat
  /-- tenants whose `gslot`.due is set, by die -/
  due    : List (DieId × Nat)
  /-- keys generated so far -/
  gens   : Nat
  /-- what DRAM holds since its last seal of a tile that L2 holds or whose record is not `sealed`, as ciphertext (R366); of a sealed tile outside L2 it holds
  the encryption of its bytes in `State.mem`, and nothing is listed here -/
  dram   : List (Nat × List Byte)
  deriving DecidableEq, Repr, Inhabited

/-! ## The host side -/

/-- A ring of a function (R330, R331, R333). -/
structure Ring where
  fn    : Nat
  slot  : BitVec 3
  base  : Word
  en    : Bool
  die   : DieId
  hdrerr : Bool
  reset : Bool
  run   : Bool
  rcount : Word
  slog  : Nat
  vec   : Nat
  /-- the entry that the dispatcher is handling while its launch finds the queue full, and the count it goes up to (R333) -/
  busy  : Option (Nat × Nat)
  deriving DecidableEq, Repr, Inhabited

/-- A device-memory window (R327). -/
structure Window128 where
  fn    : Nat
  idx   : Nat
  bits  : BitVec 128
  deriving DecidableEq, Repr, Inhabited

/-- Events of the log (R402). -/
inductive LogEvent where
  | retirement | uncorrectable | deviceFault | ringStop | supervisorFault | fuseRaise | throttleStart | throttleEnd
  | revoked (hin : List Byte) (secver : Nat)
  | frameKept (f : Nat)
  deriving DecidableEq, Repr, Inhabited

/-- What the device sends to the host or a manager. -/
inductive HostOut where
  /-- a message of vector `vec` of function `fn` (R329) -/
  | msix (fn vec : Nat)
  /-- completion of a window or register read: none is Unsupported Request, `poisoned` is EP with all ones (R328) -/
  | read (fn : Nat) (data : Option (List Byte)) (poisoned : Bool)
  /-- a request of the device's own to an address of the host (R393) -/
  | request (a : Word) (b : List Byte)
  | value (what : Nat) (v : Word)
  | bytes (what : Nat) (b : List Byte)
  /-- the event log, each event with its time (R402) -/
  | log (l : List (LogEvent × Nat))
  deriving DecidableEq, Repr, Inhabited

/-- A host access that waits for a line, or behind one that does (R325, R328, R377): through a window, a write where it has data, with the device address that
the entry holding its offset gave it when it arrived and whether that entry allows writes (R327); or a write of a register. -/
structure HostAccess where
  f    : HostFn
  off  : Nat
  size : Nat
  data : Option (List Byte)
  target : Option (Word × Bool)
  reg  : Option Word
  deriving DecidableEq, Repr, Inhabited

structure HostSide where
  rings   : List Ring
  windows : List Window128
  /-- functions that require IDE, and (function, link) streams with keys (R326) -/
  ideReq  : List Nat
  ideKeys : List (Nat × BitVec 1)
  /-- virtual functions enabled on PF0 and on PF1 (R324) -/
  vfs     : Nat × Nat
  /-- masked and pending vectors of a function on a link (R329) -/
  masked  : List (Nat × BitVec 1 × Nat)
  pendingVec : List (Nat × BitVec 1 × Nat)
  /-- the doublewords of the outbound window table that the host has set (R393) -/
  outbound : List (Nat × Word)
  /-- the address and data words that the host has set in a function's MSI-X table on a link, by doubleword (R324, R329) -/
  msix : List (Nat × BitVec 1 × Nat × Word)
  /-- accesses that wait, in arrival order -/
  waiting : List HostAccess
  /-- each function's error log: the function and an address (R328) -/
  errors  : List (Nat × Word)
  /-- requests to the host that the firmware has asked for and the device has not judged yet: addresses and bytes (R393) -/
  requests : List (Word × List Byte)
  out     : List HostOut
  /-- width and rate each link trained to (R324) -/
  links   : List (BitVec 1 × Nat × Nat)
  deriving DecidableEq, Repr, Inhabited

/-! ## The kiln controller -/

/-- An object the loader has placed (R287, R289). -/
structure Placed where
  id     : Nat
  secver : Nat
  base   : Nat
  size   : Nat
  /-- the hash of its input container, and whether its text is a Mygar translation (R283) -/
  hin    : List Byte
  portable : Bool
  deriving DecidableEq, Repr, Inhabited

/-- A translation cache entry (R288). -/
structure CacheEntry where
  hin    : List Byte
  revision : Word
  tver   : Nat
  secver : Nat
  output : List Byte
  deriving DecidableEq, Repr, Inhabited

structure Kiln where
  stage  : Nat
  failedDies : BitVec 8
  bank   : Bool
  secver : Nat
  tfloor : Nat
  hbody  : List Byte
  -- fuses and `kfuse`
  fwv    : Nat
  objv   : Nat
  fuseBusy : Bool
  fuseResult : Nat
  fuseWhich : Bool
  fuseTarget : Nat
  /-- bits that a raise in progress is known to have blown, as a counter value (R392) -/
  fuseBlown : Nat
  flashA : List Byte
  flashB : List Byte
  -- `khealth`
  faults : Nat
  recovering : Bool
  replace : Bool
  -- `kpower`
  cap    : Nat
  limcur : Bool
  jt     : Nat
  dramt  : Nat
  watts  : Nat
  /-- corrected and uncorrectable errors of the last 24 h: site and time in µs (R395) -/
  recent : List (ErrorSite × Nat)
  log    : List (LogEvent × Nat)
  lost   : List (Nat × Nat)
  /-- frames whose retirement waits until none of their tiles waits (R397, R367, R377) -/
  retiring : List Nat
  cache  : List CacheEntry
  placed : List Placed
  /-- unloaded objects whose pages older launches still use, each with the first launch for which they are gone (R289) -/
  unloaded : List (Placed × Nat)
  deriving DecidableEq, Repr

/-! ## The package -/

structure Sched where
  launches : List Launch
  queued   : List Queued
  crews    : List Crew
  channels : List Channel
  barriers : List Barrier
  arrivals : List Arrival
  contenders : List Contender
  commands : List Command
  /-- counters that give identities, places of entry and sequence numbers -/
  nextLaunch : Nat
  nextEntry  : Nat
  nextSeq    : Nat
  nextCommand : Nat
  deriving DecidableEq, Repr, Inhabited

/-- The machine. `strand` issues; `role` says which strand of `hart` it is; `mate` is the other strand of a decoupled hart. -/
structure State where
  strand : Strand
  mate   : Option Strand
  role   : Role
  hart   : Hart
  parked : List HartBox
  /-- steps of the device still to happen, first to happen first -/
  inputs : List Instr
  mem    : Memory
  coh    : Coherence
  sealed : Sealed
  cores  : List CoreRec
  dies   : Vector Die 8
  sched  : Sched
  host   : HostSide
  kiln   : Kiln
  /-- core cycles since power-good, and microseconds of the last timed event -/
  cycle  : Nat
  now    : Nat
  /-- issues so far, the model's own count for R344 -/
  issues : Nat
  /-- the model's own counter of free values -/
  fresh  : Nat
  deriving DecidableEq, Repr

/-! ## Reset -/

/-- A strand as a hart starts it (R23). -/
def Strand.start (pc : Word) : Strand :=
  { pc := pc, x := Vector.replicate 32 0, shadow := Vector.replicate 8 0, vl := 0, ew := 3, hexited := false
    convoy := none, aside := none, resumed := none, stall := none, ahead := none, later := none, unit := 0, rows := 0, rowLen := 0, rowCap := 1, portable := false, lastIssue := 0, resv := none, links := [], strips := 0 }

/-- The grant of a hart before its first `vsetvl` (R23). -/
def Grant.none : Grant := { share := 0, cls := 0, groups := 0, banks := 0, vlen := 0, short := false }

/-- The control registers at reset (R18, R110 and their maps); `cr.ahead` reads 0 in coupled mode. -/
def CtrlRegs.reset : CtrlRegs :=
  { ahead := 0, seed := 0, rngctr := 0, mshape := 0, accwin := 0, dprog := 0, uivec := 0, upc := 0, ucause := 0, utval := 0, itlo := 0
    itcnt := 0, itstep := 0, launch := 0, instret := 0, dit := 0 }

/-- A hart slot with no hart in it. -/
def Hart.empty : Hart :=
  { live := false, id := 0, key := ⟨0, 0, 0⟩, status := .running, trap := none, trapAccess := false, supervisor := false, tenant := 0
    regs := { v := Vector.replicate 32 0, m := Vector.replicate 8 0 }
    q := { lq := Vector.replicate 8 [], sq := Vector.replicate 4 [], xqAC := [], xqCA := [], bqAC := [], bqCA := [] }
    dg := { acc := 0, present := 0, stageA := 0, stageB := 0, accs := 0 }, stash := 0, stashMap := [], streams := []
    grant := Grant.none, savedVlen := 0, cr := CtrlRegs.reset
    latch := 0, latchValid := false, pending := [], recVlen := 0, units := 0 }

/-- A die at power-good (R382, R345, R342, R401). -/
def Die.reset : Die :=
  { state := 0, lostpg := false, crcerr := 0, reissue := 0, stale := 0, plinth := true, cycle0 := 0
    sup := { strapq := 0, simg := 0, sshoot := 0, sbanks := 32, sroot := 0 }
    trapSeq := 0, unanswered := [], images := [], grace := 20, superFault := none
    glaze := { gcmd := 0, busy := false, result := 0, garg := 0, tfcount := 0, tenant := 0, tagfail := false, wrapblk := false, due := false, clearing := [], scrubbing := [] }
    soft := { frret := 0, ue := 0, cedram := 0, cesram := 0 }, clock := 4000, dref := false, limthm := false }

def Coherence.reset : Coherence := { l1 := [], streams := [], home := [], proxy := [], windows := [], sent := [], delayed := [], tlb := [], walkers := [] }

def Sealed.reset : Sealed := { tiles := [], keys := [], owners := [], inL2 := [], dirty := [], held := [], due := [], gens := 0, dram := [] }

def Sched.reset : Sched :=
  { launches := [], queued := [], crews := [], channels := [], barriers := [], arrivals := [], contenders := [], commands := []
    nextLaunch := 1, nextEntry := 0, nextSeq := 0, nextCommand := 0 }

def HostSide.reset : HostSide :=
  { rings := [], windows := [], ideReq := [], ideKeys := [], vfs := (0, 0), masked := [], pendingVec := [], outbound := [], msix := [], waiting := [], errors := [], requests := [], out := [], links := [] }

/-- The kiln controller at power-good (R387, R390, R394, R401). -/
def Kiln.reset : Kiln :=
  { stage := 0, failedDies := 0, bank := false, secver := 0, tfloor := 0, hbody := [], fwv := Config.fusedFirmware.val
    objv := Config.fusedObject.val, fuseBusy := false, fuseResult := 0, fuseWhich := false, fuseTarget := 0, fuseBlown := 0, flashA := Config.flashA
    flashB := Config.flashB, faults := 0, recovering := false, replace := false, cap := 2800, limcur := false, jt := 0, dramt := 0
    watts := 0, recent := [], log := [], lost := [], retiring := [], cache := [], placed := [], unloaded := [] }

/-- The module at power-good: stage 0, no die joined, no hart (R387). -/
def State.reset : State :=
  { strand := Strand.start 0, mate := none, role := .single, hart := Hart.empty, parked := [], inputs := [], mem := []
    coh := Coherence.reset, sealed := Sealed.reset, cores := [], dies := Vector.replicate 8 Die.reset, sched := Sched.reset
    host := HostSide.reset, kiln := Kiln.reset, cycle := 0, now := 0, issues := 0, fresh := 0 }

end Sys2Proof.Machine
end

