-- ==== Sys2Proof/Machine/Ops.lean ====
section
/-! DEFINITION. The named operations over memory, registers, harts and dies, and taking a trap, delivering to a user handler and
returning from it (R97, R112 to R117, R347). -/

namespace Sys2Proof.Machine

/-- What a step answers. -/
abbrev Result := Host.Outcome State Fault Refusal

/-! ## Memory -/

/-- The canonical form: addresses strictly rising, no byte equal to what an unlisted one reads as. -/
abbrev Memory.wf (m : Memory) : Prop := m.Pairwise (fun a b => a.1 < b.1) ∧ ∀ c ∈ m, c.2 ≠ 0

/-- The byte at an address; 0 where none is listed. -/
def Memory.read (m : Memory) (a : Nat) : Byte :=
  match m with
  | [] => 0
  | c :: r => if c.1 == a then c.2 else Memory.read r a

/-- The memory with one byte written. -/
def Memory.write (m : Memory) (a : Nat) (v : Byte) : Memory :=
  match m with
  | [] => if v == 0 then [] else [(a, v)]
  | c :: r =>
    if c.1 < a then c :: Memory.write r a v
    else if c.1 == a then (if v == 0 then r else (a, v) :: r)
    else if v == 0 then c :: r else (a, v) :: c :: r

/-- n bytes from an address, the lowest address least significant (R5). -/
def Memory.readNat (m : Memory) (a n : Nat) : Nat :=
  match n with
  | 0 => 0
  | n + 1 => (m.read a).toNat + 256 * m.readNat (a + 1) n

/-- Writes the low n bytes of v from an address on (R5). -/
def Memory.writeNat (m : Memory) (a n v : Nat) : Memory :=
  match n with
  | 0 => m
  | n + 1 => (m.write a (BitVec.ofNat 8 v)).writeNat (a + 1) n (v / 256)

/-- The memory without the bytes of a range. -/
def Memory.zero (m : Memory) (a n : Nat) : Memory := m.filter (fun c => !(a ≤ c.1 && c.1 < a + n))

/-- n bytes from an address, as a list. -/
def Memory.bytes (m : Memory) (a n : Nat) : List Byte := (List.range n).map (fun i => m.read (a + i))

/-- Bits [w*i+w-1 : w*i] of a number. -/
def field (v w i : Nat) : Nat := v / 2 ^ (w * i) % 2 ^ w

/-! ## Free values -/

/-- The machine with the free-value counter advanced. -/
def bump (s : State) : State := { s with fresh := s.fresh + 1 }

/-! ## The focus: harts and strands -/

/-- The die, core and slot of a hart identity (R110). -/
def dieOf (h : HartId) : DieId := h.extractLsb' 8 3
def coreOf (h : HartId) : CoreId := h.extractLsb' 2 6
def slotOf (h : HartId) : BitVec 2 := h.extractLsb' 0 2

/-- The hart in the focus as a box. -/
def focusBox (s : State) : HartBox :=
  if s.role == .compute then { hart := s.hart, s0 := s.mate.getD s.strand, s1 := some s.strand }
  else { hart := s.hart, s0 := s.strand, s1 := s.mate }

/-- Every hart of the package. -/
def boxes (s : State) : List HartBox := (if s.hart.live then [focusBox s] else []) ++ s.parked

def boxOf (s : State) (h : HartId) : Option HartBox := (boxes s).find? (fun b => b.hart.live && b.hart.id == h)

/-- The machine with one strand of a box in the focus. -/
def loadBox (s : State) (b : HartBox) (r : Role) : State :=
  match b.s1 with
  | none => { s with strand := b.s0, mate := none, role := .single, hart := b.hart }
  | some c =>
    if r == .compute then { s with strand := c, mate := some b.s0, role := .compute, hart := b.hart }
    else { s with strand := b.s0, mate := some c, role := .access, hart := b.hart }

/-- Brings a strand of a hart into the focus; the hart that stood there is parked. -/
def focusOn (s : State) (h : HartId) (r : Role) : State :=
  match boxOf s h with
  | none => s
  | some b =>
    let others := (boxes s).filter (fun c => c.hart.id != h)
    loadBox { s with parked := others } b r

/-- Applies a function to every hart of the package. -/
def mapBoxes (s : State) (f : HartBox → HartBox) : State :=
  if s.hart.live then loadBox { s with parked := s.parked.map f } (f (focusBox s)) s.role
  else { s with parked := s.parked.map f }

/-- Applies a function to one hart. -/
def onHart (s : State) (h : HartId) (f : HartBox → HartBox) : State :=
  mapBoxes s (fun b => if b.hart.id == h then f b else b)

/-- Applies a function to every strand of the harts that pass a test. -/
def onStrands (s : State) (p : Hart → Bool) (f : Strand → Strand) : State :=
  { s with
    strand := if p s.hart then f s.strand else s.strand
    mate := if p s.hart then s.mate.map f else s.mate
    parked := s.parked.map (fun b => if p b.hart then { b with s0 := f b.s0, s1 := b.s1.map f } else b) }

/-- Takes a hart off its slot. -/
def removeHart (s : State) (h : HartId) : State :=
  let s := { s with parked := s.parked.filter (fun b => b.hart.id != h) }
  if s.hart.live && s.hart.id == h then { s with hart := Hart.empty, strand := Strand.start 0, mate := none, role := .single } else s

/-- Adds a hart. -/
def addHart (s : State) (b : HartBox) : State := { s with parked := s.parked ++ [b] }

/-- The strands of a box with their roles. -/
def HartBox.strands (b : HartBox) : List (Role × Strand) :=
  match b.s1 with
  | none => [(.single, b.s0)]
  | some c => [(.access, b.s0), (.compute, c)]

/-- Applies a function to every strand of a box. -/
def HartBox.mapStrands (b : HartBox) (f : Strand → Strand) : HartBox := { b with s0 := f b.s0, s1 := b.s1.map f }

def HartBox.decoupled (b : HartBox) : Bool := b.s1.isSome

/-! ## Scalar registers -/

/-- Whether the strand is in its user handler, so that x24-x31 name the shadow copies (R114). -/
def inHandler (s : State) : Bool :=
  s.hart.cr.ucause.getLsbD 63 && s.hart.cr.ucause.getLsbD 62 == (s.role == .access)

/-- x[r] as the strand reads it: x0 is 0 (R91), x24-x31 the shadow bank in the handler (R114). -/
def getX (s : State) (r : XReg) : Word :=
  if r = 0 then 0
  else if 24 ≤ r.toNat ∧ inHandler s then s.strand.shadow[r.toNat % 8]'(Nat.mod_lt _ (by decide))
  else s.strand.x[r.toNat]'r.isLt

/-- x[r] written, x24-x31 in the shadow bank or the ordinary one; a write to x0 is discarded (R91). -/
def bankX (s : State) (shadow : Bool) (r : XReg) (v : Word) : State :=
  if r = 0 then s
  else if 24 ≤ r.toNat ∧ shadow then
    { s with strand := { s.strand with shadow := s.strand.shadow.set (r.toNat % 8) v (Nat.mod_lt _ (by decide)) } }
  else { s with strand := { s.strand with x := s.strand.x.set r.toNat v r.isLt } }

/-- x[r] written as the strand names it now (R114). -/
def setX (s : State) (r : XReg) (v : Word) : State := bankX s (inHandler s) r v

/-- The program counter set. -/
def setPc (s : State) (pc : Word) : State := { s with strand := { s.strand with pc := pc } }

/-- Counts n instructions retired (`cr.instret`), as one issue unit (R34, R84) or as none. -/
def countAs (s : State) (n : Nat) (unit : Bool) : State :=
  { s with hart := { s.hart with
      cr := { s.hart.cr with instret := s.hart.cr.instret + BitVec.ofNat 64 n }, units := s.hart.units + unit.toNat } }

/-- Counts n instructions retired, as one issue unit. What a strand executes in its user handler is no issue unit of its launch (DESIGN CHOICE, log
entry 111). -/
def countInstr (s : State) (n : Nat) : State := countAs s n (!inHandler s)

/-- A scalar instruction retires: pc + 4 (R103, R112). -/
def advance (s : State) : State := countInstr (setPc s (s.strand.pc + 4)) 1

/-- The strand waits: nothing of the instruction has happened (R15, R117). -/
def stallOn (s : State) (r : Stall) : State := { s with strand := { s.strand with stall := some r } }

/-! ## Dies -/

def dieRec (s : State) (d : DieId) : Die := s.dies[d.toNat]'d.isLt

def setDie (s : State) (d : DieId) (x : Die) : State := { s with dies := s.dies.set d.toNat x d.isLt }

/-- The die the focused hart runs on. -/
def myDie (s : State) : DieId := dieOf s.hart.id

/-- Whether a die is in the full state (R382). -/
def dieFull (s : State) (d : DieId) : Bool := (dieRec s d).state == 2

def allDies : List DieId := (List.range 8).map (BitVec.ofNat 3)

def launchOf (s : State) (l : Nat) : Option Launch := s.sched.launches.find? (fun x => x.id == l)

def setLaunch (s : State) (l : Launch) : State :=
  { s with sched := { s.sched with launches := s.sched.launches.map (fun x => if x.id == l.id then l else x) } }

/-- A launch with a level spatial over dies runs under the armature (R34). -/
def underArmature (s : State) (l : Nat) : Bool := ((launchOf s l).bind (·.seq)).isSome

/-- The lead die of a launch under the armature (R34). -/
def leadDie (l : Launch) : DieId := l.dies.foldl (fun a d => if d.toNat < a.toNat then d else a) (l.dies.headD 0)

/-- The lead hart is the rank-0 hart on the lead die (R35). -/
def isLead (s : State) (h : Hart) : Bool :=
  match launchOf s h.key.launch with
  | none => false
  | some l => h.key.die == leadDie l && h.key.rank == 0

/-- The issue unit of a strand's convoy in flight, or of one to be taken up at the pc, where it is one of its launch's: it was not dispatched in the user
handler (log entry 111). -/
def Strand.flight (x : Strand) : Option Nat :=
  match x.convoy, x.resumed with
  | some ks, _ => if ks.all (fun k => !k.shadow) then some x.unit else none
  | none, some cs => if cs.all (fun c => !c.kept.any (·.shadow)) then some x.unit else none
  | none, none => none

/-- The issue unit that the focused strand's work belongs to: that of its convoy in flight, or the next one. -/
def unitNow (s : State) : Nat := s.strand.flight.getD s.hart.units

/-- The issue unit that a hart under the armature is at: the oldest that it has not completed. -/
def HartBox.unitAt (b : HartBox) : Nat := b.s0.flight.getD b.hart.units

/-- Whether what the focused strand executes is an issue unit of its launch: its convoy in flight, or else its next instruction. -/
def inUnit (s : State) : Bool := match s.strand.convoy with
  | some ks => ks.all (fun k => !k.shadow)
  | none => !inHandler s

/-- A rendezvous point (R36): the machine, and whether the focused hart may complete it. A hart that arrives waits until all harts of its
launch have reached the same issue unit; what is no issue unit meets nobody (DESIGN CHOICE, log entry 111). -/
def meet (s : State) : State × Bool :=
  match launchOf s s.hart.key.launch with
  | none => (s, true)
  | some l =>
    let at' := (s.hart.key, unitNow s)
    if !inUnit s || l.passed.contains at' then (s, true)
    else if l.arrived.contains at' then (s, false)
    else
      let s := setLaunch s { l with arrived := at' :: l.arrived }
      ({ s with inputs := s.inputs ++ [Instr.rendezvousCompletion l.id] }, false)

/-! ## Traps -/

/-- A trap of the scalar word or convoy at the strand's pc. Slot 7 stands for a scalar word or a fetch (R350); DESIGN CHOICE (log entry 123): for the check of a
convoy's header too, for which R350 names no value. -/
def trapAt (s : State) (cls sub : Nat) (value : Word) : Trap :=
  { cls := cls, sub := sub, value := value, pc := s.strand.pc, slot := 7, elem := 0, sflag := false, stream := 0, entry := 0 }

/-- R37, R347: every other hart of the launch is asked to stop with reason armature stop. One that is at the same issue unit may still execute it, and
trap in it (R349); the others stop next. -/
def armatureStop (s : State) : State :=
  if underArmature s s.hart.key.launch then
    let mine (b : HartBox) : Bool := b.hart.key.launch == s.hart.key.launch && b.hart.id != s.hart.id && b.hart.status == .running
    { s with
      parked := s.parked.map (fun b => if mine b then { b with hart := { b.hart with status := .stopping 2 } } else b)
      inputs := s.inputs ++ (s.parked.filter (fun b => mine b && b.unitAt != unitNow s)).map (fun b => Instr.hartStop b.hart.id) }
  else s

/-- A trap that goes to the supervisor (R345, R347): the strand stops at its instruction, its reservation and links are lost (R99,
R169), the other strand stops with it, and the device writes image and record next. A supervisor hart's trap goes to the kiln
controller. -/
def raise (t : Trap) (s : State) : State :=
  let s := { s with
    hart := { s.hart with trap := some t, trapAccess := s.role == Role.access, status := .stopping 1 }
    strand := { s.strand with resv := none, links := [] } }
  if s.hart.supervisor then { s with inputs := s.inputs ++ [Instr.supervisorFault (myDie s) s.now] }
  else armatureStop { s with inputs := s.inputs ++ [Instr.hartStop s.hart.id, Instr.trapRecord s.hart.id] }

/-- The illegal-instruction trap (class 1) with a subcause and the instruction's word. -/
def illegalSub (sub : Nat) (i : Instr) (s : State) : State := raise (trapAt s 1 sub (instrWord i)) s

/-- The illegal-instruction trap of an encoding or use (R88). -/
def illegal (i : Instr) (s : State) : State := illegalSub 0 i s

/-- The alignment trap (class 7). -/
def alignTrap (value : Word) (s : State) : State := raise (trapAt s 7 0 value) s

/-! ## The user handler -/

/-- `cr.ucause` at delivery (R114). -/
def ucauseWord (access : Bool) (kind : Nat) (code : BitVec 6) : Word :=
  (1 : BitVec 1) ++ BitVec.ofBool access ++ (0 : BitVec 54) ++ BitVec.ofNat 2 kind ++ code

/-- Delivery to the user handler as one step (R114); reservation and links are lost (R99, R169). -/
def deliver (s : State) (ret : Word) (kind : Nat) (code : BitVec 6) (tval : Word) : State :=
  { s with
    strand := { s.strand with pc := s.hart.cr.uivec &&& 0x000FFFFFFFFFFFFC, resv := none, links := [] }
    hart := { s.hart with cr := { s.hart.cr with
      upc := ret &&& 0x000FFFFFFFFFFFFC, ucause := ucauseWord (s.role == .access) kind code, utval := tval } } }

/-- `cr.uivec`.en, `cr.ucause`.inh, and the strand in the handler. -/
def handlerOn (h : Hart) : Bool := h.cr.uivec.getLsbD 0
def inhibited (h : Hart) : Bool := h.cr.ucause.getLsbD 63
def handlerAccess (h : Hart) : Bool := h.cr.ucause.getLsbD 62

/-- A valid `uiret` (R115): pc from `cr.upc`, the ordinary bank back, inh cleared; the reservation and links are lost. -/
def userReturn (s : State) : State :=
  { s with
    strand := { s.strand with pc := s.hart.cr.upc, resv := none, links := [] }
    hart := { s.hart with cr := { s.hart.cr with ucause := s.hart.cr.ucause &&& 0x7FFFFFFFFFFFFFFF } } }

end Sys2Proof.Machine
end

