-- ==== Sys2Proof/Machine/Seal.lean ====
section
/-! DEFINITION. Sealed memory (R363 to R371): owners of frames, key slots, tile records, the fill and the reseal of one tile. `State.mem` holds bytes in the
clear. What DRAM holds of a sealed tile that is not in L2 is their encryption under the tile's owner, slot and counter; encryption under one IV is one to one,
so whatever ciphertext DRAM may come to hold is the encryption of some bytes, and the fill decrypts it to just these and compares their tag with the record's
(R368, R373). No other copy of it is kept. -/

namespace Sys2Proof.Machine

/-! ## Addresses -/

/-- Tile, line and frame numbers of a physical address. -/
def tileOf (pa : Nat) : Nat := pa / 2048
def lineOf (pa : Nat) : Nat := pa / 128
def frameOf (pa : Nat) : Nat := pa / 65536

/-- PA[38:36] is the home die (R374). -/
def homeDieOf (pa : Nat) : DieId := BitVec.ofNat 3 (pa / 2 ^ 36)

/-- 48 GiB of DRAM per stack; the highest 320 MiB is the metadata region (R365, R374). -/
def stackBytes : Nat := 48 * 2 ^ 30
def regionStart : Nat := stackBytes - 320 * 2 ^ 20

/-- The L2 slice of a home that a line lives in, and that holds its directory entry (R374). -/
def sliceOf (pa : Nat) : Nat := (pa / 2 ^ 7 % 128) ^^^ (pa / 2 ^ 14 % 128)

/-- Whether a physical address names a byte of DRAM (R374). -/
def isDram (pa : Nat) : Bool := pa < 2 ^ 39 && pa % 2 ^ 36 < stackBytes

/-- Whether it names a byte that a translation may reach (R359). -/
def isMappable (pa : Nat) : Bool := pa < 2 ^ 39 && pa % 2 ^ 36 < regionStart

/-- The owner of a frame: 0x7F, unassigned, unless set (R363). -/
def ownerOf (s : State) (frame : Nat) : BitVec 7 :=
  match s.sealed.owners.find? (fun o => o.frame == frame) with
  | some o => o.owner
  | none => 0x7F

/-- A tile's record: clear, slot 0, counter 0 unless set (R363, R365). -/
def tileRec (s : State) (t : Nat) : TileRec :=
  (s.sealed.tiles.find? (fun r => r.tile == t)).getD ⟨t, false, 0, 0, 0⟩

def setTile (s : State) (r : TileRec) : State :=
  { s with sealed := { s.sealed with tiles := s.sealed.tiles.filter (fun x => x.tile != r.tile) ++ [r] } }

/-- The key of (die, tenant, slot). -/
def keySlot (s : State) (d : DieId) (tenant : Nat) (slot : Bool) : Option KeySlot :=
  s.sealed.keys.find? (fun k => k.die == d && k.tenant == tenant && k.slot == slot)

/-- The newer slot of a tenant on a die: the one whose key was generated last (R364). -/
def newerSlot (s : State) (d : DieId) (tenant : Nat) : Option Bool :=
  match keySlot s d tenant false, keySlot s d tenant true with
  | none, none => none
  | some _, none => some false
  | none, some _ => some true
  | some a, some b => some (a.gen < b.gen)

/-- The tenant that owns a tile's frame, as a number. -/
def tileOwner (s : State) (t : Nat) : Nat := (ownerOf s (t / 32)).toNat

/-- The IV of a seal (R366). -/
def ivOf (t : Nat) (slot : Bool) (c : BitVec 32) : BitVec 96 := (0 : BitVec 22) ++ BitVec.ofNat 41 t ++ BitVec.ofBool slot ++ c

/-- The tag that a tile's bytes have under (owner, slot, counter); none when the slot is empty (R366). -/
def tagNow (s : State) (t : Nat) (slot : Bool) (c : BitVec 32) : Option (BitVec 64) :=
  (keySlot s (homeDieOf (2048 * t)) (tileOwner s t) slot).map
    (fun k => gcmTag k.key (ivOf t slot c) (s.mem.bytes (2048 * t) 2048))

/-- The sealed-tile count of (die, tenant, slot) (R369). -/
def sealedCount (s : State) (d : DieId) (tenant : Nat) (slot : Bool) : Nat :=
  (s.sealed.tiles.filter (fun r =>
    r.state == 1 && r.slot == slot && homeDieOf (2048 * r.tile) == d && tileOwner s r.tile == tenant)).length

/-! ## Home directory entries -/

def homeLine (s : State) (l : Nat) : Option HomeState := (s.coh.home.find? (fun h => h.line == l)).map (·.st)

def homeQueue (s : State) (l : Nat) : List Waiting := ((s.coh.home.find? (fun h => h.line == l)).map (·.queue)).getD []

/-- The home directory with one line's entry; none is state I. -/
def setHome (s : State) (l : Nat) (h : Option HomeState) (q : List Waiting := []) : State :=
  { s with coh := { s.coh with
      home := s.coh.home.filter (fun x => x.line != l) ++ (match h with | some st => [⟨l, st, q⟩] | none => []) } }

/-- The directory entries that one slice of a die holds (R374). -/
def sliceEntries (s : State) (d : DieId) (n : Nat) : List HomeLine :=
  s.coh.home.filter (fun h => homeDieOf (128 * h.line) == d && sliceOf (128 * h.line) == n)

/-- The kind of poison a line holds (R377). -/
def poisonOf (s : State) (l : Nat) : Option Poison :=
  match homeLine s l with
  | some (.P k) => some k
  | _ => none

/-- The tile's 16 lines enter P with a kind. -/
def poisonTile (s : State) (t : Nat) (k : Poison) : State :=
  (List.range 16).foldl (fun s i => setHome s (16 * t + i) (some (.P k))) s

/-! ## Fill and reseal -/

/-- A failed seal: record state 2, the lines poisoned, dirty data discarded and with it a held write-back, the event counted (R367, R368). -/
def failTile (s : State) (t : Nat) : State :=
  let d := homeDieOf (2048 * t)
  let x := dieRec s d
  let s := setDie s d { x with glaze := { x.glaze with
    tfcount := min (x.glaze.tfcount + 1) (2 ^ 32 - 1), tagfail := true, tenant := tileOwner s t } }
  let s := setTile s { tileRec s t with state := 2 }
  poisonTile { s with sealed := { s.sealed with inL2 := t :: s.sealed.inL2, dirty := s.sealed.dirty.filter (fun l => l / 16 != t), held := s.sealed.held.filter (· != t) } } t .seal

/-- The ciphertext that DRAM goes on holding of a tile whose bytes may change from now on (R366). -/
def putCipher (s : State) (t : Nat) (slot : Bool) (c : BitVec 32) : State :=
  match keySlot s (homeDieOf (2048 * t)) (tileOwner s t) slot with
  | none => s
  | some k =>
    { s with sealed := { s.sealed with
        dram := (t, gcmCipher k.key (ivOf t slot c) (s.mem.bytes (2048 * t) 2048)) :: s.sealed.dram.filter (·.1 != t) } }

/-- The fill of a tile that is not in L2 (R368): of a sealed one DRAM keeps the ciphertext that was read. Every operation that writes memory fills the tile
first, so the bytes of a clear tile outside L2 are 0. -/
def fillTile (s : State) (t : Nat) : State :=
  if s.sealed.inL2.contains t then s
  else
    let r := tileRec s t
    if r.state == 0 then { s with sealed := { s.sealed with inL2 := t :: s.sealed.inL2 } }
    else if r.state == 1 then
      let s1 := putCipher s t r.slot r.counter
      if tagNow s t r.slot r.counter == some r.tag then { s1 with sealed := { s1.sealed with inL2 := t :: s1.sealed.inL2 } }
      else failTile s1 t
    else poisonTile { s with sealed := { s.sealed with inL2 := t :: s.sealed.inL2 } } t .seal

/-- Whether a line of the tile is held by an L1, a proxy or an engine. -/
def tileCached (s : State) (t : Nat) : Bool :=
  s.coh.home.any (fun h => h.line / 16 == t && (match h.st with | .P _ => false | _ => true))

/-- The slot and counter of the next seal of a tile, or a held write-back (R367). -/
def nextSeal (r : TileRec) (newer : Option Bool) : Option (Bool × BitVec 32) :=
  match newer with
  | none => none
  | some n =>
    if r.state == 1 && r.counter != BitVec.allOnes 32 then some (r.slot, r.counter + 1)
    else if r.state == 0 && r.slot == n && r.counter != BitVec.allOnes 32 then some (n, r.counter + 1)
    else if r.slot != n then some (n, 0)
    else none

/-- Writes the record of a seal (R366), with the event of a counter that reaches 2^31 under the newer slot. The manual gives L2 no replacement: a tile enters
and leaves it whole, and leaves it at a seal, where no cache holds a line of it, or at a clear (the model's choice, log entry 113). -/
def sealTile (s : State) (t : Nat) (slot : Bool) (c : BitVec 32) : State :=
  let d := homeDieOf (2048 * t)
  let o := tileOwner s t
  let s :=
    if c == 0x80000000 && newerSlot s d o == some slot then
      let x := dieRec s d
      let s := setDie s d { x with glaze := { x.glaze with due := true, tenant := o } }
      { s with sealed := { s.sealed with due := (d, o) :: s.sealed.due.filter (· != (d, o)) } }
    else s
  let s := setTile s ⟨t, slot, 1, c, (tagNow s t slot c).getD 0⟩
  let s := if tileCached s t then putCipher s t slot c
    else { s with sealed := { s.sealed with inL2 := s.sealed.inL2.filter (· != t), dram := s.sealed.dram.filter (·.1 != t) } }
  { s with sealed := { s.sealed with dirty := s.sealed.dirty.filter (fun l => l / 16 != t), held := s.sealed.held.filter (· != t) } }

/-- The reseal of a tile with dirty lines (R367). The dirty data of a poisoned tile is discarded: only `clear` takes it out of poison (R371). -/
def resealTile (s : State) (t : Nat) : State :=
  if !s.sealed.dirty.any (fun l => l / 16 == t) then s
  else if 2 ≤ (tileRec s t).state then
    { s with sealed := { s.sealed with dirty := s.sealed.dirty.filter (fun l => l / 16 != t), held := s.sealed.held.filter (· != t) } }
  else
    let d := homeDieOf (2048 * t)
    let o := tileOwner s t
    match nextSeal (tileRec s t) (newerSlot s d o) with
    | some (b, c) => sealTile s t b c
    | none =>
      let x := dieRec s d
      let s := setDie s d { x with glaze := { x.glaze with wrapblk := true, tenant := o } }
      { s with sealed := { s.sealed with held := if s.sealed.held.contains t then s.sealed.held else t :: s.sealed.held } }

/-! ## What DRAM holds (R365, R366, R373) -/

/-- The 104 bits of a tile's record (R365). -/
def recordOf (r : TileRec) : BitVec 104 := (0 : BitVec 5) ++ BitVec.ofBool r.slot ++ BitVec.ofNat 2 r.state ++ r.counter ++ r.tag

/-- The byte at an offset of a stack's metadata region: the tiles' records of 13 bytes each, and at 312 MiB the owner table, one byte a frame. -/
def regionByte (s : State) (d : DieId) (off : Nat) : Byte :=
  if off < 312 * 2 ^ 20 then
    if off / 13 < regionStart / 2048 then
      (recordOf (tileRec s (d.toNat * 2 ^ 25 + off / 13))).extractLsb' (8 * (off % 13)) 8
    else 0
  else if off - 312 * 2 ^ 20 < stackBytes / 65536 then (ownerOf s (d.toNat * 2 ^ 20 + (off - 312 * 2 ^ 20))).setWidth 8
  else 0

/-- The ciphertext that DRAM holds of a tile: of a sealed tile outside L2 that of its bytes under its record, of another that of its last seal; none where no
seal has written the tile. -/
def dramTile (s : State) (t : Nat) : Option (List Byte) :=
  let r := tileRec s t
  match (if r.state == 1 && !s.sealed.inL2.contains t then keySlot s (homeDieOf (2048 * t)) (tileOwner s t) r.slot else none) with
  | some k => some (gcmCipher k.key (ivOf t r.slot r.counter) (s.mem.bytes (2048 * t) 2048))
  | none => (s.sealed.dram.find? (fun x => x.1 == t)).map (·.2)

/-- The byte that DRAM itself holds at a physical address: the metadata region, or a byte of a tile's ciphertext. -/
def dramByte (s : State) (pa : Nat) : Option Byte :=
  if !isDram pa then none
  else if regionStart ≤ pa % 2 ^ 36 then some (regionByte s (homeDieOf pa) (pa % 2 ^ 36 - regionStart))
  else (dramTile s (tileOf pa)).bind (·[pa % 2048]?)

/-- Whether every way of the L2 set that a line falls in holds held lines (R367). Which held lines share its set is free, but they lie in the line's own slice
of its own die (R374). -/
def setFull (s : State) (l : Nat) : Bool :=
  let near := s.sealed.held.filter (fun t =>
    homeDieOf (2048 * t) == homeDieOf (128 * l) && (List.range 16).any (fun i => sliceOf (2048 * t + 128 * i) == sliceOf (128 * l)))
  !near.isEmpty && Config.setFull near l

/-- Whether the fill of a tile waits: one of its lines would enter a set full of held lines (R367). -/
def fillWaits (s : State) (t : Nat) : Bool :=
  !s.sealed.held.isEmpty && !s.sealed.inL2.contains t && (List.range 16).any (fun i => setFull s (16 * t + i))

/-- A line becomes dirty in L2. -/
def markDirty (s : State) (l : Nat) : State :=
  if s.sealed.dirty.contains l then s else { s with sealed := { s.sealed with dirty := l :: s.sealed.dirty } }

end Sys2Proof.Machine
end

