-- ==== Sys2Proof/Machine/Coherence.lean ====
section
/-! DEFINITION. Lines and their directories (R376 to R381): numbered messages between dies, the L1's, the home's and the proxy's transitions, copies of
stream lines (R260), and `touch`, what one access of a hart does to them. A store by another party ends reservations and links on its
line (R99, R169). -/

namespace Sys2Proof.Machine

/-! ## Numbered messages (R380, R381) -/

/-- The home die of a line. -/
def lineHome (l : Nat) : DieId := homeDieOf (128 * l)

/-- The agents that number messages (R380): a die's proxy, for all that its cores and its other units ask for; its gather agent; its copy engines and trimmers,
where which of the 16 engines runs a copy is the model's choice (log entry 114); a home. -/
def proxyAgent : BitVec 5 := 0
def gatherAgent : BitVec 5 := 1
def trimAgent : BitVec 5 := 18
def engineAgent (c : Command) : BitVec 5 := if c.kind == 3 then trimAgent else BitVec.ofNat 5 (2 + c.id % 16)
def homeAgent : BitVec 5 := 19

/-- The name under which the model keeps which acknowledgements a home has counted (R381); no agent sends under it. -/
def ackAgent : BitVec 5 := 31

/-- A receiver's window for an agent of a die. -/
def seqWindow (s : State) (src : DieId) (agent : BitVec 5) (dst : DieId) : Option Window :=
  s.coh.windows.find? (fun w => w.src == src && w.agent == agent && w.dst == dst)

def setWindow (s : State) (w : Window) : State :=
  { s with coh := { s.coh with
      windows := s.coh.windows.filter (fun x => !(x.src == w.src && x.agent == w.agent && x.dst == w.dst)) ++ [w] } }

/-- A window with a number handled, or its answer known; a number above the highest slides the window, which holds the 64 numbers up to that one. -/
def Window.mark (w : Window) (n : BitVec 16) (r : Option Reply) : Window :=
  let seen := (n, r) :: w.seen.filter (·.1 != n)
  let high := if (n - w.high).toNat < 2 ^ 15 then n else w.high
  { w with high := high, seen := seen.filter (fun x => (high - x.1).toNat < 64) }

/-- Messages of an agent to a destination that await their answers. -/
def outstanding (s : State) (src : DieId) (agent : BitVec 5) (dst : DieId) : Nat :=
  (s.coh.sent.filter (fun m => m.src == src && m.agent == agent && m.dst == dst)).length

/-- The number an agent's next message to a destination bears: one more than its last. -/
def nextNumber (s : State) (src : DieId) (agent : BitVec 5) (dst : DieId) : BitVec 16 :=
  match seqWindow s src agent dst with
  | some w => w.high + 1
  | none => 0

/-- A message of an agent of a die to another die, answered with r: it is numbered, and the receiver's window keeps its answer. Within a die no
message is numbered. -/
def exchange (s : State) (src : DieId) (agent : BitVec 5) (dst : DieId) (r : Reply) : State :=
  if src == dst then s
  else
    let w := (seqWindow s src agent dst).getD ⟨src, agent, dst, 0, []⟩
    setWindow s (w.mark (nextNumber s src agent dst) (some r))

/-! ## Reservations and links -/

/-- A strand without its reservation and links on a line. -/
def Strand.loseLine (x : Strand) (l : Nat) : Strand :=
  { x with resv := (if (x.resv.map (·.line)) == some l then none else x.resv), links := x.links.filter (· != l) }

/-- Every strand on a core loses its reservation and links on a line. -/
def loseOnCore (s : State) (d : DieId) (c : CoreId) (l : Nat) : State :=
  onStrands s (fun h => dieOf h.id == d && coreOf h.id == c) (·.loseLine l)

/-- Every strand of the package but the focused one loses its reservation and links on a line. -/
def loseElsewhere (s : State) (l : Nat) : State :=
  { s with mate := s.mate.map (·.loseLine l), parked := s.parked.map (fun b => b.mapStrands (·.loseLine l)) }

/-! ## The L1 -/

def l1State (s : State) (d : DieId) (c : CoreId) (l : Nat) : Option L1State :=
  (s.coh.l1.find? (fun x => x.die == d && x.core == c && x.line == l)).map (·.st)

/-- The hart whose stash holds a line of a core, if it is a stash line. -/
def stashOf (s : State) (d : DieId) (c : CoreId) (l : Nat) : Option HartId :=
  (s.coh.l1.find? (fun x => x.die == d && x.core == c && x.line == l)).bind (·.stash)

/-- A core's line in a state, where it lies in the L1 or in a stash. -/
def putL1 (s : State) (d : DieId) (c : CoreId) (l : Nat) (st : Option L1State) (stash : Option HartId) : State :=
  { s with coh := { s.coh with
      l1 := s.coh.l1.filter (fun x => !(x.die == d && x.core == c && x.line == l)) ++ (match st with | some t => [⟨d, c, l, t, stash⟩] | none => []) } }

/-- A core's line in a state, where it lies. -/
def setL1 (s : State) (d : DieId) (c : CoreId) (l : Nat) (st : Option L1State) : State := putL1 s d c l st (stashOf s d c l)

/-- The data of a core's modified copy goes to L2. -/
def writeOut (s : State) (d : DieId) (c : CoreId) (l : Nat) : State := if l1State s d c l == some .M then markDirty s l else s

/-- The line leaves an L1 (Inv, Fwd-M, an eviction): a modified copy's data goes to L2. -/
def dropL1 (s : State) (d : DieId) (c : CoreId) (l : Nat) : State := loseOnCore (setL1 (writeOut s d c l) d c l none) d c l

/-- Fwd-S at an L1 (R376). -/
def shareL1 (s : State) (d : DieId) (c : CoreId) (l : Nat) : State :=
  match l1State s d c l with
  | some .M => markDirty (setL1 s d c l (some .S)) l
  | some .E => setL1 s d c l (some .S)
  | some (.P _) => dropL1 s d c l
  | _ => s

/-! ## The proxy -/

def proxyLine (s : State) (d : DieId) (l : Nat) : Option ProxyState :=
  (s.coh.proxy.find? (fun p => p.die == d && p.line == l)).map (·.st)

def setProxy (s : State) (d : DieId) (l : Nat) (p : Option ProxyState) : State :=
  { s with coh := { s.coh with
      proxy := s.coh.proxy.filter (fun x => !(x.die == d && x.line == l)) ++ (match p with | some st => [⟨d, l, st⟩] | none => []) } }

/-- Inv or Fwd-M from the home at a proxy (R378): its own cores drop the line. -/
def dropProxy (s : State) (d : DieId) (l : Nat) : State :=
  let s := match proxyLine s d l with
    | some (.S cs) => cs.foldl (fun s c => dropL1 s d c l) s
    | some (.X c) => dropL1 s d c l
    | none => s
  setProxy s d l none

/-- Fwd-S from the home at a proxy (R378). -/
def shareProxy (s : State) (d : DieId) (l : Nat) : State :=
  match proxyLine s d l with
  | some (.X c) => setProxy (shareL1 s d c l) d l (some (.S [c]))
  | _ => s

/-! ## The home -/

/-- Inv or Fwd-M from the home to a holder. -/
def dropHolder (s : State) (l : Nat) : Requester → State
  | .core c => dropL1 s (lineHome l) c l
  | .die d => dropProxy (exchange s (lineHome l) homeAgent d .ack) d l

/-- Fwd-S from the home to its owner. -/
def shareHolder (s : State) (l : Nat) : Requester → State
  | .core c => shareL1 s (lineHome l) c l
  | .die d => shareProxy (exchange s (lineHome l) homeAgent d .data) d l

/-- The holders that a home directory entry names. -/
def holders : HomeState → List Requester
  | .S cs ds => cs.map .core ++ ds.map .die
  | .X o => [o]
  | _ => []

/-- A sharer set with one more holder. -/
def addSharer : HomeState → Requester → HomeState
  | .S cs ds, .core c => .S (if cs.contains c then cs else c :: cs) ds
  | .S cs ds, .die d => .S cs (if ds.contains d then ds else d :: ds)
  | h, _ => h

/-- Every holder of a line drops it; the line goes to I at the home. -/
def recallAll (s : State) (l : Nat) : State :=
  match homeLine s l with
  | some (.G _) => s
  | some (.P _) => s
  | some h => setHome ((holders h).foldl (fun s r => dropHolder s l r) s) l none
  | none => s

/-- An agent's access at the home, which leaves it no copy: a read has an owner's data written to L2, a write takes every copy away. A line that an engine owns
only that engine reaches, whose writing of it goes to L2. -/
def agentAt (s : State) (l : Nat) (write : Bool) : State :=
  match homeLine s l with
  | some (.P _) => s
  | some (.G _) => if write then markDirty s l else s
  | some (.X o) =>
    if write then markDirty (recallAll s l) l
    else setHome (shareHolder s l o) l (some (addSharer (.S [] []) o))
  | _ => if write then markDirty (recallAll s l) l else s

/-- Whether a line's home has 64 messages unanswered at a die that holds the line (R380). -/
def homeFull (s : State) (l : Nat) : Bool :=
  match homeLine s l with
  | none => false
  | some h => (holders h).any (fun r => match r with | .die d => 64 ≤ outstanding s (lineHome l) homeAgent d | .core _ => false)

/-- Whether the home of a line cannot go on with it: it may send no further message to a holder (R380), or something is delayed there. -/
def homeStuck (s : State) (l : Nat) : Bool := homeFull s l || s.coh.delayed.any (·.1 == l)

/-- Whether a request that arrives at a line's home is delayed: the fill of its tile waits (R367), or the home cannot go on with the line. -/
def homeWaits (s : State) (l : Nat) : Bool := fillWaits s (l / 16) || homeStuck s l

/-- What cannot be handled yet is delayed; the same a second time changes nothing. -/
def delay (s : State) (l : Nat) (w : Waiting) : State :=
  if s.coh.delayed.contains (l, w) then s else { s with coh := { s.coh with delayed := s.coh.delayed ++ [(l, w)] } }

/-- A request joins the home's queue. -/
def enqueue (s : State) (l : Nat) (w : Waiting) : State := setHome s l (homeLine s l) (homeQueue s l ++ [w])

/-- What an owner that asks again has written goes to L2. -/
def ownerAgain (s : State) (l : Nat) : Requester → State
  | .core c => writeOut s (lineHome l) c l
  | .die _ => s

/-- GetS at the home (R377); whether the requester gets the line in E. A line that an engine owns, or that is poisoned, is not given. -/
def homeGetS (s : State) (l : Nat) (r : Requester) : State × Bool :=
  match homeLine s l with
  | none => (setHome s l (some (.X r)), true)
  | some (.S cs ds) => (setHome s l (some (addSharer (.S cs ds) r)), false)
  | some (.X o) =>
    if o == r then (ownerAgain s l r, true)
    else (setHome (shareHolder s l o) l (some (addSharer (addSharer (.S [] []) o) r)), false)
  | _ => (s, false)

/-- The other holders of a line drop it, as a GetM from r asks. -/
def dropOthers (s : State) (l : Nat) (r : Requester) : State :=
  match homeLine s l with
  | some h => ((holders h).filter (· != r)).foldl (fun s o => dropHolder s l o) s
  | none => s

/-- GetM or Upg at the home (R377). -/
def homeGetM (s : State) (l : Nat) (r : Requester) : State :=
  match homeLine s l with
  | some (.G _) => s
  | some (.P _) => s
  | _ => setHome (dropOthers s l r) l (some (.X r))

/-! ## Requests from a core (R377, R378) -/

/-- Whether an agent of a die holds 64 unanswered messages to a line's home, so that a further one must wait (R380). -/
def agentFull (s : State) (d : DieId) (a : BitVec 5) (l : Nat) : Bool := d != lineHome l && 64 ≤ outstanding s d a (lineHome l)
def proxyFull (s : State) (d : DieId) (l : Nat) : Bool := agentFull s d proxyAgent l

/-- A numbered message that has been sent and not answered (R380). -/
def unanswered (s : State) (src : DieId) (agent : BitVec 5) (dst : DieId) (n : BitVec 16) (i : Option Instr) (claim : Option (Nat × Nat)) : State :=
  { s with coh := { s.coh with
      sent := s.coh.sent.filter (fun m => !(m.src == src && m.agent == agent && m.dst == dst && m.seq == n)) ++ [⟨src, agent, dst, n, 0, i, claim⟩] } }

/-- The message that bears a number has been answered. -/
def answered (s : State) (src : DieId) (agent : BitVec 5) (dst : DieId) (n : BitVec 16) : State :=
  { s with coh := { s.coh with sent := s.coh.sent.filter (fun m => !(m.src == src && m.agent == agent && m.dst == dst && m.seq == n)) } }

/-- A request of a core that joins a home's queue: through a proxy it is a numbered message, in progress at the home. -/
def waitAtHome (s : State) (d : DieId) (c : CoreId) (l : Nat) (write stream : Bool) : State :=
  if lineHome l == d then enqueue s l (.ask ⟨.core c, write, some c, none, stream⟩)
  else
    let n := nextNumber s d proxyAgent (lineHome l)
    let w := (seqWindow s d proxyAgent (lineHome l)).getD ⟨d, proxyAgent, lineHome l, 0, []⟩
    let i : Instr := if write then .getm .home l (.die d) n else .gets .home l (.die d) n
    enqueue (unanswered (setWindow s (w.mark n none)) d proxyAgent (lineHome l) n (some i) none) l (.ask ⟨.die d, write, some c, some n, stream⟩)

/-- A request of a core that the home cannot grant now: it joins the home's queue behind an engine, or receives the poison (R377). -/
def notGranted (s : State) (d : DieId) (c : CoreId) (l : Nat) (write : Bool) : State :=
  match homeLine s l with
  | some (.G _) => waitAtHome s d c l write false
  | some (.P k) => setL1 (exchange s d proxyAgent (lineHome l) (.poison k)) d c l (some (.P k))
  | _ => s

/-- Whether the home can grant a line. -/
def grantable (s : State) (l : Nat) : Bool :=
  match homeLine s l with
  | some (.G _) => false
  | some (.P _) => false
  | _ => true

/-- The home's answer to a GetS of a core of die d, and the core's line. -/
def askS (s : State) (d : DieId) (c : CoreId) (l : Nat) : State :=
  if lineHome l == d then
    let (s, e) := homeGetS s l (.core c)
    setL1 s d c l (some (if e then .E else .S))
  else
    let (s, e) := homeGetS (exchange s d proxyAgent (lineHome l) .data) l (.die d)
    setL1 (setProxy s d l (some (if e then .X c else .S [c]))) d c l (some (if e then .E else .S))

/-- A core's GetS, through the proxy of its die where the line is homed elsewhere. -/
def coreGetS (s : State) (d : DieId) (c : CoreId) (l : Nat) : State :=
  match (if lineHome l == d then none else proxyLine s d l) with
  | some (.S cs) => setL1 (setProxy s d l (some (.S (if cs.contains c then cs else c :: cs)))) d c l (some .S)
  | some (.X c') =>
    if c' == c then setL1 (writeOut s d c l) d c l (some .E)
    else
      -- Dwn: the home keeps the die as its only sharer (R377)
      let s := setHome (markDirty (shareL1 (exchange s d proxyAgent (lineHome l) .ack) d c' l) l) l (some (.S [] [d]))
      setL1 (setProxy s d l (some (.S [c', c]))) d c l (some .S)
  | none => if grantable s l then askS s d c l else notGranted s d c l false

/-- A core's GetM or Upg. -/
def coreGetM (s : State) (d : DieId) (c : CoreId) (l : Nat) : State :=
  if lineHome l == d then
    if grantable s l then setL1 (homeGetM s l (.core c)) d c l (some .M) else notGranted s d c l true
  else
    match proxyLine s d l with
    | some (.X c') => setL1 (if c' == c then s else setProxy (dropL1 s d c' l) d l (some (.X c))) d c l (some .M)
    | p =>
      if grantable s l then
        let own := match p with | some (.S cs) => cs.filter (· != c) | _ => []
        let s := homeGetM (exchange s d proxyAgent (lineHome l) .data) l (.die d)
        setL1 (setProxy (own.foldl (fun s c' => dropL1 s d c' l) s) d l (some (.X c))) d c l (some .M)
      else notGranted s d c l true

/-- The home forgets an owner that gives a line back. -/
def ownerGone (s : State) (l : Nat) (r : Requester) : State := if homeLine s l == some (.X r) then setHome s l none else s

/-- A line leaves a core by eviction or a bank move (R376 to R378): PutE or PutM of an owner; a shared or poisoned copy leaves silently, and a proxy
whose last own copy has gone sends nothing. -/
def corePut (s : State) (d : DieId) (c : CoreId) (l : Nat) : State :=
  let s := dropL1 s d c l
  if lineHome l == d then ownerGone s l (.core c)
  else
    match proxyLine s d l with
    | some (.X o) => if o == c then ownerGone (exchange (setProxy s d l none) d proxyAgent (lineHome l) .ack) l (.die d) else s
    | some (.S cs) => setProxy s d l (if (cs.filter (· != c)).isEmpty then none else some (.S (cs.filter (· != c))))
    | none => s

/-! ## Copies of stream lines (R260) -/

/-- A line as it stands at its home. -/
def lineBits (s : State) (l : Nat) : BitVec 1024 := BitVec.ofNat 1024 (s.mem.readNat (128 * l) 128)

/-- A core's copy of a stream line replaced. -/
def putCopy (s : State) (d : DieId) (c : CoreId) (l : Nat) (b : BitVec 1024) : State :=
  { s with coh := { s.coh with
      streams := ⟨d, c, l, b⟩ :: s.coh.streams.filter (fun y => !(y.die == d && y.core == c && y.line == l)) } }

/-! ## Engines (R190, R377) -/

/-- The command that an engine runs. -/
def commandOf (s : State) (e : Nat) : Option Command := s.sched.commands.find? (·.id == e)

/-- An engine's claim on a line of another die as a numbered message that awaits its answer (R380); beyond 64 to one home it is not sent yet. A reissue
of it finds its number in progress and changes nothing (R381). -/
def claimSent (s : State) (l e : Nat) : State :=
  match commandOf s e with
  | none => s
  | some c =>
    let a := engineAgent c
    let home := lineHome l
    if c.die == home || 64 ≤ outstanding s c.die a home then s
    else
      let n := nextNumber s c.die a home
      unanswered (setWindow s (((seqWindow s c.die a home).getD ⟨c.die, a, home, 0, []⟩).mark n none)) c.die a home n none (some (l, e))

/-- The home's answer to a claim: to the message that awaited it, or at once. -/
def claimAnswered (s : State) (l e : Nat) (r : Reply) : State :=
  match s.coh.sent.find? (·.claim == some (l, e)) with
  | some m =>
    let s1 := answered s m.src m.agent m.dst m.seq
    match seqWindow s1 m.src m.agent m.dst with
    | some w => setWindow s1 (w.mark m.seq (some r))
    | none => s1
  | none =>
    match commandOf s e with
    | some c => exchange s c.die (engineAgent c) (lineHome l) r
    | none => s

/-- An engine takes a line: every holder drops it, and the home gives it to the engine; behind another engine the claim waits. A poisoned line stays as
it is. -/
def takeLine (s : State) (l e : Nat) : State :=
  match homeLine s l with
  | some (.G o) => if o == e || (homeQueue s l).contains (.claim e) then s else enqueue (claimSent s l e) l (.claim e)
  | some (.P k) => claimAnswered s l e (.poison k)
  | _ =>
    let s1 := recallAll (claimAnswered s l e .ack) l
    onStrands (setHome s1 l (some (.G e)) (homeQueue s l)) (fun _ => true) (·.loseLine l)

/-- An engine claims a line; while the home cannot recall it the claim is delayed (R380). -/
def claimLine (s : State) (l e : Nat) : State :=
  if grantable s l && homeStuck s l then delay (claimSent s l e) l (.claim e) else takeLine s l e

/-- The answer to a queued request: its window keeps it, and the message is no longer outstanding. -/
def answerAsk (s : State) (l : Nat) (a : Ask) : State :=
  match a.num, a.who with
  | some n, .die d =>
    let r : Reply := match homeLine s l with | some (.P k) => .poison k | _ => .data
    let s := answered s d proxyAgent (lineHome l) n
    match seqWindow s d proxyAgent (lineHome l) with
    | some w => setWindow s (w.mark n (some r))
    | none => s
  | _, _ => s

/-- A request served: a core's own, that of a core behind its die's proxy, or a die's; for a stream line a copy, of which the home keeps no record. -/
def serveAsk (s : State) (l : Nat) (a : Ask) : State :=
  let s := answerAsk s l a
  if a.stream then
    let s := agentAt s l false
    match (poisonOf s l), a.who, a.core with
    | none, .core c, _ => putCopy s (lineHome l) c l (lineBits s l)
    | none, .die d, some c => putCopy s d c l (lineBits s l)
    | _, _, _ => s
  else
  match a.who, a.core with
  | .core c, _ => if a.write then coreGetM s (lineHome l) c l else coreGetS s (lineHome l) c l
  | .die d, some c => if a.write then coreGetM s d c l else coreGetS s d c l
  | .die d, none => if a.write then homeGetM s l (.die d) else (homeGetS s l (.die d)).1

/-- The queue of a line is served in arrival order, up to an engine's claim, behind which the rest goes on waiting (R377); what the home cannot go on with is
delayed (R380). -/
def serveQueue (s : State) (l : Nat) : List Waiting → State
  | [] => s
  | .ask a :: r => serveQueue (if homeFull s l then delay s l (.ask a) else serveAsk s l a) l r
  | .claim e :: r =>
    let s := if homeFull s l then delay s l (.claim e) else takeLine s l e
    if homeLine s l == some (.G e) then setHome s l (some (.G e)) r else serveQueue s l r

/-- An engine lets a line go. -/
def releaseLine (s : State) (l e : Nat) : State :=
  if homeLine s l == some (.G e) then serveQueue (setHome s l none) l (homeQueue s l) else s

/-- An engine gives up its claims on a line: its ownership, or its place in the queue. -/
def withdrawClaim (s : State) (l e : Nat) : State :=
  if homeLine s l == some (.G e) then releaseLine s l e
  else
    let s1 := { s with coh := { s.coh with
      sent := s.coh.sent.filter (fun m => m.claim != some (l, e)), delayed := s.coh.delayed.filter (· != (l, .claim e)) } }
    setHome s1 l (homeLine s l) ((homeQueue s l).filter (· != .claim e))

/-! ## What is delayed (R367, R380) -/

/-- Whether what is delayed must go on waiting: an unnumbered request of a die waits at its proxy, which has sent it to no home. -/
def stillHeld (s : State) (l : Nat) : Waiting → Bool
  | .ask a => fillWaits s (l / 16) || homeFull s l || (match a.who, a.num with | .die d, none => proxyFull s d l | _, _ => false)
  | .claim _ => homeFull s l

/-- Whether a core has what a request asks for already. -/
def coreHas (s : State) (d : DieId) (c : CoreId) (l : Nat) (write : Bool) : Bool :=
  match l1State s d c l with
  | some .M => true
  | some (.P _) => false
  | some _ => !write
  | none => false

/-- A request that was delayed, handled. -/
def arriveAsk (s : State) (l : Nat) (a : Ask) : State :=
  let s := fillTile s (l / 16)
  let d := match a.who with | .core _ => lineHome l | .die d => d
  let has := match (match a.who with | .core c => some c | .die _ => a.core) with | some c => !a.stream && coreHas s d c l a.write | none => false
  if has then answerAsk s l a
  else
    match homeLine s l, a.core, a.num with
    | some (.G _), some c, none => waitAtHome s d c l a.write a.stream
    | some (.G _), _, _ => enqueue s l (.ask a)
    | _, _, none => serveAsk (if a.stream then exchange s d proxyAgent (lineHome l) .data else s) l a
    | _, _, some _ => serveAsk s l a

/-- What was delayed is handled. -/
def arrive (s : State) (l : Nat) : Waiting → State
  | .ask a => arriveAsk s l a
  | .claim e => takeLine s l e

/-- The first of what is delayed that can be handled now, handled. -/
def serveDelayed (s : State) : Option State :=
  (s.coh.delayed.find? (fun p => !stillHeld s p.1 p.2)).map (fun p =>
    arrive { s with coh := { s.coh with delayed := s.coh.delayed.erase p } } p.1 p.2)

/-! ## What the focused hart's core holds of stream lines (R260) -/

/-- The copy of a stream line that the focused hart's core holds. One that differs from the line may have been replaced meanwhile. -/
def copyIn (s : State) (l : Nat) : Option (BitVec 1024) :=
  match s.coh.streams.find? (fun x => x.die == dieOf s.hart.id && x.core == coreOf s.hart.id && x.line == l) with
  | none => none
  | some x => if x.bits == lineBits s l || Config.kept s.issues l then some x.bits else none

/-- The focused hart's core's copy of a stream line replaced. -/
def setCopy (s : State) (l : Nat) (b : BitVec 1024) : State := putCopy s (dieOf s.hart.id) (coreOf s.hart.id) l b

/-- A core loses copies of stream lines. -/
def dropCopies (s : State) (d : DieId) (c : CoreId) (p : Nat → Bool) : State :=
  { s with coh := { s.coh with streams := s.coh.streams.filter (fun x => !(x.die == d && x.core == c && p x.line)) } }

/-- An acquire of die scope or wider by the focused hart (R256): no copy of a stream line stays in its core's L1. -/
def acquire (s : State) : State := dropCopies s (dieOf s.hart.id) (coreOf s.hart.id) (fun _ => true)

/-! ## Accesses -/

/-- An access of an agent of a die that holds no copy: a stream page's, an engine's, the host's, the dispatch unit's, a walker's, the gather agent's (R379,
R262). To a line homed on another die it is a numbered message. -/
def touchAgent (s : State) (d : DieId) (a : BitVec 5) (l : Nat) (write : Bool) : State :=
  let s := fillTile s (l / 16)
  agentAt (exchange s d a (lineHome l) (match poisonOf s l with | some k => .poison k | none => .data)) l write

/-- A core's access to a line of a page without the stream attribute. -/
def touchCore (s : State) (d : DieId) (c : CoreId) (l : Nat) (write : Bool) : State :=
  match l1State s d c l with
  | some .M => s
  | some .E => if write then setL1 s d c l (some .M) else s
  | some .S => if write then coreGetM s d c l else s
  | _ => if write then coreGetM s d c l else coreGetS s d c l

/-- The focused hart's mapped stash unit that a line lies in. -/
def stashed (s : State) (l : Nat) : Bool :=
  s.hart.stashMap.any (fun u => match u.pa with | some p => lineOf p ≤ l && l < lineOf p + 32 | none => false)

/-- The focused hart's access to a tracked line: a line in the stash of another hart of the core comes into the L1 by recall, which the core goes on holding as
its own line, so that a read ends no reservation on it (R99); and the line lies in the hart's stash where it is mapped there (R179, R263). -/
def touchTracked (s : State) (l : Nat) (write : Bool) : State :=
  let d := dieOf s.hart.id
  let c := coreOf s.hart.id
  let s := if (stashOf s d c l).any (· != s.hart.id) then putL1 s d c l (l1State s d c l) none else s
  let s := touchCore s d c l write
  if stashed s l then putL1 s d c l (l1State s d c l) (some s.hart.id) else s

/-- What one access of the focused hart does to the directories (R376 to R379): `stream` for a stream page, of which a read leaves a copy in the L1. What a
store writes into the L1's own line is dirty there, and in L2 once the line is written back (R367). A store ends reservations and links of every other strand on the line. -/
def touch (s : State) (l : Nat) (write stream : Bool) : State :=
  let s := fillTile s (l / 16)
  let s :=
    if stream then
      let s := touchAgent s (dieOf s.hart.id) proxyAgent l write
      if write then s else setCopy s l ((copyIn s l).getD (lineBits s l))
    else if grantable s l then touchTracked s l write
    else s
  if write then loseElsewhere s l else s

/-! ## Reseals (R367) -/

/-- The lines of a tile as the glaze unit collects them from L2: what an owner holds dirty is written to L2 first, and the owner shares it (the model's choice,
log entry 113). -/
def collectTile (s : State) (t : Nat) : State := (List.range 16).foldl (fun s i => agentAt s (16 * t + i) false) s

/-- The reseal of a tile with dirty lines. -/
def reseal (s : State) (t : Nat) : State := if s.sealed.dirty.any (fun l => l / 16 == t) then resealTile (collectTile s t) t else s

/-- Whether the glaze unit must wait with a tile: for its fill, or for a home that cannot go on with one of its lines (R367, R380). -/
def tileWaits (s : State) (t : Nat) : Bool := fillWaits s t || (List.range 16).any (fun i => homeFull s (16 * t + i))

/-- A store by an agent of a die that is no hart: every reservation and link on the line is lost. -/
def touchStoreBy (s : State) (d : DieId) (a : BitVec 5) (l : Nat) : State :=
  onStrands (touchAgent s d a l true) (fun _ => true) (·.loseLine l)

/-- A store by a unit of the line's own die. -/
def touchStoreAll (s : State) (l : Nat) : State := touchStoreBy s (lineHome l) proxyAgent l

end Sys2Proof.Machine
end

