-- ==== Sys2Proof/Machine/Translate.lean ====
section
/-! DEFINITION. Address translation and the checks of an access (R97, R155, R358 to R363, R374): the page table walk, the TLB, the order
of the checks, and loads and stores of bytes that passed them. -/

namespace Sys2Proof.Machine

/-! ## Walks -/

/-- What a translation delivers: the leaf entry, and whether it stands for a 512 MiB page. -/
structure Leaf where
  pte   : Word
  large : Bool
  deriving DecidableEq, Repr, Inhabited

/-- Whether an entry of a level has a reserved bit set or a form its level forbids (R358, R359). -/
def pteBad (level : Nat) (e : Word) : Bool :=
  let leaf := e.getLsbD 1
  !e.getLsbD 0 || e.getLsbD 63 || e.extractLsb' 52 4 != 0 || e.extractLsb' 6 10 != 0
    || (leaf && level == 0) || (!leaf && level == 2)
    || (leaf && level == 1 && e.extractLsb' 16 13 != 0)
    || (leaf && e.getLsbD 4 && e.getLsbD 3)
    || (!leaf && e.extractLsb' 2 4 != 0)

/-- Bits 51:16 of an entry as an address. -/
def pteAddr (e : Word) : Nat := (e.extractLsb' 16 36).toNat * 65536

/-- Whether a frame can be reached at all: in DRAM below the metadata region, its stack's plinth working (R359, R374, R383). -/
def frameThere (s : State) (pa : Nat) : Bool := isMappable pa && (dieRec s (homeDieOf pa)).plinth

/-- The poison a line shows once its tile is filled (R368, R377). -/
def linePoison (s : State) (pa : Nat) : Option Poison := poisonOf (fillTile s (tileOf pa)) (lineOf pa)

/-- Whether every access to a line waits: an engine owns the line (R190, R377), the fill of its tile would enter an L2 set full of held lines (R367), or an
earlier request is delayed at its home (R377, R380). -/
def lineHeld (s : State) (l : Nat) : Bool :=
  (match homeLine s l with
    | some (.G _) => true
    | _ => false)
  || fillWaits s (l / 16) || s.coh.delayed.any (·.1 == l)

/-- Whether an access of a die's to a line waits: as every access to it does, or while the proxy of the die or the line's home has 64 messages unanswered
(R380). -/
def lineWaits (s : State) (d : DieId) (l : Nat) : Bool := lineHeld s l || proxyFull s d l || homeFull s l

/-- A doubleword of a table, a tracked load through L2 (R360). Failures 4, 5 and 6 stand for a table that lies where no memory is, in a tile whose seal fails,
and on a lost line; 7 and above for a load that must wait for line n - 7 (R190, R367, R380); 0 to 3 are the levels of R359. -/
def tableWord (s : State) (d : DieId) (a : Nat) : Except Nat Word :=
  if !frameThere s a then .error 4
  else if lineWaits s d (lineOf a) then .error (7 + lineOf a)
  else
    match linePoison s a with
    | some .seal => .error 5
    | some .lost => .error 6
    | none => .ok (BitVec.ofNat 64 (s.mem.readNat a 8))

/-- The root table of a die (`cr.sroot`, R358). -/
def rootOf (s : State) (d : DieId) : Nat := ((dieRec s d).sup.sroot.extractLsb' 12 40).toNat * 4096

/-- The indices of a virtual address at each level (R358). -/
def index0 (va : Word) : Nat := (va.extractLsb' 41 11).toNat
def index1 (va : Word) : Nat := (va.extractLsb' 29 12).toNat
def index2 (va : Word) : Nat := (va.extractLsb' 16 13).toNat

/-- How many 64 KiB pages an entry of level 0 or 1 stands for. -/
def levelPages (level : Nat) : Nat := if level = 0 then 2 ^ 25 else 2 ^ 13

/-- An upper-level entry that a walker of the die holds (R360). -/
def walkerFind (s : State) (d : DieId) (tenant level : Nat) (va : Word) : Option Word :=
  (s.coh.walkers.find? (fun w => w.die == d && w.tenant == tenant && w.level == level
    && w.page == va.toNat / 65536 / levelPages level * levelPages level)).map (·.pte)

/-- What a cache and the tables say together: the cached answer where they agree, and where they do not, one or the other, by whether the cache still
holds its entry. -/
def cachedOr {α : Type} [DecidableEq α] (s : State) (n : Nat) (c : Option α) (w : Except Nat α) : Except Nat α :=
  match c, w with
  | none, w => w
  | some a, .ok b => if a = b || !Config.kept s.issues n then .ok b else .ok a
  | some a, .error e => if Config.kept s.issues n then .ok a else .error e

/-- The level-0 entry of an address. -/
def entry0 (s : State) (d : DieId) (tenant : Nat) (va : Word) : Except Nat Word :=
  cachedOr s (va.toNat / 65536) (walkerFind s d tenant 0 va) <| do
    let l0 ← tableWord s d (rootOf s d + 8 * tenant)
    let e ← tableWord s d (l0.toNat + 8 * index0 va)
    if pteBad 0 e then throw 0
    return e

/-- The level-1 entry of an address. -/
def entry1 (s : State) (d : DieId) (tenant : Nat) (va : Word) : Except Nat Word :=
  cachedOr s (va.toNat / 65536) (walkerFind s d tenant 1 va) <| do
    let e0 ← entry0 s d tenant va
    let e ← tableWord s d (pteAddr e0 + 8 * index1 va)
    if pteBad 1 e then throw 1
    return e

/-- One walk by a die's walkers (R358 to R360): the leaf, or the level at which it failed. -/
def walk (s : State) (d : DieId) (tenant : Nat) (va : Word) : Except Nat Leaf :=
  if va.extractLsb' 52 12 != 0 then .error 3
  else do
    let e1 ← entry1 s d tenant va
    if e1.getLsbD 1 then return ⟨e1, true⟩
    let e2 ← tableWord s d (pteAddr e1 + 8 * index2 va)
    if pteBad 2 e2 then throw 2
    return ⟨e2, false⟩

/-- Where a walk reads. -/
def walkReads (s : State) (d : DieId) (tenant : Nat) (va : Word) : List Nat :=
  if va.extractLsb' 52 12 != 0 then []
  else
    let root := rootOf s d + 8 * tenant
    [root] ++ (match tableWord s d root with | .ok l0 => [l0.toNat + 8 * index0 va] | .error _ => [])
      ++ (match entry0 s d tenant va with | .ok e => [pteAddr e + 8 * index1 va] | .error _ => [])
      ++ (match entry1 s d tenant va with | .ok e => if e.getLsbD 1 then [] else [pteAddr e + 8 * index2 va] | .error _ => [])

/-- Whether a TLB's entry is for an address: its page, or its 512 MiB page. -/
def TlbEntry.hits (t : TlbEntry) (d : DieId) (c : CoreId) (tenant : Nat) (va : Word) : Bool :=
  t.die == d && t.core == c && t.tenant == tenant
    && (if t.large then t.page / 8192 == va.toNat / 65536 / 8192 else t.page == va.toNat / 65536)

/-- A translation the core's TLB holds (R360). -/
def tlbFind (s : State) (d : DieId) (c : CoreId) (tenant : Nat) (va : Word) : Option Leaf :=
  (s.coh.tlb.find? (·.hits d c tenant va)).map (fun t => ⟨t.pte, t.large⟩)

/-- Who translates: a core with its TLB, or a unit of a die that walks. -/
inductive Party where
  | core (d : DieId) (c : CoreId)
  | unit (d : DieId)
  deriving DecidableEq, Repr, Inhabited

def Party.die : Party → DieId
  | .core d _ => d
  | .unit d => d

/-- What the party's TLB holds for an address. -/
def heldLeaf (s : State) (p : Party) (tenant : Nat) (va : Word) : Option Leaf :=
  match p with
  | .core d c => if va.extractLsb' 52 12 == 0 then tlbFind s d c tenant va else none
  | .unit _ => none

/-- The leaf of a virtual address for a party: the TLB's, else a walk's. -/
def leafOf (s : State) (p : Party) (tenant : Nat) (va : Word) : Except Nat Leaf :=
  cachedOr s (va.toNat / 65536) (heldLeaf s p tenant va) (walk s p.die tenant va)

/-- The physical address of a virtual address under a leaf (R358). -/
def physOf (l : Leaf) (va : Word) : Nat :=
  if l.large then pteAddr l.pte + va.toNat % 2 ^ 29 else pteAddr l.pte + va.toNat % 65536

/-- Whether a physical address lies in the text of a Mygar translation that the loader has placed (R283, log entry 91). -/
def portableAt (s : State) (pa : Nat) : Bool :=
  (s.kiln.placed ++ s.kiln.unloaded.map (·.1)).any (fun p => p.portable && p.base ≤ pa && pa < p.base + p.size)

/-- Whether an address of a tenant lies in such text. -/
def translatedText (s : State) (d : DieId) (tenant : Nat) (pc : Word) : Bool :=
  match walk s d tenant pc with
  | .ok l => portableAt s (physOf l pc)
  | .error _ => false

/-! ## The checks of an access -/

/-- What an access does to its page. -/
inductive Access where
  | read | write | fetch
  deriving DecidableEq, Repr, Inhabited

/-- Why an access fails, as class and subcause (R350). Class 0, which no trap has, says that it must wait, for the line that `sub` names: its walk (R360), or the fill of its
tile (R367). -/
structure Fail where
  cls : Nat
  sub : Nat
  deriving DecidableEq, Repr, Inhabited

def Access.sub : Access → Nat
  | .read => 0 | .write => 1 | .fetch => 2

/-- The permission bit of a leaf for an access (R358). -/
def permitted (l : Leaf) : Access → Bool
  | .read => l.pte.getLsbD 2
  | .write => l.pte.getLsbD 3
  | .fetch => l.pte.getLsbD 4

/-- A leaf with the stream attribute (R358). -/
def Leaf.stream (l : Leaf) : Bool := l.pte.getLsbD 5

/-- Whether a walk may end at a frame for a tenant: there, and owned by the tenant (R363). -/
def frameOk (s : State) (tenant pa : Nat) : Bool := frameThere s pa && (ownerOf s (frameOf pa)).toNat == tenant

/-- Whether the TLB holds the very page, so that no walk compares its frame's owner again (R360, R370). -/
def pageHeld (s : State) (p : Party) (tenant : Nat) (va : Word) : Bool :=
  match p with
  | .core d c => va.extractLsb' 52 12 == 0
      && s.coh.tlb.any (fun t => t.die == d && t.core == c && t.tenant == tenant && t.page == va.toNat / 65536)
      && Config.kept s.issues (va.toNat / 65536)
  | .unit _ => false

/-- The translation and page checks of R97 step 2 on the byte at va; `strict` refuses stream pages. A root or page table that lies where no memory is raises
the access fault with sub 4 (log entry 86), one on a poisoned line that line's trap (R368); an engine's table line makes the walk wait (R190, R360). -/
def checkPage (s : State) (p : Party) (tenant : Nat) (va : Word) (k : Access) (strict : Bool) : Except Fail (Nat × Leaf) :=
  match leafOf s p tenant va with
  | .error 4 => .error ⟨4, 4⟩
  | .error 5 => .error ⟨5, 0⟩
  | .error 6 => .error ⟨6, 0⟩
  | .error l => if 7 ≤ l then .error ⟨0, l - 7⟩ else .error ⟨3, l⟩
  | .ok l =>
    if !(frameOk s tenant (physOf l va) || (frameThere s (physOf l va) && pageHeld s p tenant va)) then .error ⟨4, 4⟩
    else if !permitted l k then .error ⟨4, k.sub⟩
    else if strict && l.stream then .error ⟨4, 3⟩
    else .ok (physOf l va, l)

/-- The poison that an access to checked bytes meets (R97 steps 3 and 4): a seal failure before a lost line. Where only a fill that must wait would bring it, the
access waits for that (R367). -/
def poisonFail (s : State) (pas : List Nat) : Option Fail :=
  match pas.find? (fun a => fillWaits s (tileOf a) && (linePoison s a).isSome) with
  | some a => some ⟨0, lineOf a⟩
  | none =>
    if pas.any (fun a => linePoison s a == some .seal) then some ⟨5, 0⟩
    else if pas.any (fun a => linePoison s a == some .lost) then some ⟨6, 0⟩
    else none

/-- The checks of R97 steps 2 to 4, in order, on the byte at va. -/
def checkByte (s : State) (p : Party) (tenant : Nat) (va : Word) (k : Access) (strict : Bool) : Except Fail (Nat × Leaf) :=
  match checkPage s p tenant va k strict with
  | .error f => .error f
  | .ok r =>
    match poisonFail s [r.1] with
    | some f => .error f
    | none => .ok r

/-- n bytes from an address on, checked by their first byte and the first byte of each further line, in ascending order; what it answers is
each byte's physical address, and the leaf of the first. -/
def rangeBy (check : Word → Except Fail (Nat × Leaf)) (va : Word) (n : Nat) : Except (Fail × Word) (List Nat × Leaf) :=
  let rec go : Nat → Nat → Option (Nat × Leaf) → List Nat → Leaf → Except (Fail × Word) (List Nat × Leaf)
    | 0, _, _, acc, l => .ok (acc.reverse, l)
    | left + 1, i, prev, acc, first =>
      let a := va + BitVec.ofNat 64 i
      match prev with
      | some (pa, l) =>
        if a.toNat % 128 = 0 then
          match check a with
          | .error e => .error (e, a)
          | .ok (q, l') => go left (i + 1) (some (q, l')) (q :: acc) first
        else go left (i + 1) (some (pa + 1, l)) ((pa + 1) :: acc) first
      | none =>
        match check a with
        | .error e => .error (e, a)
        | .ok (q, l) => go left (i + 1) (some (q, l)) (q :: acc) l
  go n 0 none [] default

/-- The checks of an access that checks its bytes in ascending order: each byte by R97's steps 2 to 4. -/
def checkRange (s : State) (p : Party) (tenant : Nat) (va : Word) (n : Nat) (k : Access) (strict : Bool) :
    Except (Fail × Word) (List Nat × Leaf) :=
  rangeBy (fun a => checkByte s p tenant a k strict) va n

/-- The checks of an access that makes each step of R97 for all its bytes before the next (R155). -/
def checkSteps (s : State) (p : Party) (tenant : Nat) (va : Word) (n : Nat) (k : Access) (strict : Bool) : Except Fail (List Nat × Leaf) :=
  match rangeBy (fun a => checkPage s p tenant a k strict) va n with
  | .error e => .error e.1
  | .ok (pas, l) =>
    match poisonFail s pas with
    | some f => .error f
    | none => .ok (pas, l)

/-- The focused hart as a party. -/
def me (s : State) : Party := .core (dieOf s.hart.id) (coreOf s.hart.id)

/-- R97 on an access of 2^k aligned bytes: the physical address and the leaf, or class, subcause (alignment first). -/
def checkAligned (s : State) (p : Party) (tenant : Nat) (va : Word) (n : Nat) (k : Access) (strict : Bool) : Except Fail (Nat × Leaf) :=
  if va.toNat % n ≠ 0 then .error ⟨7, 0⟩ else checkByte s p tenant va k strict

/-- Whether a hart's access to a line must wait. -/
def engineLine (s : State) (l : Nat) : Bool := lineWaits s (dieOf s.hart.id) l

/-! ## Bytes at checked addresses -/

/-- Bytes at a list of physical addresses, the first least significant. -/
def readPas (m : Memory) : List Nat → Nat
  | [] => 0
  | a :: r => (m.read a).toNat + 256 * readPas m r

/-- The low bytes of v written at a list of physical addresses. -/
def writePas (m : Memory) (v : Nat) : List Nat → Memory
  | [] => m
  | a :: r => writePas (m.write a (BitVec.ofNat 8 v)) (v / 256) r

/-- The distinct lines of a list of physical addresses. -/
def linesOf (pas : List Nat) : List Nat := pas.foldl (fun ls a => if ls.contains (lineOf a) then ls else ls ++ [lineOf a]) []

/-! ## What a translation leaves (R360, R368) -/

/-- The upper-level entries of a walk kept by the die's walkers. -/
def keepUpper (s : State) (d : DieId) (tenant level : Nat) (va : Word) (e : Word) : State :=
  let page := va.toNat / 65536 / levelPages level * levelPages level
  { s with coh := { s.coh with
      walkers := ⟨d, tenant, level, page, e⟩ :: s.coh.walkers.filter (fun w => !(w.die == d && w.tenant == tenant && w.level == level && w.page == page)) } }

/-- Entries that a core's TLB holds in its two levels together. -/
def tlbSize : Nat := 256 + 4096

/-- A leaf kept by a core's TLB. Of a full TLB the oldest entry makes room; which one does is not architectural, and an entry may have gone before
(`Config.kept`). -/
def keepLeaf (s : State) (d : DieId) (c : CoreId) (tenant : Nat) (va : Word) (l : Leaf) : State :=
  let mine (t : TlbEntry) : Bool := t.die == d && t.core == c
  let rest := s.coh.tlb.filter (fun t => !t.hits d c tenant va)
  { s with coh := { s.coh with
      tlb := rest.filter (fun t => !mine t) ++ (⟨d, c, tenant, va.toNat / 65536, l.large, l.pte⟩ :: rest.filter mine).take tlbSize } }

/-- A walk's reads through L2, and what it leaves cached where it ends at a frame of the tenant; a walk that faults leaves nothing cached (R360). -/
def walked (s : State) (p : Party) (tenant : Nat) (va : Word) : State :=
  let d := p.die
  let s1 := ((walkReads s d tenant va).filter (frameThere s)).foldl (fun s a => touchAgent s d proxyAgent (lineOf a) false) s
  match walk s d tenant va with
  | .error _ => s1
  | .ok l =>
    if frameOk s tenant (physOf l va) then
      let s2 := match entry0 s d tenant va with | .ok e => keepUpper s1 d tenant 0 va e | .error _ => s1
      let s3 := match entry1 s d tenant va with | .ok e => if e.getLsbD 1 then s2 else keepUpper s2 d tenant 1 va e | .error _ => s2
      match p with
      | .core d c => keepLeaf s3 d c tenant va l
      | .unit _ => s3
    else s1

/-- A party has translated an address: by its TLB, which changes nothing, or by a walk. -/
def translated (s : State) (p : Party) (tenant : Nat) (va : Word) : State :=
  match heldLeaf s p tenant va with
  | some l => if leafOf s p tenant va == Except.ok l then s else walked s p tenant va
  | none => walked s p tenant va

/-- A party has translated the pages of n bytes, of which it may reach two. -/
def pagesReached (s : State) (p : Party) (tenant : Nat) (va : Word) (n : Nat) : State :=
  let s1 := translated s p tenant va
  let last := va + BitVec.ofNat 64 (n - 1)
  if last.toNat / 65536 = va.toNat / 65536 then s1 else translated s1 p tenant last

/-- The focused hart's access to the lines of checked addresses. -/
def touchAll (s : State) (pas : List Nat) (write stream : Bool) : State :=
  (linesOf pas).foldl (fun s l => touch s l write stream) s

/-- The memory replaced. -/
def setMem (s : State) (m : Memory) : State := { s with mem := m }

/-- The trap of a failing check at an address. -/
def failTrap (s : State) (f : Fail) (va : Word) : Trap := trapAt s f.cls f.sub va

/-- The physical addresses of n bytes from one on. -/
def bytesAt (pa n : Nat) : List Nat := (List.range n).map (pa + ·)

/-- What the focused hart's own reading of checked addresses sees: memory, or on a stream page the copy in its core's L1 (R260). -/
def hartMem (s : State) (pas : List Nat) (stream : Bool) : Memory :=
  if stream then (linesOf pas).foldl (fun m l => match copyIn s l with | some b => m.writeNat (128 * l) 128 b.toNat | none => m) s.mem else s.mem

/-- The number that checked addresses hold for the focused hart. -/
def hartRead (s : State) (pas : List Nat) (stream : Bool) : Nat := readPas (hartMem s pas stream) pas

/-- The copies of stream lines in the core's L1 with the focused hart's own store applied (R260); a copy that is not there any more does not come back without
it. `m` is memory before the store. -/
def storeCopies (s : State) (m : Memory) (pas : List Nat) (stream : Bool) : State :=
  if stream then
    (linesOf pas).foldl (fun t l =>
      match copyIn { s with mem := m } l with
      | some b => setCopy t l (BitVec.ofNat 1024 ((writePas (Memory.writeNat [] (128 * l) 128 b.toNat) (readPas s.mem (pas.filter (lineOf · == l)))
          (pas.filter (lineOf · == l))).readNat (128 * l) 128))
      | none => dropCopies t (dieOf s.hart.id) (coreOf s.hart.id) (· == l)) s
  else s

/-- The poison that a line's failing access brings into the core's L1 (R376); the fill of its tile has taken place (R368). -/
def poisoned (s : State) (pa : Nat) : State :=
  let s := fillTile s (tileOf pa)
  match poisonOf s (lineOf pa) with
  | some k => putL1 s (dieOf s.hart.id) (coreOf s.hart.id) (lineOf pa) (some (.P k)) none
  | none => s

/-- A failing access's machine: its walk has taken place (R360), the tile is filled (R368), and a line that turned out poisoned is in the L1 as such, unless
another agent makes the access, as `away` says of a physical address (R164). -/
def failAccess (s : State) (f : Fail) (va : Word) (away : Nat → Bool) : State :=
  if f.cls == 7 then s
  else
    let s1 := translated s (me s) s.hart.tenant va
    if f.cls == 5 || f.cls == 6 then
      match leafOf s (me s) s.hart.tenant va with
      | .ok l =>
        let pa := physOf l va
        if !isMappable pa then s1 else if away pa then fillTile s1 (tileOf pa) else poisoned s1 pa
      | .error _ => s1
    else s1

/-- A failing access of the focused hart's own. -/
def failState (s : State) (f : Fail) (va : Word) : State := failAccess s f va (fun _ => false)

/-- How a failing scalar access or fetch ends: with its trap, or with a wait for the line that its walk waits for. -/
def failNext (s : State) (f : Fail) (va : Word) : State :=
  if f.cls = 0 then stallOn s (.engine f.sub) else raise (failTrap s f va) (failState s f va)

/-! ## Ranges that cross a page (R259) -/

/-- Checked addresses from va on, by the 64 KiB pages they lie in, each with its leaf: `l` is the first's. No access of a hart reaches more than two. -/
def byPage (s : State) (va : Word) (pas : List Nat) (l : Leaf) : List (List Nat × Leaf) :=
  let n := 65536 - va.toNat % 65536
  if pas.length ≤ n then [(pas, l)]
  else [(pas.take n, l), (pas.drop n, match leafOf s (me s) s.hart.tenant (va + BitVec.ofNat 64 n) with | .ok x => x | .error _ => l)]

/-- The focused hart's access to the lines of a checked range. -/
def touchPages (s : State) (ps : List (List Nat × Leaf)) (write : Bool) : State := ps.foldl (fun s p => touchAll s p.1 write p.2.stream) s

/-- The number that a checked range holds for the focused hart. -/
def hartReadPages (s : State) : List (List Nat × Leaf) → Nat
  | [] => 0
  | p :: ps => hartRead s p.1 p.2.stream + 256 ^ p.1.length * hartReadPages s ps

/-- The copies of a range's stream lines with a store of the focused hart applied. -/
def storePages (s : State) (m : Memory) (ps : List (List Nat × Leaf)) : State := ps.foldl (fun s p => storeCopies s m p.1 p.2.stream) s

/-! ## Accesses of units that are no hart -/

/-- A unit's load of n bytes in a tenant's space: the number they hold, or why it failed and where. -/
def unitLoad (s : State) (d : DieId) (tenant : Nat) (va : Word) (n : Nat) : Except (Fail × Word) Nat :=
  match checkRange s (.unit d) tenant va n .read false with
  | .error e => .error e
  | .ok (pas, _) => .ok (readPas s.mem pas)

/-- A unit has read or failed to read n bytes: its walks, and the requests of a coherent agent for the lines it reached (R262). -/
def unitReads (s : State) (d : DieId) (tenant : Nat) (va : Word) (n : Nat) (a : BitVec 5 := proxyAgent) : State :=
  let s1 := pagesReached s (.unit d) tenant va n
  match checkRange s (.unit d) tenant va n .read false with
  | .error _ => s1
  | .ok (pas, _) => (linesOf pas).foldl (fun s l => touchAgent s d a l false) s1

/-- A unit's store of n bytes, all or none. -/
def unitStore (s : State) (d : DieId) (tenant : Nat) (va : Word) (n v : Nat) (a : BitVec 5 := proxyAgent) : Except (Fail × Word) State :=
  match checkRange s (.unit d) tenant va n .write false with
  | .error e => .error e
  | .ok (pas, _) =>
    .ok (setMem ((linesOf pas).foldl (fun s l => touchStoreBy s d a l) (pagesReached s (.unit d) tenant va n)) (writePas s.mem v pas))

/-- Whether a unit's access of n bytes must wait for one of its lines, or its walk for one of the tables' (R360, R377). -/
def unitWaits (s : State) (d : DieId) (tenant : Nat) (va : Word) (n : Nat) (k : Access) : Bool :=
  match checkRange s (.unit d) tenant va n k false with
  | .ok (pas, _) => (linesOf pas).any (lineWaits s d)
  | .error e => e.1.cls == 0

/-- An entry in a function's error log (R328). -/
def logError (s : State) (fn : Nat) (a : Word) : State := { s with host := { s.host with errors := s.host.errors ++ [(fn, a)] } }

end Sys2Proof.Machine
end

