-- ==== Sys2Proof/Machine/Operands.lean ====
section
/-! DEFINITION. Operand forms of vector instructions (R85, R86, R119 to R122): elements, masks, queues, the positions an instruction works
on, the format word in effect, and what each instruction's fields name. -/

namespace Sys2Proof.Machine

/-! ## Elements and registers -/

/-- Element i at width w of a string of bits (R119). -/
def elemOf (b : VBits) (w i : Nat) : Nat := (b >>> (w * i)).toNat % 2 ^ w

/-- The string with element i at width w replaced. -/
def setElem (b : VBits) (w i v : Nat) : VBits :=
  (b &&& ~~~((BitVec.ofNat 65536 (2 ^ w - 1)) <<< (w * i))) ||| ((BitVec.ofNat 65536 (v % 2 ^ w)) <<< (w * i))

/-- Elements written one after another, as (index, value). -/
def setElems (b : VBits) (w : Nat) (l : List (Nat × Nat)) : VBits := l.foldl (fun b p => setElem b w p.1 p.2) b

/-- A vector register. -/
def getV (s : State) (v : VReg) : VBits := s.hart.regs.v[v.toNat]'v.isLt

def setV (s : State) (v : VReg) (b : VBits) : State :=
  { s with hart := { s.hart with regs := { s.hart.regs with v := s.hart.regs.v.set v.toNat b v.isLt } } }

/-- A mask register. -/
def getM (s : State) (m : MReg) : MBits := s.hart.regs.m[m.toNat]'m.isLt

def setM (s : State) (m : MReg) (b : MBits) : State :=
  { s with hart := { s.hart with regs := { s.hart.regs with m := s.hart.regs.m.set m.toNat b m.isLt } } }

/-- A mask with bits replaced, as (index, value). -/
def setBits (b : MBits) (l : List (Nat × Bool)) : MBits :=
  l.foldl (fun b p => if p.2 then b ||| (1#8192 <<< p.1) else b &&& ~~~(1#8192 <<< p.1)) b

/-! ## Vector queues -/

/-- Whether an operand names a queue (R86). -/
def isQueue (v : VOpd) : Bool := 32 ≤ v.toNat
def isLq (v : VOpd) : Bool := 32 ≤ v.toNat && v.toNat < 40

/-- The register that an operand below 32 names. -/
def vregOf (v : VOpd) : VReg := v.extractLsb' 0 5

/-- A queue's entries, head first. -/
def getQ (s : State) (v : VOpd) : List QEntry :=
  if isLq v then (s.hart.q.lq)[v.toNat % 8]'(Nat.mod_lt _ (by decide)) else (s.hart.q.sq)[v.toNat % 4]'(Nat.mod_lt _ (by decide))

/-- The queues with one queue's entries replaced. -/
def Queues.put (q : Queues) (v : VOpd) (es : List QEntry) : Queues :=
  if isLq v then { q with lq := q.lq.set (v.toNat % 8) es (Nat.mod_lt _ (by decide)) }
  else { q with sq := q.sq.set (v.toNat % 4) es (Nat.mod_lt _ (by decide)) }

def setQ (s : State) (v : VOpd) (es : List QEntry) : State := { s with hart := { s.hart with q := s.hart.q.put v es } }

/-- The bits an operand delivers: a register's, or the head entry's. -/
def srcBits (s : State) (v : VOpd) : VBits :=
  if isQueue v then ((getQ s v).head?.map (·.bits)).getD 0 else getV s (vregOf v)

/-- Removes the head entry of each queue among the operands read (R17). -/
def popQs (s : State) (vs : List VOpd) : State := vs.foldl (fun s v => if isQueue v then setQ s v ((getQ s v).drop 1) else s) s

/-- Load-queue entries reserved and not removed (R18). -/
def lqHeld (s : State) : Nat := (s.hart.q.lq.toList.map (·.length)).foldl (· + ·) 0

/-- What a source or a destination queue makes the strand wait for (R15, R18). DESIGN CHOICE (log 97): a popping instruction waits until the whole entry is
full, where R17 lets it consume elements as soon as they are filled. -/
def popStall (s : State) (v : VOpd) : Option Stall :=
  if isQueue v then (match getQ s v with | e :: _ => if e.full then none else some (.popEmpty v) | [] => some (.popEmpty v)) else none

def pushStall (s : State) (v : VOpd) : Option Stall :=
  if isQueue v then
    if 2 ≤ (getQ s v).length then some (.pushFull v)
    else if isLq v && s.hart.cr.ahead.toNat ≤ lqHeld s then some .ahead
    else none
  else none

/-! ## The strip: width, lanes, positions -/

/-- The element width in bits: 8 << ew (R124). -/
def ewBits (s : State) : Nat := 8 * 2 ^ s.strand.ew.toNat

/-- Working lanes N = 8g (R25). -/
def lanesOf (s : State) : Nat := 8 * s.hart.grant.groups

/-- The rows an instruction works within: one row of elements 0 to vl - 1, or the rows of a Mygar register (R279, R280). -/
def rowsOf (s : State) : List (List Nat) :=
  if s.strand.portable then
    if s.strand.rowLen == 0 then []
    else (List.range s.strand.rows).map (fun j => (List.range s.strand.rowLen).map (fun i => j * s.strand.rowCap + i))
  else if s.strand.vl == 0 then [] else [List.range s.strand.vl.toNat]

/-- Every position, in row-major order. -/
def positions (s : State) : List Nat := (rowsOf s).flatten

/-- The number of elements of row 0: vl, or lr where a row exists (R281 for the DG forms). -/
def vlOf (s : State) : Nat :=
  if s.strand.portable then (if s.strand.rows == 0 then 0 else s.strand.rowLen) else s.strand.vl.toNat

/-- The logical lane group of an element and its place in that group's element order (R25, R32). -/
def groupOf (n e : Nat) : Nat := if n == 0 then 0 else e % n / 8
def placeOf (n e : Nat) : Nat := if n == 0 then e else e / n * 8 + e % 8

/-- The elements of the strip that logical lane group j holds, in the group's element order (R32). -/
def groupElems (s : State) (j : Nat) : List Nat := (positions s).filter (fun e => groupOf (lanesOf s) e == j)

/-- The number of elements of the strip that come before e in its lane group (R32): the elements of a Mygar strip are those of its rows. -/
def placeIn (s : State) (e : Nat) : Nat :=
  if s.strand.portable then ((groupElems s (groupOf (lanesOf s) e)).filter (· < e)).length else placeOf (lanesOf s) e

/-- Whether a slot's counters have passed element e (R32). -/
def passed (s : State) (k : Slot) (e : Nat) : Bool :=
  placeIn s e < (k.ctr[groupOf (lanesOf s) e % 8]'(Nat.mod_lt _ (by decide))).toNat

/-- Whether an instruction's elements perform in ascending order (R159). -/
def inOrder : Instr → Bool
  | .vldxo .. | .vstxo .. => true
  | _ => false

/-- The element group that an element lies in: floor(e / N) (R33). -/
def rankOf (n e : Nat) : Nat := placeOf n e / 8

/-- How many element groups of lane group j a slot has begun: those up to the last element that its counter has passed. -/
def begunIn (s : State) (k : Slot) (j : Fin 8) : Nat :=
  if s.strand.portable then ((groupElems s j.val).take (k.ctr[j]).toNat).getLast?.elim 0 (fun e => rankOf (lanesOf s) e + 1)
  else ((k.ctr[j]).toNat + 7) / 8

/-- Whether an element lies before the stop points of a slot that is asked to stop: the end of an element group of each lane group, at or
after what is complete (R33); of all lane groups the same, where the elements perform in order. -/
def within (s : State) (k : Slot) (e : Nat) : Bool :=
  match k.stop with
  | none => true
  | some n =>
    let j : Fin 8 := ⟨groupOf (lanesOf s) e % 8, Nat.mod_lt _ (by decide)⟩
    rankOf (lanesOf s) e < (if inOrder k.instr then max (Config.stopPoint n 0) (((List.finRange 8).map (begunIn s k)).foldl max 0)
      else max (Config.stopPoint n j.val) (begunIn s k j))

/-- Counters that pass every element of the strip but those listed and what follows them in their lane group (R32). -/
def countersFor (s : State) (left : List Nat) : Vector (BitVec 16) 8 :=
  Vector.ofFn fun (g : Fin 8) =>
    let es := groupElems s g.val
    BitVec.ofNat 16 ((es.find? (fun e => left.contains e)).elim es.length (placeIn s))

/-- The elements that a slot leaves for later when it stops. -/
def beyond (s : State) (k : Slot) : List Nat := (positions s).filter (fun e => !within s k e)

/-- The mask test of R121. -/
def govTest (s : State) (g : Gov) (e : Nat) : Bool := g.mask == 0 || (getM s g.mask).getLsbD e != g.comp

/-- Whether an element is for the slot to complete now: not complete, and before the stop points of a slot that is to stop (R33). -/
def openAt (s : State) (k : Slot) (e : Nat) : Bool := !passed s k e && within s k e

/-- The active elements that the slot completes now, in row-major order (R121, R33). -/
def activeOf (s : State) (k : Slot) (g : Gov) : List Nat :=
  (positions s).filter (fun e => govTest s g e && openAt s k e)

/-! ## Format words -/

/-- The format word in effect for a slot whose fmt field is f (R40), the default one by `cr.ew` at dispatch (R42). -/
def fmtOf (_s : State) (k : Slot) (f : XReg) : FmtWord := if f == 0 then FmtWord.default k.ew.toNat else FmtWord.ofWord k.fmtw

/-- The value an element of an operand has in a format (R120). -/
def valOf (s : State) (v : VOpd) (c : Nat) (flush : Bool) (e : Nat) : Val := readVal c flush (elemOf (srcBits s v) (fmtWidth c) e)

/-- The b operand's bits for an element at width w: a vector's element, or the low bits of xs (R122). -/
def bBits (s : State) (k : Slot) (b : BSrc) (w e : Nat) : Nat :=
  match b with
  | .vec v => elemOf (srcBits s v) w e
  | .scl _ => k.xsv.toNat % 2 ^ w

def bVal (s : State) (k : Slot) (b : BSrc) (c : Nat) (flush : Bool) (e : Nat) : Val := readVal c flush (bBits s k b (fmtWidth c) e)

/-! ## Writing a destination -/

/-- Writes elements of a vector destination: a register keeps the others; a queue destination gets an entry whose other elements
are 0 (R17, R121). -/
def putVec (s : State) (d : VOpd) (w : Nat) (l : List (Nat × Nat)) : State :=
  if isQueue d then setQ s d (getQ s d ++ [⟨setElems 0 w l, true, s.strand.vl⟩])
  else setV s (vregOf d) (setElems (getV s (vregOf d)) w l)

/-- Writes elements of a slot's destination: the slot's own entry of a queue is reserved once, and stays with its filled elements while some are
missing (R17, R33, R168). -/
def putOut (s : State) (k : Slot) (d : VOpd) (w : Nat) (l : List (Nat × Nat)) (full : Bool) : State × Slot :=
  if isQueue d then
    if k.pushed then
      let q := getQ s d
      match q.getLast? with
      | some e => (setQ s d (q.dropLast ++ [{ e with bits := setElems e.bits w l, full := full }]), k)
      | none => (s, k)
    else (setQ s d (getQ s d ++ [⟨setElems 0 w l, full, s.strand.vl⟩]), { k with pushed := true })
  else (setV s (vregOf d) (setElems (getV s (vregOf d)) w l), k)

/-- The destination's elements written by a slot that completes. -/
def putAll (s : State) (k : Slot) (d : VOpd) (w : Nat) (l : List (Nat × Nat)) : State := (putOut s k d w l true).1

/-- x[d] written by a slot: in the bank that its convoy was dispatched under (R114). -/
def slotX (s : State) (k : Slot) (d : XReg) (v : Word) : State := bankX s k.shadow d v

/-- Writes bits of a mask destination. -/
def putMask (s : State) (d : MReg) (l : List (Nat × Bool)) : State := setM s d (setBits (getM s d) l)

/-! ## What an instruction's fields name -/

/-- What a vector instruction names: unit, vector sources and destination, masks read and written, scalar registers. -/
structure VInfo where
  unit : Nat
  srcs : List VOpd := []
  dst  : Option VOpd := none
  /-- mask operands read, the governing mask apart -/
  mrd  : List MReg := []
  mdst : Option MReg := none
  gov  : Gov := ⟨0, false⟩
  fmt  : Option XReg := none
  xs   : Option XReg := none
  /-- the scalar register that vb names (R82) -/
  xb   : Option XReg := none
  xd   : Option XReg := none
  deriving DecidableEq, Repr, Inhabited

/-- A V operand as a v operand. -/
def ofV (v : VReg) : VOpd := 0#1 ++ v

def bSrcs : BSrc → List VOpd
  | .vec v => [v]
  | .scl _ => []

def bXs : BSrc → Option XReg
  | .vec _ => none
  | .scl x => some x

/-- Shapes shared by the rows of R87. -/
def infoAB (u : Nat) (d a : VOpd) (b : BSrc) (g : Gov) (f : XReg) : VInfo :=
  { unit := u, srcs := a :: bSrcs b, dst := some d, gov := g, fmt := some f, xs := bXs b }
def infoU (u : Nat) (d a : VOpd) (g : Gov) (f : XReg) : VInfo := { unit := u, srcs := [a], dst := some d, gov := g, fmt := some f }

/-- The fields of each vector instruction by the tables of R87: units 0 VA, 1 VB, 2 VX, 3 VM, 4 LS, 5 DG. -/
def infoOf : Instr → Option VInfo
  | .vadd d a b g f | .vsub d a b g f | .vmul d a b g f | .vmulh d a b g f | .vdiv d a b g f | .vrem d a b g f
  | .vmin d a b g f | .vmax d a b g f => some (infoAB 0 d a b g f)
  | .vsqrt d a g f | .vrcp d a g f | .vrsqrt d a g f | .vexp2 d a g f | .vlog2 d a g f | .vabs d a g f | .vneg d a g f => some (infoU 0 d a g f)
  | .vfma d a b c g f | .vfms d a b c g f | .vfnma d a b c g f =>
    some { unit := 0, srcs := [a] ++ bSrcs b ++ [c], dst := some d, gov := g, fmt := some f, xs := bXs b }
  | .vcvt d a g f | .vclz d a g f | .vpopc d a g f | .vclass d a g f => some (infoU 1 d a g f)
  | .vand d a b g f | .vor d a b g f | .vxor d a b g f | .vsll d a b g f | .vsrl d a b g f | .vsra d a b g f => some (infoAB 1 d a b g f)
  | .vcmp d a b _ g f => some { unit := 1, srcs := a :: bSrcs b, mdst := some d, gov := g, fmt := some f, xs := bXs b }
  | .mand d a b | .mor d a b | .mxor d a b | .mandn d a b => some { unit := 3, mrd := [a, b], mdst := some d }
  | .mnot d a | .mmov d a | .mbefore d a => some { unit := 3, mrd := [a], mdst := some d }
  | .mset d _ => some { unit := 3, mdst := some d }
  | .mpopc d a | .mfirst d a => some { unit := 3, mrd := [a], xd := some d }
  | .vmv d a g => some { unit := 2, srcs := [a], dst := some d, gov := g }
  | .vbcast d x g => some { unit := 2, dst := some d, gov := g, xs := some x }
  | .vext d a x => some { unit := 2, srcs := [ofV a], xs := some x, xd := some d }
  | .vins d x _ => some { unit := 2, dst := some (ofV d), xs := some x }
  | .vslideup d a x _ g | .vslidedn d a x _ g => some { unit := 2, srcs := [a], dst := some d, gov := g, xs := some x }
  | .vperm d a b g => some { unit := 2, srcs := [a, ofV b], dst := some d, gov := g }
  | .vmerge d a b g => some { unit := 2, srcs := [a, b], dst := some d, gov := g }
  | .viota d g => some { unit := 2, dst := some d, gov := g }
  | .vcompress d a g | .vexpand d a g | .vconflict d a g => some { unit := 2, srcs := [a], dst := some d, gov := g }
  | .vprefixpop d a g => some { unit := 2, mrd := [a], dst := some d, gov := g }
  | .vscan d a c sg _ g f | .vscanf d a c sg _ g f =>
    some { unit := 2, srcs := [a], dst := some d, mrd := if sg then [c] else [], gov := g, fmt := some f }
  | .vred d a x _ g f | .vredf d a x _ g f => some { unit := 2, srcs := [a], gov := g, fmt := some f, xs := some x, xd := some d }
  | .vprune d a c z x g f =>
    some { unit := 0, srcs := [a], dst := if z then some (ofV c) else none, mdst := some d, gov := g, fmt := some f, xs := some x }
  | .vrand d g f => some { unit := 0, dst := some d, gov := g, fmt := some f }
  | .vsmfin d a b g f => some { unit := 0, srcs := [a, b], dst := some d, gov := g, fmt := some f }
  | .vld d x _ _ g | .vldff d x _ _ g => some { unit := 4, dst := some d, gov := g, xs := some x }
  | .vlds d x st _ _ g => some { unit := 4, dst := some d, gov := g, xs := some x, xb := some st }
  | .vldx d x b _ _ _ g | .vldxo d x b _ _ _ g => some { unit := 4, srcs := [ofV b], dst := some d, gov := g, xs := some x }
  | .vldm d x _ => some { unit := 4, mdst := some d, xs := some x }
  | .vfill d x => some { unit := 4, dst := some (ofV d), xs := some x }
  | .vst a x _ _ g => some { unit := 4, srcs := [a], gov := g, xs := some x }
  | .vsts a x st _ _ g => some { unit := 4, srcs := [a], gov := g, xs := some x, xb := some st }
  | .vstx a x b _ _ _ g | .vstxo a x b _ _ _ g => some { unit := 4, srcs := [a, ofV b], gov := g, xs := some x }
  | .vstm a x _ => some { unit := 4, mrd := [a], xs := some x }
  | .vspill a x => some { unit := 4, srcs := [ofV a], xs := some x }
  | .vgl d x b _ g => some { unit := 4, srcs := [ofV b], dst := some d, gov := g, xs := some x }
  | .vsc d a x b _ g => some { unit := 4, srcs := [a, ofV b], mdst := some d, gov := g, xs := some x }
  | .vscc d a x b _ _ _ g f => some { unit := 4, srcs := [a, ofV b], mdst := some d, gov := g, xs := some x, fmt := some f }
  | .vxlate d a x g | .vxlateff d a x g => some { unit := 4, srcs := [ofV a], dst := some d, gov := g, xs := some x }
  | .vwait d a b x _ _ g => some { unit := 4, srcs := [ofV a, ofV b], mdst := some d, gov := g, xs := some x }
  | .smap x b _ => some { unit := 4, xs := some x, xb := some b }
  | .sunmap x _ | .sflush x _ => some { unit := 4, xs := some x }
  -- the queue of `strm` is no operand that the access strand reads or writes: `strmOk` checks its use
  | .strm _ x _ => some { unit := 4, xs := some x }
  | .strmend _ => some { unit := 4 }
  | .cpy x | .cpy2d x | .trim x => some { unit := 4, xs := some x }
  | .cpywait d x => some { unit := 4, xs := some x, xd := some d }
  | .vpf x b g => some { unit := 4, srcs := [ofV b], gov := g, xs := some x }
  | .mshape x | .maccwin x | .aczero x => some { unit := 5, xs := some x }
  | .dmac d a b x _ g f | .dmacf d a b x _ g f => some { unit := 5, srcs := [a, b], dst := some (ofV d), gov := g, xs := some x, fmt := some f }
  | .dsweep a b x _ f | .dsweepf a b x _ f | .spsweep a b x f | .spsweepf a b x f =>
    some { unit := 5, srcs := [a, b], xs := some x, fmt := some f }
  | .sppack d a f | .spunpack d a f => some { unit := 5, srcs := [a], dst := some d, fmt := some f }
  | .acld a x => some { unit := 5, srcs := [a], xs := some x }
  | .acst d x f => some { unit := 5, dst := some d, xs := some x, fmt := some f }
  | .acmap d x => some { unit := 5, mdst := some d, xs := some x }
  | _ => none

end Sys2Proof.Machine
end

