-- ==== Sys2Proof/Machine/Flags.lean ====
section
/-! DEFINITION. The conditions and recorded flags: the overflow mask (R50), branch, mask and compare conditions (R103, R105, R133, R175),
and the words that control registers assemble from their fields. -/

namespace Sys2Proof.Machine

/-- Sets the overflow mask's bits for the elements out of range; 0 names no mask, and no bit is ever cleared (R50). -/
def setOverflow (s : State) (ov : BitVec 3) (es : List Nat) : State :=
  if ov == 0 then s else putMask s ov (es.map (fun e => (e, true)))

/-- The condition of `b` (R78, R103). -/
def branchHolds (c : BitVec 4) (x y : Word) : Bool :=
  match c.toNat with
  | 0 => x == y
  | 1 => x != y
  | 2 => x.slt y
  | 3 => !x.slt y
  | 4 => x.ult y
  | _ => !x.ult y

/-- The condition of `bm` over the positions of the strip (R105, R281). -/
def maskHolds (c : BitVec 4) (m : MBits) (es : List Nat) : Bool :=
  match c.toNat with
  | 0 => es.any (fun e => m.getLsbD e)
  | 1 => !es.any (fun e => m.getLsbD e)
  | _ => es.all (fun e => m.getLsbD e)

/-- The condition of `vcmp` on an exact comparison; none is a NaN or NaR operand (R133). -/
def compareHolds (c : BitVec 3) (o : Option Ordering) : Bool :=
  match c.toNat with
  | 0 => o == some .eq
  | 1 => o != some .eq
  | 2 => o == some .lt
  | 3 => o == some .lt || o == some .eq
  | 4 => o == some .gt
  | _ => o == some .gt || o == some .eq

/-- The comparison of `vwait` and of a wait condition on w-bit values (R175, R237). -/
def waitHolds (c : Nat) (w x y : Nat) : Bool :=
  let x := x % 2 ^ w
  let y := y % 2 ^ w
  match c with
  | 0 => x == y
  | 1 => x != y
  | 2 => signedOf w x < signedOf w y
  | 3 => signedOf w y ≤ signedOf w x
  | 4 => x < y
  | _ => y ≤ x

/-- `cr.lanes` of a grant (R29). -/
def lanesWord (g : Grant) : Word :=
  BitVec.ofNat 64 (g.groups + 2 ^ 4 * g.share + 2 ^ 8 * (8 * g.groups) + 2 ^ 16 * g.cls
    + 2 ^ 24 * (if g.vlen = 0 then 0 else Nat.log2 g.vlen) + 2 ^ 32 * g.short.toNat + 2 ^ 40 * g.banks)

/-- `cr.hartid`, with the strand bit (R110). -/
def hartIdWord (h : HartId) (access : Bool) : Word := (0 : BitVec 51) ++ BitVec.ofBool access ++ (0 : BitVec 1) ++ h

end Sys2Proof.Machine
end

