-- ==== Sys2Proof/Machine/ScalarInt.lean ====
section
/-! DEFINITION. Integer register and immediate instructions (R93 to R96). -/

namespace Sys2Proof.Machine

/-- The end of a scalar instruction with one result: x[d] written, pc + 4. -/
def retire (d : XReg) (v : Word) (s : State) : Result := .next (advance (setX s d v))

/-- A scalar instruction whose fields the tables list runs; any other traps as illegal (R88). -/
def ifLegal (i : Instr) (s : State) (r : Result) : Result := if i.wf then r else .next (illegal i s)

/-! ## Results -/

/-- The low six bits of a shift amount. -/
def amount (b : Word) : Nat := b.toNat % 64

/-- a / b truncated toward zero, with the edges of R94. -/
def divide64 (a b : Word) : Word := if b = 0 then BitVec.allOnes 64 else BitVec.ofInt 64 (Int.tdiv a.toInt b.toInt)
def divideU64 (a b : Word) : Word := if b = 0 then BitVec.allOnes 64 else BitVec.ofNat 64 (a.toNat / b.toNat)

/-- a − b × (a / b), with the edges of R94. -/
def remainder64 (a b : Word) : Word := if b = 0 then a else BitVec.ofInt 64 (Int.tmod a.toInt b.toInt)
def remainderU64 (a b : Word) : Word := if b = 0 then a else BitVec.ofNat 64 (a.toNat % b.toNat)

/-- The one bits among the first n. -/
def onesBelow (a : Word) (n : Nat) : Nat := ((List.range n).filter (fun i => a.getLsbD i)).length

/-- Trailing zero bits, 64 for 0. -/
def trailing (a : Word) : Nat := ((List.range 64).find? (fun i => a.getLsbD i)).getD 64

/-- Leading zero bits, 64 for 0. -/
def leading (a : Word) : Nat := ((List.range 64).find? (fun i => a.getLsbD (63 - i))).getD 64

/-- The eight bytes in reverse order. -/
def swapBytes (a : Word) : Word :=
  a.extractLsb' 0 8 ++ a.extractLsb' 8 8 ++ a.extractLsb' 16 8 ++ a.extractLsb' 24 8 ++ a.extractLsb' 32 8 ++ a.extractLsb' 40 8
    ++ a.extractLsb' 48 8 ++ a.extractLsb' 56 8

/-- Bits 8w-1:0 with w = 1, 2, 4 for the codes 0, 1, 2. -/
def widthOf (w : BitVec 5) : Nat := 8 * 2 ^ w.toNat
def signExt (a : Word) (w : BitVec 5) : Word := (a.setWidth (widthOf w)).signExtend 64
def zeroExt (a : Word) (w : BitVec 5) : Word := (a.setWidth (widthOf w)).setWidth 64

def ofBool (c : Bool) : Word := if c then 1 else 0

/-! ## Register operations (R93, R94) -/

def execAdd (d a b : XReg) (s : State) : Result := retire d (getX s a + getX s b) s
def execSub (d a b : XReg) (s : State) : Result := retire d (getX s a - getX s b) s
def execAnd (d a b : XReg) (s : State) : Result := retire d (getX s a &&& getX s b) s
def execOr (d a b : XReg) (s : State) : Result := retire d (getX s a ||| getX s b) s
def execXor (d a b : XReg) (s : State) : Result := retire d (getX s a ^^^ getX s b) s
def execAndn (d a b : XReg) (s : State) : Result := retire d (getX s a &&& ~~~getX s b) s
def execOrn (d a b : XReg) (s : State) : Result := retire d (getX s a ||| ~~~getX s b) s
def execSll (d a b : XReg) (s : State) : Result := retire d (getX s a <<< amount (getX s b)) s
def execSrl (d a b : XReg) (s : State) : Result := retire d (getX s a >>> amount (getX s b)) s
def execSra (d a b : XReg) (s : State) : Result := retire d ((getX s a).sshiftRight (amount (getX s b))) s
def execRol (d a b : XReg) (s : State) : Result := retire d ((getX s a).rotateLeft (amount (getX s b))) s
def execMul (d a b : XReg) (s : State) : Result := retire d (getX s a * getX s b) s
/-- Bits 127:64 of the signed product. -/
def execMulh (d a b : XReg) (s : State) : Result := retire d (BitVec.ofInt 64 ((getX s a).toInt * (getX s b).toInt / 2 ^ 64)) s
/-- Bits 127:64 of the unsigned product. -/
def execMulhu (d a b : XReg) (s : State) : Result := retire d (BitVec.ofNat 64 ((getX s a).toNat * (getX s b).toNat / 2 ^ 64)) s
def execDiv (d a b : XReg) (s : State) : Result := retire d (divide64 (getX s a) (getX s b)) s
def execDivu (d a b : XReg) (s : State) : Result := retire d (divideU64 (getX s a) (getX s b)) s
def execRem (d a b : XReg) (s : State) : Result := retire d (remainder64 (getX s a) (getX s b)) s
def execRemu (d a b : XReg) (s : State) : Result := retire d (remainderU64 (getX s a) (getX s b)) s
def execMin (d a b : XReg) (s : State) : Result := retire d (if (getX s a).slt (getX s b) then getX s a else getX s b) s
def execMax (d a b : XReg) (s : State) : Result := retire d (if (getX s a).slt (getX s b) then getX s b else getX s a) s
def execMinu (d a b : XReg) (s : State) : Result := retire d (if (getX s a).ult (getX s b) then getX s a else getX s b) s
def execMaxu (d a b : XReg) (s : State) : Result := retire d (if (getX s a).ult (getX s b) then getX s b else getX s a) s
def execSlt (d a b : XReg) (s : State) : Result := retire d (ofBool ((getX s a).slt (getX s b))) s
def execSltu (d a b : XReg) (s : State) : Result := retire d (ofBool ((getX s a).ult (getX s b))) s
def execClz (d a : XReg) (s : State) : Result := retire d (BitVec.ofNat 64 (leading (getX s a))) s
def execCtz (d a : XReg) (s : State) : Result := retire d (BitVec.ofNat 64 (trailing (getX s a))) s
def execPopc (d a : XReg) (s : State) : Result := retire d (BitVec.ofNat 64 (onesBelow (getX s a) 64)) s
def execBswap (d a : XReg) (s : State) : Result := retire d (swapBytes (getX s a)) s
def execSext (d a : XReg) (w : BitVec 5) (s : State) : Result := ifLegal (.sext d a w) s (retire d (signExt (getX s a) w) s)
def execZext (d a : XReg) (w : BitVec 5) (s : State) : Result := ifLegal (.zext d a w) s (retire d (zeroExt (getX s a) w) s)

/-! ## Immediates (R95) -/

def execAddi (d a : XReg) (imm : BitVec 16) (s : State) : Result := retire d (getX s a + imm.signExtend 64) s
def execAndi (d a : XReg) (imm : BitVec 16) (s : State) : Result := retire d (getX s a &&& imm.setWidth 64) s
def execOri (d a : XReg) (imm : BitVec 16) (s : State) : Result := retire d (getX s a ||| imm.setWidth 64) s
def execXori (d a : XReg) (imm : BitVec 16) (s : State) : Result := retire d (getX s a ^^^ imm.setWidth 64) s
def execSlli (d a : XReg) (n : BitVec 6) (s : State) : Result := retire d (getX s a <<< n.toNat) s
def execSrli (d a : XReg) (n : BitVec 6) (s : State) : Result := retire d (getX s a >>> n.toNat) s
def execSrai (d a : XReg) (n : BitVec 6) (s : State) : Result := retire d ((getX s a).sshiftRight n.toNat) s
def execRoli (d a : XReg) (n : BitVec 6) (s : State) : Result := retire d ((getX s a).rotateLeft n.toNat) s
def execSlti (d a : XReg) (imm : BitVec 16) (s : State) : Result := retire d (ofBool ((getX s a).slt (imm.signExtend 64))) s
/-- Both read unsigned, the immediate after its sign extension. -/
def execSltiu (d a : XReg) (imm : BitVec 16) (s : State) : Result := retire d (ofBool ((getX s a).ult (imm.signExtend 64))) s
/-- imm × 2^16, sign-extended from bit 31. -/
def execLui (d : XReg) (imm : BitVec 16) (s : State) : Result := retire d ((imm ++ 0#16).signExtend 64) s
/-- x[a] + s × 2^32. -/
def execAddhi (d a : XReg) (imm : BitVec 16) (s : State) : Result := retire d (getX s a + (imm.signExtend 64 <<< 32)) s

end Sys2Proof.Machine
end

