-- ==== Sys2Proof/Machine/ScalarMem.lean ====
section
/-! DEFINITION. Scalar memory (R97 to R100). These majors run on the access strand or the single strand (R12). -/

namespace Sys2Proof.Machine

/-- Bytes of a scalar access by its size code (R77, R97). -/
def sizeBytes (z : BitVec 3) : Nat := 2 ^ (z.toNat / 2)

/-- What a load writes: sign-extended for .b, .h and .w, zero-extended for the others (R97). -/
def loadValue (z : BitVec 3) (v : Nat) : Word :=
  if z.getLsbD 0 then BitVec.ofNat 64 v else BitVec.ofInt 64 (signedOf (8 * sizeBytes z) v)

/-- EA = (x[a] + sext(off)) mod 2^64. -/
def effAddr (s : State) (a : XReg) (off : BitVec 13) : Word := getX s a + off.signExtend 64

/-- An instruction that the compute strand may not execute (R12, R13). -/
def accessOnly (i : Instr) (s : State) (r : Result) : Result :=
  if s.role = .compute then .next (illegal i s) else ifLegal i s r

/-- A scalar access: the checks of R97 in order, a wait for an engine's line or a table line of the walk (R190, R360), then its effect at the physical address, its address translated. -/
def scalarAccess (ea : Word) (n : Nat) (k : Access) (strict : Bool) (s : State) (f : State → Nat → Leaf → State) : Result :=
  match checkAligned s (me s) s.hart.tenant ea n k strict with
  | .error e => .next (failNext s e ea)
  | .ok (pa, l) => if engineLine s (lineOf pa) then .next (stallOn s (.engine (lineOf pa))) else .next (f (translated s (me s) s.hart.tenant ea) pa l)

/-- A load's effect. -/
def loadAt (d : XReg) (z : BitVec 3) (s : State) (pa : Nat) (l : Leaf) : State :=
  advance (setX (touch s (lineOf pa) false l.stream) d (loadValue z (hartRead s (bytesAt pa (sizeBytes z)) l.stream)))

/-- A store's effect: the low bytes of a value at an address. -/
def storeBytes (s : State) (pa n : Nat) (v : Word) (stream : Bool) : State :=
  storeCopies (setMem (touch s (lineOf pa) true stream) (s.mem.writeNat pa n v.toNat)) s.mem (bytesAt pa n) stream

/-- The strand's reservation replaced. -/
def setResv (s : State) (r : Option Reservation) : State := { s with strand := { s.strand with resv := r } }

/-- Whether an `sc` of n bytes at ea finds its reservation (R99). -/
def resvHolds (s : State) (ea : Word) (n : Nat) : Bool :=
  match s.strand.resv with
  | some r => r.ea == ea && r.size == n
  | none => false

def execLd (d a : XReg) (z : BitVec 3) (off : BitVec 13) (s : State) : Result :=
  accessOnly (.ld d a z off) s (scalarAccess (effAddr s a off) (sizeBytes z) .read false s (loadAt d z))

def execSt (d a : XReg) (z : BitVec 3) (off : BitVec 13) (s : State) : Result :=
  accessOnly (.st d a z off) s (scalarAccess (effAddr s a off) (sizeBytes z) .write false s
    (fun t pa l => advance (storeBytes t pa (sizeBytes z) (getX s d) l.stream)))

/-- An acquire (R98): in a machine that performs accesses one after another a load, after which the core's L1 holds no stream line (R260). -/
def execLda (d a : XReg) (z : BitVec 3) (off : BitVec 13) (s : State) : Result :=
  accessOnly (.lda d a z off) s (scalarAccess (effAddr s a off) (sizeBytes z) .read false s (fun t pa l => acquire (loadAt d z t pa l)))

/-- A release (R98): in a machine that performs accesses one after another, an ordinary store. -/
def execStl (d a : XReg) (z : BitVec 3) (off : BitVec 13) (s : State) : Result :=
  accessOnly (.stl d a z off) s (scalarAccess (effAddr s a off) (sizeBytes z) .write false s
    (fun t pa l => advance (storeBytes t pa (sizeBytes z) (getX s d) l.stream)))

/-- Loads and reserves EA, its size and its line (R99). -/
def execLl (d a : XReg) (z : BitVec 3) (off : BitVec 13) (s : State) : Result :=
  accessOnly (.ll d a z off) s (scalarAccess (effAddr s a off) (sizeBytes z) .read true s
    (fun t pa l => setResv (loadAt d z t pa l) (some ⟨effAddr s a off, sizeBytes z, lineOf pa⟩)))

/-- Stores if the reservation holds; x[d] says whether it did, and the reservation is cleared (R99). -/
def execSc (d a : XReg) (z : BitVec 3) (off : BitVec 13) (s : State) : Result :=
  accessOnly (.sc d a z off) s (scalarAccess (effAddr s a off) (sizeBytes z) .write true s
    (fun t pa l =>
      if resvHolds s (effAddr s a off) (sizeBytes z) then
        advance (setX (setResv (storeBytes t pa (sizeBytes z) (getX s d) l.stream) none) d 1)
      else advance (setX (setResv t none) d 0)))

end Sys2Proof.Machine
end

