-- ==== Sys2Proof/Machine/Diagonals.lean ====
section
/-! DEFINITION. The geometry of diagonals (R195, R198), the fields of `cr.mshape` and `cr.accwin`, and the layout of the accumulator
store (R202, R203). -/

namespace Sys2Proof.Machine

/-- A signed field of a word. -/
def sfield (w : Word) (lo n : Nat) : Int := (w.extractLsb' lo n).toInt
def ufield (w : Word) (lo n : Nat) : Nat := (w.extractLsb' lo n).toNat

/-- The shape held by `cr.mshape` (R196). -/
structure Shape where
  m : Nat
  k : Nat
  n : Nat
  akind : Nat
  deriving DecidableEq, Repr, Inhabited

def Shape.ofWord (w : Word) : Shape := { m := ufield w 0 16, k := ufield w 16 16, n := ufield w 32 16, akind := ufield w 48 5 }

def shapeOf (s : State) : Shape := Shape.ofWord s.hart.cr.mshape

/-- The length of diagonal p of a rows × cols matrix (R195); 0 or less when p names none. -/
def diagLen (rows cols : Nat) (p : Int) : Int := min (rows : Int) (cols - p) - max 0 (-p)

/-- Whether p names a diagonal of a rows × cols matrix (R195). -/
def isDiag (rows cols : Nat) (p : Int) : Bool := -((rows : Int) - 1) ≤ p && p ≤ (cols : Int) - 1

def Shape.lenA (h : Shape) (p : Int) : Nat := (diagLen h.m h.k p).toNat
def Shape.lenB (h : Shape) (q : Int) : Nat := (diagLen h.k h.n q).toNat
def Shape.lenC (h : Shape) (r : Int) : Nat := (diagLen h.m h.n r).toNat

/-- Where three diagonals meet (R198): the steps, and the element at which each enters. -/
structure Overlap where
  n  : Nat
  a0 : Nat
  b0 : Nat
  c0 : Nat
  /-- the first row -/
  i0 : Nat
  deriving DecidableEq, Repr, Inhabited

def overlap (h : Shape) (p q : Int) : Overlap :=
  let i0 : Int := max 0 (max (-p) (-(p + q)))
  let i1 : Int := min (h.m : Int) (min (h.k - p) (h.n - (p + q)))
  { n := (i1 - i0).toNat, a0 := (i0 - max 0 (-p)).toNat, b0 := (i0 + p - max 0 (-q)).toNat
    c0 := (i0 - max 0 (-(p + q))).toNat, i0 := i0.toNat }

/-- The window held by `cr.accwin` (R202). -/
structure AccWin where
  en : Bool
  hkeep : Nat
  lskip : Nat
  hi : Int
  lo : Int
  deriving DecidableEq, Repr, Inhabited

def AccWin.ofWord (w : Word) : AccWin :=
  { en := w.getLsbD 63, hkeep := ufield w 48 15, lskip := ufield w 32 15, hi := sfield w 16 16, lo := sfield w 0 16 }

def winOf (s : State) : AccWin := AccWin.ofWord s.hart.cr.accwin

/-- Bytes of one accumulator element (R203). -/
def accWidth (akind : Nat) : Nat := if akind == 11 then 4 else if akind == 13 then 32 else 8

/-- Offsets lo to hi. -/
def offsets (lo hi : Int) : List Int := (List.range (hi - lo + 1).toNat).map (fun (j : Nat) => lo + (j : Int))

/-- Whether element e of result diagonal r is held (R203). -/
def AccWin.held (w : AccWin) (r : Int) (e : Nat) : Bool :=
  w.lo ≤ r && r ≤ w.hi && !(r == w.lo && e < w.lskip) && !(r == w.hi && 0 < w.hkeep && w.hkeep ≤ e)

/-- The number of held elements of diagonal r (R203). -/
def AccWin.heldLen (w : AccWin) (h : Shape) (r : Int) : Nat :=
  let top := if r == w.hi && 0 < w.hkeep then w.hkeep else h.lenC r
  top - (if r == w.lo then w.lskip else 0)

/-- The place of element e of diagonal r among the held elements, in elements (R203). -/
def AccWin.place (w : AccWin) (h : Shape) (r : Int) (e : Nat) : Nat :=
  ((offsets w.lo (r - 1)).map (w.heldLen h)).foldl (· + ·) 0 + (e - (if r == w.lo then w.lskip else 0))

def AccWin.total (w : AccWin) (h : Shape) : Nat := ((offsets w.lo w.hi).map (w.heldLen h)).foldl (· + ·) 0

/-! ## The store -/

/-- An accumulator element's bits, by its place and width in bytes. -/
def accGet (d : AccStore) (width place : Nat) : Nat := (d.acc.extractLsb' (8 * width * place) (8 * width)).toNat

def accSet (d : AccStore) (width place v : Nat) : AccStore :=
  let lo := 8 * width * place
  { d with acc := (d.acc &&& ~~~((BitVec.ofNat 2097152 (2 ^ (8 * width) - 1)) <<< lo)) ||| ((BitVec.ofNat 2097152 (v % 2 ^ (8 * width))) <<< lo) }

/-- The presence bit of an offset of the window (R203, R352: bit j for offset lo + j). -/
def presentAt (d : AccStore) (w : AccWin) (r : Int) : Bool := w.lo ≤ r && r ≤ w.hi && d.present.getLsbD (r - w.lo).toNat

def setPresent (d : AccStore) (w : AccWin) (r : Int) (b : Bool) : AccStore :=
  let j := (r - w.lo).toNat
  { d with present := if b then d.present ||| (1#65536 <<< j) else d.present &&& ~~~(1#65536 <<< j) }

/-- Fill-in (R203): every held element of the diagonal becomes zero, and it is present. -/
def fillIn (d : AccStore) (w : AccWin) (h : Shape) (r : Int) : AccStore :=
  let width := accWidth h.akind
  let n := w.heldLen h r
  let lo := 8 * width * w.place h r (if r == w.lo then w.lskip else 0)
  setPresent { d with acc := d.acc &&& ~~~((BitVec.ofNat 2097152 (2 ^ (8 * width * n) - 1)) <<< lo) } w r true

/-- Element e of diagonal r as it reads: zero when absent or not held (R203). -/
def accRead (d : AccStore) (w : AccWin) (h : Shape) (r : Int) (e : Nat) : Nat :=
  if presentAt d w r && w.held r e then accGet d (accWidth h.akind) (w.place h r e) else 0

/-- The control registers replaced. -/
def setCr (s : State) (c : CtrlRegs) : State := { s with hart := { s.hart with cr := c } }

def setDg (s : State) (d : AccStore) : State := { s with hart := { s.hart with dg := d } }

end Sys2Proof.Machine
end

