-- ==== Sys2Proof/Machine/VecCheck.lean ====
section
/-! DEFINITION. The checks of a convoy's slots at dispatch (R89, R411): use on the strand (R12 to R16), the checks from captured values,
the format words (R43, R120, R128, R132, R134, R144 to R148, R171, R200, R206), and the reads of LS commands. -/

namespace Sys2Proof.Machine

/-! ## Step 3: use -/

/-- R14: the registers a strand owns. -/
def ownsV (r : Role) (v : VOpd) : Bool :=
  match r with
  | .single => true
  | .access => 24 ≤ v.toNat
  | .compute => v.toNat < 24

def ownsM (r : Role) (m : MReg) : Bool :=
  match r with
  | .single => true
  | .access => 6 ≤ m.toNat
  | .compute => m.toNat < 6

/-- R16: a queue operand in its right direction. -/
def queueOk (r : Role) (dst : Bool) (v : VOpd) : Bool :=
  match r with
  | .single => false
  | .access => isLq v == dst
  | .compute => isLq v != dst

/-- R182: whether a queue is bound to a stream. -/
def isBound (s : State) (v : VOpd) : Bool := s.hart.streams.any (fun t => t.queue == v)

def opdOk (s : State) (dst : Bool) (v : VOpd) : Bool :=
  if isQueue v then queueOk s.role dst v && !(s.role == .access && isBound s v) else ownsV s.role v

/-- R16: no queue stands in two operand fields. -/
def queuesOnce (vs : List VOpd) : Bool := (vs.filter isQueue).Nodup

/-- R281: forms that Mygar text cannot hold. -/
def portableOk : Instr → Bool
  | .vld .. | .vst .. | .vldff .. | .vldm .. | .vstm .. | .vspill .. | .vfill .. | .strm .. | .strmend .. | .vext .. | .vins .. => false
  | _ => true

/-- The overflow mask a slot's format word names, for R14 (R43: that check comes first). -/
def ovmaskOf (i : VInfo) (k : Slot) : BitVec 3 :=
  match i.fmt with
  | none => 0
  | some f => if f == 0 then 0 else k.fmtw.extractLsb' 24 3

/-- R12 to R16 for one slot. -/
def useOk (s : State) (i : VInfo) (k : Slot) : Bool :=
  (s.role == .single || (if i.unit == 4 then s.role == .access else if i.unit == 5 then s.role == .compute else true))
    && i.srcs.all (opdOk s false) && i.dst.all (opdOk s true) && queuesOnce (i.srcs ++ i.dst.toList)
    && i.mrd.all (ownsM s.role) && i.mdst.all (ownsM s.role) && (i.gov.mask == 0 || ownsM s.role i.gov.mask)
    && (ovmaskOf i k == 0 || ownsM s.role (ovmaskOf i k))
    && (!s.strand.portable || portableOk k.instr)

/-! ## Step 3: captured values -/

/-- R152: the element size against ew. -/
def sizeOk (s : State) : Instr → Bool
  | .vld _ _ z _ _ | .vldff _ _ z _ _ | .vst _ _ z _ _ | .vlds _ _ _ z _ _ | .vsts _ _ _ z _ _ =>
    if z == 4 then s.strand.ew == 0 else z.toNat == s.strand.ew.toNat
  | .vldx _ _ _ z gl _ _ | .vldxo _ _ _ z gl _ _ | .vstx _ _ _ z gl _ _ | .vstxo _ _ _ z gl _ _ =>
    z.toNat == s.strand.ew.toNat && (!gl || s.strand.ew == 3)
  | .vgl _ _ _ z _ | .vsc _ _ _ _ z _ | .vscc _ _ _ _ z _ _ _ _ => z.toNat + 2 == s.strand.ew.toNat
  | .vxlate .. | .vxlateff .. | .vwait .. => s.strand.ew == 3
  | _ => true

/-- R162: `vspill` and `vfill` run only at the VLEN of the launch record. -/
def spillOk (s : State) : Bool :=
  vlOf s == 0 || (s.hart.recVlen != 0 && s.hart.grant.vlen == 2 ^ s.hart.recVlen)

/-- R178: the checks of `smap` on the captured base and offset; `n` counts 4 KiB units. -/
def smapOk (s : State) (base off : Word) (n : Nat) : Bool :=
  let b := base.toNat / 4096
  let o := off.toNat / 4096
  base.toNat % 4096 == 0 && off.toNat % 4096 == 0 && off.toNat + n * 4096 ≤ s.hart.stash * 32768
    && !s.hart.stashMap.any (fun u => b ≤ u.base && u.base < b + n) && !s.hart.stashMap.any (fun u => o ≤ u.unit && u.unit < o + n)

/-- R182: the binding checks of `strm`; the access strand alone runs streams. -/
def strmOk (s : State) (q : VOpd) (n : BitVec 3) : Bool :=
  s.role == .access && !s.hart.streams.any (fun t => t.num == n) && !isBound s q

/-- R196: the shapes `mshape` takes. -/
def mshapeOk (w : Word) : Bool :=
  let h := Shape.ofWord w
  let dim (x : Nat) : Bool := 1 ≤ x && x ≤ 32768
  w.extractLsb' 53 11 == 0 && dim h.m && dim h.k && dim h.n && [0, 7, 11, 12, 13].contains h.akind

/-- R202: the windows `maccwin` takes. -/
def maccwinOk (s : State) (w : Word) : Bool :=
  let h := shapeOf s
  let a := AccWin.ofWord w
  !w.getLsbD 63 && !w.getLsbD 47 && h.m != 0 && h.akind != 0 && -((h.m : Int) - 1) ≤ a.lo && a.lo ≤ a.hi && a.hi ≤ (h.n : Int) - 1
    && a.lskip < h.lenC a.lo && a.hkeep < h.lenC a.hi && !(a.lo == a.hi && 0 < a.hkeep && a.hkeep ≤ a.lskip)
    && a.total h * accWidth h.akind ≤ s.hart.dg.accs * 8192

/-- The lists of a dense sweep (R208). -/
structure SweepLists where
  pA : Int
  qB : Int
  nA : Nat
  nB : Nat
  deriving DecidableEq, Repr, Inhabited

def SweepLists.ofWord (w : Word) : SweepLists := { pA := sfield w 0 16, qB := sfield w 16 16, nA := ufield w 32 16, nB := ufield w 48 16 }

/-- The elements of a stream: the lengths of the list's diagonals (R208). -/
def streamLen (len : Int → Nat) (first : Int) (n : Nat) : Nat := ((List.range n).map (fun (j : Nat) => len (first + (j : Int)))).foldl (· + ·) 0

/-- A shape, an accumulator kind and a window are set (R202, R208). -/
def sweepReady (s : State) : Bool := (shapeOf s).m != 0 && (shapeOf s).akind != 0 && (winOf s).en

/-- R208: the list control and operand sizes of a dense sweep; a register operand holds `vl` elements, none at length 0, where the size check stands
(R220, log entry 98). -/
def sweepOk (s : State) (k : Slot) (a b : VOpd) (f : XReg) : Bool :=
  let h := shapeOf s
  let l := SweepLists.ofWord k.xsv
  let fw := fmtOf s k f
  let sA := streamLen h.lenA l.pA l.nA
  let sB := streamLen h.lenB l.qB l.nB
  let bytes (c : Nat) : Nat := if isFmt c then fmtWidth c / 8 else 0
  sweepReady s && 1 ≤ l.nA && 1 ≤ l.nB && isDiag h.m h.k l.pA && isDiag h.m h.k (l.pA + l.nA - 1)
    && isDiag h.k h.n l.qB && isDiag h.k h.n (l.qB + l.nB - 1) && sA * bytes fw.a ≤ 65536 && sB * bytes fw.b ≤ 65536
    && (isQueue a || sA ≤ vlOf s) && (isQueue b || sB ≤ vlOf s)

/-- R215: the list control of a sparse sweep. -/
def spsweepOk (s : State) (w : Word) : Bool := sweepReady s && w.extractLsb' 32 32 == 0 && 1 ≤ ufield w 0 16 && 1 ≤ ufield w 16 16

/-- R204, R205: selectors. -/
def selOk (s : State) (w : Word) (useS useCount : Bool) : Bool :=
  let h := shapeOf s
  let a := winOf s
  let d := sfield w 0 16
  h.m != 0 && a.en && w.extractLsb' 48 16 == 0 && (useS || ufield w 32 16 == 0) && (useCount || ufield w 16 16 == 0)
    && (!useS || (a.lo ≤ d && d ≤ a.hi && ufield w 32 16 < h.lenC d))
    && (!useCount || ufield w 16 16 != 0 || ufield w 0 16 == 0)

/-- The checks of R411 for one slot; none is passed, else the subcause. -/
def capturedCheck (s : State) (k : Slot) : Option Nat :=
  let no (b : Bool) : Option Nat := if b then none else some 0
  match k.instr with
  | .vspill .. | .vfill .. => if spillOk s then none else some 3
  | .smap _ _ n => no (smapOk s k.xsv k.xbv n.toNat)
  | .strm q _ n => no (strmOk s q n)
  | .mshape _ => no (mshapeOk k.xsv)
  | .maccwin _ => no (maccwinOk s k.xsv)
  | .dmac .. | .dmacf .. => no ((shapeOf s).m != 0 && k.xsv.extractLsb' 32 32 == 0)
  | .dsweep a b _ _ f | .dsweepf a b _ _ f => no (sweepOk s k a b f)
  | .spsweep .. | .spsweepf .. => no (spsweepOk s k.xsv)
  | .sppack .. | .spunpack .. => no ((shapeOf s).m != 0)
  | .acld _ _ => no (selOk s k.xsv true false && (shapeOf s).akind != 13 && 8 * accWidth (shapeOf s).akind == ewBits s)
  | .acst _ _ _ => no (selOk s k.xsv true false)
  | .aczero _ => no (selOk s k.xsv false true)
  | .acmap _ _ => no (selOk s k.xsv false false)
  | i => no (sizeOk s i)

/-- Step 3 of R89 for one slot: none, or the subcause of the illegal-instruction trap. -/
def slotIllegal (s : State) (k : Slot) : Option Nat :=
  match infoOf k.instr with
  | none => some 0
  | some i => if useOk s i k then capturedCheck s k else some 0

/-! ## Step 4: format words -/

/-- The format codes a slot uses and those whose width is bounded by ew, as the fields d, a, b, c of the word (R43, R120). -/
structure FmtUse where
  used  : List Nat
  wide  : List Nat
  /-- the instruction's own combinations -/
  listed : Bool
  deriving DecidableEq, Repr, Inhabited

/-- R200: what the engine multiplies: the accumulator formats of `dmac`, and the accumulator kind of the sweeps. -/
def engineFormats (a b slices : Nat) : Option (List Nat × Nat) :=
  let i16 (c : Nat) : Bool := 1 ≤ c && c ≤ 4
  let h16 (c : Nat) : Bool := c == 9 || c == 10
  if i16 a && i16 b then some ([3, 5, 7], 7)
  else if h16 a && h16 b then some ([9, 10, 11], 11)
  else if a == 11 && b == 11 then some ([11], 11)
  else if a == 12 && b == 12 && 3 ≤ slices then some ([12], 12)
  else if a == 13 && b == 13 then some ([9, 10, 11], 13)
  else none

/-- The combinations that each entry admits (R128, R131 to R134, R144 to R148, R171, R200, R206). DESIGN CHOICE (log 96): R120's
bound on the width of an operand covers afmt and bfmt of the sweeps, whose cfmt and dfmt name the accumulator's kind, dfmt of `acst` and not its afmt,
which names that kind too, and no format of `sppack` and `spunpack`, which move elements of ew. -/
def fmtUse (s : State) (f : FmtWord) : Instr → FmtUse
  | .vadd .. | .vsub .. => ⟨[f.d, f.a, f.b], [f.d, f.a, f.b], f.d != 13 && f.a != 13 && f.b != 13⟩
  | .vfma .. | .vfms .. | .vfnma .. => ⟨[f.d, f.a, f.b, f.c], [f.d, f.a, f.b, f.c], f.d != 13 && f.a != 13 && f.b != 13 && f.c != 13⟩
  | .vmul .. => ⟨[f.d, f.a, f.b], [f.d, f.a, f.b], (f.a == 13 && f.b == 13) || (f.d != 13 && f.a != 13 && f.b != 13)⟩
  | .vmulh .. =>
    ⟨[f.d, f.a, f.b], [f.d, f.a, f.b], isIntFmt f.d && isIntFmt f.a && isIntFmt f.b && fmtWidth f.a == fmtWidth f.b && fmtWidth f.d == fmtWidth f.a⟩
  | .vdiv .. | .vrem .. =>
    ⟨[f.d, f.a, f.b], [f.d, f.a, f.b], (isIntFmt f.d && isIntFmt f.a && isIntFmt f.b) || (isFloatFmt f.d && isFloatFmt f.a && isFloatFmt f.b)⟩
  | .vsqrt .. | .vrcp .. | .vrsqrt .. | .vexp2 .. | .vlog2 .. => ⟨[f.d, f.a], [f.d, f.a], isFloatFmt f.d && isFloatFmt f.a⟩
  | .vmin .. | .vmax .. => ⟨[f.d, f.a, f.b], [f.d, f.a, f.b], true⟩
  | .vabs .. | .vneg .. | .vcvt .. => ⟨[f.d, f.a], [f.d, f.a], true⟩
  | .vand .. | .vor .. | .vxor .. | .vsll .. | .vsrl .. | .vsra .. =>
    ⟨[f.d, f.a, f.b], [f.d, f.a, f.b], isIntFmt f.d && isIntFmt f.a && isIntFmt f.b && fmtWidth f.a == fmtWidth f.b && fmtWidth f.d == fmtWidth f.a⟩
  | .vclz .. | .vpopc .. => ⟨[f.d, f.a], [f.d, f.a], isIntFmt f.d && isIntFmt f.a && fmtWidth f.d == fmtWidth f.a⟩
  | .vcmp .. => ⟨[f.a, f.b], [f.a, f.b], true⟩
  | .vclass .. => ⟨[f.d, f.a], [f.d, f.a], !isIntFmt f.a && isIntFmt f.d⟩
  | .vscan _ _ _ _ o _ _ | .vscanf _ _ _ _ o _ _ | .vred _ _ _ o _ _ | .vredf _ _ _ o _ _ =>
    ⟨[f.d, f.a], [f.d, f.a], (o.toNat < 3 || (isIntFmt f.a && isIntFmt f.d)) && !(o == 0 && f.a == 13 && !isFloatFmt f.d)⟩
  | .vprune .. => ⟨[f.a], [f.a], true⟩
  | .vrand .. => ⟨[f.d], [f.d], f.d == 11⟩
  | .vsmfin .. => ⟨[f.d, f.a, f.b], [f.d, f.a, f.b], isFloatFmt f.d && isFloatFmt f.a && isFloatFmt f.b⟩
  | .vscc _ _ _ _ z _ o _ _ =>
    ⟨[f.d, f.a], [f.d, f.a], f.d == f.a && f.a != 13 && fmtWidth f.a == 32 * 2 ^ z.toNat && (o.toNat < 3 || isIntFmt f.d)⟩
  | .dmac .. | .dmacf .. =>
    ⟨[f.d, f.a, f.b, f.c], [f.d, f.a, f.b, f.c],
      match engineFormats f.a f.b f.slices with
      | some (l, _) => l.contains f.c && l.contains f.d
      | none => false⟩
  | .dsweep .. | .dsweepf .. | .spsweep .. | .spsweepf .. =>
    ⟨[f.d, f.a, f.b, f.c], [f.a, f.b],
      match engineFormats f.a f.b f.slices with
      | some (_, k) => f.c == k && f.d == k && (shapeOf s).akind == k && f.ovmask == 0
      | none => false⟩
  | .acst .. => ⟨[f.d, f.a], [f.d], f.a == (shapeOf s).akind && (f.a != 13 || isFloatFmt f.d)⟩
  | _ => ⟨[f.d, f.a], [], true⟩

/-- R43 for one slot that takes a format word. -/
def fmtOk (s : State) (i : VInfo) (k : Slot) (f : FmtWord) : Bool :=
  let u := fmtUse s f k.instr
  f.shapeOk && u.used.all (· != 0) && u.wide.all (fun c => fmtWidth c ≤ ewBits s) && u.listed
    && !(f.ovmask != 0 && i.mdst == some f.ovmask) && !(i.unit == 5 && f.slices == 0 && u.used.any (fun c => c == 12))

/-- Step 4 of R89 for one slot: none, or the offending format word. -/
def slotFmt (s : State) (k : Slot) : Option Word :=
  match infoOf k.instr with
  | none => none
  | some i =>
    match i.fmt with
    | none => none
    | some x => if fmtOk s i k (fmtOf s k x) then none else some k.fmtw

/-! ## Step 5: what LS commands read at dispatch -/

/-- A field of a 512-bit descriptor. -/
def dfield (d : BitVec 512) (lo n : Nat) : Nat := (d.extractLsb' lo n).toNat
def dsigned (d : BitVec 512) (lo n : Nat) : Int := (d.extractLsb' lo n).toInt

/-- The span a copy touches, as [low, high) (R186). -/
def copySpan (base : Int) (stride : Int) (rows len : Nat) : Int × Int :=
  let last := base + ((rows : Int) - 1) * stride
  (min base last, max base last + len)

/-- R186: the contents of a copy descriptor; `two` for `cpy2d`. -/
def copyOk (two : Bool) (d : BitVec 512) : Bool :=
  let rows := if two then dfield d 448 32 else 1
  let len := dfield d 256 64
  let src := copySpan (dfield d 128 64) (dsigned d 320 64) rows len
  let dst := copySpan (dfield d 192 64) (dsigned d 384 64) rows len
  dfield d 494 18 == 0 && dfield d 481 7 == 0 && dfield d 0 3 == 0 && !d.getLsbD 127 && 1 ≤ len && len ≤ 2 ^ 40
    && (if two then 1 ≤ rows && rows ≤ 2 ^ 24 else dfield d 448 32 == 0 && dfield d 384 64 == 0 && dfield d 320 64 == 0)
    && (src.2 ≤ dst.1 || dst.2 ≤ src.1)

/-- R186, R188: the contents of a trim descriptor. -/
def trimOk (d : BitVec 512) : Bool :=
  dfield d 494 18 == 0 && dfield d 481 7 == 0 && dfield d 392 88 == 0 && dfield d 64 64 == 0 && dfield d 0 3 == 0

/-- R181, R182: the contents of a stream specification. -/
def specOk (s : State) (d : BitVec 512) : Bool :=
  dfield d 360 152 == 0 && dfield d 224 32 == 0 && dfield d 320 32 != 0 && dfield d 192 32 != 0 && dfield d 352 8 == s.strand.ew.toNat

/-- A 64-byte read at dispatch: its contents, or its trap. -/
def read64 (s : State) (a : Word) : Except Trap (List Nat × BitVec 512) :=
  if a.toNat % 64 ≠ 0 then .error (trapAt s 7 0 a)
  else
    match checkRange s (me s) s.hart.tenant a 64 .read false with
    | .error (f, va) => .error (failTrap s f va)
    | .ok (pas, l) => .ok (pas, BitVec.ofNat 512 (hartRead s pas l.stream))

/-- Whether a slot may write a mask register: as its destination or its overflow mask. -/
def writesMask (k : Slot) (m : MReg) : Bool :=
  match infoOf k.instr with
  | some i => i.mdst == some m || (m != 0 && ovmaskOf i k == m)
  | none => false

/-- Where a load or store with G = 1 reads its die base table at dispatch (R164), and the lowest element that could need it: an active one, or any
where a slot before it in the convoy writes the governing mask (R81). -/
def tableElem (s : State) (before : List Slot) (g : Gov) : Option Nat :=
  match (positions s).find? (govTest s g) with
  | some e => some e
  | none => if g.mask != 0 && before.any (fun k => writesMask k g.mask) then (positions s).head? else none

/-- The bytes that a slot reads at dispatch: their address, and the element that a fault is reported against. -/
def readSite (s : State) (before : List Slot) (k : Slot) : Option (Word × Nat) :=
  match k.instr with
  | .cpy _ | .cpy2d _ | .trim _ | .strm .. => some (k.xsv, 0)
  | .vldx _ _ _ _ gl _ g | .vldxo _ _ _ _ gl _ g | .vstx _ _ _ _ gl _ g | .vstxo _ _ _ _ gl _ g =>
    if gl then (tableElem s before g).map (fun e => (k.xsv, e)) else none
  | _ => none

/-- Whether a slot admits what it read at dispatch. -/
def readOk (s : State) (k : Slot) (d : BitVec 512) : Bool :=
  match k.instr with
  | .cpy _ => copyOk false d
  | .cpy2d _ => copyOk true d
  | .trim _ => trimOk d
  | .strm .. => specOk s d
  | _ => true

/-- Step 5 of R89 for one slot, `before` being the slots before it: the physical bytes read and their contents. -/
def dispatchRead (s : State) (before : List Slot) (k : Slot) : Except Trap (List Nat × BitVec 512) :=
  match readSite s before k with
  | none => .ok ([], 0)
  | some (a, e) =>
    match read64 s a with
    | .error t => .error { t with elem := e }
    | .ok r => if readOk s k r.2 then .ok r else .error (trapAt s 1 0 (instrWord k.instr))

end Sys2Proof.Machine
end

