-- ==== Sys2Proof/Machine/Branch.lean ====
section
/-! DEFINITION. Branches and jumps (R103 to R107), with the comparison that the armature makes (R37). -/

namespace Sys2Proof.Machine

/-- pc + 4 × off. -/
def branchTarget (s : State) (off : Word) : Word := s.strand.pc + (off <<< 2)

/-- An outcome as the lead records it: the next pc, with bit 0 set when the branch is taken. -/
def outcomeWord (taken : Bool) (target : Word) : Word := (target &&& ~~~1#64) ||| ofBool taken

/-- The lead's outcome of this issue unit, if it has one that differs: the lead compares it with what the hart reports (R37, R385), here at once. A branch
in the user handler is no issue unit and is compared with nothing (log entry 111). -/
def leadDiffers (s : State) (w : Word) : Option Word :=
  match launchOf s s.hart.key.launch with
  | none => none
  | some l =>
    if l.seq.isNone || inHandler s || isLead s s.hart then none
    else (l.outcomes.find? (fun o => o.1 == s.hart.units)).bind (fun o => if o.2 == w then none else some o.2)

/-- An outcome under the armature (R37, R385): the lead hart's is kept for the harts that follow, those of the last 64 units; another hart's goes
into its next credit. -/
def recordOutcome (s : State) (w : Word) : State :=
  match launchOf s s.hart.key.launch with
  | none => s
  | some l =>
    if l.seq.isNone || inHandler s then s
    else if isLead s s.hart then setLaunch s { l with outcomes := ((s.hart.units, w) :: l.outcomes).take 65 }
    else setLaunch s { l with branches := (s.hart.key, s.hart.units, w) :: l.branches.filter (·.1 != s.hart.key) }

/-- A branch or jump takes its outcome, or raises the armature-divergence trap with no effect (R37). -/
def takeBranch (taken : Bool) (target : Word) (s : State) (f : State → State) : Result :=
  match leadDiffers s (outcomeWord taken target) with
  | some w => .next (raise (trapAt s 8 0 (w &&& ~~~3#64)) s)
  | none => .next (countInstr (setPc (f (recordOutcome s (outcomeWord taken target))) target) 1)

/-- The pc after a conditional branch. -/
def nextPc (s : State) (taken : Bool) (off : BitVec 12) : Word := if taken then branchTarget s (off.signExtend 64) else s.strand.pc + 4

/-- R103. -/
def execB (c : BitVec 4) (a b : XReg) (off : BitVec 12) (s : State) : Result :=
  let t := branchHolds c (getX s a) (getX s b)
  ifLegal (.b c a b off) s (takeBranch t (nextPc s t off) s (fun s => s))

/-- R104. -/
def execJal (d : XReg) (off : BitVec 21) (s : State) : Result :=
  takeBranch true (branchTarget s (off.signExtend 64)) s (fun s' => setX s' d (s.strand.pc + 4))

/-- R104. -/
def execJalr (d a : XReg) (imm : BitVec 16) (s : State) : Result :=
  let t := getX s a + imm.signExtend 64
  if t.extractLsb' 0 2 ≠ 0 then .next (alignTrap t s) else takeBranch true t s (fun s' => setX s' d (s.strand.pc + 4))

/-- R105. -/
def execBm (c : BitVec 4) (m : BitVec 5) (off : BitVec 12) (s : State) : Result :=
  let r : MReg := m.extractLsb' 0 3
  let t := maskHolds c (getM s r) (positions s)
  if ownsM s.role r then ifLegal (.bm c m off) s (takeBranch t (nextPc s t off) s (fun s => s))
  else .next (illegal (.bm c m off) s)

/-- The strand's incoming branch-outcome queue (R106). -/
def bqIn (s : State) : List Bool := if s.role == .compute then s.hart.q.bqAC else s.hart.q.bqCA

def popBq (s : State) : State :=
  let q := s.hart.q
  { s with hart := { s.hart with q := (if s.role == .compute then { q with bqAC := q.bqAC.drop 1 } else { q with bqCA := q.bqCA.drop 1 }) } }

/-- R106. -/
def execBq (c : BitVec 4) (off : BitVec 12) (s : State) : Result :=
  if s.role = .single then .next (illegal (.bq c off) s)
  else
    ifLegal (.bq c off) s
      (match bqIn s with
       | [] => .next (stallOn s (.bqEmpty (s.role == .compute)))
       | v :: _ =>
         let t := v == (c == 0)
         takeBranch t (nextPc s t off) s popBq)

end Sys2Proof.Machine
end

