-- ==== Sys2Proof/Machine/Control.lean ====
section
/-! DEFINITION. The scalar queues (R108) and the control registers (R109 to R111, R345). -/

namespace Sys2Proof.Machine

/-! ## Scalar queues -/

/-- The queues replaced. -/
def setQueues (s : State) (q : Queues) : State := { s with hart := { s.hart with q := q } }

/-- Pushes x[a] onto xq.ac from the access strand, onto xq.ca from the compute strand. -/
def execQpush (a : XReg) (s : State) : Result :=
  let q := s.hart.q
  match s.role with
  | .single => .next (illegal (.qpush a) s)
  | .access =>
    if 16 ≤ q.xqAC.length then .next (stallOn s (.xqFull true))
    else .next (advance (setQueues s { q with xqAC := q.xqAC ++ [getX s a] }))
  | .compute =>
    if 16 ≤ q.xqCA.length then .next (stallOn s (.xqFull false))
    else .next (advance (setQueues s { q with xqCA := q.xqCA ++ [getX s a] }))

/-- Pops xq.ca on the access strand, xq.ac on the compute strand. -/
def execQpop (d : XReg) (s : State) : Result :=
  let q := s.hart.q
  match s.role with
  | .single => .next (illegal (.qpop d) s)
  | .access =>
    match q.xqCA with
    | [] => .next (stallOn s (.xqEmpty false))
    | v :: r => .next (advance (setX (setQueues s { q with xqCA := r }) d v))
  | .compute =>
    match q.xqAC with
    | [] => .next (stallOn s (.xqEmpty true))
    | v :: r => .next (advance (setX (setQueues s { q with xqAC := r }) d v))

/-- Pushes bit 0 of x[a] onto the strand's outgoing branch-outcome queue. -/
def execBqpush (a : XReg) (s : State) : Result :=
  let q := s.hart.q
  match s.role with
  | .single => .next (illegal (.bqpush a) s)
  | .access =>
    if 32 ≤ q.bqAC.length then .next (stallOn s (.bqFull true))
    else .next (advance (setQueues s { q with bqAC := q.bqAC ++ [(getX s a).getLsbD 0] }))
  | .compute =>
    if 32 ≤ q.bqCA.length then .next (stallOn s (.bqFull false))
    else .next (advance (setQueues s { q with bqCA := q.bqCA ++ [(getX s a).getLsbD 0] }))

/-! ## Control registers -/

/-- `cr.cycle`: cycles since the die's entry into the full state. -/
def cycleWord (s : State) : Word := BitVec.ofNat 64 (s.cycle - (dieRec s (myDie s)).cycle0)

/-- A user register as it reads (R110); none for an unassigned index. DESIGN CHOICE (log entry 124): either strand reads `cr.mshape`, `cr.accwin` and `cr.dprog`
by `crd`, as R110 says that both strands reach the registers of a hart, where R221 says that no strand but the compute or single strand reads them. -/
def userReg (s : State) (i : Nat) : Option Word :=
  let c := s.hart.cr
  match i with
  | 0x000 => some (s.strand.vl.setWidth 64)
  | 0x001 => some (s.strand.ew.setWidth 64)
  | 0x002 => some (lanesWord s.hart.grant)
  | 0x003 => some (if s.role == .single then 0 else c.ahead)
  | 0x008 => some c.seed | 0x009 => some c.rngctr
  | 0x010 => some c.mshape | 0x011 => some c.accwin | 0x012 => some c.dprog
  | 0x020 => some c.uivec | 0x021 => some c.upc | 0x022 => some c.ucause | 0x023 => some c.utval
  | 0x030 => some c.itlo | 0x031 => some c.itcnt | 0x032 => some c.itstep
  | 0x040 => some (hartIdWord s.hart.id (s.role == .access))
  | 0x041 => some ((coreOf s.hart.id).setWidth 64)
  | 0x042 => some ((dieOf s.hart.id).setWidth 64)
  | 0x043 => some c.launch
  | 0x048 => some (cycleWord s)
  | 0x049 => some c.instret
  | 0x050 => some c.dit
  | _ => none

/-- A supervisor register as it reads (R345); the write-only fields of `cr.sresume` deliver a free value. -/
def superReg (s : State) (i : Nat) : Option Word :=
  let p := (dieRec s (myDie s)).sup
  match i with
  | 0x800 => some 1
  | 0x801 => some p.strapq
  | 0x802 => some p.simg
  | 0x803 => some ((Config.writeOnly s.fresh).setWidth 64)
  | 0x804 => some p.sshoot
  | 0x805 => some p.sbanks
  | 0x806 => some p.sroot
  | _ => none

/-- The register an index names for this hart (R79, R109, R345). -/
def readReg (s : State) (i : BitVec 12) : Option Word :=
  if i.getLsbD 11 then (if s.hart.supervisor then superReg s i.toNat else none) else userReg s i.toNat

/-- The supervisor registers of the executing hart's die replaced. -/
def setSup (s : State) (p : SupRegs) : State := setDie s (myDie s) { dieRec s (myDie s) with sup := p }

/-- The stored value of `cr.ahead` (R18). -/
def aheadValue (w : Word) : Word :=
  let n := w.toNat % 32
  if n = 0 then 1 else if 16 < n then 16 else BitVec.ofNat 64 n

/-- The stored value of `cr.strapq`, whose qlog 9-15 is stored as 8. -/
def strapqValue (w : Word) : Word :=
  let n := w.toNat % 16
  (w &&& 0x000FFFFFFFFFF000) ||| BitVec.ofNat 64 (if 8 < n then 8 else n)

/-- The stored value of `cr.sbanks`. -/
def sbanksValue (w : Word) : Word :=
  let n := w.toNat % 64
  BitVec.ofNat 64 (if n < 4 then 4 else if 32 < n then 32 else n)

/-- A write to a register: RW fields take the value, RO fields keep theirs (R109). A write of `cr.sresume` hands an image on (R354); one
of `cr.sshoot` starts a shootdown (R361); one of `cr.strapq` restarts the count of records (R350). -/
def writeReg (s : State) (i : BitVec 12) (w : Word) : State :=
  let c := s.hart.cr
  let d := dieRec s (myDie s)
  match i.toNat with
  | 0x003 => if s.role == .single then s else setCr s { c with ahead := aheadValue w }
  | 0x008 => setCr s { c with seed := w }
  | 0x009 => setCr s { c with rngctr := w }
  | 0x020 => setCr s { c with uivec := w &&& 0x000FFFFFFFFFFFFD }
  | 0x021 => setCr s { c with upc := w &&& 0x000FFFFFFFFFFFFC }
  | 0x801 => setDie s (myDie s) { d with sup := { d.sup with strapq := strapqValue w }, trapSeq := 0 }
  | 0x802 => setSup s { d.sup with simg := w &&& 0xFFFFFFFFFFF00000 }
  | 0x803 =>
    if w.extractLsb' 12 2 == 0 then { s with inputs := s.inputs ++ [Instr.resume (myDie s) (w.extractLsb' 0 12)] }
    else if w.extractLsb' 12 2 == 1 then { s with inputs := s.inputs ++ [Instr.endLaunch (myDie s) (w.extractLsb' 0 12)] }
    else s
  | 0x804 =>
    let v := w &&& 0xFF0FFFFFFFFFFFFF
    let s := setSup s { d.sup with sshoot := v ||| 0x0080000000000000 }
    { s with inputs := s.inputs ++ [Instr.shootdown (myDie s) v] }
  | 0x805 => setSup s { d.sup with sbanks := sbanksValue w }
  | 0x806 => setSup s { d.sup with sroot := w &&& 0x000FFFFFFFFFF000 }
  | _ => s

/-- Whether a write must wait: `cr.sshoot` while busy = 1 (R361). -/
def writeWaits (s : State) (i : BitVec 12) : Bool := i == 0x804 && (dieRec s (myDie s)).sup.sshoot.getLsbD 55

/-- The free-value counter moves when a free value has been read. -/
def readDone (s : State) (i : BitVec 12) : State := if i == 0x803 then bump s else s

/-- `crs` and `crc`: the old value to x[d], and `f old x[a]` written; a = 0 is a plain read. -/
def readModify (ins : Instr) (d a : XReg) (i : BitVec 12) (f : Word → Word → Word) (s : State) : Result :=
  match readReg s i with
  | none => .next (illegal ins s)
  | some old =>
    if a = 0 then .next (advance (setX (readDone s i) d old))
    else if writeWaits s i then .next (stallOn s .shootdown)
    else .next (advance (setX (readDone (writeReg s i (f old (getX s a))) i) d old))

def execCrd (d : XReg) (i : BitVec 12) (s : State) : Result :=
  match readReg s i with
  | none => .next (illegal (.crd d i) s)
  | some w => .next (advance (setX (readDone s i) d w))

def execCwr (a : XReg) (i : BitVec 12) (s : State) : Result :=
  match readReg s i with
  | none => .next (illegal (.cwr a i) s)
  | some _ => if writeWaits s i then .next (stallOn s .shootdown) else .next (advance (writeReg s i (getX s a)))

def execCrs (d a : XReg) (i : BitVec 12) (s : State) : Result := readModify (.crs d a i) d a i (fun old v => old ||| v) s
def execCrc (d a : XReg) (i : BitVec 12) (s : State) : Result := readModify (.crc d a i) d a i (fun old v => old &&& ~~~v) s

end Sys2Proof.Machine
end

