-- ==== Sys2Proof/Machine/Convoy.lean ====
section
/-! DEFINITION. Convoys (R80 to R84, R89): dispatch with its checks in order and its captured values, the run of one slot, and the
drain. A vector instruction met with no convoy in flight is a convoy of one. -/

namespace Sys2Proof.Machine

/-- How the run of one slot ends. -/
inductive SlotOut where
  /-- every element complete -/
  | done (s : State)
  /-- nothing happened: the strand waits -/
  | stall (r : Stall)
  /-- the strand waits, with what the slot has done so far -/
  | wait (s : State) (k : Slot) (r : Stall)
  /-- the elements before the slot's stop points are complete (R33, R217) -/
  | part (s : State) (k : Slot)
  /-- part of the elements are complete, and the slot traps (R165) -/
  | trap (s : State) (t : Trap) (k : Slot)

/-- A slot's end with its slot replaced, where it is not complete. -/
def SlotOut.withSlot (f : Slot → Slot) : SlotOut → SlotOut
  | .wait s k r => .wait s (f k) r
  | .part s k => .part s (f k)
  | .trap s t k => .trap s t (f k)
  | r => r

/-! ## Dispatch -/

/-- The value of a scalar register that a field may name. -/
def xOpt (s : State) (r : Option XReg) : Word :=
  match r with
  | some r => getX s r
  | none => 0

/-- R82: a slot with the values captured at dispatch, the draw base and the LS contents apart. -/
def capture (s : State) (i : Instr) : Slot :=
  let v := (infoOf i).getD { unit := 0 }
  { instr := i, fmtw := xOpt s v.fmt, xsv := xOpt s v.xs, xbv := xOpt s v.xb, rbase := 0, ctr := Vector.replicate 8 0
    pushed := false, done := false, desc := 0, met := 0, staged := (0, 0), ew := s.strand.ew, shadow := inHandler s, stop := none, held := none }

/-- Whether a slot draws (R64). -/
def draws : Instr → Bool
  | .vrand .. | .vprune .. => true
  | _ => false

/-- How many counters a drawing slot takes: vl, or r × lr (R65, R281). -/
def drawCount (s : State) : Nat := (positions s).length

/-- R65: the draw bases of the slots in turn. -/
def drawBases (n : Nat) (c : Word) : List Slot → List Slot
  | [] => []
  | k :: ks => if draws k.instr then { k with rbase := c } :: drawBases n (c + BitVec.ofNat 64 n) ks else k :: drawBases n c ks

/-- The first slot that a check refuses, with its number and reason. -/
def firstBad {α : Type} (f : Slot → Option α) : List Slot → Nat → Option (Nat × Slot × α)
  | [], _ => none
  | k :: ks, n =>
    match f k with
    | some a => some (n, k, a)
    | none => firstBad f ks (n + 1)

/-- Step 5 of R89 for the slots in order, behind `before`: their contents, the bytes read, or the trap of a slot. -/
def readAll (s : State) (before : List Slot) : List Slot → Except Trap (List Slot × List Nat)
  | [] => .ok ([], [])
  | k :: ks =>
    match dispatchRead s before k with
    | .error t => .error { t with slot := before.length }
    | .ok (pas, d) =>
      match readAll s (before ++ [k]) ks with
      | .error t => .error t
      | .ok (ks', ps) => .ok ({ k with desc := d } :: ks', pas ++ ps)

/-- The engine's line that one of these reads, or its walk, waits for (R190, R360), unless a slot before it traps. -/
def readWait (s : State) (before : List Slot) : List Slot → Option Nat
  | [] => none
  | k :: ks =>
    match readSite s before k with
    | none => readWait s (before ++ [k]) ks
    | some (a, _) =>
      match read64 s a with
      | .error t => if t.cls = 0 then some t.sub else none
      | .ok (pas, d) =>
        match (linesOf pas).find? (engineLine s) with
        | some l => some l
        | none => if readOk s k d then readWait s (before ++ [k]) ks else none

/-- The reads of dispatch have taken place: translated, and their lines reached. -/
def readsDone (s : State) (before : List Slot) : List Slot → State
  | [] => s
  | k :: ks =>
    match readSite s before k with
    | none => readsDone s (before ++ [k]) ks
    | some (a, _) =>
      match checkRange s (me s) s.hart.tenant a 64 .read false with
      | .error _ => s
      | .ok (pas, l) => readsDone (touchAll (translated s (me s) s.hart.tenant a) pas false l.stream) (before ++ [k]) ks

/-- Steps 3 and 4 of R89 against the captured values. -/
def checkSlots (s : State) (ks : List Slot) : Option Trap :=
  match firstBad (slotIllegal s) ks 0 with
  | some (n, k, sub) => some { trapAt s 1 sub (instrWord k.instr) with slot := n }
  | none =>
    match firstBad (slotFmt s) ks 0 with
    | some (n, _, w) => some { trapAt s 2 0 w with slot := n }
    | none => none

/-- R82, R89: the dispatch of vector instructions: the machine with its convoy in flight, or the trap with nothing done. -/
def dispatch (s : State) (is : List Instr) : Except Trap State :=
  let ks := is.map (capture s)
  match checkSlots s ks with
  | some t => .error t
  | none =>
    match readAll s [] ks with
    | .error t => .error t
    | .ok (ks, _) =>
      let n := drawCount s * (ks.filter (fun k => draws k.instr)).length
      let s := readsDone s [] ks
      .ok { s with
        strand := { s.strand with convoy := some (drawBases (drawCount s) s.hart.cr.rngctr ks), unit := s.hart.units }
        hart := { s.hart with cr := { s.hart.cr with rngctr := s.hart.cr.rngctr + BitVec.ofNat 64 n } } }

/-- The engine's line that a dispatch waits for, its checks of steps 3 and 4 passed (R89, R190). -/
def dispatchWait (s : State) (is : List Instr) : Option Nat :=
  let ks := is.map (capture s)
  match checkSlots s ks with
  | some _ => none
  | none => readWait s [] ks

/-- The machine of a slot's failing read at dispatch: its walk and the fill of its tile have taken place (R264, R368). -/
def readFault (s : State) (before : List Slot) (k : Slot) : State :=
  match readSite s before k with
  | none => s
  | some (a, _) =>
    if a.toNat % 64 ≠ 0 then s
    else
      match checkRange s (me s) s.hart.tenant a 64 .read false with
      | .error (f, va) => failState s f va
      | .ok _ => s

/-- The machine of the first of these slots whose read fails, those that are complete apart. -/
def readFailed (s : State) (before : List Slot) : List Slot → State
  | [] => s
  | k :: ks =>
    if k.done then readFailed s (before ++ [k]) ks
    else
      match dispatchRead s before k with
      | .error _ => readFault s before k
      | .ok _ => readFailed s (before ++ [k]) ks

/-- The machine of a dispatch that traps: as it was, or that of the failing read of step 5. -/
def dispatchFailed (s : State) (is : List Instr) : State :=
  if (checkSlots s (is.map (capture s))).isSome then s else readFailed s [] (is.map (capture s))

/-- How a dispatch ends: the wait for an engine's line, the trap, or what follows it. -/
def dispatched (s : State) (is : List Instr) (f : State → Result) : Result :=
  match dispatchWait s is with
  | some l => .next (stallOn s (.engine l))
  | none =>
    match dispatch s is with
    | .error t => .next (raise t (dispatchFailed s is))
    | .ok s' => f s'

/-! ## Running -/

/-- The masks that a slot reads. -/
def Slot.masksRead (k : Slot) : List MReg :=
  match infoOf k.instr with
  | some i => (if i.gov.mask == 0 then i.mrd else i.gov.mask :: i.mrd)
  | none => []

/-- The masks that a slot may write: its destination and its overflow mask. -/
def Slot.masksWritten (k : Slot) : List MReg :=
  match infoOf k.instr with
  | some i => i.mdst.toList ++ (if ovmaskOf i k == 0 then [] else [ovmaskOf i k])
  | none => []

/-- Whether a slot may shorten the strip (R160, R174). -/
def Slot.trims (k : Slot) : Bool := match k.instr with
  | .vldff .. | .vxlateff .. => true
  | _ => false

/-- Whether a slot names an operand, register or queue, as a source or as its destination. -/
def Slot.names (k : Slot) (v : VOpd) : Bool := (infoOf k.instr).any (fun i => i.srcs.contains v || i.dst == some v)

/-- Whether a slot has an operand still to read, or writes it: a sweep has taken what it has staged of a register, and reads it no more (R208, R218). -/
def Slot.uses (k : Slot) (v : VOpd) : Bool := match k.instr with
  | .dsweep a b .. | .dsweepf a b .. | .spsweep a b .. | .spsweepf a b .. =>
    (a == v && (isQueue v || k.staged.1 == 0)) || (b == v && (isQueue v || k.staged.2 == 0))
  | _ => k.names v

/-- Whether a slot must wait for an earlier one of its convoy (R81, R218): it reads or writes what the earlier writes, writes what the earlier has
still to read, takes turns with it at a queue, or one of them may shorten the strip. -/
def Slot.after (k b : Slot) : Bool :=
  k.trims || b.trims
    || (match infoOf b.instr, infoOf k.instr with
      | some i, some j =>
        i.dst.toList.any k.names || j.dst.toList.any b.uses || (i.srcs.any (fun v => isQueue v && k.names v)) || (i.xd.isSome && i.xd == j.xd)
      | _, _ => true)
    || b.masksWritten.any (fun m => k.masksRead.contains m || k.masksWritten.contains m) || k.masksWritten.any b.masksRead.contains

/-- The first slot that is not complete, waits for nothing, and waits for no slot before it. -/
def nextFree (before : List Slot) : List Slot → Nat → Option (Nat × Slot)
  | [], _ => none
  | k :: ks, n =>
    if !k.done && k.held.isNone && before.all (fun b => b.done || !k.after b) then some (n, k) else nextFree (before ++ [k]) ks (n + 1)

/-- The first slot in flight that is not complete. -/
def firstOpen : List Slot → Nat → Option (Nat × Slot)
  | [], _ => none
  | k :: ks, n => if k.done then firstOpen ks (n + 1) else some (n, k)

/-- The slot in flight that runs next: the first that can, or, where all wait, the first that is not complete. -/
def nextSlot (ks : List Slot) (n : Nat) : Option (Nat × Slot) := (nextFree [] ks n).or (firstOpen ks n)

/-- The convoy in flight replaced. -/
def setConvoy (s : State) (c : Option (List Slot)) : State := { s with strand := { s.strand with convoy := c } }

/-- `cr.dprog` set (R216). -/
def setDprog (s : State) (w : Word) : State := { s with hart := { s.hart with cr := { s.hart.cr with dprog := w } } }

/-- Where the scalar instructions behind a convoy of c slots have got to, and what they wait for: at first the word past the header and the 2c
body words (R82, R83). -/
def behind (s : State) (c : Nat) : Word × Option Stall := s.strand.ahead.getD (s.strand.pc + BitVec.ofNat 64 (4 + 8 * c), none)

/-- A wait that the end of a slot or convoy is worth another try of (R83). -/
def triedAgain (r : Option Stall) : Option Stall := r.filter (· != .convoy)

/-- `cr.dprog` as it reads when the strand's convoy in flight has gone; the access strand's convoys hold no DG slot (R13, R216). -/
def clearDprog (s : State) : State := if s.role == .access then s else setDprog s 0

/-- The strip of a strand. -/
def Strand.strip (x : Strand) : Strip := ⟨x.vl, x.ew, x.rows, x.rowLen, x.rowCap⟩

/-- The strand with its strip replaced. -/
def Strand.withStrip (x : Strand) (p : Strip) : Strand := { x with vl := p.vl, ew := p.ew, rows := p.rows, rowLen := p.rowLen, rowCap := p.rowCap }

/-- The strand with the strip that the scalar instructions behind its convoy in flight see (R28, R83). -/
def Strand.lastStrip (x : Strand) : Strand := { (match x.later with | some p => x.withStrip p | none => x) with later := none }

/-- Whether the focused strand's convoy is an issue unit of its launch: it was not dispatched in the user handler (log entry 111). -/
def convoyUnit (s : State) : Bool := (s.strand.convoy.getD []).all (fun k => !k.shadow)

/-- R82: the convoy has drained: the pc is where the instructions behind it have got to, and the strip the last that they opened; c instructions
retired, `cr.dprog` 0. -/
def drain (s : State) (c : Nat) : State :=
  let s1 := clearDprog s
  countAs { s1 with strand := { s1.strand.lastStrip with
    convoy := none, ahead := none, pc := (behind s c).1, stall := triedAgain (behind s c).2 } } c (convoyUnit s)

/-- The number of the DG unit. -/
def isDg (k : Slot) : Bool := ((infoOf k.instr).map (·.unit)) == some 5

/-- The machine after slot n has completed. -/
def completeSlot (s : State) (ks : List Slot) (n : Nat) (k : Slot) : State :=
  let ks := ks.set n { k with done := true }
  if ks.all (·.done) then drain s ks.length
  else
    let s := setConvoy { s with strand := { s.strand with
      ahead := s.strand.ahead.map (fun a => (a.1, triedAgain a.2))
      stall := if (nextFree [] ks 0).isSome then s.strand.stall else (firstOpen ks 0).bind (·.2.held) } } (some ks)
    if isDg k then setDprog s 0x8000000000000000 else s

/-- Slot n waits: a later slot that waits for none of those before it goes on meanwhile, and otherwise the strand waits (R81, R218). -/
def stallSlot (s : State) (ks : List Slot) (n : Nat) (k : Slot) (r : Stall) : State :=
  let ks' := ks.set n { k with held := some r }
  if (nextFree [] ks' 0).isSome then setConvoy s (some ks') else stallOn s r

/-- Runs slot n of the convoy in flight by `body`. -/
def runSlot (body : Slot → State → SlotOut) (ks : List Slot) (n : Nat) (k : Slot) (s : State) : Result :=
  match body k s with
  | .done s' => .next (completeSlot s' ks n k)
  | .stall r => .next (stallSlot s ks n k r)
  | .wait s' k' r => .next (stallSlot (setConvoy s' (some (ks.set n k'))) ks n k' r)
  | .part s' k' => .next (setConvoy s' (some (ks.set n k')))
  | .trap s' t k' => .next (raise { t with slot := n } (setConvoy s' (some (ks.set n k'))))

/-- Runs the next slot in flight by `body`. -/
def runNext (body : Slot → State → SlotOut) (ks : List Slot) (s : State) : Result :=
  match nextSlot ks 0 with
  | none => .next (drain s ks.length)
  | some (n, k) => runSlot body ks n k s

/-- A vector instruction: the next slot of the convoy in flight, or a convoy of one dispatched now. -/
def vectorStep (i : Instr) (body : Slot → State → SlotOut) (s : State) : Result :=
  match s.strand.convoy with
  | some ks => runNext body ks s
  | none => dispatched s [i] (fun s' => runNext body (s'.strand.convoy.getD []) s')

/-- The slots of a convoy decoded, or the first that is no instruction of the unit its header names (R80, R88). -/
def decodeSlots (units : BitVec 18) : List (BitVec 64) → Nat → Except (Nat × BitVec 64) (List Instr)
  | [], _ => .ok []
  | w :: ws, n =>
    match decodeVec w with
    | .error _ => .error (n, w)
    | .ok i =>
      if ((infoOf i).map (·.unit)) == some (unitAt units n).toNat then
        match decodeSlots units ws (n + 1) with
        | .error e => .error e
        | .ok is => .ok (i :: is)
      else .error (n, w)

/-- The trap of slot n that is no instruction of its unit, unless a slot before it is illegal: R89 step 3 in slot order, of which the unit's check is
part (log entry 83). -/
def slotTrap (s : State) (units : BitVec 18) (body : List (BitVec 64)) (n : Nat) (w : BitVec 64)
    (check : List Instr → Option (Nat × Slot × Nat)) : Trap :=
  match decodeSlots units (body.take n) 0 with
  | .ok is =>
    match check is with
    | some (m, k, sub) => { trapAt s 1 sub (instrWord k.instr) with slot := m }
    | none => { trapAt s 1 0 w with slot := n }
  | .error _ => { trapAt s 1 0 w with slot := n }

/-- A convoy (R80 to R84): its header and slots are checked, and it dispatches; its slots run in the steps that follow. -/
def execConvoy (count : BitVec 3) (units : BitVec 18) (body : List (BitVec 64)) (s : State) : Result :=
  match s.strand.convoy with
  | some ks => .next (setConvoy s (some ks))
  | none =>
    if !(headerOk count units && body.length == count.toNat) then .next (illegal (.convoy count units body) s)
    else
      match decodeSlots units body 0 with
      | .error (n, w) => .next (raise (slotTrap s units body n w (fun is => firstBad (slotIllegal s) (is.map (capture s)) 0)) s)
      | .ok is => dispatched s is .next

/-! ## Bodies that most slots share -/

/-- Waits for the queues an instruction pops and pushes (R15, R18), then runs. -/
def withQueues (v : VInfo) (k : Slot) (s : State) (run : State → SlotOut) : SlotOut :=
  match (v.srcs.filterMap (popStall s)).head? with
  | some r => .stall r
  | none =>
    match (if k.pushed then none else v.dst.bind (pushStall s)) with
    | some r => .stall r
    | none => run s

/-- The queue sources removed, once no element is left (R17). -/
def popRead (s : State) (left : List Nat) (srcs : List VOpd) : State := if left.isEmpty then popQs s srcs else s

/-- How a slot ends of which the elements `left` are beyond its stop points (R33): complete when there are none. -/
def endElems (s : State) (left : List Nat) (s' : State) (k' : Slot) : SlotOut :=
  if left.isEmpty then .done s' else .part s' { k' with ctr := countersFor s left }

/-- The run of an element-wise slot: nothing at length 0 (R149); otherwise the queues are ready, the destination's active elements
receive their results from `f`, the overflow mask records those out of range (R50), and queue sources are popped (R17). -/
def elementwise (i : Instr) (d : VOpd) (w : Nat) (g : Gov) (ov : BitVec 3) (f : State → Slot → Nat → Conv) (k : Slot) (s : State) : SlotOut :=
  let v := (infoOf i).getD { unit := 0 }
  if (positions s).isEmpty then .done s
  else withQueues v k s fun s =>
    let outs := (activeOf s k g).map (fun e => (e, f s k e))
    let left := beyond s k
    let o := putOut (popRead s left v.srcs) k d w (outs.map (fun p => (p.1, p.2.bits))) left.isEmpty
    endElems s left (setOverflow o.1 ov ((outs.filter (fun p => p.2.out)).map (fun p => p.1))) o.2

/-- A result that is never out of range. -/
def exactly (n : Nat) : Conv := ⟨n, false⟩

end Sys2Proof.Machine
end

