-- ==== Sys2Proof/Machine/VecArith.lean ====
section
/-! DEFINITION. VA arithmetic and special instructions, and VB logic, compare, convert and classify (R127 to R134, R146 to R148). -/

namespace Sys2Proof.Machine

/-- Whether a list of format codes holds a floating one. A zero that operands without a floating format give is +0 (R48). -/
def anyFloat (cs : List Nat) : Bool := cs.any isFloatFmt

/-- An exact result whose zero is +0 unless some operand is floating. -/
def plainZero (flt : Bool) : Exact → Exact
  | .val (.zero n) => .val (.zero (n && flt))
  | x => x

/-! ## Shapes of meanings -/

/-- One operand (R127). -/
def arith1 (i : Instr) (d a : VOpd) (g : Gov) (f : XReg) (op : FmtWord → Val → Exact) : Slot → State → SlotOut := fun k s =>
  let w := fmtOf s k f
  elementwise i d (fmtWidth w.d) g w.ovmask
    (fun s k e => let _ := k; w.convert (plainZero (anyFloat [w.a]) (op w (valOf s a w.a w.flush e)))) k s

/-- Two operands (R127). -/
def arith2 (i : Instr) (d a : VOpd) (b : BSrc) (g : Gov) (f : XReg) (op : FmtWord → Val → Val → Exact) : Slot → State → SlotOut := fun k s =>
  let w := fmtOf s k f
  elementwise i d (fmtWidth w.d) g w.ovmask
    (fun s k e => w.convert (plainZero (anyFloat [w.a, w.b]) (op w (valOf s a w.a w.flush e) (bVal s k b w.b w.flush e)))) k s

/-- Two operands whose result is given as a conversion (R129, integer division). -/
def arith2c (i : Instr) (d a : VOpd) (b : BSrc) (g : Gov) (f : XReg) (op : FmtWord → Val → Val → Conv) : Slot → State → SlotOut := fun k s =>
  let w := fmtOf s k f
  elementwise i d (fmtWidth w.d) g w.ovmask
    (fun s k e => op w (valOf s a w.a w.flush e) (bVal s k b w.b w.flush e)) k s

/-- Three operands (R127). -/
def arith3 (i : Instr) (d a : VOpd) (b : BSrc) (c : VOpd) (g : Gov) (f : XReg) (op : FmtWord → Val → Val → Val → Exact) :
    Slot → State → SlotOut := fun k s =>
  let w := fmtOf s k f
  elementwise i d (fmtWidth w.d) g w.ovmask
    (fun s k e => w.convert (plainZero (anyFloat [w.a, w.b, w.c])
      (op w (valOf s a w.a w.flush e) (bVal s k b w.b w.flush e) (valOf s c w.c w.flush e)))) k s

/-- Bitwise results on operands of one width (R132). -/
def bitwise2 (i : Instr) (d a : VOpd) (b : BSrc) (g : Gov) (f : XReg) (op : Nat → Nat → Nat → Nat) : Slot → State → SlotOut := fun k s =>
  let w := fmtOf s k f
  let n := fmtWidth w.a
  elementwise i d n g 0 (fun s k e => exactly (op n (elemOf (srcBits s a) n e) (bBits s k b n e))) k s

def bitwise1 (i : Instr) (d a : VOpd) (g : Gov) (f : XReg) (op : Nat → Nat → Nat) : Slot → State → SlotOut := fun k s =>
  let w := fmtOf s k f
  let n := fmtWidth w.a
  elementwise i d n g 0 (fun s k e => let _ := k; exactly (op n (elemOf (srcBits s a) n e))) k s

/-! ## Exact operations of the entries -/

/-- The integer a value holds, 0 for a value that is none. -/
def intOfVal : Val → Int
  | .fin neg m q => let n : Int := m * 2 ^ (q / 4).toNat; if neg then -n else n
  | _ => 0

/-- Bits 2w-1:w of the product (R127), the same bits whatever the signedness of dfmt (log entry 80). -/
def mulHigh (w : FmtWord) (a b : Val) : Conv := exactly (wrapTo (fmtWidth w.d) (intOfVal a * intOfVal b / 2 ^ fmtWidth w.d))

/-- `vdiv` (R127, R129). -/
def divide (w : FmtWord) (a b : Val) : Conv :=
  if isIntFmt w.d then
    if b.isZero then ⟨2 ^ fmtWidth w.d - 1, true⟩ else intoInt w.d w.sat (Int.tdiv (intOfVal a) (intOfVal b))
  else w.convert (divV a b)

/-- `vrem` (R127, R129). -/
def remainder (w : FmtWord) (a b : Val) : Conv :=
  if isIntFmt w.d then
    if b.isZero then ⟨(intoInt w.d false (intOfVal a)).bits, true⟩ else intoInt w.d w.sat (Int.tmod (intOfVal a) (intOfVal b))
  else w.convert (.val (remV a b))

/-- The end of a normalisation (R148). -/
def normalise (a b : Val) : Exact := if b.isZero then .val (.zero false) else divV a b

/-- Shifts of w-bit values by (b mod 64) mod w (R132). -/
def shiftLeft (w a b : Nat) : Nat := a * 2 ^ (b % 64 % w) % 2 ^ w
def shiftRight (w a b : Nat) : Nat := a / 2 ^ (b % 64 % w)
def shiftArith (w a b : Nat) : Nat := wrapTo w (signedOf w a / 2 ^ (b % 64 % w))

/-- Leading zero bits and one bits of a w-bit value (R132). -/
def leadingZeros (w a : Nat) : Nat := if a = 0 then w else w - 1 - Nat.log2 a
def onesOf (w a : Nat) : Nat := ((List.range w).filter (fun i => a.testBit i)).length

/-- The class code of the bits of an element (R134). -/
def classOf (c b : Nat) : Nat :=
  if isLnsFmt c then
    match readVal c false b with
    | .nan => 9
    | .zero _ => 4
    | v => if v.isNeg then 1 else 6
  else
    let neg := b ≥ signBit c
    let e := b / 2 ^ fracBits c % 2 ^ expBits c
    let f := b % 2 ^ fracBits c
    if e = 2 ^ expBits c - 1 then
      if f = 0 then (if neg then 0 else 7) else if f < 2 ^ (fracBits c - 1) then 8 else 9
    else if e = 0 then
      if f = 0 then (if neg then 3 else 4) else if neg then 2 else 5
    else if neg then 1 else 6

/-- The keep rule of `vprune` (R146, R67) for a value, the threshold's magnitude and the draw's top 24 bits. -/
def keeps (x tau : Val) (u : Nat) : Bool :=
  match x with
  | .nan => true
  | .zero _ => false
  | .inf _ => true
  | .fin .. =>
    match tau with
    | .zero _ => true
    | .fin .. => cmpV (mulV (Val.ofInt u) tau.abs) (mulV x.abs (Val.ofInt (2 ^ 24))) == some .lt
    | _ => false

/-! ## VA -/

/-- a + b (R127). -/
def execVadd (d a : VOpd) (b : BSrc) (g : Gov) (f : XReg) (s : State) : Result :=
  vectorStep (.vadd d a b g f) (arith2 (.vadd d a b g f) d a b g f (fun w x y => .val (addV w.round x y))) s

/-- a − b (R127). -/
def execVsub (d a : VOpd) (b : BSrc) (g : Gov) (f : XReg) (s : State) : Result :=
  vectorStep (.vsub d a b g f) (arith2 (.vsub d a b g f) d a b g f (fun w x y => .val (subV w.round x y))) s

/-- a × b (R127, R56 for LNS6). -/
def execVmul (d a : VOpd) (b : BSrc) (g : Gov) (f : XReg) (s : State) : Result :=
  vectorStep (.vmul d a b g f) (arith2 (.vmul d a b g f) d a b g f (fun _ x y => .val (mulV x y))) s

/-- The high half of a × b (R127). -/
def execVmulh (d a : VOpd) (b : BSrc) (g : Gov) (f : XReg) (s : State) : Result :=
  vectorStep (.vmulh d a b g f) (arith2c (.vmulh d a b g f) d a b g f mulHigh) s

/-- a / b (R127, R129). -/
def execVdiv (d a : VOpd) (b : BSrc) (g : Gov) (f : XReg) (s : State) : Result :=
  vectorStep (.vdiv d a b g f) (arith2c (.vdiv d a b g f) d a b g f divide) s

/-- a − b × trunc(a / b) (R127, R129). -/
def execVrem (d a : VOpd) (b : BSrc) (g : Gov) (f : XReg) (s : State) : Result :=
  vectorStep (.vrem d a b g f) (arith2c (.vrem d a b g f) d a b g f remainder) s

/-- √a (R127, R130). -/
def execVsqrt (d a : VOpd) (g : Gov) (f : XReg) (s : State) : Result :=
  vectorStep (.vsqrt d a g f) (arith1 (.vsqrt d a g f) d a g f (fun _ x => sqrtV x)) s

/-- 1 / a (R127, R130). -/
def execVrcp (d a : VOpd) (g : Gov) (f : XReg) (s : State) : Result :=
  vectorStep (.vrcp d a g f) (arith1 (.vrcp d a g f) d a g f (fun _ x => rcpV x)) s

/-- 1 / √a (R127, R130). -/
def execVrsqrt (d a : VOpd) (g : Gov) (f : XReg) (s : State) : Result :=
  vectorStep (.vrsqrt d a g f) (arith1 (.vrsqrt d a g f) d a g f (fun _ x => rsqrtV x)) s

/-- 2^a (R127, R130). -/
def execVexp2 (d a : VOpd) (g : Gov) (f : XReg) (s : State) : Result :=
  vectorStep (.vexp2 d a g f) (arith1 (.vexp2 d a g f) d a g f (fun _ x => exp2V x)) s

/-- log2 a (R127, R130). -/
def execVlog2 (d a : VOpd) (g : Gov) (f : XReg) (s : State) : Result :=
  vectorStep (.vlog2 d a g f) (arith1 (.vlog2 d a g f) d a g f (fun _ x => log2V x)) s

/-- a × b + c (R127). -/
def execVfma (d a : VOpd) (b : BSrc) (c : VOpd) (g : Gov) (f : XReg) (s : State) : Result :=
  vectorStep (.vfma d a b c g f) (arith3 (.vfma d a b c g f) d a b c g f (fun w x y z => .val (addV w.round (mulV x y) z))) s

/-- a × b − c (R127). -/
def execVfms (d a : VOpd) (b : BSrc) (c : VOpd) (g : Gov) (f : XReg) (s : State) : Result :=
  vectorStep (.vfms d a b c g f) (arith3 (.vfms d a b c g f) d a b c g f (fun w x y z => .val (subV w.round (mulV x y) z))) s

/-- −(a × b) + c (R127). -/
def execVfnma (d a : VOpd) (b : BSrc) (c : VOpd) (g : Gov) (f : XReg) (s : State) : Result :=
  vectorStep (.vfnma d a b c g f) (arith3 (.vfnma d a b c g f) d a b c g f (fun w x y z => .val (addV w.round (mulV x y).neg z))) s

/-- The lesser of a and b (R127, R128, R47). -/
def execVmin (d a : VOpd) (b : BSrc) (g : Gov) (f : XReg) (s : State) : Result :=
  vectorStep (.vmin d a b g f) (arith2 (.vmin d a b g f) d a b g f (fun _ x y => .val (minV x y))) s

/-- The greater of a and b (R127, R128, R47). -/
def execVmax (d a : VOpd) (b : BSrc) (g : Gov) (f : XReg) (s : State) : Result :=
  vectorStep (.vmax d a b g f) (arith2 (.vmax d a b g f) d a b g f (fun _ x y => .val (maxV x y))) s

/-- |a| (R127, R130). -/
def execVabs (d a : VOpd) (g : Gov) (f : XReg) (s : State) : Result :=
  vectorStep (.vabs d a g f) (arith1 (.vabs d a g f) d a g f (fun _ x => .val x.abs)) s

/-- −a (R127, R130). -/
def execVneg (d a : VOpd) (g : Gov) (f : XReg) (s : State) : Result :=
  vectorStep (.vneg d a g f) (arith1 (.vneg d a g f) d a g f (fun _ x => .val x.neg)) s

/-! ## VB -/

/-- The value of a in afmt converted into dfmt (R131). -/
def execVcvt (d a : VOpd) (g : Gov) (f : XReg) (s : State) : Result :=
  vectorStep (.vcvt d a g f) (arith1 (.vcvt d a g f) d a g f (fun _ x => .val x)) s

/-- a AND b (R132). -/
def execVand (d a : VOpd) (b : BSrc) (g : Gov) (f : XReg) (s : State) : Result :=
  vectorStep (.vand d a b g f) (bitwise2 (.vand d a b g f) d a b g f (fun _ x y => x &&& y)) s

/-- a OR b (R132). -/
def execVor (d a : VOpd) (b : BSrc) (g : Gov) (f : XReg) (s : State) : Result :=
  vectorStep (.vor d a b g f) (bitwise2 (.vor d a b g f) d a b g f (fun _ x y => x ||| y)) s

/-- a XOR b (R132). -/
def execVxor (d a : VOpd) (b : BSrc) (g : Gov) (f : XReg) (s : State) : Result :=
  vectorStep (.vxor d a b g f) (bitwise2 (.vxor d a b g f) d a b g f (fun _ x y => x ^^^ y)) s

/-- a shifted left (R132). -/
def execVsll (d a : VOpd) (b : BSrc) (g : Gov) (f : XReg) (s : State) : Result :=
  vectorStep (.vsll d a b g f) (bitwise2 (.vsll d a b g f) d a b g f shiftLeft) s

/-- a shifted right with zeros (R132). -/
def execVsrl (d a : VOpd) (b : BSrc) (g : Gov) (f : XReg) (s : State) : Result :=
  vectorStep (.vsrl d a b g f) (bitwise2 (.vsrl d a b g f) d a b g f shiftRight) s

/-- a shifted right with copies of its top bit (R132). -/
def execVsra (d a : VOpd) (b : BSrc) (g : Gov) (f : XReg) (s : State) : Result :=
  vectorStep (.vsra d a b g f) (bitwise2 (.vsra d a b g f) d a b g f shiftArith) s

/-- Leading zero bits of a (R132). -/
def execVclz (d a : VOpd) (g : Gov) (f : XReg) (s : State) : Result :=
  vectorStep (.vclz d a g f) (bitwise1 (.vclz d a g f) d a g f leadingZeros) s

/-- One bits of a (R132). -/
def execVpopc (d a : VOpd) (g : Gov) (f : XReg) (s : State) : Result :=
  vectorStep (.vpopc d a g f) (bitwise1 (.vpopc d a g f) d a g f onesOf) s

/-- A comparison into mask bits (R133). -/
def execVcmp (d : MReg) (a : VOpd) (b : BSrc) (c : BitVec 3) (g : Gov) (f : XReg) (s : State) : Result :=
  vectorStep (.vcmp d a b c g f) (fun k s =>
    let v := (infoOf (.vcmp d a b c g f)).getD { unit := 0 }
    if (positions s).isEmpty then .done s
    else withQueues v k s fun s =>
      let w := fmtOf s k f
      let bits := (activeOf s k g).map (fun e => (e, compareHolds c (cmpV (valOf s a w.a w.flush e) (bVal s k b w.b w.flush e))))
      let left := beyond s k
      endElems s left (putMask (popRead s left v.srcs) d bits) k) s

/-- The class code of a (R134). -/
def execVclass (d a : VOpd) (g : Gov) (f : XReg) (s : State) : Result :=
  vectorStep (.vclass d a g f) (fun k s =>
    let w := fmtOf s k f
    elementwise (.vclass d a g f) d (fmtWidth w.d) g 0
      (fun s k e => let _ := k; exactly (classOf w.a (elemOf (srcBits s a) (fmtWidth w.a) e))) k s) s

/-! ## Special -/

/-- Keeps elements at random by magnitude (R146): the keep bits into md, and with Z = 1 the kept values into vc, bit for bit as they stand in va
(log entry 78). `cr.seed` is read as the slot runs (log entry 79). -/
def execVprune (d : MReg) (a : VOpd) (c : VReg) (z : Bool) (x : XReg) (g : Gov) (f : XReg) (s : State) : Result :=
  vectorStep (.vprune d a c z x g f) (fun k s =>
    let v := (infoOf (.vprune d a c z x g f)).getD { unit := 0 }
    if (positions s).isEmpty then .done s
    else withQueues v k s fun s =>
      let w := fmtOf s k f
      let n := fmtWidth w.a
      let tau := readVal w.a w.flush (k.xsv.toNat % 2 ^ n)
      -- element i of the draws, by row-major place (R64, R281)
      let at' (e : Nat) : Nat := (positions s).idxOf e
      let kept := (activeOf s k g).map (fun e =>
        (e, keeps (valOf s a w.a w.flush e) tau (drawTop (draw s.hart.cr.seed k.rbase (at' e)))))
      let left := beyond s k
      let s1 := putMask (popRead s left v.srcs) d kept
      let s2 := if z then putVec s1 (ofV c) n (kept.map (fun p => (p.1, if p.2 then elemOf (srcBits s a) n p.1 else 0))) else s1
      endElems s left s2 k) s

/-- Random values in [0, 1) (R147, R67); `cr.seed` is read as the slot runs (log entry 79). -/
def execVrand (d : VOpd) (g : Gov) (f : XReg) (s : State) : Result :=
  vectorStep (.vrand d g f) (fun k s =>
    let w := fmtOf s k f
    elementwise (.vrand d g f) d (fmtWidth w.d) g 0
      (fun s k e => exactly (w.convert (.val (Val.ofDyadic false (drawTop (draw s.hart.cr.seed k.rbase ((positions s).idxOf e))) (-24)))).bits)
      k s) s

/-- The end of a normalisation (R148). -/
def execVsmfin (d a b : VOpd) (g : Gov) (f : XReg) (s : State) : Result :=
  vectorStep (.vsmfin d a b g f) (arith2 (.vsmfin d a b g f) d a (.vec b) g f (fun _ x y => normalise x y)) s

end Sys2Proof.Machine
end

