-- ==== Sys2Proof/Machine/Diagonal.lean ====
section
/-! DEFINITION. The DG instructions (R195 to R221): shape and window, the primitive, the sweeps with their staging, the sieve, packing, and
the accumulator instructions. Once it is staged, a sweep runs in one step from the point that `cr.dprog` names to its end, or to its stop point. -/

namespace Sys2Proof.Machine

/-! ## Shape and window -/

/-- Every diagonal of the window absent. -/
def allAbsent (d : AccStore) : AccStore := { d with present := 0 }

/-- Sets the shape, clears the window, and marks every diagonal absent (R196). -/
def execMshape (x : XReg) (s : State) : Result :=
  vectorStep (.mshape x) (fun k s => .done (setDg (setCr s { s.hart.cr with mshape := k.xsv, accwin := 0 }) (allAbsent s.hart.dg))) s

/-- Sets the window with en = 1, and marks every diagonal absent (R202). -/
def execMaccwin (x : XReg) (s : State) : Result :=
  vectorStep (.maccwin x) (fun k s =>
    .done (setDg (setCr s { s.hart.cr with accwin := k.xsv ||| 0x8000000000000000 }) (allAbsent s.hart.dg))) s

/-! ## Products -/

/-- The exact product of two operands' bits (R200, R201): FP64 by slices (R59). -/
def engineProduct (f : FmtWord) (x y : Nat) : Val :=
  let a := f.readA x
  let b := f.readB y
  if f.a == 12 then mulV (sliceTrunc f.slices a) (sliceTrunc f.slices b) else mulV a b

/-- One step of `dmac` on the value of c (R199, R201): a zero LNS6 product adds nothing. -/
def dmacStep (f : FmtWord) (c : Val) (x y : Nat) : Conv :=
  let p := engineProduct f x y
  if isLnsFmt f.a then (if p.isZero then f.convert (.val c) else f.convert (.val (addV f.round c (lnsTermValue p))))
  else f.convert (.val (addV f.round c p))

/-- The primitive on registers or queue entries (R198, R199). -/
def dmacBody (i : Instr) (d : VReg) (a b : VOpd) (init : Bool) (g : Gov) (fx : XReg) (k : Slot) (s : State) : SlotOut :=
  let v := (infoOf i).getD { unit := 5 }
  let vl := vlOf s
  if vl == 0 then .done s
  else withQueues v k s fun s =>
    let f := fmtOf s k fx
    let o := overlap (shapeOf s) (sfield k.xsv 0 16) (sfield k.xsv 16 16)
    let ts := (List.range o.n).filter (fun t => o.a0 + t < vl && o.b0 + t < vl && o.c0 + t < vl && govTest s g (o.c0 + t))
    let outs := ts.map (fun t =>
      let c := if init then Val.zero false else f.readC (elemOf (getV s d) (fmtWidth f.c) (o.c0 + t))
      (o.c0 + t, dmacStep f c (elemOf (srcBits s a) (fmtWidth f.a) (o.a0 + t)) (elemOf (srcBits s b) (fmtWidth f.b) (o.b0 + t))))
    let s1 := putAll (popQs s v.srcs) k (ofV d) (fmtWidth f.d) (outs.map (fun p => (p.1, p.2.bits)))
    .done (setOverflow s1 f.ovmask ((outs.filter (·.2.out)).map (·.1)))

def execDmac (d : VReg) (a b : VOpd) (x : XReg) (init : Bool) (g : Gov) (f : XReg) (s : State) : Result :=
  vectorStep (.dmac d a b x init g f) (dmacBody (.dmac d a b x init g f) d a b init g f) s

/-- As `dmac`: each element receives one fused step (R199). -/
def execDmacf (d : VReg) (a b : VOpd) (x : XReg) (init : Bool) (g : Gov) (f : XReg) (s : State) : Result :=
  vectorStep (.dmacf d a b x init g f) (dmacBody (.dmacf d a b x init g f) d a b init g f) s

/-! ## The accumulator's elements -/

/-- An LNS6 element of the store (R203): word f holds acc_f, and bit 48 of word 0 the NaR flag. -/
def classAccOf (v : Nat) : ClassAcc :=
  { acc := (List.range 4).map (fun f => BitVec.ofNat 48 (field v 64 f)), nar := v.testBit 48 }

def classBits (c : ClassAcc) : Nat :=
  let word (f : Nat) : Nat := (((c.acc.getD f 0).signExtend 64).toNat) * 2 ^ (64 * f)
  let all := word 0 + word 1 + word 2 + word 3
  if all.testBit 48 == c.nar then all else all ^^^ 2 ^ 48

/-- R210, R211: an element's bits after the exact sum of some products has been added with one rounding. -/
def accStep (f : FmtWord) (akind : Nat) (old : Nat) (terms : List Val) : Nat :=
  if akind == 13 then classBits (terms.foldl ClassAcc.add (classAccOf old))
  else if akind == 7 then wrapTo 64 ((terms.map intOfVal).foldl (· + ·) (signedOf 64 old))
  else (convert akind f.round f.sat f.flush (.val (addV f.round (readVal akind f.flush old) (exactSum f.round terms)))).bits

/-! ## Staging (R208, R215) -/

/-- n bytes of an entry put into an operand's staging behind the bytes it holds; what lies beyond 65,536 bytes is not taken. -/
def stageBytes (buf : BitVec 524288) (used n : Nat) (b : VBits) : BitVec 524288 × Nat :=
  let n := min n (65536 - used)
  (BitVec.ofNat 524288 (buf.toNat % 2 ^ (8 * used)) ||| (BitVec.ofNat 524288 (b.toNat % 2 ^ (8 * n)) <<< (8 * used)), used + n)

/-- What a sweep's operand has in its staging, and the bytes of it. -/
def stageOf (second : Bool) (k : Slot) (s : State) : BitVec 524288 × Nat :=
  if second then (s.hart.dg.stageB, k.staged.2) else (s.hart.dg.stageA, k.staged.1)

/-- The machine and slot with the staging of one operand replaced. -/
def putStage (second : Bool) (k : Slot) (s : State) (p : BitVec 524288 × Nat) : State × Slot :=
  if second then (setDg s { s.hart.dg with stageB := p.1 }, { k with staged := (k.staged.1, p.2) })
  else (setDg s { s.hart.dg with stageA := p.1 }, { k with staged := (p.2, k.staged.2) })

/-- How staging one operand ends: enough is staged, the operand's queue has no filled entry, or the stream is malformed. -/
inductive Staging (α : Type) where
  | ready (s : State) (k : Slot) (a : α)
  | short (s : State) (k : Slot)
  | bad (s : State) (k : Slot)

/-- Takes one entry of `n` bytes into the staging whole, and removes a queue entry at that moment (R208); none when none is
there to take: a register has one entry only. -/
def takeEntry (second : Bool) (v : VOpd) (n : Nat) (k : Slot) (s : State) : Option (State × Slot) :=
  let st := stageOf second k s
  if isQueue v then
    match popStall s v with
    | some _ => none
    | none => some (putStage second k (popQs s [v]) (stageBytes st.1 st.2 n (srcBits s v)))
  else if st.2 == 0 then some (putStage second k s (stageBytes st.1 st.2 n (srcBits s v))) else none

/-- Takes entries until `enough` answers, within the fuel of the entries there can be. -/
def stageUntil {α : Type} (second : Bool) (v : VOpd) (n : Nat) (enough : BitVec 524288 → Nat → Except Unit (Option α)) :
    Nat → Slot → State → Staging α
  | fuel, k, s =>
    match enough (stageOf second k s).1 (stageOf second k s).2 with
    | .error _ => .bad s k
    | .ok (some a) => .ready s k a
    | .ok none =>
      match fuel with
      | 0 => .short s k
      | fuel + 1 =>
        match takeEntry second v n k s with
        | none => if isQueue v then .short s k else .bad s k
        | some (s', k') => stageUntil second v n enough fuel k' s'

/-- The most entries one step can take: the two that a queue holds, or a register's one. -/
def entriesAtOnce : Nat := 3

/-! ## The streams -/

/-- A diagonal of an operand: its offset, and for each element its bits where it is present. -/
structure Diag where
  off  : Int
  vals : Array (Option Nat)

/-- Element e of a staging at width w. -/
def stageElem (buf : BitVec 524288) (w lo : Nat) : Nat := (buf.extractLsb' lo w).toNat

/-- The diagonals of a dense stream: `n` from offset `first`, each with its length, from element `at0` on (R208). -/
def denseDiags (buf : BitVec 524288) (w : Nat) (len : Int → Nat) (first : Int) (n at0 : Nat) : List Diag :=
  match n with
  | 0 => []
  | n + 1 =>
    { off := first, vals := ((List.range (len first)).map (fun e => some (stageElem buf w (w * (at0 + e))))).toArray }
      :: denseDiags buf w len (first + 1) n (at0 + len first)

def pad64 (n : Nat) : Nat := (n + 63) / 64 * 64

/-- The fields of a diagonal header (R212) in a string of bytes given as a number. -/
structure DiagHeader where
  offset : Int
  len : Nat
  nnz : Nat
  fmt : Nat
  reserved : Nat
  deriving DecidableEq, Repr, Inhabited

def DiagHeader.read (b : Nat) : DiagHeader :=
  { offset := signedOf 16 b, len := field b 16 1, nnz := field b 32 1, fmt := field b 8 8, reserved := b / 2 ^ 72 % 2 ^ 56 }

/-- Bytes of a value of a header's format; a code that names no format counts one byte. -/
def valueBytes (c : Nat) : Nat := if isFmt c then fmtWidth c / 8 else 1

/-- Sizes of the two stored forms of a diagonal, padded (R213), and where the values of the compressed form begin. -/
def plainSize (len c : Nat) : Nat := pad64 (16 + len * valueBytes c)
def valuesAt (len : Nat) : Nat := 16 + pad64 ((len + 7) / 8)
def packedSize (len nnz c : Nat) : Nat := pad64 (valuesAt len + nnz * valueBytes c)

/-- The set bits of the first n bits of a number. -/
def popBits (b n : Nat) : Nat := ((List.range n).filter b.testBit).length

/-- The elements of a compressed diagonal: the next value in order where the bitmap's bit is set (R213). -/
def unpackVals (bitmap vals w : Nat) (len : Nat) : List (Option Nat) :=
  ((List.range len).foldl (fun (acc : List (Option Nat) × Nat) e =>
    if bitmap.testBit e then (some (field vals w acc.2) :: acc.1, acc.2 + 1) else (none :: acc.1, acc.2)) ([], 0)).1.reverse

/-- The compressed diagonals of a stream from a byte on (R212 to R215): none while bytes are missing, an error when the stream is malformed. -/
def sparseDiags (buf : BitVec 524288) (used : Nat) (rows cols fmt : Nat) : Nat → Nat → Option Int → Except Unit (Option (List Diag))
  | 0, _, _ => .ok (some [])
  | n + 1, at0, last =>
    if 65536 < at0 + 16 then .error ()
    else if used < at0 + 16 then .ok none
    else
      let h := DiagHeader.read (stageElem buf 128 (8 * at0))
      let size := packedSize h.len h.nnz h.fmt
      if h.reserved != 0 || h.fmt != fmt || (match last with | some l => h.offset ≤ l | none => false) || !isDiag rows cols h.offset
          || (h.len : Int) != diagLen rows cols h.offset || 65536 < at0 + size then .error ()
      else if used < at0 + 16 + (h.len + 7) / 8 then .ok none
      else
        let bitmap := stageElem buf h.len (8 * (at0 + 16))
        if popBits bitmap h.len != h.nnz then .error ()
        else if used < at0 + size then .ok none
        else
          let w := 8 * valueBytes fmt
          let vals := stageElem buf (w * h.nnz) (8 * (at0 + valuesAt h.len))
          match sparseDiags buf used rows cols fmt n (at0 + size) (some h.offset) with
          | .ok (some ds) => .ok (some ({ off := h.offset, vals := (unpackVals bitmap vals w h.len).toArray } :: ds))
          | r => r

/-! ## The sweep (R209 to R211, R217) -/

/-- The product that a pair adds to element e of its result diagonal, if it has one there whose operands are both present. -/
def pairTerm (f : FmtWord) (h : Shape) (p : Diag × Diag) (e : Nat) : Option Val :=
  let o := overlap h p.1.off p.2.off
  if o.c0 ≤ e && e < o.c0 + o.n then
    match p.1.vals.getD (o.a0 + (e - o.c0)) none, p.2.vals.getD (o.b0 + (e - o.c0)) none with
    | some x, some y => some (engineProduct f x y)
    | _, _ => none
  else none

/-- The position of element e of result diagonal r in a unit (R216): the step t of the pair for the strict member, the row of C for the free one. -/
def posIn (free : Bool) (h : Shape) (ps : List (Diag × Diag)) (r : Int) (e : Nat) : Nat :=
  if free then (e + max 0 (-r)).toNat
  else match ps with
    | p :: _ => e - (overlap h p.1.off p.2.off).c0
    | [] => 0

/-- The greatest multiple of 64 at which a sweep can stop within a unit (R217). -/
def lastBlock (free : Bool) (h : Shape) (ps : List (Diag × Diag)) : Nat :=
  let extent := if free then h.m else match ps with
    | p :: _ => (overlap h p.1.off p.2.off).n
    | [] => 0
  (extent - 1) / 64 * 64

/-- The positions of a unit from `lo` on, up to but not `hi`; none for the unit's end. -/
structure Span where
  lo : Nat
  hi : Option Nat
  deriving DecidableEq, Repr, Inhabited

def Span.holds (p : Span) (n : Nat) : Bool := p.lo ≤ n && (match p.hi with | some h => decide (n < h) | none => true)

/-- One result diagonal of one unit: each held element with products receives them in one step; the first fills the diagonal in (R203). -/
def sweepDiag (f : FmtWord) (free : Bool) (w : AccWin) (h : Shape) (ps : List (Diag × Diag)) (at' : Span) (d : AccStore) (r : Int) : AccStore :=
  let mine := ps.filter (fun p => p.1.off + p.2.off == r)
  let base := w.place h r 0
  (List.range (h.lenC r)).foldl (fun d e =>
    if w.held r e && at'.holds (posIn free h ps r e) then
      match mine.filterMap (fun p => pairTerm f h p e) with
      | [] => d
      | ts =>
        let d := if presentAt d w r then d else fillIn d w h r
        let place := base + (e - (if r == w.lo then w.lskip else 0))
        accSet d (accWidth h.akind) place (accStep f h.akind (accGet d (accWidth h.akind) place) ts)
    else d) d

/-- The positions `at'` of one unit: one pair, or a group of eight pairs. -/
def sweepUnit (f : FmtWord) (free : Bool) (w : AccWin) (h : Shape) (at' : Span) (d : AccStore) (ps : List (Diag × Diag)) : AccStore :=
  ((ps.map (fun p => p.1.off + p.2.off)).dedup).foldl (sweepDiag f free w h ps at') d

/-- Units from the first on, the first of them from position `pos`. -/
def sweepUnits (f : FmtWord) (free : Bool) (w : AccWin) (h : Shape) (pos : Nat) (d : AccStore) : List (List (Diag × Diag)) → AccStore
  | [] => d
  | u :: us => us.foldl (sweepUnit f free w h ⟨0, none⟩) (sweepUnit f free w h ⟨pos, none⟩ d u)

/-- The list cut into groups of n. -/
def groupsOf {α : Type} (n : Nat) (l : List α) : List (List α) :=
  (List.range ((l.length + n - 1) / n)).map (fun i => (l.drop (n * i)).take n)

/-- The unit and position at which a sweep that is asked to stop for the n-th time stops, from (unit, pos) on; none when it ends first (R217). -/
def sweepStop (free : Bool) (h : Shape) (units : List (List (Diag × Diag))) (unit pos n : Nat) : Option (Nat × Nat) :=
  let u := unit + Config.stopPoint n 0
  match units[u]? with
  | none => none
  | some ps => some (u, max (if u == unit then pos else 0) (min (64 * Config.stopPoint n 1) (lastBlock free h ps)))

/-- The sweep over staged diagonals from the point that `cr.dprog` names, to its end or to its stop point, which `cr.dprog` then names. -/
def sweepRun (f : FmtWord) (free init : Bool) (da db : List Diag) (k : Slot) (s : State) : SlotOut :=
  let unit := ufield s.hart.cr.dprog 16 47
  let pos := ufield s.hart.cr.dprog 0 16
  let w := winOf s
  let h := shapeOf s
  let d0 := if init && unit == 0 && pos == 0 then allAbsent s.hart.dg else s.hart.dg
  let units := groupsOf (if free then 8 else 1) (da.flatMap (fun a => db.map (fun b => (a, b))))
  match k.stop.bind (sweepStop free h units unit pos) with
  | none => .done (setDg s { sweepUnits f free w h pos d0 (units.drop unit) with stageA := 0, stageB := 0 })
  | some (u, p) =>
    let d1 := sweepUnits f free w h pos d0 ((units.drop unit).take (u - unit))
    let d2 := sweepUnit f free w h ⟨if u == unit then pos else 0, some p⟩ d1 (units.getD u [])
    .part (setDprog (setDg s d2) (BitVec.ofNat 64 (p + 2 ^ 16 * u))) k

/-- Both operands staged, each as its entries come, then the sweep (R208): while both are short, it waits for either queue. -/
def sweepBody (a b : VOpd) (na nb : Nat) (enoughA enoughB : BitVec 524288 → Nat → Except Unit (Option (List Diag)))
    (run : List Diag → List Diag → Slot → State → SlotOut) (k : Slot) (s : State) : SlotOut :=
  let bad (s : State) (k : Slot) : SlotOut := .trap s (trapAt s 1 2 (instrWord k.instr)) k
  match stageUntil false a na enoughA entriesAtOnce k s with
  | .bad s k => bad s k
  | .ready s k da =>
    match stageUntil true b nb enoughB entriesAtOnce k s with
    | .bad s k => bad s k
    | .short s k => .wait s k (.popEmpty b)
    | .ready s k db => run da db k s
  | .short s k =>
    match stageUntil true b nb enoughB entriesAtOnce k s with
    | .bad s k => bad s k
    | .short s k => .wait s k (.popEither a b)
    | .ready s k _ => .wait s k (.popEmpty a)

/-- A dense stream is staged when its S elements are there. -/
def denseEnough (w : Nat) (len : Int → Nat) (first : Int) (n : Nat) (buf : BitVec 524288) (used : Nat) : Except Unit (Option (List Diag)) :=
  if 8 * used < w * streamLen len first n then .ok none else .ok (some (denseDiags buf w len first n 0))

/-- A dense sweep (R208 to R211). -/
def denseSweep (free : Bool) (a b : VOpd) (init : Bool) (fx : XReg) (k : Slot) (s : State) : SlotOut :=
  let vl := vlOf s
  if vl == 0 then .done s
  else
    let f := fmtOf s k fx
    let h := shapeOf s
    let l := SweepLists.ofWord k.xsv
    sweepBody a b (vl * fmtWidth f.a / 8) (vl * fmtWidth f.b / 8) (denseEnough (fmtWidth f.a) h.lenA l.pA l.nA)
      (denseEnough (fmtWidth f.b) h.lenB l.qB l.nB) (sweepRun f free init) k s

/-- A sparse sweep (R215). -/
def sparseSweep (free : Bool) (a b : VOpd) (fx : XReg) (k : Slot) (s : State) : SlotOut :=
  let vl := vlOf s
  if vl == 0 then .done s
  else
    let f := fmtOf s k fx
    let h := shapeOf s
    let bytes := vl * ewBits s / 8
    sweepBody a b bytes bytes (fun buf used => sparseDiags buf used h.m h.k f.a (ufield k.xsv 0 16) 0 none)
      (fun buf used => sparseDiags buf used h.k h.n f.b (ufield k.xsv 16 16) 0 none) (sweepRun f free false) k s

def execDsweep (a b : VOpd) (x : XReg) (init : Bool) (f : XReg) (s : State) : Result :=
  vectorStep (.dsweep a b x init f) (denseSweep false a b init f) s

def execDsweepf (a b : VOpd) (x : XReg) (init : Bool) (f : XReg) (s : State) : Result :=
  vectorStep (.dsweepf a b x init f) (denseSweep true a b init f) s

def execSpsweep (a b : VOpd) (x f : XReg) (s : State) : Result :=
  vectorStep (.spsweep a b x f) (sparseSweep false a b f) s

def execSpsweepf (a b : VOpd) (x f : XReg) (s : State) : Result :=
  vectorStep (.spsweepf a b x f) (sparseSweep true a b f) s

/-! ## Packing (R212 to R214) -/

/-- Whether a value counts as zero (R214): ±0, integer 0, LNS6 0x00. -/
def countsZero (c b : Nat) : Bool := if isFloatFmt c then b % signBit c == 0 else b == 0

/-- Values laid one behind another at width w. -/
def joinVals (w : Nat) : List Nat → Nat
  | [] => 0
  | v :: vs => v % 2 ^ w + 2 ^ w * joinVals w vs

/-- A header as the engine writes it. -/
def headerBits (src len nnz c : Nat) : Nat := src % 2 ^ 16 + 2 ^ 16 * len + 2 ^ 32 * nnz + 2 ^ 64 * c

/-- The result of `sppack` or `spunpack` on the source bytes (a number) of which `limit` count, for a register of `room` bytes:
the result's bytes and size, false for the illegal-instruction trap, true for the illegal-format-word trap. -/
def packRun (unpack : Bool) (f : FmtWord) (src limit room : Nat) : Except Bool (Nat × Nat) :=
  let h := DiagHeader.read src
  let c := h.fmt
  let w := 8 * valueBytes c
  let body := src / 2 ^ 128
  let plain := (List.range h.len).map (field body w)
  let bitmap := body % 2 ^ h.len
  let nnz := if unpack then h.nnz else (plain.filter (fun v => !countsZero c v)).length
  let inSize := if unpack then packedSize h.len h.nnz c else plainSize h.len c
  let outSize := if unpack then plainSize h.len c else packedSize h.len nnz c
  if limit < inSize || room < outSize || h.reserved != 0 || h.len == 0 || (unpack && popBits bitmap h.len != h.nnz) then .error false
  else if f.a != c || f.d != c then .error true
  else
    let head := headerBits src h.len nnz c
    if unpack then
      let vals := (unpackVals bitmap (src / 2 ^ (8 * valuesAt h.len)) w h.len).map (·.getD 0)
      .ok (head + 2 ^ 128 * joinVals w vals, outSize)
    else
      let bits := joinVals 1 (plain.map (fun v => if countsZero c v then 0 else 1))
      .ok (head + 2 ^ 128 * bits + 2 ^ (8 * valuesAt h.len) * joinVals w (plain.filter (fun v => !countsZero c v)), outSize)

/-- `sppack` and `spunpack`. -/
def packBody (i : Instr) (unpack : Bool) (d a : VOpd) (fx : XReg) (k : Slot) (s : State) : SlotOut :=
  let v := (infoOf i).getD { unit := 5 }
  let vl := vlOf s
  if vl == 0 then .done s
  else withQueues v k s fun s =>
    let f := fmtOf s k fx
    let limit := vl * ewBits s / 8
    -- in Mygar text the result lies in row 0 (R281)
    let room := if s.strand.portable then limit else s.hart.grant.vlen / 8
    match packRun unpack f ((srcBits s a).toNat % 2 ^ (8 * limit)) limit room with
    | .error false => .trap s (trapAt s 1 0 (instrWord k.instr)) k
    | .error true => .trap s (trapAt s 2 0 k.fmtw) k
    | .ok (bits, size) => .done (putAll (popQs s v.srcs) k d (8 * size) [(0, bits)])

def execSppack (d a : VOpd) (f : XReg) (s : State) : Result :=
  vectorStep (.sppack d a f) (packBody (.sppack d a f) false d a f) s

def execSpunpack (d a : VOpd) (f : XReg) (s : State) : Result :=
  vectorStep (.spunpack d a f) (packBody (.spunpack d a f) true d a f) s

/-! ## The accumulator instructions (R204 to R207) -/

/-- Elements of va into elements s + e of diagonal d; an absent diagonal is filled in first (R205). -/
def execAcld (a : VOpd) (x : XReg) (s : State) : Result :=
  vectorStep (.acld a x) (fun k s =>
    let v := (infoOf (.acld a x)).getD { unit := 5 }
    let vl := vlOf s
    if vl == 0 then .done s
    else withQueues v k s fun s =>
      let h := shapeOf s
      let w := winOf s
      let r := sfield k.xsv 0 16
      let first := ufield k.xsv 32 16
      let es := (List.range (min vl (h.lenC r - first))).filter (fun e => w.held r (first + e))
      let d0 := if presentAt s.hart.dg w r then s.hart.dg else fillIn s.hart.dg w h r
      let d1 := es.foldl (fun d e => accSet d (accWidth h.akind) (w.place h r (first + e)) (elemOf (srcBits s a) (ewBits s) e)) d0
      .done (setDg (popQs s v.srcs) d1)) s

/-- An element of the store converted to dfmt (R206). -/
def accConvert (f : FmtWord) (akind b : Nat) : Conv :=
  if akind == 13 then (classAccOf b).finish f else f.convert (.val (readVal akind f.flush b))

/-- vd[e] := element s + e of diagonal d, converted (R206). -/
def execAcst (d : VOpd) (x fx : XReg) (s : State) : Result :=
  vectorStep (.acst d x fx) (fun k s =>
    let v := (infoOf (.acst d x fx)).getD { unit := 5 }
    let vl := vlOf s
    if vl == 0 then .done s
    else withQueues v k s fun s =>
      let f := fmtOf s k fx
      let h := shapeOf s
      let r := sfield k.xsv 0 16
      let first := ufield k.xsv 32 16
      let outs := (List.range (min vl (h.lenC r - first))).map (fun e =>
        (e, accConvert f h.akind (accRead s.hart.dg (winOf s) h r (first + e))))
      let s1 := putAll s k d (fmtWidth f.d) (outs.map (fun p => (p.1, p.2.bits)))
      .done (setOverflow s1 f.ovmask ((outs.filter (·.2.out)).map (·.1)))) s

/-- Marks offsets absent (R207). -/
def execAczero (x : XReg) (s : State) : Result :=
  vectorStep (.aczero x) (fun k s =>
    let w := winOf s
    let n := ufield k.xsv 16 16
    let r := sfield k.xsv 0 16
    if n == 0 then .done (setDg s (allAbsent s.hart.dg))
    else
      let rs := ((List.range n).map (fun (j : Nat) => r + (j : Int))).filter (fun r => w.lo ≤ r && r ≤ w.hi)
      .done (setDg s (rs.foldl (fun d r => setPresent d w r false) s.hart.dg))) s

/-- The presence of offsets d + j into a mask (R207). -/
def execAcmap (d : MReg) (x : XReg) (s : State) : Result :=
  vectorStep (.acmap d x) (fun k s =>
    .done (putMask s d ((List.range (vlOf s)).map (fun j => (j, presentAt s.hart.dg (winOf s) (sfield k.xsv 0 16 + j)))))) s

end Sys2Proof.Machine
end

