-- ==== Sys2Proof/Machine/VecMem.lean ====
section
/-! DEFINITION. Vector loads and stores (R152 to R168): element addresses, the faults of element instructions lane group by lane group,
and the forms that run whole. -/

namespace Sys2Proof.Machine

/-! ## Element addresses (R154, R164) -/

/-- What one element accesses: its first byte, how many bytes, the place of an LNS6 field in them, and the address a trap reports. -/
structure Site where
  ea    : Word
  n     : Nat
  shift : Option Nat
  tval  : Word
  /-- a die base table entry of 0 -/
  void  : Bool
  deriving DecidableEq, Repr, Inhabited

def plainSite (ea : Word) (n : Nat) : Site := ⟨ea, n, none, ea, false⟩

/-- B = (x[xs] + sext(off)) mod 2^64. -/
def baseOf (k : Slot) (o : BitVec 13) : Word := k.xsv + o.signExtend 64

/-- Column and row of an element: its index and 0, or its place in a Mygar register (R281). -/
def colOf (s : State) (e : Nat) : Nat := if s.strand.portable then e % s.strand.rowCap else e
def rowOf (s : State) (e : Nat) : Nat := if s.strand.portable then e / s.strand.rowCap else 0

/-- Element i of packed LNS6 data whose groups of four lie `step` bytes apart from `b` on (R54, R155). The bytes checked are those its field lies in, and its
address as a trap value is the group's, the one the table of R154 gives it (DEDUCED, log 29). -/
def packedSite (b step : Word) (i : Nat) : Site :=
  let group := b + BitVec.ofNat 64 (i / 4) * step
  let lo := 6 * (i % 4)
  ⟨group + BitVec.ofNat 64 (lo / 8), (lo + 5) / 8 - lo / 8 + 1, some (lo % 8), group, false⟩

/-- What every element accesses through the address that `vxlate` delivers for a position out of range: the address that no translation has (R174, R299). -/
def nowhere : Site := plainSite (BitVec.allOnes 64) 1

/-- `vld`, `vst`, `vldff`. -/
def unitSite (s : State) (k : Slot) (z : BitVec 3) (o : BitVec 13) (e : Nat) : Site :=
  if k.xsv = BitVec.allOnes 64 then nowhere
  else if z == 4 then packedSite (baseOf k o) 3 e
  else plainSite (baseOf k o + BitVec.ofNat 64 (e * (ewBits s / 8))) (ewBits s / 8)

/-- `vlds`, `vsts`; in Mygar text the stride separates rows (R281). -/
def strideSite (s : State) (k : Slot) (z : BitVec 3) (o : BitVec 13) (e : Nat) : Site :=
  let b := baseOf k o
  if k.xsv = BitVec.allOnes 64 then nowhere
  else if s.strand.portable then
    let r := b + BitVec.ofNat 64 (rowOf s e) * k.xbv
    if z == 4 then packedSite r 3 (colOf s e) else plainSite (r + BitVec.ofNat 64 (colOf s e * (ewBits s / 8))) (ewBits s / 8)
  else if z == 4 then packedSite b k.xbv e
  else plainSite (b + BitVec.ofNat 64 e * k.xbv) (ewBits s / 8)

/-- The indexed forms with G = 0, and `vgl vsc vscc vpf`. -/
def indexSite (s : State) (base : Word) (b : VReg) (e : Nat) : Site :=
  plainSite (base + BitVec.ofNat 64 (elemOf (getV s b) (ewBits s) e)) (ewBits s / 8)

/-- G = 1 (R164): the die base table lies in the slot's contents. -/
def dieSite (s : State) (k : Slot) (b : VReg) (o : BitVec 13) (e : Nat) : Site :=
  let v := BitVec.ofNat 64 (elemOf (getV s b) 64 e)
  let t : Word := (k.desc >>> (64 * (v.extractLsb' 61 3).toNat)).setWidth 64
  { plainSite (t + o.signExtend 64 + (v.extractLsb' 0 61).setWidth 64) 8 with void := t == 0 }

def gatherSite (s : State) (k : Slot) (b : VReg) (gl : Bool) (o : BitVec 13) (e : Nat) : Site :=
  if gl then dieSite s k b o e else indexSite s (baseOf k o) b e

/-! ## Checks (R155, R164) -/

/-- The checks of one element: its bytes' physical addresses and the leaf, or why it faults. Alignment comes before translation (R155);
the all-ones address of `vxlate` is one that no translation has, whatever the width (R174, R299, log entry 82). -/
def checkSite (s : State) (t : Site) (a : Access) (strict : Bool) : Except Fail (List Nat × Leaf) :=
  if t.void then .error ⟨4, a.sub⟩
  else if t.shift.isNone && t.ea ≠ BitVec.allOnes 64 && t.ea.toNat % t.n ≠ 0 then .error ⟨7, 0⟩
  else
    checkSteps s (me s) s.hart.tenant t.ea t.n a strict

/-- The line that a walk for an element must wait for (R360). -/
def siteWait (s : State) (t : Site) (a : Access) (strict : Bool) : Option Nat :=
  match checkSite s t a strict with
  | .error f => if f.cls = 0 then some f.sub else none
  | .ok _ => none

/-- The machine of a failing element: the fills of its tiles, where a seal fails, have taken place (R368). With `agent`, a byte homed on another die is the
plinth's gather agent's, which leaves no poison in the L1 either (R164, R262). -/
def failSite (s : State) (f : Fail) (t : Site) (agent : Bool := false) : State :=
  let away (pa : Nat) : Bool := agent && homeDieOf pa != myDie s
  failAccess (failAccess s f t.ea away) f (t.ea + BitVec.ofNat 64 (t.n - 1)) away

/-- A checked element. -/
structure Done where
  e    : Nat
  site : Site
  pas  : List Nat
  leaf : Leaf
  deriving DecidableEq, Repr, Inhabited

/-- How the elements of an instruction end (R165): those that commit, the lowest faulting one, and the line that a walk for an element must wait for. -/
structure Plan where
  commit : List Done
  fault  : Option (Nat × Site × Fail)
  wait   : Option Nat
  deriving DecidableEq, Repr, Inhabited

/-- Elements in ascending order, lane group by lane group: a group stops at its first element that faults or must wait; `ordered` stops all of them (R159,
R165, R360). -/
def planOf (s : State) (ordered : Bool) (site : Nat → Site) (a : Access) (strict : Bool) (es : List Nat) : Plan :=
  let n := lanesOf s
  let step (acc : Plan × List Nat) (e : Nat) : Plan × List Nat :=
    let g := groupOf n e
    if acc.2.contains g || (ordered && !acc.2.isEmpty) then acc
    else
      match checkSite s (site e) a strict with
      | .ok (pas, l) => ({ acc.1 with commit := acc.1.commit ++ [⟨e, site e, pas, l⟩] }, acc.2)
      | .error f =>
        if f.cls = 0 then ({ acc.1 with wait := acc.1.wait.or (some f.sub) }, g :: acc.2)
        else ({ acc.1 with fault := acc.1.fault.or (some (e, site e, f)) }, g :: acc.2)
  (es.foldl step (⟨[], none, none⟩, [])).1

/-- An engine's line among those an instruction would reach (R190). -/
def engineIn (s : State) (ds : List Done) : Option Nat :=
  (ds.filterMap (fun d => (linesOf d.pas).find? (engineLine s))).head?

/-- The line that a plan's elements wait for: one that a walk for them reads, or one that they would reach (R190, R360). -/
def Plan.held (s : State) (p : Plan) : Option Nat := p.wait.or (engineIn s p.commit)

/-! ## Progress (R32, R33) -/

/-- The elements that a plan leaves: those of `es` that it does not commit, and those beyond the slot's stop points. -/
def planLeft (s : State) (k : Slot) (es : List Nat) (p : Plan) : List Nat :=
  es.filter (fun x => !p.commit.any (fun d => d.e == x)) ++ beyond s k

/-- How a slot ends whose elements `es` have run by a plan and leave `left`: complete or in part, with a wait for the walk of an element (R360), or
with the trap of its lowest faulting element. -/
def endPlan (s : State) (k : Slot) (left : List Nat) (p : Plan) (agent : Bool := false) : SlotOut :=
  match p.wait, p.fault with
  | some l, _ => .wait s { k with ctr := countersFor s left } (.engine l)
  | none, none => endElems s left s k
  | none, some (e, t, f) => .trap (failSite s f t agent) { failTrap s f t.tval with elem := e } { k with ctr := countersFor s left }

/-! ## Effects -/

/-- The pages of an element's bytes. -/
def Done.pages (s : State) (d : Done) : List (List Nat × Leaf) := byPage s d.site.ea d.pas d.leaf

/-- Whether a line of an element's lies on a stream page. -/
def lineStream (s : State) (d : Done) (l : Nat) : Bool := (d.pages s).any (fun p => p.2.stream && p.1.any (lineOf · == l))

/-- A line reached for the focused hart by an agent that leaves it in no L1 (R262). The core keeps no copy of a stream line behind it, which a later load of
the hart could find older than what this access has read or written (R250, R260). -/
def touchPast (s : State) (a : BitVec 5) (l : Nat) (write : Bool) : State :=
  let s := touchAgent (dropCopies s (dieOf s.hart.id) (coreOf s.hart.id) (· == l)) (myDie s) a l write
  if write then loseElsewhere s l else s

/-- The lines of checked addresses reached; with `agent`, those homed on another die are reached by the plinth's gather agent, which leaves
nothing in the L1 (R164, R262). -/
def touchElem (s : State) (d : Done) (write agent : Bool) : State :=
  (linesOf d.pas).foldl (fun s l =>
      if agent && lineHome l != myDie s then touchPast s gatherAgent l write
      else touch s l write (lineStream s d l))
    (pagesReached s (me s) s.hart.tenant d.site.ea d.site.n)

/-- The bytes of committed elements are reached. -/
def touchDone (s : State) (ds : List Done) (write : Bool) (agent : Bool := false) : State := ds.foldl (fun s d => touchElem s d write agent) s

/-- The value an element loads: on a stream page from the copy in the core's L1, which the gather agent does not see (R260, R262). -/
def loadedAt (s : State) (d : Done) (agent : Bool := false) : Nat :=
  let v := if agent && d.pas.any (fun a => homeDieOf a != myDie s) then readPas s.mem d.pas else hartReadPages s (d.pages s)
  match d.site.shift with
  | some sh => v / 2 ^ sh % 64
  | none => v

/-- The memory with one element's bits stored: whole bytes, or the six bits of a packed field (R158). -/
def storedAt (m : Memory) (d : Done) (v : Nat) : Memory :=
  match d.site.shift with
  | some sh =>
    let old := readPas m d.pas
    writePas m (old - old / 2 ^ sh % 64 * 2 ^ sh + v % 64 * 2 ^ sh) d.pas
  | none => writePas m v d.pas

/-- The elements `es` loaded by a plan, whose queues are ready: `after` acts on those that commit. -/
def loadPlan (d : VOpd) (after : State → List Done → State) (es : List Nat) (p : Plan) (k : Slot) (s : State) (agent : Bool := false) : SlotOut :=
  match engineIn s p.commit with
  | some l => .stall (.engine l)
  | none =>
    let left := planLeft s k es p
    let (s1, k1) := putOut (after (touchDone s p.commit false agent) p.commit) k d (ewBits s) (p.commit.map (fun x => (x.e, loadedAt s x agent))) left.isEmpty
    endPlan s1 k1 left p agent

/-- A load of elements (R156): `after` acts on the committed elements. -/
def loadElems (i : Instr) (d : VOpd) (g : Gov) (ordered strict : Bool) (site : State → Slot → Nat → Site)
    (after : State → List Done → State) (k : Slot) (s : State) (agent : Bool := false) : SlotOut :=
  let v := (infoOf i).getD { unit := 0 }
  if (positions s).isEmpty then .done s
  else withQueues v k s fun s =>
    let es := activeOf s k g
    loadPlan d after es (planOf s ordered (site s k) .read strict es) k s agent

/-- R157: where several elements write one place, one of them stands; which one is free. An element that writes its place alone stands. -/
def chosen (s : State) (ordered : Bool) (ds : List Done) (d : Done) : Nat :=
  let same := ds.filter (fun x => x.pas == d.pas && x.site.shift == d.site.shift)
  if ordered || same.length ≤ 1 then d.e
  else
    match same[Config.pickWriter s.fresh (d.pas.headD 0) % same.length]? with
    | some x => x.e
    | none => d.e

/-- The core's copies of stream lines after the stores of elements (R260); `old` is the machine before the stores. -/
def elemCopies (s old : State) (ds : List Done) : State := ds.foldl (fun t d => storePages t old.mem (d.pages old)) s

/-- A store of elements (R156 to R159). -/
def storeElems (i : Instr) (a : VOpd) (g : Gov) (ordered : Bool) (site : State → Slot → Nat → Site) (k : Slot) (s : State)
    (agent : Bool := false) : SlotOut :=
  let v := (infoOf i).getD { unit := 0 }
  if (positions s).isEmpty then .done s
  else withQueues v k s fun s =>
    let es := activeOf s k g
    let p := planOf s ordered (site s k) .write false es
    match engineIn s p.commit with
    | some l => .stall (.engine l)
    | none =>
      let bits := srcBits s a
      let m := p.commit.foldl (fun m x => storedAt m x (elemOf bits (ewBits s) (chosen s ordered p.commit x))) s.mem
      let s1 := elemCopies (setMem (touchDone (if ordered then s else bump s) p.commit true agent) m) s p.commit
      let left := planLeft s k es p
      endPlan (popRead s1 left [a]) k left p agent

/-- Whether an element of a load with G = 1 names another die, by its index as it stood before the instruction: of one that is complete, whose index the
load may have replaced, the slot remembers it (R6, R164). -/
def namesAway (s : State) (k : Slot) (b : VReg) (e : Nat) : Bool :=
  if passed s k e then k.met.getLsbD e else BitVec.ofNat 3 (elemOf (getV s b) 64 e / 2 ^ 61) != myDie s

/-- A load of the armature's launch that names another die's table entry waits for all harts (R36, R164, R304). -/
def remoteLoad (s : State) (k : Slot) (b : VReg) (gl : Bool) (g : Gov) : Bool :=
  gl && underArmature s s.hart.key.launch && ((positions s).filter (govTest s g)).any (namesAway s k b)

/-- The slot of a load with G = 1 that has not completed, with its elements that name another die. -/
def noteAway (s : State) (b : VReg) (k : Slot) : Slot := { k with met := setBits k.met ((positions s).map (fun e => (e, namesAway s k b e))) }

/-- A gather, whose completion is a rendezvous where R36 makes it one: a fault or another wait of it is no arrival. -/
def gather (i : Instr) (d : VOpd) (b : VReg) (gl : Bool) (g : Gov) (ordered : Bool) (o : BitVec 13) (k : Slot) (s : State) : SlotOut :=
  match loadElems i d g ordered false (fun s k => gatherSite s k b gl o) (fun s _ => s) (if gl then noteAway s b k else k) s gl with
  | .done s' =>
    if remoteLoad s k b gl g then
      match meet s with
      | (_, true) => .done s'
      | (m, false) => .wait m k .rendezvous
    else .done s'
  | r => r

def execVld (d : VOpd) (x : XReg) (z : BitVec 3) (o : BitVec 13) (g : Gov) (s : State) : Result :=
  vectorStep (.vld d x z o g) (loadElems (.vld d x z o g) d g false false (fun s k => unitSite s k z o) (fun s _ => s)) s

def execVlds (d : VOpd) (x t : XReg) (z : BitVec 3) (o : BitVec 13) (g : Gov) (s : State) : Result :=
  vectorStep (.vlds d x t z o g) (loadElems (.vlds d x t z o g) d g false false (fun s k => strideSite s k z o) (fun s _ => s)) s

def execVldx (d : VOpd) (x : XReg) (b : VReg) (z : BitVec 3) (gl : Bool) (o : BitVec 13) (g : Gov) (s : State) : Result :=
  vectorStep (.vldx d x b z gl o g) (gather (.vldx d x b z gl o g) d b gl g false o) s

/-- Elements perform in ascending order (R159). -/
def execVldxo (d : VOpd) (x : XReg) (b : VReg) (z : BitVec 3) (gl : Bool) (o : BitVec 13) (g : Gov) (s : State) : Result :=
  vectorStep (.vldxo d x b z gl o g) (gather (.vldxo d x b z gl o g) d b gl g true o) s

def execVst (a : VOpd) (x : XReg) (z : BitVec 3) (o : BitVec 13) (g : Gov) (s : State) : Result :=
  vectorStep (.vst a x z o g) (storeElems (.vst a x z o g) a g false (fun s k => unitSite s k z o)) s

def execVsts (a : VOpd) (x t : XReg) (z : BitVec 3) (o : BitVec 13) (g : Gov) (s : State) : Result :=
  vectorStep (.vsts a x t z o g) (storeElems (.vsts a x t z o g) a g false (fun s k => strideSite s k z o)) s

def execVstx (a : VOpd) (x : XReg) (b : VReg) (z : BitVec 3) (gl : Bool) (o : BitVec 13) (g : Gov) (s : State) : Result :=
  vectorStep (.vstx a x b z gl o g) (fun k s => storeElems (.vstx a x b z gl o g) a g false (fun s k => gatherSite s k b gl o) k s gl) s

/-- The highest element that writes a location stands (R159). -/
def execVstxo (a : VOpd) (x : XReg) (b : VReg) (z : BitVec 3) (gl : Bool) (o : BitVec 13) (g : Gov) (s : State) : Result :=
  vectorStep (.vstxo a x b z gl o g) (fun k s => storeElems (.vstxo a x b z gl o g) a g true (fun s k => gatherSite s k b gl o) k s gl) s

/-! ## First-fault loads (R160) -/

/-- The strand's vector length. -/
def setVl (s : State) (n : Nat) : State := { s with strand := { s.strand with vl := BitVec.ofNat 14 n } }

/-- A trim at position e: vl, or the rows and columns of a Mygar strip (R281). A trim in row 0 leaves 0 rows, as R281's words say, so that nothing acts on
the columns it leaves (log entry 121). -/
def trimAt (s : State) (e : Nat) : State :=
  if s.strand.portable then
    { s with strand := { s.strand with rows := rowOf s e, rowLen := if rowOf s e == 0 then colOf s e else s.strand.rowLen } }
  else setVl s e

/-- The lowest active element of the strip, passed or not. -/
def lowestActive (s : State) (g : Gov) : Option Nat := (positions s).find? (govTest s g)

/-- What the element at which a first-fault load stops leaves: a fill whose seal fails has taken place (R368). -/
def truncatedAt (s : State) (t : Site) : State :=
  match checkSite s t .read false with
  | .error f => failSite s f t
  | .ok _ => s

/-- R160. When the load has trapped at its lowest element before, elements at or above the trim that other lane groups had loaded by then stay
(log entry 81). -/
def execVldff (d : VOpd) (x : XReg) (z : BitVec 3) (o : BitVec 13) (g : Gov) (s : State) : Result :=
  vectorStep (.vldff d x z o g) (fun k s =>
    let v := (infoOf (.vldff d x z o g)).getD { unit := 0 }
    let es := activeOf s k g
    let site := unitSite s k z o
    match es.find? (fun e => (checkSite s (site e) .read false).toOption.isNone) with
    | some f =>
      match siteWait s (site f) .read false with
      | some l =>
        -- the elements before the one whose walk waits go on (R360); those behind it may lie beyond the trim
        withQueues v k s (loadPlan d (fun s _ => s) es { planOf s false site .read false (es.filter (· < f)) with wait := some l } k)
      | none =>
      if lowestActive s g == some f then
        loadElems (.vldff d x z o g) d g false false (fun s k => unitSite s k z o) (fun s _ => s) k s
      else withQueues v k s fun s =>
        let p := planOf s false site .read false (es.filter (· < f))
        match p.held s with
        | some l => .stall (.engine l)
        | none =>
          let vals := p.commit.map (fun c => (c.e, loadedAt s c))
          .done (trimAt (putAll (truncatedAt (touchDone s p.commit false) (site f)) k d (ewBits s) vals) f)
    | none => loadElems (.vldff d x z o g) d g false false (fun s k => unitSite s k z o) (fun s _ => s) k s) s

/-! ## Forms that run whole (R161 to R163) -/

/-- The trap of an access that checks every byte first, or the wait for its walk. -/
def wholeTrap (s : State) (k : Slot) (e : Fail × Word) : SlotOut :=
  if e.1.cls = 0 then .stall (.engine e.1.sub) else .trap (failState s e.1 e.2) (failTrap s e.1 e.2) k

/-- A whole load of n bytes at an address. -/
def wholeLoad (s : State) (k : Slot) (a : Word) (n : Nat) (f : State → Nat → State) : SlotOut :=
  match checkRange s (me s) s.hart.tenant a n .read false with
  | .error e => wholeTrap s k e
  | .ok (pas, l) =>
    match (linesOf pas).find? (engineLine s) with
    | some x => .stall (.engine x)
    | none =>
      let ps := byPage s a pas l
      .done (f (touchPages (pagesReached s (me s) s.hart.tenant a n) ps false) (hartReadPages s ps))

/-- A whole store of n bytes at an address, of a value made from the old one. -/
def wholeStore (s : State) (k : Slot) (a : Word) (n : Nat) (f : Nat → Nat) : SlotOut :=
  match checkRange s (me s) s.hart.tenant a n .write false with
  | .error e => wholeTrap s k e
  | .ok (pas, l) =>
    match (linesOf pas).find? (engineLine s) with
    | some x => .stall (.engine x)
    | none =>
      let m := writePas s.mem (f (readPas s.mem pas)) pas
      let ps := byPage s a pas l
      .done (storePages (setMem (touchPages (pagesReached s (me s) s.hart.tenant a n) ps true) m) s.mem ps)

/-- The bits of a mask below n replaced. -/
def lowBits (old new n : Nat) : Nat := old / 2 ^ n * 2 ^ n + new % 2 ^ n

def execVldm (d : MReg) (x : XReg) (o : BitVec 13) (s : State) : Result :=
  vectorStep (.vldm d x o) (fun k s =>
    let n := vlOf s
    if n == 0 then .done s
    else wholeLoad s k (baseOf k o) ((n + 7) / 8) (fun s v => setM s d (BitVec.ofNat 8192 (lowBits (getM s d).toNat v n)))) s

def execVstm (a : MReg) (x : XReg) (o : BitVec 13) (s : State) : Result :=
  vectorStep (.vstm a x o) (fun k s =>
    let n := vlOf s
    if n == 0 then .done s
    else wholeStore s k (baseOf k o) ((n + 7) / 8) (fun old => lowBits old (getM s a).toNat n)) s

def execVfill (d : VReg) (x : XReg) (s : State) : Result :=
  vectorStep (.vfill d x) (fun k s =>
    if vlOf s == 0 then .done s
    else if k.xsv.toNat % 64 ≠ 0 then .trap s (trapAt s 7 0 k.xsv) k
    else wholeLoad s k k.xsv (s.hart.grant.vlen / 8) (fun s v => setV s d (BitVec.ofNat 65536 v))) s

def execVspill (a : VReg) (x : XReg) (s : State) : Result :=
  vectorStep (.vspill a x) (fun k s =>
    if vlOf s == 0 then .done s
    else if k.xsv.toNat % 64 ≠ 0 then .trap s (trapAt s 7 0 k.xsv) k
    else wholeStore s k k.xsv (s.hart.grant.vlen / 8) (fun _ => (getV s a).toNat)) s

end Sys2Proof.Machine
end

