-- ==== Sys2Proof/Machine/Streams.lean ====
section
/-! DEFINITION. Bound streams (R181 to R185): the elements of an entry, one entry's work, and a stream's end. The focused strand is the
access strand of the stream's hart. -/

namespace Sys2Proof.Machine

/-- How many entries a specification carries (R182). -/
def streamCount (d : BitVec 512) : Nat := dfield d 192 32 * dfield d 320 32

/-- Element e of entry n: base + j2 × stride2 + j1 × stride1 + e × estride, j1 varying fastest. -/
def streamSite (d : BitVec 512) (n e : Nat) : Site :=
  let ext1 := dfield d 192 32
  let a : Int := (dfield d 0 64 : Int) + (n / ext1 : Nat) * dsigned d 256 64 + (n % ext1 : Nat) * dsigned d 128 64 + e * dsigned d 64 64
  plainSite (BitVec.ofInt 64 a) (2 ^ dfield d 352 8)

/-- A stream of the focused hart by its number. -/
def streamOf (s : State) (n : BitVec 3) : Option Stream := s.hart.streams.find? (fun t => t.num == n)

def setStreams (s : State) (l : List Stream) : State := { s with hart := { s.hart with streams := l } }

def putStream (s : State) (t : Stream) : State := setStreams s (s.hart.streams.map (fun x => if x.num == t.num then t else x))

/-- Whether a stream can work on its next entry: a load stream as space and `cr.ahead` allow, a store stream when an entry is there. -/
def streamReady (s : State) (t : Stream) : Bool :=
  t.fault.isNone && t.entry < streamCount t.spec
    && (if isLq t.queue then !t.left.isEmpty || ((getQ s t.queue).length < 2 && lqHeld s < s.hart.cr.ahead.toNat)
        else (popStall s t.queue).isNone)

/-- The trap a stream's fault raises at the access strand's next boundary (R183). -/
def streamTrap (t : Stream) (e : Nat) (f : Fail) (va : Word) : Trap :=
  { cls := f.cls, sub := f.sub, value := va, pc := 0, slot := 7, elem := e, sflag := true, stream := t.num.toNat, entry := t.entry % 65536 }

/-- The elements still to do of the current entry. -/
def streamLeft (t : Stream) : List Nat := if t.left.isEmpty then List.range t.vl else t.left

/-- The queue entry a load stream fills: its own partly filled one, or a new one. -/
def fillEntry (s : State) (t : Stream) (w : Nat) (l : List (Nat × Nat)) (full : Bool) : State :=
  let q := getQ s t.queue
  if t.left.isEmpty then setQ s t.queue (q ++ [⟨setElems 0 w l, full, BitVec.ofNat 14 t.vl⟩])
  else
    match q.getLast? with
    | some e => setQ s t.queue (q.dropLast ++ [{ e with bits := setElems e.bits w l, full := full }])
    | none => s

/-- Whether a plan has every element of an entry done. -/
def Plan.whole (p : Plan) : Bool := p.fault.isNone && p.wait.isNone

/-- The stream after its entry's elements have run by a plan (R165, R183), of which a wait for a walk leaves some for later (R360). -/
def streamNext (t : Stream) (es : List Nat) (p : Plan) : Stream :=
  let left := es.filter (fun y => !p.commit.any (fun d => d.e == y))
  match p.wait, p.fault with
  | some _, _ => { t with left := left }
  | none, none => { t with entry := t.entry + 1, left := [] }
  | none, some (e, x, f) => { t with left := left, fault := some (streamTrap t e f x.tval) }

/-- The lines of an entry reached by the stream, a caching agent that leaves no line and no copy in the core's L1 (R250, R252, R262, R379). -/
def touchEntry (s : State) (ds : List Done) (write : Bool) : State :=
  ds.foldl (fun s d =>
    (linesOf d.pas).foldl (fun s l => touchPast s proxyAgent l write) (pagesReached s (me s) s.hart.tenant d.site.ea d.site.n)) s

/-- The value of an element in memory. -/
def readElem (m : Memory) (d : Done) : Nat :=
  match d.site.shift with
  | some sh => readPas m d.pas / 2 ^ sh % 64
  | none => readPas m d.pas

/-- The machine of a failing element of a stream: the fill of its tile has taken place, and no line of it is in the L1 (R264, R368). -/
def failEntry (s : State) (p : Plan) : State :=
  match p.wait, p.fault with
  | some _, _ => s
  | none, none => s
  | none, some (_, t, f) =>
    failAccess (failAccess s f t.ea (fun _ => true)) f (t.ea + BitVec.ofNat 64 (t.n - 1)) (fun _ => true)

/-- Whether a plan can do nothing now: an engine owns a line of it, or every element that it could do waits for a walk. -/
def Plan.stuck (s : State) (p : Plan) : Bool := (engineIn s p.commit).isSome || (p.wait.isSome && p.commit.isEmpty)

/-- The work on one entry of a load stream or a store stream; `s` itself where it waits for a line. -/
def streamWork (s : State) (t : Stream) : State :=
  let es := streamLeft t
  let w := 8 * 2 ^ dfield t.spec 352 8
  if isLq t.queue then
    let p := planOf s false (streamSite t.spec t.entry) .read false es
    if p.stuck s then s
    else
      let vals := p.commit.map (fun x => (x.e, readElem s.mem x))
      putStream (fillEntry (failEntry (touchEntry s p.commit false) p) t w vals p.whole) (streamNext t es p)
  else
    let p := planOf s false (streamSite t.spec t.entry) .write false es
    if p.stuck s then s
    else
      let bits := srcBits s t.queue
      let m := p.commit.foldl (fun m x => storedAt m x (elemOf bits w (chosen s false p.commit x))) s.mem
      let s1 := failEntry (setMem (touchEntry (bump s) p.commit true) m) p
      putStream (if p.whole then popQs s1 [t.queue] else s1) (streamNext t es p)

/-- Whether a stream has no access in flight: it is within no entry, and no fault of it waits to be delivered (R183, R184). -/
def Stream.settled (t : Stream) : Bool := t.left.isEmpty && t.fault.isNone

/-- The first bound stream whose end must wait for the entry it has begun (R184). -/
def unsettled (s : State) : Option (BitVec 3) := (s.hart.streams.find? (fun t => !t.settled)).map (·.num)

/-- A stream that is within no entry ends: it generates and takes no further entry, and the binding is released (R184). -/
def endStream (s : State) (n : BitVec 3) : State := setStreams s (s.hart.streams.filter (fun x => x.num != n))

/-- Every bound stream of the hart ends. -/
def endStreams (s : State) : State := s.hart.streams.foldl (fun s t => endStream s t.num) s

end Sys2Proof.Machine
end

