-- ==== Sys2Proof/Machine/VecLen.lean ====
section
/-! DEFINITION. The lane allocation table and the grant (R24 to R30), `vsetvl`, `vsetvli` and `setshape` (R124 to R126, R279). -/

namespace Sys2Proof.Machine

/-! ## The grant of R26 -/

/-- A core's record, fresh unless set. -/
def coreRec (s : State) (d : DieId) (c : CoreId) : CoreRec :=
  (s.cores.find? (fun r => r.die == d && r.core == c)).getD { die := d, core := c, lgmask := 0, draining := false, due := 0, overdue := false, ues := 0, l1Banks := 48 }

def setCore (s : State) (r : CoreRec) : State :=
  { s with cores := s.cores.filter (fun x => !(x.die == r.die && x.core == r.core)) ++ [r] }

/-- Working lane groups W of a core: 8 less the retired ones; none when the core is retired (R24, R396). -/
def workingGroups (r : CoreRec) : Nat := 8 - ((List.range 8).filter (fun i => r.lgmask.getLsbD i)).length

/-- The register-file bank limit B of a die (`cr.sbanks`). -/
def bankLimit (s : State) (d : DieId) : Nat := (dieRec s d).sup.sbanks.toNat

/-- The harts of a core. -/
def coreHarts (s : State) (d : DieId) (c : CoreId) : List Hart :=
  ((boxes s).map (·.hart)).filter (fun h => dieOf h.id == d && coreOf h.id == c)

/-- Banks of 32 KiB for VLEN p: q registers of p bits (R26). -/
def bankNeed (decoupled : Bool) (p : Nat) : Nat := ((if decoupled then 56 else 32) * p / 8 + 32767) / 32768

/-- The largest power of two from 512 to 2^c that g groups and b banks allow, or 0 (R26). -/
def fitVlen (decoupled : Bool) (c g b : Nat) : Nat :=
  (((List.range (c + 1)).filter (fun e => 9 ≤ e)).reverse.map (fun e => 2 ^ e)).find? (fun p => p ≤ 8192 * g && bankNeed decoupled p ≤ b) |>.getD 0

def sumOf (l : List Nat) : Nat := l.foldl (· + ·) 0

/-- The grant that a `vsetvl` with share and class would get now (R26). -/
def negotiate (s : State) (share cls : Nat) : Grant :=
  let d := dieOf s.hart.id
  let c := coreOf s.hart.id
  let dec := s.role != .single
  let others := ((coreHarts s d c).filter (fun h => h.id != s.hart.id)).map (·.grant)
  if share = 0 then { share := 0, cls := cls, groups := 0, banks := 0, vlen := 0, short := false }
  else
    let w := workingGroups (coreRec s d c)
    let b := bankLimit s d
    let k := (others.filter (fun g => 0 < g.share)).length + 1
    let eg := w / k
    let eb := b / k
    let hungry := others.any (·.short)
    let ag := let a := w - sumOf (others.map (·.groups)); if hungry then min a eg else a
    let ab := let a := b - sumOf (others.map (·.banks)); if hungry then min a eb else a
    let g := min share ag
    let p := fitVlen dec cls g ab
    let g' := if p = 0 then 0 else g
    { share := share, cls := cls, groups := g', banks := if p = 0 then 0 else bankNeed dec p, vlen := p
      short := decide (g' < min share eg) || decide (p < fitVlen dec cls (min share eg) eb) }

/-- Whether a grant differs from the hart's present one (R28). -/
def grantDiffers (a b : Grant) : Bool := a.groups != b.groups || a.banks != b.banks || a.vlen != b.vlen

/-! ## Banks and the relay of R28 -/

/-- Register-file banks held on a core, and stash banks of 32 KiB. -/
def banksHeld (s : State) (d : DieId) (c : CoreId) : Nat := sumOf ((coreHarts s d c).map (fun h => h.grant.banks + h.stash))

/-- Banks that a core's harts need beyond the pool's free ones come from its L1, which keeps at least 16. The lines in them are written back and
leave the L1, with the reservations and links on them; lines of the stash lie in other banks (R28, R339). -/
def takeBanks (s : State) (d : DieId) (c : CoreId) : State :=
  let r := coreRec s d c
  let most := 64 - banksHeld s d c
  if most < r.l1Banks then
    let taken := (s.coh.l1.filter (fun x => x.die == d && x.core == c && x.stash.isNone && Config.bankTaken s.fresh x.line)).map (·.line)
    bump (dropCopies (taken.foldl (fun s l => corePut s d c l) (setCore s { r with l1Banks := max 16 most })) d c (Config.bankTaken s.fresh))
  else s

/-- The low n bits of a string. -/
def keepBits {w : Nat} (b : BitVec w) (n : Nat) : BitVec w := b &&& BitVec.ofNat w (2 ^ n - 1)

/-- The registers relayed: every bit below the lesser VLEN stays, the rest become 0; a mask register has VLEN / 8 bits. -/
def relay (r : VecRegs) (bound : Nat) : VecRegs :=
  { v := r.v.map (fun b => keepBits b bound), m := r.m.map (fun b => keepBits b (bound / 8)) }

/-- The hart takes a grant: its table entry, the relay where the VLEN differs, and the banks. A hart resumed unpinned keeps what its image's
VLEN and the new one share (R357). -/
def takeGrant (s : State) (g : Grant) : State :=
  let old := max s.hart.grant.vlen s.hart.savedVlen
  let regs := if grantDiffers g s.hart.grant || s.hart.savedVlen != 0 then relay s.hart.regs (min old g.vlen) else s.hart.regs
  let s1 := { s with hart := { s.hart with grant := g, regs := regs, savedVlen := 0 } }
  takeBanks s1 (dieOf s.hart.id) (coreOf s.hart.id)

/-! ## The instructions -/

/-- The strand's length and width set, and one more strip begun (R125, R30). -/
def setStrip (s : State) (n : Nat) (ew : BitVec 2) : State :=
  { s with strand := { s.strand with vl := BitVec.ofNat 14 n, ew := ew, strips := s.strand.strips + 1 } }

/-- min(n, p / ew). -/
def newVl (p n : Nat) (ew : BitVec 2) : Nat := min n (p / (8 * 2 ^ ew.toNat))

/-- The end of a `vsetvl`: vl into `cr.vl` and x[d]. -/
def finishVsetvl (s : State) (d : XReg) (n : Nat) (ew : BitVec 2) : State :=
  let vl := newVl s.hart.grant.vlen n ew
  advance (setX (setStrip s vl ew) d (BitVec.ofNat 64 vl))

/-- The conditions under which the access strand takes a changed grant (R29): the hart's vector queues empty, and the compute strand drained
and at its corresponding `vsetvl`. -/
def mayRelay (s : State) : Bool :=
  match s.mate with
  | none => true
  | some c =>
    s.hart.q.lq.toList.all (·.isEmpty) && s.hart.q.sq.toList.all (·.isEmpty) && c.convoy.isNone && c.stall == some .mateVsetvl
      && c.strips == s.strand.strips

/-- Whether the compute strand's corresponding `vsetvl` has been executed by the access strand. -/
def mateAhead (s : State) : Bool :=
  match s.mate with
  | none => true
  | some a => s.strand.strips < a.strips

/-- The opening of a strip (R26 to R29), shared by its three forms; `fin` writes the lengths. A stall changes nothing else. -/
def openStrip (wait : Stall) (share cls : Nat) (s : State) (fin : State → State) : Result :=
  if s.role == .compute then
    if mateAhead s then .next (fin s) else .next (stallOn s .mateVsetvl)
  else
    let g := negotiate s share cls
    match unsettled s with
    | some n => .next (stallOn s (.stream n))
    | none =>
    if grantDiffers g s.hart.grant && !mayRelay s then .next (stallOn (endStreams s) wait)
    else .next (fin (takeGrant (endStreams s) g))

/-- The share and class of `vsetvl`'s register, laid out as the sel of `vsetvli` (R124). -/
def cfgOk (w : Word) : Bool := w.extractLsb' 15 49 == 0 && w.extractLsb' 0 6 == 0 && (w.extractLsb' 11 4).toNat ≤ 8

def execVsetvl (d a c : XReg) (s : State) : Result :=
  let w := getX s c
  let n := (getX s a).toNat
  let share := (w.extractLsb' 11 4).toNat
  let cls := (w.extractLsb' 8 3).toNat + 9
  let ew : BitVec 2 := w.extractLsb' 6 2
  if s.strand.portable || !cfgOk w then .next (illegal (.vsetvl d a c) s)
  else openStrip (.regrant d n share cls ew) share cls s (fun s => finishVsetvl s d n ew)

def execVsetvli (d a : XReg) (share : BitVec 4) (cls : BitVec 3) (ew : BitVec 2) (s : State) : Result :=
  let n := (getX s a).toNat
  if s.strand.portable then .next (illegal (.vsetvli d a share cls ew) s)
  else ifLegal (.vsetvli d a share cls ew) s
    (openStrip (.regrant d n share.toNat (cls.toNat + 9) ew) share.toNat (cls.toNat + 9) s (fun s => finishVsetvl s d n ew))

/-- The smallest power of two that is at least n, or 1 for 0 (R279). -/
def rowCapOf (n : Nat) : Nat := if n ≤ 1 then 1 else 2 ^ (Nat.log2 (n - 1) + 1)

/-- The end of a `setshape` (R279): granted rows and row length into x[d]. DESIGN CHOICE (log entry 126): `cr.vl` then holds r × cap, 0 when lr = 0, of which R279
says nothing. -/
def finishSetshape (s : State) (d : XReg) (n nr : Nat) (ew : BitVec 2) : State :=
  let e := s.hart.grant.vlen / (8 * 2 ^ ew.toNat)
  let lr := min n e
  let cap := rowCapOf lr
  let r := if lr = 0 then 0 else min nr (e / cap)
  let s1 := setStrip { s with strand := { s.strand with rows := r, rowLen := lr, rowCap := cap } } (if lr = 0 then 0 else r * cap) ew
  advance (setX s1 d (BitVec.ofNat 64 (r * 2 ^ 32 + lr)))

/-- Opens a strip of Mygar text; in native text the encoding is illegal (R278). -/
def execSetshape (d a : XReg) (share : BitVec 4) (ew : BitVec 2) (cls : BitVec 3) (s : State) : Result :=
  let n := (getX s a).toNat % 2 ^ 32
  let nr := (getX s a).toNat / 2 ^ 32
  if !s.strand.portable then .next (illegal (.setshape d a share ew cls) s)
  else ifLegal (.setshape d a share ew cls) s
    (openStrip (.reshape d n nr share.toNat (cls.toNat + 9) ew) share.toNat (cls.toNat + 9) s (fun s => finishSetshape s d n nr ew))

/-- GRANT_RELAY: a changed grant that an access strand waits for, once its conditions hold; it negotiates again (R28, R29). -/
def relayGrant (s : State) : State :=
  match s.strand.stall with
  | some (.regrant d n share cls ew) =>
    if mayRelay s then finishVsetvl (takeGrant { s with strand := { s.strand with stall := none } } (negotiate s share cls)) d n ew else s
  | some (.reshape d n nr share cls ew) =>
    if mayRelay s then finishSetshape (takeGrant { s with strand := { s.strand with stall := none } } (negotiate s share cls)) d n nr ew else s
  | _ => s

end Sys2Proof.Machine
end

