-- ==== Sys2Proof/Machine/Record.lean ====
section
/-! DEFINITION. The launch record (R237, R238): its fields, its validation (R239), and the acceptance of a launch by the dispatch units (R336,
R337, R341). -/

namespace Sys2Proof.Machine

/-- Bits [lo+n-1 : lo] of a launch record. -/
def rfield (r : BitVec 2048) (lo n : Nat) : Nat := (r.extractLsb' lo n).toNat
def rsigned (r : BitVec 2048) (lo n : Nat) : Int := (r.extractLsb' lo n).toInt

/-- A loop level (R237). -/
structure Level where
  lo    : Int
  count : Nat
  block : Nat
  kind  : Nat
  rsvd  : Nat
  raw   : Nat
  deriving DecidableEq, Repr, Inhabited

def levelAt (r : BitVec 2048) (i : Nat) : Level :=
  let b := 512 + 128 * i
  { lo := rsigned r b 64, count := rfield r (b + 64) 32, block := rfield r (b + 96) 16, kind := rfield r (b + 112) 2
    rsvd := rfield r (b + 114) 14, raw := rfield r b 128 }

/-- A wait condition (R237). -/
structure WaitCond where
  addr  : Word
  value : Nat
  cmp   : Nat
  wide  : Bool
  rsvd  : Nat
  raw   : Nat
  deriving DecidableEq, Repr, Inhabited

def waitAt (r : BitVec 2048) (i : Nat) : WaitCond :=
  let b := 1024 + 192 * i
  { addr := r.extractLsb' b 64, value := rfield r (b + 64) 64, cmp := rfield r (b + 128) 3, wide := r.getLsbD (b + 131)
    rsvd := rfield r (b + 132) 60, raw := rfield r b 192 }

/-- Bytes a wait condition reads. -/
def WaitCond.size (w : WaitCond) : Nat := if w.wide then 8 else 4

/-- The header's fields (R237). -/
structure Header where
  pc0   : Word
  pc1   : Word
  cword : Word
  cval  : Word
  seed  : Word
  ctr   : Word
  args  : Word
  dies  : BitVec 8
  prio  : Nat
  decoupled : Bool
  dit   : Bool
  crew  : Nat
  crews : Nat
  stash : Nat
  accs  : Nat
  vlenlog : Nat
  nlev  : Nat
  nwait : Nat
  rsvd  : Nat
  chans : BitVec 32
  deriving DecidableEq, Repr, Inhabited

def headerOf (r : BitVec 2048) : Header :=
  { pc0 := r.extractLsb' 0 64, pc1 := r.extractLsb' 64 64, cword := r.extractLsb' 128 64, cval := r.extractLsb' 192 64
    seed := r.extractLsb' 256 64, ctr := r.extractLsb' 320 64, args := r.extractLsb' 384 64, dies := r.extractLsb' 448 8
    prio := rfield r 456 3, decoupled := r.getLsbD 459, dit := r.getLsbD 460, crew := rfield r 461 3, crews := rfield r 464 7
    stash := rfield r 471 5, accs := rfield r 476 6, vlenlog := rfield r 482 5, nlev := rfield r 487 3, nwait := rfield r 490 3
    rsvd := rfield r 493 19, chans := r.extractLsb' 1792 32 }

/-- The levels in use, and those beyond. -/
def levelsOf (r : BitVec 2048) : List Level := (List.range (headerOf r).nlev).map (levelAt r)
def waitsOf (r : BitVec 2048) : List WaitCond := (List.range (headerOf r).nwait).map (waitAt r)

/-- Whether a launch's table has a level spatial over dies (R20). -/
def overDies (r : BitVec 2048) : Bool := (levelsOf r).any (fun l => l.kind == 2)

/-- The dies that take part (R20, R34): the named ones in the full state. -/
def participants (s : State) (r : BitVec 2048) : List DieId :=
  allDies.filter (fun d => (headerOf r).dies.getLsbD d.toNat && dieFull s d)

/-! ## Validation (R239) -/

/-- Code 1: a reserved bit, a field outside its range, a wait entry beyond nwait, or more stash than a core holds. -/
def rangeBad (r : BitVec 2048) : Bool :=
  let h := headerOf r
  h.rsvd != 0 || 4 < h.nwait || h.nlev == 0 || 4 < h.nlev || !(h.vlenlog == 0 || (9 ≤ h.vlenlog && h.vlenlog ≤ 16)) || 32 < h.accs
    || 16 < h.stash || h.crews == 0 || 64 < h.crews || h.crew == 0 || 4 < h.crew || 16 < h.crew * h.stash
    || (levelsOf r).any (fun l => l.rsvd != 0 || (l.kind != 1 && l.block != 0))
    || (waitsOf r).any (fun w => w.rsvd != 0 || 5 < w.cmp || (!w.wide && 2 ^ 32 ≤ w.value))
    || ((List.range 4).drop h.nwait).any (fun i => (waitAt r i).raw != 0) || rfield r 1824 224 != 0

/-- Code 2: entry points, completion word, completion value and wait addresses. -/
def addressBad (r : BitVec 2048) : Bool :=
  let h := headerOf r
  let pcBad (w : Word) : Bool := w.extractLsb' 0 2 != 0 || w.extractLsb' 52 12 != 0
  pcBad h.pc0 || pcBad h.pc1 || h.cword.extractLsb' 0 3 != 0 || h.cval.getLsbD 63
    || (waitsOf r).any (fun w => w.addr.toNat % w.size != 0)

/-- Code 3. -/
def modeBad (r : BitVec 2048) : Bool :=
  let h := headerOf r
  (h.decoupled && overDies r) || (!h.decoupled && h.pc1 != 0)

/-- Code 4: the loop table. -/
def loopBad (r : BitVec 2048) : Bool :=
  let ls := levelsOf r
  let count (k : Nat) : Nat := (ls.filter (fun l => l.kind == k)).length
  ls.any (fun l => l.kind == 3 || (l.kind == 2 && l.count != 0) || (l.kind == 1 && l.block == 0)) || 1 < count 1 || 1 < count 2
    || ((List.range 4).drop (headerOf r).nlev).any (fun i => (levelAt r i).raw != 0)

/-- Code 5: the dies. -/
def diesBad (s : State) (r : BitVec 2048) : Bool :=
  let named := allDies.filter (fun d => (headerOf r).dies.getLsbD d.toNat)
  named.isEmpty || (1 < named.length && !overDies r) || (participants s r).isEmpty

/-- A core as it will be when the lane groups due for retirement have been retired. -/
def CoreRec.afterDrain (x : CoreRec) : CoreRec := { x with lgmask := x.lgmask ||| x.due }

/-- Whether an empty core could take a crew of the record, after the retirements that are due (R239, R339). -/
def coreCouldTake (s : State) (d : DieId) (r : BitVec 2048) (c : CoreId) : Bool :=
  let h := headerOf r
  h.crew ≤ workingGroups (coreRec s d c).afterDrain && h.crew * h.stash ≤ 16 && h.crew * h.accs ≤ 32

def allCores : List CoreId := (List.range 64).map (BitVec.ofNat 6)

/-- Code 6: no participating die has enough cores. -/
def capacityBad (s : State) (r : BitVec 2048) : Bool :=
  !(participants s r).any (fun d => (headerOf r).crews ≤ (allCores.filter (coreCouldTake s d r)).length)

/-- Whether the harts of a stopped crew may run again (R354): every image answered or owing no answer, and under the armature every
trapping hart of the launch answered. -/
def crewReady (s : State) (c : Crew) : Bool :=
  let mine (i : Image) : Bool := i.key.launch == c.launch && c.first ≤ i.key.rank && i.key.rank < c.first + c.size
  c.waiting && (dieRec s c.die).images.all (fun i => !mine i || i.answered)
    && !(boxes s).any (fun b => b.hart.key.launch == c.launch && b.hart.key.die == c.die && c.first ≤ b.hart.key.rank
        && b.hart.key.rank < c.first + c.size && (match b.hart.status with | .stopping _ => true | _ => false))
    && (!underArmature s c.launch || allDies.all (fun d => (dieRec s d).images.all (fun i => i.key.launch != c.launch || i.answered)))

/-- The stopped crews of a launch on a die that wait to be placed again. -/
def waitingCrews (s : State) (d : DieId) (l : Nat) : List Crew := s.sched.crews.filter (fun c => c.die == d && c.launch == l && crewReady s c)

/-- Crews of a launch placed on a die so far. -/
def placedOn (l : Launch) (d : DieId) : Nat := ((l.placed.find? (fun p => p.1 == d)).map (·.2)).getD 0

/-- Whether a launch has a crew to place on a die. -/
def toPlace (s : State) (q : Queued) : Bool :=
  match launchOf s q.launch with
  | none => false
  | some l => placedOn l q.die < (headerOf l.record).crews || !(waitingCrews s q.die q.launch).isEmpty

/-- Whether a launch stands in its priority queue on a die: it has a crew to place there (R338, R340). -/
def inQueue (s : State) (q : Queued) : Bool := !q.pooled && toPlace s q

/-- The launches in a die's wait pool, in one of its queues, and the ready ones that wait for that queue (R336, R337). -/
def poolCount (s : State) (d : DieId) : Nat := (s.sched.queued.filter (fun q => q.die == d && q.pooled)).length
def queueCount (s : State) (d : DieId) (level : Nat) : Nat := (s.sched.queued.filter (fun q => q.die == d && q.level == level && inQueue s q)).length
def readyCount (s : State) (d : DieId) (level : Nat) : Nat :=
  (s.sched.queued.filter (fun q => q.die == d && q.pooled && q.ready && q.level == level)).length

/-- Code 7: a pool or queue is full. -/
def queuesFull (s : State) (r : BitVec 2048) : Bool :=
  let h := headerOf r
  (participants s r).any (fun d =>
    if 0 < h.nwait then 1024 ≤ poolCount s d else 256 ≤ queueCount s d h.prio || 0 < readyCount s d h.prio)

/-- The first refusal code that a record gives, 0 for none (R239). -/
def refusalCode (s : State) (r : BitVec 2048) : Nat :=
  if rangeBad r then 1 else if addressBad r then 2 else if modeBad r then 3 else if loopBad r then 4 else if diesBad s r then 5
  else if capacityBad s r then 6 else if queuesFull s r then 7 else 0

/-- A launch accepted (R239, R336, R341): its copy of the record, and a place on each participating die. -/
def acceptLaunch (s : State) (tenant : Nat) (addr : Word) (r : BitVec 2048) (by' : Issuer) : State :=
  let h := headerOf r
  let c := s.sched
  let dies := participants s r
  let l : Launch :=
    { id := c.nextLaunch, tenant := tenant, addr := addr, record := r, issuer := by', dies := dies
      seq := if overDies r then some c.nextSeq else none, placed := [], retired := [], failed := none, started := false, outcomes := []
      text := [], sent := [], credits := [], branches := [], told := [], arrived := [], passed := [], joining := [] }
  let qs := dies.map (fun d => { die := d, launch := c.nextLaunch, level := h.prio, pooled := decide (0 < h.nwait), ready := false, entry := c.nextEntry, target := none : Queued })
  { s with sched := { c with
      launches := c.launches ++ [l], queued := c.queued ++ qs, nextLaunch := c.nextLaunch + 1, nextEntry := c.nextEntry + 1
      nextSeq := c.nextSeq + 1 } }

end Sys2Proof.Machine
end

