-- ==== Sys2Proof/Machine/Sync.lean ====
section
/-! DEFINITION. Fences, barriers, the iteration ring, contention and `dsync` (R223 to R236). -/

namespace Sys2Proof.Machine

/-- A fence orders the hart's accesses at its scope (R223): in a machine that performs accesses one after another, nothing remains to wait
for. -/
def execFence (c : BitVec 3) (s : State) : Result := accessOnly (.fence c) s (.next (advance s))

/-! ## Barriers (R225 to R227) -/

/-- Harts per crew and per die of a launch. -/
def crewSize (s : State) (l : Nat) : Nat := ((launchOf s l).map (fun x => (headerOf x.record).crew)).getD 1
def hartsPerDie (x : Launch) : Nat := (headerOf x.record).crew * (headerOf x.record).crews

/-- The barrier that a hart names by scope and id. -/
def barrierKey (s : State) (id : BitVec 4) (c : BitVec 3) : BarrierKey :=
  let k := s.hart.key
  { launch := k.launch, scope := c, die := if c == 3 then 0 else k.die.toNat
    crew := if c == 1 then k.rank / crewSize s k.launch * crewSize s k.launch else 0, id := id }

/-- Whether a hart of the launch is a member of the barrier (R225). -/
def isMember (s : State) (b : BarrierKey) (h : HartKey) : Bool :=
  h.launch == b.launch && (b.scope == 3 || h.die.toNat == b.die)
    && (b.scope != 1 || (b.crew ≤ h.rank && h.rank < b.crew + crewSize s b.launch))

/-- How many members a barrier has, retired ones included. DESIGN CHOICE (log entry 125): the barrier of a hart of no launch, the supervisor hart, has that hart
as its one member. -/
def memberCount (s : State) (b : BarrierKey) : Nat :=
  match launchOf s b.launch with
  | none => 1
  | some x => if b.scope == 1 then (headerOf x.record).crew else if b.scope == 2 then hartsPerDie x else hartsPerDie x * x.dies.length

def retiredOf (s : State) (l : Nat) : List HartKey := ((launchOf s l).map (·.retired)).getD []

/-- The completed-phase count P. -/
def phaseOf (s : State) (b : BarrierKey) : Nat := ((s.sched.barriers.find? (fun x => x.key == b)).map (·.phase)).getD 0

/-- A member's arrival count and outstanding flag. -/
def arrivalOf (s : State) (b : BarrierKey) (h : HartKey) : Arrival :=
  (s.sched.arrivals.find? (fun a => a.key == b && a.hart == h)).getD ⟨b, h, 0, false⟩

def setArrival (s : State) (a : Arrival) : State :=
  { s with sched := { s.sched with arrivals := s.sched.arrivals.filter (fun x => !(x.key == a.key && x.hart == a.hart)) ++ [a] } }

/-- Whether every member that has not retired has arrived for phase P + 1 (R226). -/
def phaseDone (s : State) (b : BarrierKey) : Bool :=
  let gone := (retiredOf s b.launch).filter (isMember s b)
  let here := s.sched.arrivals.filter (fun a => a.key == b && !gone.contains a.hart && phaseOf s b < a.count)
  memberCount s b ≤ gone.length + here.length
    && (0 < here.length || s.sched.arrivals.any (fun a => a.key == b && phaseOf s b < a.count))

/-- The next phase completes where it can. -/
def completePhase (s : State) (b : BarrierKey) : State :=
  if phaseDone s b then
    { s with sched := { s.sched with
        barriers := s.sched.barriers.filter (fun x => x.key != b) ++ [⟨b, phaseOf s b + 1⟩] } }
  else s

/-- A package-scope barrier exists only under the armature (R227). -/
def barrierOk (s : State) (c : BitVec 3) : Bool := c != 3 || underArmature s s.hart.key.launch

/-- An acquire where its scope is the die's or wider (R256, R260). -/
def acquireAt (wide : Bool) (s : State) : State := if wide then acquire s else s

/-- A rendezvous where there is one, then `go`. -/
def meeting (needed : Bool) (s : State) (go : State → Result) : Result :=
  if needed then
    match meet s with
    | (s', true) => go s'
    | (s', false) => .next (stallOn s' .rendezvous)
  else go s

def execBarArrive (id : BitVec 4) (c : BitVec 3) (s : State) : Result :=
  accessOnly (.barArrive id c) s <|
    let b := barrierKey s id c
    let a := arrivalOf s b s.hart.key
    if !barrierOk s c || a.outstanding then .next (illegal (.barArrive id c) s)
    else meeting (c == 3) s fun s =>
      .next (advance { setArrival s { a with count := a.count + 1, outstanding := true } with
        inputs := s.inputs ++ [Instr.barrierPhaseCompletion b] })

def execBarWait (id : BitVec 4) (c : BitVec 3) (s : State) : Result :=
  accessOnly (.barWait id c) s <|
    let b := barrierKey s id c
    let a := arrivalOf s b s.hart.key
    if !barrierOk s c || !a.outstanding then .next (illegal (.barWait id c) s)
    else if phaseOf s b < a.count then .next (stallOn s (.barrier b a.count))
    else meeting (c == 3) s fun s => .next (advance (acquireAt (1 < c.toNat) (setArrival s { a with outstanding := false })))

/-! ## The iteration ring (R228 to R230) -/

/-- The channel a hart names: one its launch has claimed on its die. -/
def channelOf (s : State) (c : BitVec 5) : Option Channel :=
  s.sched.channels.find? (fun x => x.die == s.hart.key.die && x.launch == s.hart.key.launch && x.num == c)

def setChannel (s : State) (x : Channel) : State :=
  { s with sched := { s.sched with
      channels := s.sched.channels.map (fun y => if y.die == x.die && y.launch == x.launch && y.num == x.num then x else y) } }

/-- The frontier advanced over the recorded iterations that continue the run. -/
def advanceFront (fuel : Nat) (f : Int) (posted : List Int) : Int × List Int :=
  match fuel with
  | 0 => (f, posted)
  | n + 1 => if posted.contains (f + 1) then advanceFront n (f + 1) (posted.filter (· != f + 1)) else (f, posted)

/-- The channel after a post of an iteration within its window (R229). -/
def postTo (x : Channel) (n : Int) : Channel :=
  if n ≤ x.front then x
  else
    let p := if x.posted.contains n then x.posted else n :: x.posted
    let (f, r) := advanceFront p.length x.front p
    { x with front := f, posted := r }

def execIpost (a : XReg) (c : BitVec 5) (s : State) : Result :=
  accessOnly (.ipost a c) s <|
    let n := (getX s a).toInt
    match channelOf s c with
    | none => .next (illegal (.ipost a c) s)
    | some x => if x.front + 64 < n then .next (stallOn s (.ipost c n)) else .next (advance (setChannel s (postTo x n)))

def execIwait (a : XReg) (c : BitVec 5) (s : State) : Result :=
  accessOnly (.iwait a c) s <|
    let n := (getX s a).toInt
    match channelOf s c with
    | none => .next (illegal (.iwait a c) s)
    | some x => if x.front < n then .next (stallOn s (.iwait c n)) else .next (advance (acquire s))

/-! ## Contention (R231 to R234) -/

/-- The 43-bit word a contender drives: the key, then 7 − die, core and slot (R233). -/
def drivenWord (key : BitVec 32) (h : HartId) : BitVec 43 := key ++ (7 - dieOf h) ++ coreOf h ++ slotOf h

def setLatch (s : State) (w : Word) (valid : Bool) : State := { s with hart := { s.hart with latch := w, latchValid := valid } }

/-- The focused hart as a contender in a slot. -/
def contenderOf (s : State) (slot : BitVec 4) (w : Word) : Contender :=
  { slot := slot, tag := w.extractLsb' 32 12, word := drivenWord (w.extractLsb' 0 32) s.hart.id, hart := s.hart.key }

/-- Registers a contender, once. -/
def register (s : State) (c : Contender) : State :=
  if s.sched.contenders.contains c then s else { s with sched := { s.sched with contenders := s.sched.contenders ++ [c] } }

/-- A contender of a launch under the armature, which registers with the others when all have reached its issue unit (R317). -/
def joinLater (s : State) (c : Contender) : State :=
  { s with sched := { s.sched with
      launches := s.sched.launches.map (fun l => if l.id == c.hart.launch then { l with joining := c :: l.joining.filter (·.hart != c.hart) } else l) } }

def execContend (d a : XReg) (slot : BitVec 4) (s : State) : Result :=
  accessOnly (.contend d a slot) s <|
    if (getX s a).extractLsb' 44 20 ≠ 0 then .next (illegal (.contend d a slot) s)
    else if s.hart.latchValid then .next (advance (setX (setLatch (acquire s) s.hart.latch false) d s.hart.latch))
    else if !underArmature s s.hart.key.launch then .next (stallOn (register s (contenderOf s slot (getX s a))) (.contend slot))
    else
      match meet s with
      | (s', true) => .next (stallOn (register s' (contenderOf s slot (getX s a))) (.contend slot))
      | (s', false) => .next (stallOn (joinLater s' (contenderOf s slot (getX s a))) .rendezvous)

/-! ## `dsync` (R235) -/

def execDsync (s : State) : Result :=
  accessOnly .dsync s <|
    if !underArmature s s.hart.key.launch then .next (illegal .dsync s)
    else meeting true s fun s => .next (advance (acquire s))

end Sys2Proof.Machine
end

