-- ==== Sys2Proof/Machine/ScalarFloat.lean ====
section
/-! DEFINITION. Scalar floating point (R101, R102): the operand is the low bits of its register, the result is rounded once to
nearest-even with no saturation, and the bits above its width are cleared. -/

namespace Sys2Proof.Machine

/-- The value of bits w-1:0 of a register in a format. -/
def floatVal (s : State) (r : XReg) (x : BitVec 5) : Val := readVal x.toNat false (getX s r).toNat

/-- An exact result rounded to nearest-even into a floating format. -/
def roundTo (x : BitVec 5) (e : Exact) : Word := BitVec.ofNat 64 (convert x.toNat 0 false false e).bits

/-- Bits 63:0 of an integer result by its code: sign-extended for a signed one (R102). -/
def extendInt (c b : Nat) : Word := if isSignedFmt c then BitVec.ofInt 64 (signedOf (fmtWidth c) b) else BitVec.ofNat 64 b

/-- `fcvt` on a value (R102): into an integer format toward zero and saturating, else to nearest-even. -/
def convertScalar (x : BitVec 5) (v : Val) : Word :=
  if isIntFmt x.toNat then extendInt x.toNat (convert x.toNat 1 true false (.val v)).bits
  else BitVec.ofNat 64 (convert x.toNat 0 false false (.val v)).bits

def execFadd (d a b : XReg) (x : BitVec 5) (s : State) : Result :=
  ifLegal (.fadd d a b x) s (retire d (roundTo x (.val (addV 0 (floatVal s a x) (floatVal s b x)))) s)
def execFsub (d a b : XReg) (x : BitVec 5) (s : State) : Result :=
  ifLegal (.fsub d a b x) s (retire d (roundTo x (.val (subV 0 (floatVal s a x) (floatVal s b x)))) s)
def execFmul (d a b : XReg) (x : BitVec 5) (s : State) : Result :=
  ifLegal (.fmul d a b x) s (retire d (roundTo x (.val (mulV (floatVal s a x) (floatVal s b x)))) s)
def execFdiv (d a b : XReg) (x : BitVec 5) (s : State) : Result :=
  ifLegal (.fdiv d a b x) s (retire d (roundTo x (divV (floatVal s a x) (floatVal s b x))) s)
def execFsqrt (d a : XReg) (x : BitVec 5) (s : State) : Result :=
  ifLegal (.fsqrt d a x) s (retire d (roundTo x (sqrtV (floatVal s a x))) s)
/-- a × b + x[d], rounded once. -/
def execFma (d a b : XReg) (x : BitVec 5) (s : State) : Result :=
  ifLegal (.fma d a b x) s (retire d (roundTo x (.val (addV 0 (mulV (floatVal s a x) (floatVal s b x)) (floatVal s d x)))) s)
def execFmin (d a b : XReg) (x : BitVec 5) (s : State) : Result :=
  ifLegal (.fmin d a b x) s (retire d (roundTo x (.val (minV (floatVal s a x) (floatVal s b x)))) s)
def execFmax (d a b : XReg) (x : BitVec 5) (s : State) : Result :=
  ifLegal (.fmax d a b x) s (retire d (roundTo x (.val (maxV (floatVal s a x) (floatVal s b x)))) s)
/-- The value of x[a] in the source code, converted to the destination code (R102). -/
def execFcvt (d a : XReg) (c x : BitVec 5) (s : State) : Result :=
  ifLegal (.fcvt d a c x) s (retire d (convertScalar x (floatVal s a c)) s)
def execFcmpEq (d a b : XReg) (x : BitVec 5) (s : State) : Result :=
  ifLegal (.fcmpEq d a b x) s (retire d (ofBool (compareHolds 0 (cmpV (floatVal s a x) (floatVal s b x)))) s)
def execFcmpLt (d a b : XReg) (x : BitVec 5) (s : State) : Result :=
  ifLegal (.fcmpLt d a b x) s (retire d (ofBool (compareHolds 2 (cmpV (floatVal s a x) (floatVal s b x)))) s)
def execFcmpLe (d a b : XReg) (x : BitVec 5) (s : State) : Result :=
  ifLegal (.fcmpLe d a b x) s (retire d (ofBool (compareHolds 3 (cmpV (floatVal s a x) (floatVal s b x)))) s)
/-- Bits w-1:0 unchanged; no NaN is made canonical. -/
def execFmv (d a : XReg) (x : BitVec 5) (s : State) : Result :=
  ifLegal (.fmv d a x) s (retire d (BitVec.ofNat 64 ((getX s a).toNat % 2 ^ fmtWidth x.toNat)) s)

end Sys2Proof.Machine
end

