-- ==== Sys2Proof/Machine/VecPermute.lean ====
section
/-! DEFINITION. VX permute (R136 to R140), row by row in Mygar registers (R281). -/

namespace Sys2Proof.Machine

/-- The run of an instruction whose result for element e of a row is given by the row and the element's place in it. -/
def rowwise (i : Instr) (d : VOpd) (act : State → Slot → Nat → Bool) (f : State → Slot → List Nat → Nat → Nat → Nat) (k : Slot) (s : State) :
    SlotOut :=
  let v := (infoOf i).getD { unit := 0 }
  if (positions s).isEmpty then .done s
  else withQueues v k s fun s =>
    let outs := (rowsOf s).flatMap (fun r => (r.zipIdx.filter (fun p => act s k p.1)).map (fun p => (p.1, f s k r p.1 p.2)))
    .done (putAll (popQs s v.srcs) k d (ewBits s) outs)

/-- Active elements the slot completes now. -/
def isActive (g : Gov) (s : State) (k : Slot) (e : Nat) : Bool := govTest s g e && openAt s k e

/-- Element i of an operand at ew. -/
def atEw (s : State) (v : VOpd) (e : Nat) : Nat := elemOf (srcBits s v) (ewBits s) e

def execVmv (d a : VOpd) (g : Gov) (s : State) : Result :=
  vectorStep (.vmv d a g) (rowwise (.vmv d a g) d (isActive g) (fun s _ _ e _ => atEw s a e)) s

def execVbcast (d : VOpd) (x : XReg) (g : Gov) (s : State) : Result :=
  vectorStep (.vbcast d x g) (rowwise (.vbcast d x g) d (isActive g) (fun _ k _ _ _ => k.xsv.toNat)) s

/-- x[d] := element x[xs] of va, 0 beyond the register (R137). -/
def execVext (d : XReg) (a : VReg) (x : XReg) (s : State) : Result :=
  vectorStep (.vext d a x) (fun k s =>
    let i := k.xsv.toNat
    .done (slotX s k d (if i < s.hart.grant.vlen / ewBits s then BitVec.ofNat 64 (elemOf (getV s a) (ewBits s) i) else 0))) s

/-- Element imm of vd := the low bits of x[xs] (R137). -/
def execVins (d : VReg) (x : XReg) (i : BitVec 14) (s : State) : Result :=
  vectorStep (.vins d x i) (fun k s =>
    .done (if i.toNat < s.hart.grant.vlen / ewBits s then setV s d (setElem (getV s d) (ewBits s) i.toNat k.xsv.toNat) else s)) s

/-- Elements moved up by k places, the fill value below (R138). -/
def execVslideup (d a : VOpd) (x : XReg) (n : BitVec 14) (g : Gov) (s : State) : Result :=
  vectorStep (.vslideup d a x n g) (rowwise (.vslideup d a x n g) d (isActive g) (fun s k r _ j =>
    if n.toNat ≤ j then atEw s a (r.getD (j - n.toNat) 0) else k.xsv.toNat)) s

/-- Elements moved down by k places, the fill value at the end (R138). -/
def execVslidedn (d a : VOpd) (x : XReg) (n : BitVec 14) (g : Gov) (s : State) : Result :=
  vectorStep (.vslidedn d a x n g) (rowwise (.vslidedn d a x n g) d (isActive g) (fun s k r _ j =>
    match r[j + n.toNat]? with
    | some e => atEw s a e
    | none => k.xsv.toNat)) s

/-- Element vb[e] of va, 0 when the index lies at vl or beyond (R139). -/
def execVperm (d a : VOpd) (b : VReg) (g : Gov) (s : State) : Result :=
  vectorStep (.vperm d a b g) (rowwise (.vperm d a b g) d (isActive g) (fun s _ r e _ =>
    match r[elemOf (getV s b) (ewBits s) e]? with
    | some i => atEw s a i
    | none => 0)) s

/-- va where the mask test passes, vb where it fails (R140). -/
def execVmerge (d a b : VOpd) (g : Gov) (s : State) : Result :=
  vectorStep (.vmerge d a b g) (rowwise (.vmerge d a b g) d openAt (fun s _ _ e _ =>
    if govTest s g e then atEw s a e else atEw s b e)) s

/-- The number of lower elements whose mask test passes (R140). -/
def execViota (d : VOpd) (g : Gov) (s : State) : Result :=
  vectorStep (.viota d g) (rowwise (.viota d g) d openAt (fun s _ r _ j =>
    ((r.take j).filter (govTest s g)).length)) s

end Sys2Proof.Machine
end

