-- ==== Sys2Proof/Machine/VecIrregular.lean ====
section
/-! DEFINITION. VX irregular (R141 to R145): compress and expand, counts, scans and reductions. VX slots run whole (R33). -/

namespace Sys2Proof.Machine

/-- A VX instruction that gives (element, value) pairs at ew. -/
def pairsAtEw (i : Instr) (d : VOpd) (f : State → Slot → List (Nat × Nat)) (k : Slot) (s : State) : SlotOut :=
  let v := (infoOf i).getD { unit := 0 }
  if (positions s).isEmpty then .done s
  else withQueues v k s fun s => .done (putAll (popQs s v.srcs) k d (ewBits s) (f s k))

/-- The active elements moved to the front of their row (R141). -/
def execVcompress (d a : VOpd) (g : Gov) (s : State) : Result :=
  vectorStep (.vcompress d a g) (pairsAtEw (.vcompress d a g) d (fun s k =>
    (rowsOf s).flatMap (fun r => (r.zip (r.filter (isActive g s k))).map (fun p => (p.1, atEw s a p.2))))) s

/-- The first elements of a row spread over its active ones (R141). -/
def execVexpand (d a : VOpd) (g : Gov) (s : State) : Result :=
  vectorStep (.vexpand d a g) (pairsAtEw (.vexpand d a g) d (fun s k =>
    (rowsOf s).flatMap (fun r => ((r.filter (isActive g s k)).zip r).map (fun p => (p.1, atEw s a p.2))))) s

/-- The number of 1 bits of a mask up to and including e (R142). -/
def execVprefixpop (d : VOpd) (a : MReg) (g : Gov) (s : State) : Result :=
  vectorStep (.vprefixpop d a g) (rowwise (.vprefixpop d a g) d (isActive g) (fun s _ r _ j =>
    ((r.take (j + 1)).filter (fun e => (getM s a).getLsbD e)).length)) s

/-- The number of lower active elements with the same bits (R143). -/
def execVconflict (d a : VOpd) (g : Gov) (s : State) : Result :=
  vectorStep (.vconflict d a g) (rowwise (.vconflict d a g) d (isActive g) (fun s _ r e j =>
    ((r.take j).filter (fun x => govTest s g x && atEw s a x == atEw s a e)).length)) s

/-! ## Combinations -/

/-- The bitwise combination of two integers, read in two's complement. -/
def bitwiseInt (f : BitVec 128 → BitVec 128 → BitVec 128) (a b : Val) : Val :=
  Val.ofInt (f (BitVec.ofInt 128 (intOfVal a)) (BitVec.ofInt 128 (intOfVal b))).toInt

/-- combine(op, a, b) without a rounding: 0 add, 1 min, 2 max, 3 and, 4 or, 5 xor. -/
def combine (round : Nat) (op : Nat) (a b : Val) : Val :=
  match op with
  | 0 => addV round a b
  | 1 => minV a b
  | 2 => maxV a b
  | 3 => bitwiseInt (· &&& ·) a b
  | 4 => bitwiseInt (· ||| ·) a b
  | _ => bitwiseInt (· ^^^ ·) a b

/-- Whether a scan's running value is exact and converted once (R62, R144): integer operands, and every op but add. -/
def scanExact (f : FmtWord) (op : Nat) : Bool := op != 0 || isIntFmt f.a

/-- The same of a reduction (R62, R145), of which the initial value, in dfmt, is an operand too. -/
def combineExact (f : FmtWord) (op : Nat) : Bool := op != 0 || (isIntFmt f.a && isIntFmt f.d)

/-- One step of a strict floating or mixed sum: r + v, rounded into dfmt (R60, R144). -/
def sumStep (f : FmtWord) (r : Nat) (v : Val) : Conv :=
  f.convert (plainZero (anyFloat [f.a, f.d]) (addX f.round (readVal f.d f.flush r) v))

/-! ## Scans (R144) -/

/-- One segment's outputs: for the active elements in turn, the value of the sum or combination up to each. -/
def scanOuts (s : State) (f : FmtWord) (op : Nat) (free : Bool) (vs : List (Nat × Nat)) : List (Nat × Conv) :=
  let vals := vs.map (fun p => readVal f.a f.flush p.2)
  let upto := (List.range vs.length).map (fun j => (j, (vs.getD j (0, 0)).1))
  if scanExact f op then
    upto.map (fun (j, e) =>
      (e, match vals.take (j + 1) with
        | [] => ⟨0, false⟩
        | v :: r => f.convertOp op (plainZero (anyFloat [f.a]) (.val (r.foldl (combine f.round op) v)))))
  else if isLnsFmt f.a then
    upto.map (fun (j, e) => (e, ((vals.take (j + 1)).foldl ClassAcc.add ClassAcc.zero).finish f))
  else if free then
    upto.map (fun (j, e) =>
      (e, freeSum f ((vs.take (j + 1)).map (·.2)) (vals.take (j + 1)) s.hart.grant.vlen (lanesOf s)))
  else
    let run := vs.foldl (fun (acc : List (Nat × Conv) × Option Nat) p =>
      let v := readVal f.a f.flush p.2
      let c := match acc.2 with
        | none => f.convert (.val v)
        | some r => sumStep f r v
      (acc.1 ++ [(p.1, c)], some c.bits)) ([], none)
    run.1

/-- The segments of a row: a set bit of mc starts a new one, even at an inactive element. -/
def segments (starts : Nat → Bool) (r : List Nat) : List (List Nat) :=
  r.foldl (fun acc e =>
    if starts e || acc.isEmpty then acc ++ [[e]] else acc.dropLast ++ [(acc.getLast?.getD []) ++ [e]]) []

/-- A scan, strict or free. -/
def scan (i : Instr) (d a : VOpd) (c : MReg) (seg : Bool) (op : BitVec 3) (g : Gov) (fx : XReg) (free : Bool) (k : Slot) (s : State) : SlotOut :=
  let v := (infoOf i).getD { unit := 0 }
  if (positions s).isEmpty then .done s
  else withQueues v k s fun s =>
    let f := fmtOf s k fx
    let bits := srcBits s a
    let segs := (rowsOf s).flatMap (segments (fun e => seg && (getM s c).getLsbD e))
    let outs := segs.flatMap (fun r =>
      scanOuts s f op.toNat free ((r.filter (isActive g s k)).map (fun e => (e, elemOf bits (fmtWidth f.a) e))))
    let s1 := putAll (popQs s v.srcs) k d (fmtWidth f.d) (outs.map (fun p => (p.1, p.2.bits)))
    .done (setOverflow s1 f.ovmask ((outs.filter (fun p => p.2.out)).map (·.1)))

def execVscan (d a : VOpd) (c : MReg) (seg : Bool) (op : BitVec 3) (g : Gov) (f : XReg) (s : State) : Result :=
  vectorStep (.vscan d a c seg op g f) (scan (.vscan d a c seg op g f) d a c seg op g f false) s

def execVscanf (d a : VOpd) (c : MReg) (seg : Bool) (op : BitVec 3) (g : Gov) (f : XReg) (s : State) : Result :=
  vectorStep (.vscanf d a c seg op g f) (scan (.vscanf d a c seg op g f) d a c seg op g f true) s

/-! ## Reductions (R145) -/

/-- The result of a reduction of values, given as bits of the operand's format, with the initial value's bits. -/
def reduceBits (s : State) (f : FmtWord) (op : Nat) (free : Bool) (init : Nat) (es : List Nat) : Conv :=
  let i := readVal f.d f.flush init
  let vals := es.map (readVal f.a f.flush)
  let step (c : Conv) (v : Val) : Conv := let n := sumStep f c.bits v; ⟨n.bits, c.out || n.out⟩
  if combineExact f op then f.convertOp op (plainZero (anyFloat [f.a, f.d]) (.val (vals.foldl (combine f.round op) i)))
  else if isLnsFmt f.a then
    let c := (vals.foldl ClassAcc.add ClassAcc.zero).finish f
    let n := f.convert (.val (addV f.round (readVal f.d f.flush c.bits) i))
    ⟨n.bits, c.out || n.out⟩
  else if free then freeSum f (init % 2 ^ fmtWidth f.d :: es) (i :: vals) s.hart.grant.vlen (lanesOf s)
  else vals.foldl step ⟨init % 2 ^ fmtWidth f.d, false⟩

/-- A result in a scalar register (R101, R102): extended by an integer dfmt's code, else with bits 63:w cleared. -/
def scalarResult (c b : Nat) : Word := if isIntFmt c then extendInt c b else BitVec.ofNat 64 b

/-- A reduction, strict or free. -/
def reduce (i : Instr) (d : XReg) (a : VOpd) (op : BitVec 3) (g : Gov) (fx : XReg) (free : Bool) (k : Slot) (s : State) : SlotOut :=
  let v := (infoOf i).getD { unit := 0 }
  if (positions s).isEmpty then .done (slotX s k d k.xsv)
  else withQueues v k s fun s =>
    let f := fmtOf s k fx
    let es := (activeOf s k g).map (elemOf (srcBits s a) (fmtWidth f.a))
    let s1 := popQs s v.srcs
    if es.isEmpty then .done (slotX s1 k d k.xsv)
    else
      let c := reduceBits s f op.toNat free k.xsv.toNat es
      .done (setOverflow (slotX s1 k d (scalarResult f.d c.bits)) f.ovmask (if c.out then [0] else []))

def execVred (d : XReg) (a : VOpd) (x : XReg) (op : BitVec 3) (g : Gov) (f : XReg) (s : State) : Result :=
  vectorStep (.vred d a x op g f) (reduce (.vred d a x op g f) d a op g f false) s

def execVredf (d : XReg) (a : VOpd) (x : XReg) (op : BitVec 3) (g : Gov) (f : XReg) (s : State) : Result :=
  vectorStep (.vredf d a x op g f) (reduce (.vredf d a x op g f) d a op g f true) s

end Sys2Proof.Machine
end

