-- ==== Sys2Proof/Machine/VecAtomic.lean ====
section
/-! DEFINITION. Gather-linked and scatter-conditional, translation over a sequence block table, and `vwait` (R169 to R177). -/

namespace Sys2Proof.Machine

/-! ## Links -/

/-- The strand's link set. -/
def setLinks (s : State) (l : List Nat) : State := { s with strand := { s.strand with links := l } }

/-- The link set of a `vgl` replaced by the lines that it has read, together with those it has read before, where it has waited for a walk meanwhile and
no loss event has cleared them (R169, R360; log entry 127). -/
def linkLines (k : Slot) (s : State) (ds : List Done) : State :=
  setLinks s ((if k.ctr.toList.all (· == 0) then [] else s.strand.links) ++ linesOf (ds.flatMap (·.pas)))

def execVgl (d : VOpd) (x : XReg) (b : VReg) (z : BitVec 2) (g : Gov) (s : State) : Result :=
  vectorStep (.vgl d x b z g) (fun k s => loadElems (.vgl d x b z g) d g false true (fun s k => indexSite s k.xsv b) (linkLines k) k s) s

/-- Every active element checked before anything is stored (R170): the checked elements, or the trap of the lowest faulting one. -/
def checkAll (s : State) (site : Nat → Site) (a : Access) (strict : Bool) : List Nat → Except (Nat × Site × Fail) (List Done)
  | [] => .ok []
  | e :: es =>
    match checkSite s (site e) a strict with
    | .error f => .error (e, site e, f)
    | .ok (pas, l) =>
      match checkAll s site a strict es with
      | .error x => .error x
      | .ok ds => .ok (⟨e, site e, pas, l⟩ :: ds)

/-- The end of a conditional scatter: the bytes written to linked lines, the success bits, and an empty link set. -/
def scatterEnd (s : State) (d : MReg) (ds : List Done) (wrote : List Done) (m : Memory) (ok : List (Nat × Bool)) : State :=
  let _ := ds
  putMask (setLinks (setMem (touchDone s wrote true) m) []) d ok

/-- The run of `vsc` and `vscc` (R170, R171): whole, after every check. -/
def scatter (i : Instr) (b : VReg) (g : Gov) (f : State → Slot → List Done → State) (k : Slot) (s : State) : SlotOut :=
  let v := (infoOf i).getD { unit := 0 }
  if (positions s).isEmpty then .done s
  else withQueues v k s fun s =>
    match checkAll s (indexSite s k.xsv b) .write true (activeOf s k g) with
    | .error (e, t, x) =>
      if x.cls = 0 then .stall (.engine x.sub) else .trap (setLinks (failSite s x t) []) { failTrap s x t.tval with elem := e } k
    | .ok ds =>
      match engineIn s ds with
      | some l => .stall (.engine l)
      | none => .done (popQs (f s k ds) (v.srcs.filter (· != ofV b)))

/-- Whether a checked element's line is linked. -/
def linkedAt (s : State) (d : Done) : Bool := s.strand.links.contains (lineOf (d.pas.headD 0))

/-- Stores the elements whose line is linked and whose address no lower active element has (R170). -/
def execVsc (d : MReg) (a : VOpd) (x : XReg) (b : VReg) (z : BitVec 2) (g : Gov) (s : State) : Result :=
  vectorStep (.vsc d a x b z g) (scatter (.vsc d a x b z g) b g (fun s _ ds =>
    let first (c : Done) : Bool := (ds.find? (fun y => y.site.ea == c.site.ea)).map (·.e) == some c.e
    let ok (c : Done) : Bool := linkedAt s c && first c
    let wrote := ds.filter ok
    let m := wrote.foldl (fun m c => storedAt m c (elemOf (srcBits s a) (ewBits s) c.e)) s.mem
    scatterEnd s d ds wrote m (ds.map (fun c => (c.e, ok c))))) s

/-- The new value at one address, and whether it is out of range (R63, R171). -/
def combineAt (s : State) (f : FmtWord) (op : Nat) (free : Bool) (old : Nat) (cs : List Nat) : Conv :=
  let vals := cs.map (readVal f.a f.flush)
  let i := readVal f.d f.flush old
  let step (c : Conv) (v : Val) : Conv := let n := sumStep f c.bits v; ⟨n.bits, c.out || n.out⟩
  if isIntFmt f.d || op != 0 then f.convertOp op (.val (vals.foldl (combine f.round op) i))
  else if free then freeSum f (old :: cs) (i :: vals) s.hart.grant.vlen (lanesOf s) true
  else vals.foldl step ⟨old, false⟩

/-- Combines the elements of each linked address with its old value (R171). -/
def execVscc (d : MReg) (a : VOpd) (x : XReg) (b : VReg) (z : BitVec 2) (r : Bool) (op : BitVec 3) (g : Gov) (f : XReg) (s : State) : Result :=
  vectorStep (.vscc d a x b z r op g f) (scatter (.vscc d a x b z r op g f) b g (fun s k ds =>
    let w := fmtOf s k f
    let wrote := ds.filter (linkedAt s)
    let new (c : Done) : Conv :=
      combineAt s w op.toNat r (readPas s.mem c.pas)
        ((wrote.filter (fun y => y.site.ea == c.site.ea)).map (fun y => elemOf (srcBits s a) (fmtWidth w.a) y.e))
    let m := wrote.foldl (fun m c => writePas m (new c).bits c.pas) s.mem
    setOverflow (scatterEnd s d ds wrote m (ds.map (fun c => (c.e, linkedAt s c)))) w.ovmask
      ((wrote.filter (fun c => (new c).out)).map (·.e)))) s

/-! ## Sequence block tables (R173, R174) -/

/-- The header fields of a table. -/
structure Table where
  length : Nat
  blocks : Nat
  shift  : Nat
  stride : Nat
  /-- no reserved bit set, a shift of at most 16 and a stride that is not 0 -/
  ok     : Bool
  deriving DecidableEq, Repr, Inhabited

def Table.ofBits (h : BitVec 512) : Table :=
  let shift := dfield h 96 8
  let stride := dfield h 104 16
  { length := dfield h 0 64, blocks := dfield h 64 32, shift := shift, stride := stride
    ok := dfield h 120 392 == 0 && shift ≤ 16 && stride != 0 }

/-- The address of position i under a table whose entry for i's block is `entry`; none when it is out of range. `limit` is the length
that bounds i, if one does. -/
def Table.translate (t : Table) (limit : Option Nat) (i : Nat) (entry : Word) : Option Word :=
  if !t.ok || (match limit with | some n => n ≤ i | none => false) || t.blocks ≤ i / 2 ^ t.shift || entry == 0 then none
  else some (entry + BitVec.ofNat 64 (i % 2 ^ t.shift * t.stride))

/-- A load that a translation makes: why it fails, or what it delivers, page by page (R259). -/
def tableLoad (s : State) (p : Party) (tenant : Nat) (a : Word) (n : Nat) : Except (Fail × Word) Nat :=
  (checkRange s p tenant a n .read false).map (fun r => if p == me s then hartReadPages s (byPage s a r.1 r.2) else readPas s.mem r.1)

/-- The physical addresses of a load. -/
def tablePas (s : State) (p : Party) (tenant : Nat) (a : Word) (n : Nat) : List Nat :=
  match checkRange s p tenant a n .read false with
  | .error _ => []
  | .ok r => r.1

/-- R174 for one position: the loads it makes and its address, or its fault. An element's loads must lie on 8 bytes (R155). -/
def lookUp (s : State) (p : Party) (tenant : Nat) (table : Word) (i : Nat) (bounded : Bool) :
    Except (Fail × Word) (List Nat × Option Word) := do
  if bounded && table.toNat % 8 ≠ 0 then throw (⟨7, 0⟩, table)
  let h ← tableLoad s p tenant table 64
  let t := Table.ofBits (BitVec.ofNat 512 h)
  let pas := tablePas s p tenant table 64
  let entry : Word := table + 64 + BitVec.ofNat 64 (8 * (i / 2 ^ t.shift))
  if !t.ok || (bounded && t.length ≤ i) || t.blocks ≤ i / 2 ^ t.shift then return (pas, none)
  let e ← tableLoad s p tenant entry 8
  return (pas ++ tablePas s p tenant entry 8, t.translate (if bounded then some t.length else none) i (BitVec.ofNat 64 e))

/-- The line that a translation's walks must wait for (R360), at one position. -/
def lookWait (s : State) (k : Slot) (a : VReg) (e : Nat) : Option Nat :=
  match lookUp s (me s) s.hart.tenant k.xsv (elemOf (getV s a) 64 e) true with
  | .error (f, _) => if f.cls = 0 then some f.sub else none
  | .ok _ => none

/-- How the elements of a translation end, as a `Plan`: those that commit, each with its loads and result, the lowest faulting one, and the line that a
walk for one must wait for. -/
structure Lookups where
  ok    : List (Nat × List Nat × Option Word)
  fault : Option (Nat × Fail × Word)
  wait  : Option Nat
  deriving DecidableEq, Repr, Inhabited

/-- The elements of a translation lane group by lane group: a group stops at its first fault or wait. -/
def lookUps (s : State) (k : Slot) (a : VReg) (es : List Nat) : Lookups :=
  let n := lanesOf s
  let step (acc : Lookups × List Nat) (e : Nat) : Lookups × List Nat :=
    let g := groupOf n e
    if acc.2.contains g then acc
    else
      match lookUp s (me s) s.hart.tenant k.xsv (elemOf (getV s a) 64 e) true with
      | .ok (pas, r) => ({ acc.1 with ok := acc.1.ok ++ [(e, pas, r)] }, acc.2)
      | .error (f, va) =>
        if f.cls = 0 then ({ acc.1 with wait := acc.1.wait.or (some f.sub) }, g :: acc.2)
        else ({ acc.1 with fault := acc.1.fault.or (some (e, f, va)) }, g :: acc.2)
  (es.foldl step (⟨[], none, none⟩, [])).1

/-- The line that a translation waits for, an engine's (R190): of the table's header, or of what some positions read. -/
def tableHeld (s : State) (table : Word) (reads : List (List Nat)) : Option Nat :=
  ((tablePas s (me s) s.hart.tenant table 64 :: reads).flatMap linesOf).find? (engineLine s)

/-- One load of the focused hart's has taken place. -/
def tableRead (s : State) (a : Word) (n : Nat) : State :=
  match checkRange s (me s) s.hart.tenant a n .read false with
  | .error _ => s
  | .ok (pas, l) => touchPages (pagesReached s (me s) s.hart.tenant a n) (byPage s a pas l) false

/-- The loads of one position's translation have taken place. -/
def lookedUp (s : State) (table : Word) (i : Nat) : State :=
  match tableLoad s (me s) s.hart.tenant table 64 with
  | .error _ => s
  | .ok h =>
    let t := Table.ofBits (BitVec.ofNat 512 h)
    let s1 := tableRead s table 64
    if !t.ok || t.length ≤ i || t.blocks ≤ i / 2 ^ t.shift then s1 else tableRead s1 (table + 64 + BitVec.ofNat 64 (8 * (i / 2 ^ t.shift))) 8

/-- The elements `es` translated as their lookups say, their queue ready. -/
def translatePlan (d : VOpd) (a : VReg) (es : List Nat) (r : Lookups) (k : Slot) (s : State) : SlotOut :=
  match (if es.isEmpty then none else tableHeld s k.xsv (r.ok.map (·.2.1))) with
  | some l => .stall (.engine l)
  | none =>
    let left := es.filter (fun x => !r.ok.any (fun p => p.1 == x)) ++ beyond s k
    let s1 := r.ok.foldl (fun s p => lookedUp s k.xsv (elemOf (getV s a) 64 p.1)) s
    let (s2, k2) := putOut s1 k d 64 (r.ok.map (fun p => (p.1, (p.2.2.getD (BitVec.allOnes 64)).toNat))) left.isEmpty
    match r.wait, r.fault with
    | some l, _ => .wait s2 { k2 with ctr := countersFor s2 left } (.engine l)
    | none, none => endElems s left s2 k2
    | none, some (e, f, va) => .trap (failState s2 f va) { failTrap s2 f va with elem := e } { k2 with ctr := countersFor s2 left }

/-- The run of `vxlate` (R174). -/
def translateElems (i : Instr) (d : VOpd) (a : VReg) (g : Gov) (k : Slot) (s : State) : SlotOut :=
  let v := (infoOf i).getD { unit := 0 }
  if (positions s).isEmpty then .done s
  else withQueues v k s fun s => translatePlan d a (activeOf s k g) (lookUps s k a (activeOf s k g)) k s

def execVxlate (d : VOpd) (a : VReg) (x : XReg) (g : Gov) (s : State) : Result :=
  vectorStep (.vxlate d a x g) (translateElems (.vxlate d a x g) d a g) s

/-- The slot with the elements that its translation has found out of range kept, for its run again after a trap or a wait (log entry 112). -/
def noteOut (k : Slot) (ok : List (Nat × List Nat × Option Word)) : Slot :=
  { k with met := setBits k.met ((ok.filter (fun p => p.2.2.isNone)).map (fun p => (p.1, true))) }

/-- Trims at the first active element that is out of range or faults (R174): of the elements complete from before a trap, one that was found out of
range then. -/
def execVxlateff (d : VOpd) (a : VReg) (x : XReg) (g : Gov) (s : State) : Result :=
  vectorStep (.vxlateff d a x g) (fun k s =>
    let es := activeOf s k g
    let outcome (e : Nat) := lookUp s (me s) s.hart.tenant k.xsv (elemOf (getV s a) 64 e) true
    let stops (e : Nat) : Bool := match outcome e with | .ok (_, some _) => false | _ => true
    let faults (e : Nat) : Bool := (outcome e).toOption.isNone
    let stopsAt (e : Nat) : Bool := if passed s k e then k.met.getLsbD e else stops e
    match ((positions s).filter (govTest s g)).find? stopsAt with
    | none => translateElems (.vxlateff d a x g) d a g k s
    | some f =>
      let v := (infoOf (.vxlateff d a x g)).getD { unit := 0 }
      match (if passed s k f then none else lookWait s k a f) with
      | some l =>
        -- the elements before the one whose walk waits go on (R360)
        withQueues v k s (translatePlan d a es { lookUps s k a (es.filter (· < f)) with wait := some l } k)
      | none =>
      if !passed s k f && faults f && lowestActive s g == some f then
        (translateElems (.vxlateff d a x g) d a g k s).withSlot (fun k => noteOut k (lookUps s k a es).ok)
      else
        withQueues v k s fun s =>
          let now := es.filter (· ≤ f)
          let ok := (lookUps s k a (es.filter (· < f))).ok
          let last := if passed s k f then [] else match outcome f with | .ok (pas, _) => pas | .error _ => []
          match (if now.isEmpty then none else tableHeld s k.xsv (last :: ok.map (·.2.1))) with
          | some l => .stall (.engine l)
          | none =>
            let s1 := ok.foldl (fun s p => lookedUp s k.xsv (elemOf (getV s a) 64 p.1)) s
            let s2 := if passed s k f then s1 else match outcome f with
              | .error (x, va) => failState s1 x va
              | .ok _ => lookedUp s1 k.xsv (elemOf (getV s a) 64 f)
            .done (trimAt (putAll s2 k d 64 (ok.map (fun p => (p.1, (p.2.2.getD 0).toNat)))) f)) s

/-! ## `vwait` (R175 to R177) -/

/-- The elements of a `vwait` whose comparison holds at this reading. -/
def metNow (s : State) (b : VReg) (c : BitVec 3) (ds : List Done) : List Nat :=
  (ds.filter (fun d => waitHolds c.toNat (8 * d.site.n) (readPas s.mem d.pas) (elemOf (getV s b) 64 d.e))).map (·.e)

/-- Met elements latched in the slot, and those still unmet. -/
def unmetAfter (k : Slot) (ds : List Done) (now : List Nat) : List Nat :=
  (ds.filter (fun d => !k.met.getLsbD d.e && !now.contains d.e)).map (·.e)

/-- An element that a `vwait` has read; on a stream page it reads at the L2 (R176). -/
def waitedAt (s : State) (x : Done) : State :=
  (linesOf x.pas).foldl (fun s l => if x.leaf.stream then touchPast s proxyAgent l false else touch s l false false)
    (pagesReached s (me s) s.hart.tenant x.site.ea x.site.n)

/-- Elements that a `vwait` has read and that leave it waiting: behind a stream line that it has read at the L2 the core keeps no older copy (R250). -/
def polled (s : State) (ds : List Done) : State :=
  dropCopies s (dieOf s.hart.id) (coreOf s.hart.id) (fun l => ds.any (fun x => x.leaf.stream && (linesOf x.pas).contains l))

/-- The end of a `vwait`: 0 for met and 1 for unmet active elements. The reads that met elements are an acquire (R175). -/
def vwaitEnd (s : State) (d : MReg) (ds : List Done) (unmet : List Nat) : State :=
  let s1 := ds.foldl waitedAt s
  putMask (if unmet.length < ds.length then acquire s1 else s1) d (ds.map (fun x => (x.e, unmet.contains x.e)))

/-- One evaluation of a `vwait`: it completes when every active element is met or `expired` says that its timeout has expired, and otherwise
waits with what it has met. -/
def vwaitRun (d : MReg) (a b : VReg) (z : BitVec 2) (c : BitVec 3) (g : Gov) (expired : Bool) (k : Slot) (s : State) : SlotOut :=
  if (positions s).isEmpty then .done s
  else
    let n := 4 * 2 ^ z.toNat
    match checkAll s (fun e => plainSite (BitVec.ofNat 64 (elemOf (getV s a) 64 e)) n) .read false (activeOf s k g) with
    | .error (e, t, x) =>
      if x.cls = 0 then .wait s k .vwait else .trap (failSite s x t) { failTrap s x t.tval with elem := e } { k with met := 0 }
    | .ok ds =>
      -- a line that an engine owns is read when the engine has finished it (R190); a walk that waits for one makes its element wait too
      if (engineIn s ds).isSome then .wait s k .vwait
      else
      let now := metNow s b c ds
      let unmet := unmetAfter k ds now
      if unmet.isEmpty || expired then .done (vwaitEnd s d ds unmet)
      else .wait (polled s ds) { k with met := setBits k.met (now.map (fun e => (e, true))) } .vwait

def execVwait (d : MReg) (a b : VReg) (x : XReg) (z : BitVec 2) (c : BitVec 3) (g : Gov) (s : State) : Result :=
  vectorStep (.vwait d a b x z c g) (fun k s => vwaitRun d a b z c g (k.xsv == 0) k s) s

end Sys2Proof.Machine
end

