-- ==== Sys2Proof/Machine/Engines.lean ====
section
/-! DEFINITION. Copy engines and trimmers (R186 to R190): the lines a command owns, the copy and the trim themselves, and the completion. -/

namespace Sys2Proof.Machine

/-! ## Spans of lines (R190) -/

/-- The virtual addresses of the first byte of each line-sized piece of a span. -/
def piecesOf (a : Word) (len : Nat) : List Word :=
  if len == 0 then []
  else
    let lo := a.toNat % 128
    (List.range ((lo + len + 127) / 128)).map (fun i => if i == 0 then a else a + BitVec.ofNat 64 (128 * i - lo))

/-- What a unit's access of n bytes leaves, whatever becomes of it: its walks (R360), and the tiles that it reaches filled (R368). -/
def unitReach (s : State) (d : DieId) (tenant : Nat) (a : Word) (n : Nat) : State :=
  (piecesOf a n).foldl (fun s va =>
    let s := translated s (.unit d) tenant va
    match leafOf s (.unit d) tenant va with
    | .ok l => if frameOk s tenant (physOf l va) then fillTile s (tileOf (physOf l va)) else s
    | .error _ => s) s

/-- The physical lines a span has, as far as it is mapped. -/
def spanLines (s : State) (d : DieId) (tenant : Nat) (a : Word) (len : Nat) : List Nat :=
  (piecesOf a len).filterMap (fun va =>
    match checkPage s (.unit d) tenant va .write false with
    | .ok (pa, _) => some (lineOf pa)
    | .error _ => none)

/-- The rows of a copy: source and destination of each. -/
def copyRows (two : Bool) (d : BitVec 512) : List (Word × Word) :=
  (List.range (if two then dfield d 448 32 else 1)).map (fun (r : Nat) =>
    (BitVec.ofInt 64 ((dfield d 128 64 : Int) + (r : Int) * dsigned d 320 64), BitVec.ofInt 64 ((dfield d 192 64 : Int) + (r : Int) * dsigned d 384 64)))

/-- The destination lines of a copy. -/
def copyLines (s : State) (two : Bool) (die : DieId) (tenant : Nat) (d : BitVec 512) : List Nat :=
  (copyRows two d).flatMap (fun r => spanLines s die tenant r.2 (dfield d 256 64))

/-! ## Copying -/

/-- How a command fails: cause and address (R189). -/
abbrev Failure := Nat × Word

/-- The cause of a failing access: 1 translation, 2 access, 3 seal failure, 4 lost line. -/
def causeOf (f : Fail) : Nat := f.cls - 2

/-- One piece read whole, by a coherent agent's request for its lines, and written whole (R187, R262). -/
def copyPiece (s : State) (d : DieId) (tenant : Nat) (src dst : Word) (n : Nat) (a : BitVec 5) : Except Failure State :=
  match unitLoad s d tenant src n with
  | .error (f, a) => .error (causeOf f, a)
  | .ok v =>
    match unitStore (unitReads s d tenant src n a) d tenant dst n v a with
    | .error (f, a) => .error (causeOf f, a)
    | .ok s' => .ok s'

/-- The machine after some pieces, and whether the command has failed. -/
abbrev Progress := State × Option Failure

/-- A run of bytes copied piece by piece, by the lines of the destination; it stops at the first failure. -/
def copyRun (d : DieId) (tenant : Nat) (src dst : Word) (len : Nat) (agent : BitVec 5) (p : Progress) : Progress :=
  (piecesOf dst len).foldl (fun p a =>
    match p.2 with
    | some _ => p
    | none =>
      let off := (a - dst).toNat
      match copyPiece p.1 d tenant (src + BitVec.ofNat 64 off) a (min (128 - a.toNat % 128) (len - off)) agent with
      | .ok s => (s, none)
      | .error f => (p.1, some f)) p

/-- `cpy` and `cpy2d` (R187). -/
def copyAll (two : Bool) (d : DieId) (tenant : Nat) (desc : BitVec 512) (a : BitVec 5) (s : State) : Progress :=
  (copyRows two desc).foldl (fun p r => copyRun d tenant r.1 r.2 (dfield desc 256 64) a p) (s, none)

/-! ## Trimming (R188) -/

/-- A table's header as the trimmer reads it. -/
def readTable (s : State) (d : DieId) (tenant : Nat) (a : Word) : Except Failure Table :=
  match unitLoad s d tenant a 64 with
  | .error (f, va) => .error (causeOf f, va)
  | .ok v => .ok (Table.ofBits (BitVec.ofNat 512 v))

/-- A position's address by the trimmer; out of range is cause 5 at the retention byte. -/
def trimAddress (s : State) (d : DieId) (tenant : Nat) (tab : Word) (i : Nat) (bounded : Bool) (ret : Word) : Except Failure Word :=
  match readTable s d tenant tab with
  | .error f => .error f
  | .ok t =>
    if (bounded && t.length ≤ i) || t.blocks ≤ i / 2 ^ t.shift then .error (5, ret)
    else
      match unitLoad s d tenant (tab + 64 + BitVec.ofNat 64 (8 * (i / 2 ^ t.shift))) 8 with
      | .error (f, va) => .error (causeOf f, va)
      | .ok e =>
        match t.translate (if bounded then some t.length else none) i (BitVec.ofNat 64 e) with
        | some a => .ok a
        | none => .error (5, ret)

/-- A token read whole, then written. -/
def moveToken (s : State) (d : DieId) (tenant : Nat) (src dst : Word) (n : Nat) : Except Failure State :=
  copyPiece s d tenant src dst n trimAgent

/-- The reads that the trimmer has made for one address of a table: its header, and the entry of the position's block (R262). -/
def tableReads (s : State) (d : DieId) (tenant : Nat) (tab : Word) (i : Nat) : State :=
  match readTable s d tenant tab with
  | .error _ => s
  | .ok t =>
    let s1 := unitReads s d tenant tab 64 trimAgent
    if t.blocks ≤ i / 2 ^ t.shift then s1 else unitReads s1 d tenant (tab + 64 + BitVec.ofNat 64 (8 * (i / 2 ^ t.shift))) 8 trimAgent

/-- The loop over positions: from `i`, `fuel` positions, with k tokens kept. -/
def trimLoop (d : DieId) (tenant : Nat) (desc : BitVec 512) (stride : Nat) : Nat → Nat → Nat → State → (State × Nat × Option Failure)
  | 0, _, k, s => (s, k, none)
  | fuel + 1, i, k, s =>
    let ret : Word := BitVec.ofNat 64 (dfield desc 256 64) + BitVec.ofNat 64 i
    match unitLoad s d tenant ret 1 with
    | .error (f, a) => (s, k, some (causeOf f, a))
    | .ok b =>
      let s := unitReads s d tenant ret 1 trimAgent
      if b < dfield desc 384 8 then trimLoop d tenant desc stride fuel (i + 1) k s
      else
        match trimAddress s d tenant (BitVec.ofNat 64 (dfield desc 128 64)) i true ret with
        | .error f => (s, k, some f)
        | .ok src =>
          let s := tableReads s d tenant (BitVec.ofNat 64 (dfield desc 128 64)) i
          match trimAddress s d tenant (BitVec.ofNat 64 (dfield desc 192 64)) k false ret with
          | .error f => (s, k, some f)
          | .ok dst =>
            match moveToken (tableReads s d tenant (BitVec.ofNat 64 (dfield desc 192 64)) k) d tenant src dst stride with
            | .error f => (s, k, some f)
            | .ok s' => trimLoop d tenant desc stride fuel (i + 1) (k + 1) s'

/-- The checks of both tables, in the order of R188, and the common stride. -/
def trimTables (s : State) (d : DieId) (tenant : Nat) (desc : BitVec 512) : Except Failure Nat :=
  let stab : Word := BitVec.ofNat 64 (dfield desc 128 64)
  let dtab : Word := BitVec.ofNat 64 (dfield desc 192 64)
  match readTable s d tenant stab with
  | .error f => .error f
  | .ok a =>
    if !a.ok then .error (5, stab)
    else
      match readTable s d tenant dtab with
      | .error f => .error f
      | .ok b =>
        if !b.ok || a.stride != b.stride || a.shift != b.shift then .error (5, dtab) else .ok a.stride

/-- `trim`: the machine, the tokens kept and the failure. -/
def trimAll (d : DieId) (tenant : Nat) (desc : BitVec 512) (s : State) : State × Nat × Option Failure :=
  match trimTables s d tenant desc with
  | .error f => (s, 0, some f)
  | .ok stride =>
    match trimLoop d tenant desc stride (dfield desc 320 64) 0 0 s with
    | (s1, k, some f) => (s1, k, some f)
    | (s1, k, none) =>
      match unitStore s1 d tenant (BitVec.ofNat 64 (dfield desc 192 64)) 8 k trimAgent with
      | .error (f, a) => (s1, k, some (causeOf f, a))
      | .ok s2 => (s2, k, none)

/-- The destination lines of a trim that the engine owns: the pages of the destination table's blocks as they stand at issue, one token each,
and the table's header. -/
def trimLines (s : State) (d : DieId) (tenant : Nat) (desc : BitVec 512) : List Nat :=
  let dtab : Word := BitVec.ofNat 64 (dfield desc 192 64)
  match readTable s d tenant dtab with
  | .error _ => []
  | .ok t =>
    if !t.ok then []
    else
      let blocks := (List.range t.blocks).filterMap (fun j =>
        match unitLoad s d tenant (dtab + 64 + BitVec.ofNat 64 (8 * j)) 8 with
        | .ok e => if e = 0 then none else some (BitVec.ofNat 64 e)
        | .error _ => none)
      spanLines s d tenant dtab 8 ++ blocks.flatMap (fun a => spanLines s d tenant a (2 ^ t.shift * t.stride))

/-! ## Completion (R189) -/

/-- The completion word of a failure. -/
def failWord (cause : Nat) (a : Word) : Word := (1#1 ++ BitVec.ofNat 7 cause ++ 0#4 ++ a.extractLsb' 0 52)

/-- The store of a completion word; a store that faults is logged for the tenant's function (R189, R243, R328). -/
def putCompletion (s : State) (d : DieId) (tenant : Nat) (cword v : Word) (a : BitVec 5 := proxyAgent) : State :=
  match unitStore s d tenant cword 8 v.toNat a with
  | .ok s' => s'
  | .error _ => logError (unitReach s d tenant cword 1) tenant cword

/-- An image slot's hart in memory receives a pending interrupt (R113, R347 step 6): the first of the 16 entries that is not valid; beyond
them, or while the entries' lines wait, the device holds it. The access fills their tile (R368). The pending list lies at 0x900 + 528. -/
def pendToImage (s : State) (d : DieId) (i : Image) (u : UserInt) : State :=
  let base := ((dieRec s d).sup.simg.extractLsb' 20 32).toNat * 2 ^ 20 + i.slot * 2 ^ 20 + 0x900 + 528
  let s := if lineWaits s d (lineOf base) || lineWaits s d (lineOf (base + 127)) then s else fillTile s (tileOf base)
  let free (n : Nat) : Bool :=
    !lineWaits s d (lineOf (base + 8 * n)) && (linePoison s (base + 8 * n)).isNone && s.mem.readNat (base + 8 * n) 8 / 2 ^ 57 % 2 == 0
  match (List.range 16).find? free with
  | some n =>
    setMem (touchStoreAll s (lineOf (base + 8 * n))) (s.mem.writeNat (base + 8 * n) 8 (u.cword.toNat % 2 ^ 52 + 2 ^ 57 + u.code.toNat * 2 ^ 58))
  | none =>
    let x := dieRec s d
    setDie s d { x with images := x.images.map (fun y => if y.slot == i.slot then { y with later := y.later ++ [u] } else y) }

/-- A user interrupt becomes pending for its hart (R113), or in its image. -/
def pendInterrupt (s : State) (k : HartKey) (u : UserInt) : State :=
  match (boxes s).find? (fun b => b.hart.key == k && (match b.hart.status with | .stopped _ _ => false | _ => true)) with
  | some b => onHart s b.hart.id (fun b => { b with hart := { b.hart with pending := b.hart.pending ++ [u] } })
  | none =>
    match allDies.findSome? (fun d => ((dieRec s d).images.find? (fun i => i.key == k)).map (fun i => (d, i))) with
    | some (d, i) => pendToImage s d i u
    | none => s

/-- The command leaves the list, the queues of its lines are served (R377), and the interrupt it asks for is raised. -/
def retireCommand (s : State) (c : Command) : State :=
  let rest := s.sched.commands.filter (fun x => x.id != c.id)
  let s := { s with sched := { s.sched with commands := rest } }
  let s := c.lines.foldl (fun s l => withdrawClaim s l c.id) s
  if c.desc.getLsbD 480 then
    pendInterrupt s c.hart { access := c.access, code := c.desc.extractLsb' 488 6, cword := c.desc.extractLsb' 0 64 }
  else s

/-- The spans of addresses that a command reads or writes, as far as its tables say by now. -/
def commandSpans (s : State) (c : Command) : List (Word × Nat) :=
  let d := c.desc
  if c.kind == 3 then
    let table (tab : Word) : List (Word × Nat) :=
      match readTable s c.die c.tenant tab with
      | .error _ => [(tab, 64)]
      | .ok t =>
        let blocks := (List.range t.blocks).filterMap (fun j =>
          match unitLoad s c.die c.tenant (tab + 64 + BitVec.ofNat 64 (8 * j)) 8 with
          | .ok e => if e = 0 then none else some (BitVec.ofNat 64 e, 2 ^ t.shift * t.stride)
          | .error _ => none)
        [(tab, 64), (tab + 64, 8 * t.blocks)] ++ (if t.ok then blocks else [])
    [(BitVec.ofNat 64 (dfield d 256 64), dfield d 320 64)] ++ table (BitVec.ofNat 64 (dfield d 128 64)) ++ table (BitVec.ofNat 64 (dfield d 192 64))
  else (copyRows (c.kind == 1) d).flatMap (fun r => [(r.1, dfield d 256 64), (r.2, dfield d 256 64)])

/-- Whether a command's piece at some address of a span must wait: the walk for it (R360), the fill of its tile (R367), its engine's or the home's 65th
message (R380), or an earlier command that owns the line (R190). -/
def spanWaits (s : State) (c : Command) (p : Word × Nat) : Bool :=
  (piecesOf p.1 p.2).any (fun va =>
    match leafOf s (.unit c.die) c.tenant va with
    | .error n => 7 ≤ n
    | .ok l =>
      let pa := physOf l va
      fillWaits s (tileOf pa) || homeFull s (lineOf pa) || agentFull s c.die (engineAgent c) (lineOf pa)
        || s.sched.commands.any (fun x => x.id < c.id && x.lines.contains (lineOf pa)))

/-- Whether a line is another engine's. -/
def othersLine (s : State) (c : Command) (l : Nat) : Bool := match homeLine s l with | some (.G e) => e != c.id | _ => false

/-- Whether a command can do its work: no other engine owns one of its destination lines, which it has claimed (R190), and nothing that it reads or writes
must wait. -/
def dataReady (s : State) (c : Command) : Bool :=
  !c.lines.any (othersLine s c) && !s.coh.delayed.any (fun p => p.2 == .claim c.id) && !(commandSpans s c).any (spanWaits s c)

/-- Whether the store of a command's completion word must wait: another engine owns its line, or its walk, its fill or its message waits (R189, R190). -/
def wordWaits (s : State) (c : Command) : Bool :=
  let cword : Word := c.desc.extractLsb' 0 64
  spanWaits s c (cword, 1)
    || (match checkRange s (.unit c.die) c.tenant cword 8 .write false with | .ok (pas, _) => (linesOf pas).any (othersLine s c) | .error _ => false)

/-- Whether a command can complete, and whether it can go on: one that cannot store its completion word yet does its work. -/
def commandReady (s : State) (c : Command) : Bool := (c.word.isSome || dataReady s c) && !wordWaits s c
def commandDue (s : State) (c : Command) : Bool := if c.word.isSome then !wordWaits s c else dataReady s c

/-- The work of a command, whole, and the completion word that it gives. -/
def runWork (s : State) (c : Command) : State × Word :=
  if c.kind == 3 then
    match trimAll c.die c.tenant c.desc s with
    | (s1, k, none) => (s1, BitVec.ofNat 64 k)
    | (s1, _, some (cause, a)) => (unitReach s1 c.die c.tenant a 1, failWord cause a)
  else
    match copyAll (c.kind == 1) c.die c.tenant c.desc (engineAgent c) s with
    | (s1, none) => (s1, c.desc.extractLsb' 64 64)
    | (s1, some (cause, a)) => (unitReach s1 c.die c.tenant a 1, failWord cause a)

/-- The store of a command's completion word, with which it is complete. -/
def storeWord (s : State) (c : Command) (w : Word) : State := putCompletion s c.die c.tenant (c.desc.extractLsb' 0 64) w (engineAgent c)

/-- A command without its lines keeps the completion word that it has still to store. -/
def keepWord (s : State) (c : Command) (w : Word) (desc : BitVec 512) : State :=
  let s1 := { s with sched := { s.sched with
    commands := s.sched.commands.map (fun x => if x.id == c.id then { c with word := some w, lines := [], desc := desc } else x) } }
  c.lines.foldl (fun s l => withdrawClaim s l c.id) s1

/-- A command that is due goes on: it does its work, whose lines are then free, and completes with its word once that can be stored. -/
def completeCommand (s : State) (c : Command) : State :=
  match c.word with
  | some w => retireCommand (storeWord s c w) c
  | none =>
    let (s1, w) := runWork s c
    if wordWaits s c then keepWord s1 c w c.desc else retireCommand (storeWord s1 c w) c

end Sys2Proof.Machine
end

