-- ==== Sys2Proof/Machine/VecCommand.lean ====
section
/-! DEFINITION. The stash, stream and engine command instructions (R178 to R192). -/

namespace Sys2Proof.Machine

/-! ## The stash (R178 to R180) -/

/-- The addresses of consecutive 4 KiB units. -/
def unitAddrs (a : Word) (n : Nat) : List Word := (List.range n).map (fun i => a + BitVec.ofNat 64 (4096 * i))

/-- The first unit that may not be mapped, with its fault. -/
def badUnit (s : State) : List Word → Option (Word × Fail)
  | [] => none
  | a :: r =>
    match checkPage s (me s) s.hart.tenant a .read true with
    | .error f => some (a, f)
    | .ok _ => badUnit s r

def setStash (s : State) (l : List StashUnit) : State := { s with hart := { s.hart with stashMap := l } }

/-- A unit as it is mapped: with what its address translates to now. -/
def mapUnit (s : State) (unit base : Nat) : StashUnit :=
  match checkPage s (me s) s.hart.tenant (BitVec.ofNat 64 (4096 * base)) .read false with
  | .ok (pa, l) => ⟨unit, base, some pa, l.large⟩
  | .error _ => ⟨unit, base, none, false⟩

/-- Maps units to the stash (R178). -/
def execSmap (x b : XReg) (n : BitVec 14) (s : State) : Result :=
  vectorStep (.smap x b n) (fun k s =>
    match badUnit s (unitAddrs k.xsv n.toNat) with
    | some (a, f) => if f.cls = 0 then .stall (.engine f.sub) else .trap (failState s f a) (failTrap s f a) k
    | none =>
      let s1 := (unitAddrs k.xsv n.toNat).foldl (fun s a => translated s (me s) s.hart.tenant a) s
      .done (setStash s1 (s.hart.stashMap ++ (List.range n.toNat).map (fun i => mapUnit s (k.xbv.toNat / 4096 + i) (k.xsv.toNat / 4096 + i))))) s

/-- The lines of a mapped unit that the hart's stash holds, whatever its address translates to by now (R179). -/
def unitLines (s : State) (u : StashUnit) : List Nat :=
  match u.pa with
  | some pa => ((List.range 32).map (fun i => lineOf pa + i)).filter (fun l => stashOf s (dieOf s.hart.id) (coreOf s.hart.id) l == some s.hart.id)
  | none => []

/-- A dirty line written back, its contents kept. -/
def writeBack (s : State) (l : Nat) : State :=
  let d := dieOf s.hart.id
  let c := coreOf s.hart.id
  if l1State s d c l == some .M then markDirty (setL1 s d c l (some .E)) l else s

/-- The mapped units in a range. -/
def unitsIn (s : State) (a : Word) (n : Nat) : List StashUnit :=
  s.hart.stashMap.filter (fun u => a.toNat / 4096 ≤ u.base && u.base < a.toNat / 4096 + n)

/-- Writes back the dirty lines of the mapped units in a range (R180). -/
def execSflush (x : XReg) (n : BitVec 14) (s : State) : Result :=
  vectorStep (.sflush x n) (fun k s =>
    .done (((unitsIn s k.xsv n.toNat).flatMap (unitLines s)).foldl writeBack s)) s

/-- Writes the units back and unmaps them. -/
def unmapUnits (s : State) (us : List StashUnit) : State :=
  let s1 := (us.flatMap (unitLines s)).foldl (fun s l => corePut s (dieOf s.hart.id) (coreOf s.hart.id) l) s
  setStash s1 (s1.hart.stashMap.filter (fun u => !us.contains u))

/-- Unmaps the mapped units in a range (R180). -/
def execSunmap (x : XReg) (n : BitVec 14) (s : State) : Result :=
  vectorStep (.sunmap x n) (fun k s => .done (unmapUnits s (unitsIn s k.xsv n.toNat))) s

/-! ## Streams -/

/-- Binds a queue to a stream (R182); at length 0 it ends at once. -/
def execStrm (q : VOpd) (x : XReg) (n : BitVec 3) (s : State) : Result :=
  vectorStep (.strm q x n) (fun k s =>
    if s.strand.vl == 0 then .done s
    else
      let t : Stream := { num := n, queue := q, spec := k.desc, entry := 0, left := [], vl := s.strand.vl.toNat, fault := none }
      .done (setStreams s (s.hart.streams ++ [t]))) s

/-- Ends a stream, once an entry that it has begun is whole; an inactive number does nothing (R184). -/
def execStrmend (n : BitVec 3) (s : State) : Result :=
  vectorStep (.strmend n) (fun _ s =>
    if ((streamOf s n).map Stream.settled).getD true then .done (endStream s n) else .stall (.stream n)) s

/-! ## Engine commands -/

/-- Incomplete commands of the focused hart. -/
def myCommands (s : State) : List Command := s.sched.commands.filter (fun c => c.hart == s.hart.key)

/-- Issues a command: the engine owns its destination lines from now on (R190), and completes it as a step of the device. The 33rd
incomplete command of a hart waits (R186). -/
def issueCommand (kind : Nat) (lines : State → DieId → Nat → BitVec 512 → List Nat) (k : Slot) (s : State) : SlotOut :=
  if 32 ≤ (myCommands s).length then .stall .commands
  else
    let id := s.sched.nextCommand
    let ls := (lines s (myDie s) s.hart.tenant k.desc).eraseDups
    let c : Command := { id := id, hart := s.hart.key, access := s.role == .access, kind := kind, desc := k.desc, tenant := s.hart.tenant
                         die := myDie s, lines := ls, word := none }
    let s1 := { s with sched := { s.sched with commands := s.sched.commands ++ [c], nextCommand := id + 1 } }
    let s2 := ls.foldl (fun s l => claimLine s l id) s1
    .done { s2 with inputs := s2.inputs ++ [Instr.commandCompletion id] }

def execCpy (x : XReg) (s : State) : Result :=
  vectorStep (.cpy x) (issueCommand 0 (fun s d t c => copyLines s false d t c)) s

def execCpy2d (x : XReg) (s : State) : Result :=
  vectorStep (.cpy2d x) (issueCommand 1 (fun s d t c => copyLines s true d t c)) s

def execTrim (x : XReg) (s : State) : Result := vectorStep (.trim x) (issueCommand 3 trimLines) s

/-- Waits for the hart's commands that name a completion word, then loads the word, an acquire (R191): no older copy of its line is read (R258). -/
def execCpywait (d x : XReg) (s : State) : Result :=
  vectorStep (.cpywait d x) (fun k s =>
    if (myCommands s).any (fun c => c.desc.extractLsb' 0 64 == k.xsv) then .stall (.cpywait k.xsv)
    else
      match checkAligned s (me s) s.hart.tenant k.xsv 8 .read false with
      | .error f => if f.cls = 0 then .stall (.engine f.sub) else .trap (failState s f k.xsv) (failTrap s f k.xsv) k
      | .ok (pa, l) =>
        if engineLine s (lineOf pa) then .stall (.engine (lineOf pa))
        else .done (acquire (slotX (touchAll (acquire (translated s (me s) s.hart.tenant k.xsv)) [pa] false l.stream) k d
          (BitVec.ofNat 64 (s.mem.readNat pa 8))))) s

/-- Whether the focused hart's core has a line, as a copy of a line of a stream page or as a tracked line. -/
def inCore (s : State) (l : Nat) (stream : Bool) : Bool :=
  if stream then (copyIn s l).isSome else coreHas s (dieOf s.hart.id) (coreOf s.hart.id) l false

/-- A line that is asked for; behind an engine that owns it the request waits at the home, for a stream line too (R192, R377), and it is delayed while its tile's
fill waits or a proxy or a home may send no more (R367, R380). -/
def wantedLine (s : State) (l : Nat) (stream : Bool) : State :=
  let d := dieOf s.hart.id
  let c := coreOf s.hart.id
  if inCore s l stream then (if stream then s else touchTracked s l false)
  else if homeWaits s l || proxyFull s d l then delay s l (.ask ⟨if lineHome l == d then .core c else .die d, false, some c, none, stream⟩)
  else if grantable s l then touch s l false stream
  else if stream then (if lineHeld s l then waitAtHome s d c l false true else s)
  else notGranted s d c l false

/-- The lines of an element that are asked for. -/
def wantedAt (s : State) (x : Done) : State :=
  (linesOf x.pas).foldl (fun s l => wantedLine s l (lineStream s x l)) (pagesReached s (me s) s.hart.tenant x.site.ea x.site.n)

/-- An element of a `vpf`: its line asked for, or, where it would fault, dropped with the fill of its tile done (R264, R368). -/
def wanted (k : Slot) (b : VReg) (s : State) (e : Nat) : State :=
  let t := indexSite s k.xsv b e
  match checkSite s t .read false with
  | .ok (pas, l) => wantedAt s ⟨e, t, pas, l⟩
  | .error f => failSite s f t

/-- Brings lines into the L1 (R192): no value, link or trap; an element that would fault is dropped. The elements whose walks wait (R360) are left for later. -/
def execVpf (x : XReg) (b : VReg) (g : Gov) (s : State) : Result :=
  vectorStep (.vpf x b g) (fun k s =>
    let line (e : Nat) : Option Nat := siteWait s (indexSite s k.xsv b e) .read false
    let es := activeOf s k g
    let s1 := (es.filter (fun e => (line e).isNone)).foldl (wanted k b) s
    match es.findSome? line with
    | some l => .wait s1 { k with ctr := countersFor s (es.filter (fun e => (line e).isSome) ++ beyond s k) } (.engine l)
    | none => .done s1) s

end Sys2Proof.Machine
end

