-- ==== Sys2Proof/Machine/LaunchInstr.lean ====
section
/-! DEFINITION. `launch`, `lwait` and `hexit` (R239, R240, R244, R245). -/

namespace Sys2Proof.Machine

/-- The incomplete launches that the focused hart issued. -/
def myLaunches (s : State) : List Launch := s.sched.launches.filter (fun l => l.issuer == .hart s.hart.key)

def execLaunch (d a : XReg) (s : State) : Result :=
  accessOnly (.launch d a) s <|
    let addr := getX s a
    if underArmature s s.hart.key.launch then .next (illegal (.launch d a) s)
    else if 32 ≤ (myLaunches s).length then .next (stallOn s .launches)
    else if addr.toNat % 256 ≠ 0 then .next (alignTrap addr s)
    else
      match checkRange s (me s) s.hart.tenant addr 256 .read false with
      | .error (f, va) => .next (failNext s f va)
      | .ok (pas, l) =>
        match (linesOf pas).find? (engineLine s) with
        | some x => .next (stallOn s (.engine x))
        | none =>
          let s1 := touchAll (translated s (me s) s.hart.tenant addr) pas false l.stream
          let r := BitVec.ofNat 2048 (hartRead s pas l.stream)
          let code := refusalCode s1 r
          if code ≠ 0 then .next (advance (setX s1 d (BitVec.ofNat 64 code)))
          else .next (advance (setX (acceptLaunch s1 s.hart.tenant addr r (.hart s.hart.key)) d 0))

/-- Waits for this hart's launches with the completion word, then loads it, an acquire (R244): no older copy of its line is read (R258). -/
def execLwait (d a : XReg) (s : State) : Result :=
  accessOnly (.lwait d a) s <|
    if (myLaunches s).any (fun l => (headerOf l.record).cword == getX s a) then .next (stallOn s (.lwait (getX s a)))
    else scalarAccess (getX s a) 8 .read false s (fun t pa l => acquire (loadAt d 6 (acquire t) pa l))

/-- The parts of retirement that come before the drain (R245, steps 1 to 3). -/
def beginRetire (s : State) : State :=
  let s1 := endStreams s
  let s2 := unmapUnits s1 s1.hart.stashMap
  { s2 with
    strand := { s2.strand with resv := none, links := [], hexited := true }
    mate := s2.mate.map (fun m => { m with resv := none, links := [] })
    hart := { s2.hart with pending := [], status := .retiring } }

/-- Retires the hart; in a decoupled hart the first strand waits for the second. -/
def execHexit (s : State) : Result :=
  let alone := match s.mate with
    | none => true
    | some m => m.hexited
  if alone then
    match unsettled s with
    | some n => .next (stallOn s (.stream n))
    | none => .next (countInstr (beginRetire s) 1)
  else .next (countInstr (stallOn { s with strand := { s.strand with hexited := true } } .mateHexit) 1)

end Sys2Proof.Machine
end

