-- ==== Sys2Proof/Machine/Waits.lean ====
section
/-! DEFINITION. Waiting strands (R15, R18, R29, R35, R39): when a stalled strand may go on, the lag of a launch under the armature, and the
boundaries at which a strand can be taken. -/

namespace Sys2Proof.Machine

/-! ## The armature's lag (R35, R385) -/

/-- The lead hart of a launch, wherever it is. -/
def leadBox (s : State) (l : Launch) : Option HartBox := (boxes s).find? (fun b => b.hart.live && b.hart.key == ⟨l.id, leadDie l, 0⟩)

/-- The issue unit that a hart issues next: beyond those it has completed and its convoy in flight (R83). -/
def HartBox.nextUnit (b : HartBox) : Nat := b.hart.units + b.s0.flight.isSome.toNat

/-- Whether a lead hart has begun its next issue unit: an instruction waits within it, whose text it has fetched, and not for its turn to begin. -/
def unitBegun (l : Launch) (b : HartBox) : Bool :=
  let waits (r : Option Stall) : Bool := match r with | none => false | some .lead => false | some .convoy => false | some _ => true
  !inhibited b.hart && (if b.s0.convoy.isSome then b.s0.ahead.any (fun a => waits a.2) else waits b.s0.stall) && l.text.any (·.1 == b.nextUnit)

/-- Issue units the lead has issued: those before its next one, and that one when it has begun. A lead that has retired has issued all of
them, one beyond every follower's. -/
def leadIssued (s : State) (l : Launch) : Nat :=
  match leadBox s l with
  | some b => b.nextUnit + (unitBegun l b).toNat
  | none => ((l.sent.map (·.2)).foldl max 0)

/-- Units a die has received. -/
def sentTo (l : Launch) (d : DieId) : Nat := ((l.sent.find? (fun x => x.1 == d)).map (·.2)).getD 0

/-- Units of a hart that the lead knows consumed. -/
def creditOf (l : Launch) (k : HartKey) : Nat := ((l.credits.find? (fun x => x.1 == k)).map (·.2)).getD 0

/-- Whether the focused hart may begin its next issue unit: the lead while every other hart of the launch lags by less than 64
(R35), another hart when its die has received the unit (R385). What it executes in its user handler is no issue unit (log entry 111). -/
def armatureReady (s : State) : Bool :=
  match launchOf s s.hart.key.launch with
  | none => true
  | some l =>
    if l.seq.isNone || inHandler s then true
    else if isLead s s.hart then
      (boxes s).all (fun b => b.hart.key.launch != l.id || b.hart.key == s.hart.key || unitNow s < creditOf l b.hart.key + 64)
    else unitNow s < sentTo l s.hart.key.die

/-! ## Stalls -/

/-- The slot of a convoy in flight that is a `vwait` and not complete. -/
def vwaitSlot (ks : List Slot) : Option (Nat × Slot) :=
  (ks.zipIdx.find? (fun p => !p.1.done && (match p.1.instr with | .vwait .. => true | _ => false))).map (fun p => (p.2, p.1))

/-- Whether the `vwait` that the focused strand waits in would do more than wait on if it read again now. -/
def vwaitMoves (s : State) : Bool :=
  match s.strand.convoy.bind vwaitSlot with
  | none => true
  | some (_, k) =>
    match k.instr with
    | .vwait d a b _ z c g =>
      match vwaitRun d a b z c g false k s with
      | .wait _ k' _ => k'.met != k.met
      | _ => true
    | _ => true

/-- Whether the reason of the focused strand's stall has gone. -/
def stallOver (s : State) : Stall → Bool
  | .pushFull q => (getQ s q).length < 2
  | .popEmpty q => (popStall s q).isNone
  | .popEither a b => (popStall s a).isNone || (popStall s b).isNone
  | .xqFull ac => (if ac then s.hart.q.xqAC else s.hart.q.xqCA).length < 16
  | .xqEmpty ac => !(if ac then s.hart.q.xqAC else s.hart.q.xqCA).isEmpty
  | .bqFull ac => (if ac then s.hart.q.bqAC else s.hart.q.bqCA).length < 32
  | .bqEmpty ac => !(if ac then s.hart.q.bqAC else s.hart.q.bqCA).isEmpty
  | .ahead => lqHeld s < s.hart.cr.ahead.toNat
  | .mateVsetvl => mateAhead s
  | .regrant .. => mayRelay s
  | .reshape .. => mayRelay s
  | .mateHexit => false
  | .handler => !inhibited s.hart
  | .launches => (myLaunches s).length < 32
  | .commands => (myCommands s).length < 32
  | .barrier k a => a ≤ phaseOf s k
  | .iwait c n => match channelOf s c with | none => true | some x => n ≤ x.front
  | .ipost c n => match channelOf s c with | none => true | some x => n ≤ x.front + 64
  | .lwait w => !(myLaunches s).any (fun l => (headerOf l.record).cword == w)
  | .cpywait w => !(myCommands s).any (fun c => c.desc.extractLsb' 0 64 == w)
  | .vwait => vwaitMoves s
  | .contend _ => s.hart.latchValid
  | .rendezvous => match launchOf s s.hart.key.launch with | none => true | some l => l.passed.contains (s.hart.key, unitNow s)
  | .lead => armatureReady s
  | .shootdown => !(dieRec s (myDie s)).sup.sshoot.getLsbD 55
  | .engine l => !engineLine s l
  | .convoy => false
  | .stream n => ((streamOf s n).map Stream.settled).getD true

/-- What the focused strand waits for, and what the slots of its convoy in flight that wait in it wait for. -/
def stallsOf (s : State) : List Stall := s.strand.stall.toList ++ ((s.strand.convoy.getD []).filter (fun k => !k.done)).filterMap (·.held)

/-- Whether the focused strand can take its next step (R39): its hart runs, it has not executed `hexit`, and nothing it waits for is missing. -/
def canStep (s : State) : Bool :=
  s.hart.live && s.hart.status == .running && !s.strand.hexited
    && (match s.strand.stall with | none => s.strand.convoy.isSome || armatureReady s | some _ => (stallsOf s).any (stallOver s))

/-- The focused strand as if at the first scalar instruction behind its convoy in flight, with the strip and the issue unit of that. -/
def pastConvoy (s : State) : State :=
  match s.strand.convoy with
  | none => s
  | some ks =>
    { s with
      strand := { s.strand.lastStrip with pc := (behind s ks.length).1, convoy := none, ahead := none, stall := none }
      hart := { s.hart with units := s.hart.units + (convoyUnit s).toNat } }

/-- Whether the scalar instructions behind the focused strand's convoy in flight can go on (R83). -/
def canPass (s : State) : Bool :=
  s.hart.live && s.hart.status == .running && !s.strand.hexited && s.strand.convoy.isSome
    && (match s.strand.ahead with | some (_, some r) => stallOver (pastConvoy s) r | _ => armatureReady (pastConvoy s))

/-- Whether a stream can move: its next instruction or slot, or a scalar instruction behind its convoy in flight. -/
def canMove (s : State) : Bool := canStep s || canPass s

/-- The focused strand goes on after its wait: every slot that waited is tried again. -/
def clearStall (s : State) : State :=
  { s with strand := { s.strand with
      stall := none
      convoy := if s.strand.stall.isSome then s.strand.convoy.map (fun ks => ks.map (fun k => { k with held := none })) else s.strand.convoy } }

/-! ## Strands of the package -/

/-- The machine with a strand of a hart in the focus, if the hart is there. -/
def focusOf (s : State) (h : HartId) (r : Role) : Option State := (boxOf s h).map (fun _ => focusOn s h r)

/-- Every strand of the package: its hart, its role and when it last issued. -/
def strandsOf (s : State) : List (HartId × Role × Nat) :=
  (boxes s).flatMap (fun b => b.strands.map (fun p => (b.hart.id, p.1, p.2.lastIssue)))

/-- The strands that can move. -/
def readyStrands (s : State) : List (HartId × Role × Nat) := (strandsOf s).filter (fun t => canMove (focusOn s t.1 t.2.1))

/-- Whether one stream goes before another (R344): the older last issue; then the lower hart slot, and the access strand within it. -/
def goesBefore (a b : HartId × Role × Nat) : Bool :=
  a.2.2 < b.2.2 || (a.2.2 == b.2.2 && (a.1.toNat < b.1.toNat || (a.1 == b.1 && a.2.1 == .access)))

/-- The ready stream whose last issue is oldest. -/
def oldestStream : List (HartId × Role × Nat) → Option (HartId × Role × Nat)
  | [] => none
  | a :: l =>
    match oldestStream l with
    | none => some a
    | some b => if goesBefore b a then some b else some a

/-! ## Boundaries -/

/-- Whether the strand stands between instructions or convoys: no convoy in flight, or scalar instructions behind it under way (R83, R117). -/
def atBoundary (x : Strand) : Bool := x.resumed.isNone && (x.convoy.isNone || x.ahead.isSome)

/-- A waiting scalar instruction is abandoned (R234, R236): a registered contender is withdrawn, an arrival at a rendezvous that has not completed
does not count. The arrival of a convoy that stays in flight, at its unit, stands. -/
def abandon (s : State) (k : HartKey) (flight : Option Nat) : State :=
  { s with sched := { s.sched with
      contenders := s.sched.contenders.filter (fun c => c.hart != k)
      launches := s.sched.launches.map (fun l =>
        if l.id == k.launch then
          { l with arrived := l.arrived.filter (fun a => a.1 != k || flight == some a.2), joining := l.joining.filter (·.hart != k) }
        else l) } }

/-- A hart that stops, or is gone, abandons its waits, and reaches again a rendezvous that has let it go (R38). -/
def withdraw (s : State) (k : HartKey) : State :=
  let s1 := abandon s k none
  { s1 with sched := { s1.sched with
      launches := s1.sched.launches.map (fun l => if l.id == k.launch then { l with passed := l.passed.filter (·.1 != k) } else l) } }

/-- Whether an instruction is a load with G = 1 (R164). -/
def loadsAway : Instr → Bool
  | .vldx _ _ _ _ gl .. | .vldxo _ _ _ _ gl .. => gl
  | _ => false

/-- The issue unit of a hart's convoy in flight while a load with G = 1 of it is still to complete (R36, R304). -/
def HartBox.loading (b : HartBox) : Option Nat :=
  if b.s0.convoy.all (·.any (fun k => !k.done && loadsAway k.instr)) then b.s0.flight else none

/-- Whether a hart whose next issue unit is `next` has reached an issue unit of its launch (R36, R304): it is beyond it, or at it with no load with
G = 1 still to complete (`flight` is the unit of one), or waits at it or has been let go there. -/
def reached (l : Launch) (u : Nat) (k : HartKey) (next : Nat) (flight : Option Nat) : Bool :=
  (u < next && flight != some u) || l.arrived.contains (k, u) || l.passed.contains (k, u)

/-- The harts of a launch that have reached a unit: on their slots, in images, or retired. -/
def reachedCount (s : State) (l : Launch) (u : Nat) : Nat :=
  let here := ((boxes s).filter (fun b => b.hart.key.launch == l.id)).map (fun b => (b.hart.key, b.nextUnit, b.loading))
  let kept := (allDies.flatMap (fun d => (dieRec s d).images)).filter (fun i => i.key.launch == l.id && !here.any (·.1 == i.key))
  l.retired.length
    + ((here ++ kept.map (fun i => (i.key, i.units + i.flight.isSome.toNat, i.flight))).filter (fun p => reached l u p.1 p.2.1 p.2.2)).length

/-- Harts of a launch on all its dies. -/
def launchHarts (l : Launch) : Nat := hartsPerDie l * l.dies.length

/-- The issue unit whose rendezvous completes now: every hart of the launch has reached it (R36, R386). -/
def meetingUnit (s : State) (l : Launch) : Option Nat := (l.arrived.map (·.2)).find? (fun u => launchHarts l ≤ reachedCount s l u)

/-- A slot as a stop or an interrupt leaves it: a `vwait` in progress keeps nothing latched (R177), nothing is waited for, and no stop is asked for
any more. -/
def Slot.abandoned (k : Slot) : Slot :=
  { k with met := (match k.instr with | .vwait .. => 0 | _ => k.met), stop := none, held := none }

end Sys2Proof.Machine
end

