-- ==== Sys2Proof/Machine/Fetch.lean ====
section
/-! DEFINITION. Fetching the next instruction (R68 to R71, R89 step 1), and taking up a convoy that an image recorded in flight (R353). -/

namespace Sys2Proof.Machine

/-- What the focused strand does next. -/
inductive Fetched where
  /-- an instruction, or a slot of the convoy in flight -/
  | run (i : Instr) (s : State)
  /-- nothing remains to execute of a convoy in flight -/
  | drained (s : State)
  /-- the fetch or the decoding traps -/
  | trapped (s : State)
  /-- the fetch waits -/
  | wait (r : Stall)
  deriving DecidableEq, Repr

/-- Who fetches: the hart's core, or under the armature the lead die's armature port (R34); in its user handler a hart fetches for itself (log
entry 111). -/
def fetcher (s : State) : Party :=
  match launchOf s s.hart.key.launch with
  | some l => if l.seq.isSome && !inHandler s then .unit (leadDie l) else me s
  | none => me s

/-- Whether a byte of text is gone for the focused hart's launch: the object was unloaded before the launch was made (R289). -/
def textGone (s : State) (pa : Nat) : Bool :=
  s.kiln.unloaded.any (fun u => u.2 ≤ s.hart.key.launch && u.1.base ≤ pa && pa < u.1.base + u.1.size)

/-- n bytes of text from the pc: their physical addresses, or the failure and the address of the first word that could not be fetched. A page of an unloaded
object has no leaf. -/
def fetchBytes (s : State) (n : Nat) : Except (Fail × Word) (List Nat) :=
  match checkRange s (fetcher s) s.hart.tenant s.strand.pc n .fetch false with
  | .error e => .error e
  | .ok (pas, l) =>
    match pas.findIdx? (textGone s) with
    | some i => .error (⟨3, if l.large then 1 else 2⟩, s.strand.pc + BitVec.ofNat 64 (i / 4 * 4))
    | none => .ok pas

/-- The bytes the next instruction has: 4, or a header with the body it declares. -/
def textLength (w : Nat) : Nat := if isHeader (BitVec.ofNat 32 w) then 4 + 8 * bodySlots (BitVec.ofNat 32 w) else 4

/-- A fetch that fails traps at the pc (R71); one whose walk must wait waits (R360). -/
def fetchTrap (s : State) (f : Fail) (va : Word) : Fetched :=
  if f.cls = 0 then .wait (.engine f.sub) else .trapped (raise (failTrap s f va) (failState s f va))

/-- The word at the pc as a trap value, for the undecodable. -/
def badWord (s : State) (w : Nat) : Fetched := .trapped (raise (trapAt s 1 0 (BitVec.ofNat 64 w)) s)

/-! ## A convoy that an image left in flight (R353) -/

/-- Whether a recorded slot has completed: every lane group's counter is at or above its count (R353); a DG slot's state is in `cr.dprog`. A strip
without elements shows nothing, and the device remembers. -/
def ctrDone (s : State) (k : Slot) (c : Captured) : Bool :=
  if isDg k then s.hart.cr.dprog.getLsbD 63
  else if (positions s).isEmpty then c.kept.any (·.done)
  else (List.range 8).all (fun j => (groupElems s j).length ≤ ((k.ctr.toList).getD j 0).toNat)

/-- A slot that runs with what the image recorded and what the device kept beside it: `cr.ew` and the bank of its dispatch (R42, R114), whether it has
reserved its queue entry, which is then the last of its queue and not filled (R33), and what a translation has found out of range (log entry 112). -/
def restoreSlot (s : State) (i : Instr) (c : Captured) : Slot :=
  let fresh := capture s i
  let x := c.kept.getD ⟨false, false, fresh.ew, fresh.shadow, 0⟩
  let k : Slot := { fresh with
    fmtw := c.fmtw, xsv := c.xsv, xbv := c.xbv, rbase := c.rbase, ctr := c.ctr, staged := c.staged, ew := x.ew, shadow := x.shadow, met := x.met }
  let own := match ((infoOf i).bind (·.dst)) with
    | some q => isQueue q && ((getQ s q).getLast?.map (fun e => !e.full)).getD false
    | none => false
  { k with done := ctrDone s k c, pushed := x.pushed && own }

/-- The stash map without the units of n that begin at an address. -/
def withoutUnits (l : List StashUnit) (a : Word) (n : Nat) : List StashUnit :=
  l.filter (fun u => !(a.toNat / 4096 ≤ u.unit && u.unit < a.toNat / 4096 + n))

/-- The machine against which a resumed convoy's captured values are checked (R353): what its complete slots have bound and mapped is
no bar to them. -/
def beforeSlots (s : State) (ks : List Slot) : State :=
  ks.foldl (fun s k =>
    if !k.done then s
    else match k.instr with
      | .strm _ _ n => setStreams s (s.hart.streams.filter (fun t => t.num != n))
      | .smap _ _ n =>
        { s with hart := { s.hart with stashMap := withoutUnits s.hart.stashMap k.xbv n.toNat } }
      | _ => s) s

/-- The reads of step 5 again for the slots that are not complete (R411). -/
def reread (s : State) (before : List Slot) : List Slot → Except Trap (List Slot)
  | [] => .ok []
  | k :: ks =>
    match (if k.done then .ok ([], k.desc) else dispatchRead s before k) with
    | .error t => .error { t with slot := before.length }
    | .ok (_, d) => (reread s (before ++ [k]) ks).map (fun r => { k with desc := d } :: r)

/-- R353: the convoy at the pc resumes without a fresh dispatch, steps 1 to 4 of R89 made for every slot against its captured values. -/
def resumeConvoy (s : State) (count : BitVec 3) (units : BitVec 18) (body : List (BitVec 64)) (cs : List Captured) : Fetched :=
  let slots (is : List Instr) : List Slot := (is.zip cs).map (fun p => restoreSlot s p.1 p.2)
  if !(headerOk count units && body.length == count.toNat) then .trapped (illegal (.convoy count units body) s)
  else
    match decodeSlots units body 0 with
    | .error (n, w) =>
      .trapped (raise (slotTrap s units body n w (fun is => firstBad (slotIllegal (beforeSlots s (slots is))) (slots is) 0)) s)
    | .ok is =>
      let ks := slots is
      match checkSlots (beforeSlots s ks) ks with
      | some t => .trapped (raise t s)
      | none =>
        match readWait s [] (ks.filter (fun k => !k.done)) with
        | some l => .wait (.engine l)
        | none =>
          match reread s [] ks with
          | .error t => .trapped (raise t (readFailed s [] ks))
          | .ok ks =>
            let s1 := { s with strand := { s.strand with convoy := some ks, resumed := none } }
            match nextSlot ks 0 with
            | some (_, k) => .run k.instr s1
            | none => .drained (drain s1 ks.length)

/-! ## The next instruction -/

/-- R353: the word at the pc is no header, and the record of a convoy in flight is ignored, its progress in `cr.dprog` too (R216). -/
def unresumed (s : State) : State :=
  let s1 := if s.strand.resumed.isSome then clearDprog s else s
  { s1 with
    strand := { s1.strand.lastStrip with resumed := none, ahead := none }
    hart := { s1.hart with units := s1.strand.flight.getD s1.hart.units } }

/-- The instruction that a word and its body decode to. -/
def decoded (s : State) (bytes : List Byte) (w : Nat) : Fetched :=
  match decode bytes with
  | .error _ => badWord (if isHeader (BitVec.ofNat 32 w) then s else unresumed s) w
  | .ok (.convoy count units body, _) =>
    match s.strand.resumed with
    | some cs => resumeConvoy s count units body cs
    | none => .run (.convoy count units body) s
  | .ok (i, _) => .run i (unresumed s)

/-- The issue unit that the armature has broadcast for the hart to execute now (R34, R385). -/
def broadcast (s : State) : Option (List Byte) :=
  match launchOf s s.hart.key.launch with
  | some l =>
    if l.seq.isSome && !isLead s s.hart && !inHandler s then
      (l.text.find? (fun u => u.1 == unitNow s && u.2.1 == s.strand.pc)).map (·.2.2)
    else none
  | none => none

/-- The unit that the lead begins, kept for the harts that follow. -/
def keepText (s : State) (b : List Byte) : State :=
  match launchOf s s.hart.key.launch with
  | some l =>
    if l.seq.isSome && isLead s s.hart && !inHandler s then
      setLaunch s { l with text := ((unitNow s, s.strand.pc, b) :: l.text.filter (·.1 != unitNow s)).take 65 }
    else s
  | none => s

/-- The number that bytes hold, the first least significant. -/
def numberOf : List Byte → Nat
  | [] => 0
  | b :: r => b.toNat + 256 * numberOf r

/-- The strand executes text of a translation, or text that is none: an instruction means what it means in the text that it is fetched from, also
where text of the other kind has jumped to it (R278, R283). -/
def inText (s : State) (p : Bool) : State := { s with strand := { s.strand with portable := p } }

/-- A fetch has taken place: translated, and its lines read. The core has an instruction cache, and no rule says whether it may hold an older copy of text:
the model reads memory as it stands at each fetch, and a fetch leaves no line in the L1 and none tracked (the model's choice, log entry 116). -/
def fetched (s : State) (pas : List Nat) (n : Nat) : State :=
  let s1 := (linesOf pas).foldl (fun s l => touchAgent s (fetcher s).die proxyAgent l false) (pagesReached s (fetcher s) s.hart.tenant s.strand.pc n)
  inText s1 ((pas.head?.map (portableAt s)).getD false)

/-- Fetches and decodes at the pc. -/
def fetchOwn (s : State) : Fetched :=
  match fetchBytes s 4 with
  | .error (f, va) => fetchTrap s f va
  | .ok first =>
    match (linesOf first).find? (engineLine s) with
    | some l => .wait (.engine l)
    | none =>
    let w := readPas s.mem first
    match fetchBytes s (textLength w) with
    | .error (f, va) => fetchTrap s f va
    | .ok pas =>
      match (linesOf pas).find? (engineLine s) with
      | some l => .wait (.engine l)
      | none => decoded (keepText (fetched s pas (textLength w)) (pas.map s.mem.read)) (pas.map s.mem.read) w

/-- The instruction at the pc: the unit broadcast to the hart, or what a fetch delivers. -/
def fetchAt (s : State) : Fetched :=
  match broadcast s with
  | some b => decoded (inText s (translatedText s (fetcher s).die s.hart.tenant s.strand.pc)) b (numberOf (b.take 4))
  | none => fetchOwn s

/-- The slot of the convoy in flight that runs next. -/
def fetchSlot (s : State) : Fetched :=
  match s.strand.convoy with
  | some ks =>
    match nextSlot ks 0 with
    | some (_, k) => .run k.instr s
    | none => .drained (drain s ks.length)
  | none => fetchAt s

end Sys2Proof.Machine
end

