-- ==== Sys2Proof/Machine/Translation.lean ====
section
/-! DEFINITION. SHOOTDOWN, SHOOTDOWN_COMPLETE and TLB_MISS_WALK (R360, R361), and the page tables as the firmware edits them: mappings of
frames, and the unloading of a revoked object's pages (R289, R383). -/

namespace Sys2Proof.Machine

/-- Applies a function with a hart in the focus, and brings the former focus back. -/
def withHart (s : State) (h : HartId) (f : State → State) : State :=
  let t := f (focusOn s h .access)
  if s.hart.live then focusOn t s.hart.id s.role else t

/-! ## Shootdown (R361) -/

/-- What a write of `cr.sshoot` names. -/
structure Named where
  tenant : Nat
  every  : Bool
  page   : Nat
  count  : Nat
  deriving DecidableEq, Repr, Inhabited

def namedOf (v : Word) : Named :=
  let n := (v.extractLsb' 0 16).toNat
  { tenant := (v.extractLsb' 56 7).toNat, every := v.getLsbD 63, page := (v.extractLsb' 16 36).toNat, count := if n = 0 then 65536 else n }

/-- Whether a 64 KiB page, or any page of its 512 MiB where a large leaf translates it, is named. -/
def Named.hits (n : Named) (tenant page : Nat) (large : Bool) : Bool :=
  tenant == n.tenant && (n.every
    || (if large then n.page < page / 8192 * 8192 + 8192 && page / 8192 * 8192 < n.page + n.count
        else n.page ≤ page && page < n.page + n.count))

/-- A hart's stash units whose translation is removed: the one they were mapped by. -/
def Named.units (n : Named) (h : Hart) : List StashUnit := h.stashMap.filter (fun u => n.hits h.tenant (u.base / 16) u.large)

/-- Whether some page that an upper-level entry stands for is named. -/
def Named.covers (n : Named) (w : WalkerEntry) : Bool :=
  w.tenant == n.tenant && (n.every || (n.page < w.page + levelPages w.level && w.page < n.page + n.count))

/-- The named translations leave every TLB and walker cache, and the stash units they served are written back and unmapped (R179, R361). -/
def removeNamed (s : State) (n : Named) : State :=
  let hs := ((boxes s).map (·.hart)).filter (fun h => !(n.units h).isEmpty)
  let s1 := hs.foldl (fun t h => withHart t h.id (fun x => unmapUnits x (n.units h))) s
  { s1 with coh := { s1.coh with
      tlb := s1.coh.tlb.filter (fun t => !n.hits t.tenant t.page t.large), walkers := s1.coh.walkers.filter (fun w => !n.covers w) } }

def execShootdown (d : DieId) (v : Word) (s : State) : Result :=
  let s1 := removeNamed s (namedOf v)
  .next { s1 with inputs := s1.inputs ++ [Instr.shootdownComplete d] }

/-- Busy of the die's `cr.sshoot` reads 0. -/
def execShootdownComplete (d : DieId) (s : State) : Result :=
  let x := dieRec s d
  .next (setDie s d { x with sup := { x.sup with sshoot := x.sup.sshoot &&& 0xFF7FFFFFFFFFFFFF } })

/-! ## A walk for a TLB miss (R360) -/

/-- A walk that ends at a frame of the tenant is cached; one that faults leaves nothing cached. -/
def execTlbMissWalk (d : DieId) (c : CoreId) (tenant : Nat) (va : Word) (s : State) : Result := .next (translated s (.core d c) tenant va)

/-! ## The tables as firmware sees them -/

/-- The non-zero entries of a table of n doublewords, with their indices. -/
def tableEntries (m : Memory) (base n : Nat) : List (Nat × Word) :=
  (((m.filter (fun c => base ≤ c.1 && c.1 < base + 8 * n)).map (fun c => (c.1 - base) / 8)).dedup).map
    (fun i => (i, BitVec.ofNat 64 (m.readNat (base + 8 * i) 8)))

/-- A leaf of a tenant's tables: the first 64 KiB page it translates, where the entry lies, and the entry. -/
structure Mapping where
  tenant : Nat
  page   : Nat
  entry  : Nat
  leaf   : Leaf
  deriving DecidableEq, Repr, Inhabited

/-- The leaves of a tenant whose level-0 table lies at an address. -/
def mappingsOf (m : Memory) (tenant l0 : Nat) : List Mapping :=
  (tableEntries m l0 2048).flatMap (fun a =>
    if pteBad 0 a.2 then []
    else (tableEntries m (pteAddr a.2) 4096).flatMap (fun b =>
      if pteBad 1 b.2 then []
      else if b.2.getLsbD 1 then [⟨tenant, (a.1 * 4096 + b.1) * 8192, pteAddr a.2 + 8 * b.1, ⟨b.2, true⟩⟩]
      else (tableEntries m (pteAddr b.2) 8192).filterMap (fun c =>
        if pteBad 2 c.2 then none else some ⟨tenant, (a.1 * 4096 + b.1) * 8192 + c.1, pteAddr b.2 + 8 * c.1, ⟨c.2, false⟩⟩)))

/-- The root tables in use. -/
def rootsInUse (s : State) : List Nat := ((allDies.filter (fun d => (dieRec s d).state == 2 || (dieRec s d).state == 3)).map (rootOf s)).dedup

/-- Every leaf of the package. -/
def mappings (s : State) : List Mapping :=
  (rootsInUse s).flatMap (fun r => (tableEntries s.mem r 65).flatMap (fun t => mappingsOf s.mem t.1 t.2.toNat))

/-- Whether a leaf's page holds a frame. -/
def Mapping.names (x : Mapping) (frame : Nat) : Bool :=
  let first := frameOf (pteAddr x.leaf.pte)
  if x.leaf.large then first ≤ frame && frame < first + 8192 else first == frame

/-- The leaves whose pages hold a frame. -/
def mappingsTo (s : State) (frame : Nat) : List Mapping := (mappings s).filter (·.names frame)

/-- A table entry written by the firmware. -/
def setEntry (s : State) (a : Nat) (v : Word) : State := setMem (touchStoreAll s (lineOf a)) (s.mem.writeNat a 8 v.toNat)

/-- A mapping's translations shot down. -/
def shootMapping (s : State) (x : Mapping) : State := removeNamed s { tenant := x.tenant, every := false, page := x.page, count := 1 }

/-- The mapping's leaf set to another frame, or removed, after a shootdown. -/
def remap (s : State) (x : Mapping) (frame : Option Nat) : State :=
  let s1 := shootMapping s x
  match frame with
  | none => setEntry s1 x.entry 0
  | some f => setEntry s1 x.entry ((x.leaf.pte &&& 0xFFF000000000FFFF) ||| BitVec.ofNat 64 (f * 65536))

/-! ## Unloaded objects (R289) -/

/-- Whether an incomplete launch older than a number names text of an object. -/
def objectInUse (s : State) (p : Placed) (cut : Nat) : Bool :=
  s.sched.launches.any (fun l =>
    l.id < cut && l.dies.any (fun d =>
      [l.record.extractLsb' 0 64, l.record.extractLsb' 64 64].any (fun pc =>
        match walk s d l.tenant pc with
        | .ok x => p.base ≤ physOf x pc && physOf x pc < p.base + p.size
        | .error _ => false)))

/-- The pages of an object unmapped: the 64 KiB ones. A 512 MiB page, which holds other frames too, stays. -/
def unmapObject (s : State) (p : Placed) : State :=
  let inside (x : Mapping) : Bool := !x.leaf.large && p.base ≤ pteAddr x.leaf.pte && pteAddr x.leaf.pte < p.base + p.size
  ((mappings s).filter inside).foldl (fun s x => remap s x none) s

/-- Whether a 512 MiB leaf maps a frame of an object. -/
def inLargePage (s : State) (p : Placed) : Bool :=
  (mappings s).any (fun x => x.leaf.large && pteAddr x.leaf.pte < p.base + p.size && p.base < pteAddr x.leaf.pte + 2 ^ 29)

/-- Objects below the object fuse counter are unloaded: gone for every launch made from now on (R289). -/
def unloadBelow (s : State) (v : Nat) : State :=
  let k := s.kiln
  { s with kiln := { k with
      placed := k.placed.filter (fun p => v ≤ p.secver)
      unloaded := k.unloaded ++ (k.placed.filter (fun p => p.secver < v)).map (fun p => (p, s.sched.nextLaunch)) } }

/-- The pages of an unloaded object stay mapped until the older launches that name it complete; then they are unmapped. What a 512 MiB page still maps
stays gone for the fetches of later launches. -/
def sweepObjects (s : State) : State :=
  let free := s.kiln.unloaded.filter (fun u => !objectInUse s u.1 u.2)
  let s1 := free.foldl (fun s u => unmapObject s u.1) s
  { s1 with kiln := { s1.kiln with unloaded := s1.kiln.unloaded.filter (fun u => !free.contains u || inLargePage s1 u.1) } }

end Sys2Proof.Machine
end

