-- ==== Sys2Proof/Machine/HartEvents.lean ====
section
/-! DEFINITION. Events of harts and strands: GRANT_RELAY to RENDEZVOUS_COMPLETION, and the armature's ISSUE_UNIT, CREDIT and RESEND_REQUEST. An
event whose condition does not hold changes nothing. -/

namespace Sys2Proof.Machine

/-! ## Strands -/

/-- The event's effect on a strand of a running hart, brought into the focus. -/
def onStrand (s : State) (h : HartId) (r : Role) (f : State → Result) : Result :=
  match focusOf s h r with
  | none => .next s
  | some t => if t.hart.status == .running then f t else .next s

/-- A changed grant that an access or single strand waits for (R28, R29). -/
def execGrantRelay (h : HartId) (s : State) : Result := onStrand s h .access (fun s => .next (relayGrant s))

/-- Whether a stall is one of R19's. -/
def deadlockStall : Stall → Bool
  | .pushFull _ | .popEmpty _ | .popEither .. | .xqFull _ | .xqEmpty _ | .bqFull _ | .bqEmpty _ | .ahead | .mateVsetvl | .regrant .. | .reshape ..
  | .mateHexit => true
  | _ => false

/-- Whether the scalar instructions behind the focused strand's convoy in flight wait for its end, or for good. -/
def stuckBehind (s : State) : Bool :=
  s.strand.convoy.isNone ||
    match s.strand.ahead with
    | some (_, some r) => r == .convoy || (deadlockStall r && !stallOver (pastConvoy s) r)
    | _ => false

/-- Whether the focused strand is held by one of R19's stalls for good. -/
def stuck (s : State) : Bool :=
  s.strand.stall.isSome && (stallsOf s).all (fun r => deadlockStall r && !stallOver s r) && stuckBehind s

/-- R19, with the access strand in the focus: both strands held, and no stream that could still move an entry. -/
def deadlocked (s : State) : Bool :=
  s.role == .access && s.hart.status == .running && stuck s && stuck (focusOn s s.hart.id .compute)
    && !s.hart.streams.any (fun t => t.fault.isSome || streamReady s t)

/-- The lowest slot of a convoy in flight that is stalled: one that waits while others were tried, or the one tried last. -/
def stalledSlot (ks : List Slot) : Option (Nat × Slot) :=
  (ks.zipIdx.find? (fun p => !p.1.done && (p.1.held.isSome || (nextSlot ks 0).any (·.1 == p.2)))).map (fun p => (p.2, p.1))

/-- The position that R19 names: the lowest stalled slot of the convoy in flight, or the scalar word. -/
def deadlockTrap (s : State) : Trap :=
  match s.strand.convoy.bind stalledSlot with
  | some (n, k) => { trapAt s 1 1 (instrWord k.instr) with slot := n }
  | none =>
    match fetchBytes s 4 with
    | .ok pas => trapAt s 1 1 (BitVec.ofNat 64 (readPas s.mem pas))
    | .error _ => trapAt s 1 1 0

def execStrandDeadlock (h : HartId) (s : State) : Result :=
  onStrand s h .access (fun t => if deadlocked t then .next (raise (deadlockTrap t) t) else .next s)

/-- A strand whose condition has become true goes on (R39). -/
def execWaitResumption (h : HartId) (r : Role) (s : State) : Result :=
  onStrand s h r (fun t => if canStep t then .next (clearStall t) else .next s)

/-- The timeout of the `vwait` that the strand waits in expires (R176); one of all ones never does. -/
def execVwaitExpiry (h : HartId) (r : Role) (s : State) : Result :=
  onStrand s h r (fun t =>
    match (clearStall t).strand.convoy with
    | some ks =>
      match vwaitSlot ks with
      | some (n, k) =>
        match k.instr with
        | .vwait d a b _ z c g =>
          if !(stallsOf t).contains .vwait || k.xsv = BitVec.allOnes 64 then .next s
          else runSlot (fun k s => vwaitRun d a b z c g true k s) ks n k (clearStall t)
        | _ => .next s
      | none => .next s
    | none => .next s)

/-! ## User interrupts (R113 to R117, R177, R236) -/

/-- The first pending interrupt for the focused strand. -/
def nextInterrupt (s : State) : Option UserInt := s.hart.pending.find? (fun u => u.access == (s.role == .access))

/-- Whether a `vwait` or `cpywait` of the focused strand's convoy in flight waits: an interrupt abandons it, wherever the scalar instructions behind
it have got to (R177, R236). -/
def waitsInConvoy (s : State) : Bool := (stallsOf s).any (fun r => match r with | .vwait => true | .cpywait _ => true | _ => false)

/-- Whether the focused strand can be taken: between scalar instructions, whatever convoy is in flight (R114); not before the word at a resumed pc
has been fetched. -/
def interruptible (s : State) : Bool := s.strand.resumed.isNone

/-- Whether an interrupt is delivered to the focused strand now. -/
def interruptDue (s : State) : Bool :=
  s.hart.live && s.hart.status == .running && !s.strand.hexited && handlerOn s.hart && !inhibited s.hart && interruptible s && (nextInterrupt s).isSome

/-- The strand of s at its convoy in flight again, after what `t` has done behind it: `t` is the strand as if at the first scalar instruction there.
The convoy keeps its strip, beside the one that the scalar instructions have opened, if they have opened one. -/
def behindConvoy (s : State) (t : State) : State :=
  { t with
    strand := { t.strand.withStrip s.strand.strip with
      pc := s.strand.pc, convoy := s.strand.convoy, stall := s.strand.stall, ahead := some (t.strand.pc, t.strand.stall), unit := s.strand.unit
      later := if s.strand.later.isSome || t.strand.strips != s.strand.strips then some t.strand.strip else none }
    hart := { t.hart with units := t.hart.units - (convoyUnit s).toNat } }

/-- The focused strand with a `vwait` of its convoy in flight latching nothing (R177). -/
def unlatched (s : State) : State :=
  { s with strand := { s.strand with
      convoy := s.strand.convoy.map (fun ks => ks.map (fun k => { k.abandoned with stop := k.stop, held := k.held })) } }

/-- The focused strand with its convoy in flight set aside: it stands at the convoy's header, or at the scalar instruction that the convoy has been
passed to. -/
def setAside (s : State) (ks : List Slot) : State :=
  let ret := (s.strand.ahead.map (·.1)).getD s.strand.pc
  clearDprog { s with strand := { s.strand.lastStrip with
    pc := ret, stall := none, convoy := none, ahead := none
    aside := some ⟨s.strand.pc, ks.map Slot.abandoned, ret, s.strand.later.map (fun _ => s.strand.strip), s.strand.unit⟩ } }

/-- Delivery: a waiting instruction is abandoned. A convoy in flight stays in flight, a `vwait` of it latching nothing, and the return point is the
first scalar instruction behind it that has not begun; one in which a `vwait` or `cpywait` waits is set aside until `uiret`, and that slot executes
again. -/
def takeInterrupt (s : State) (u : UserInt) : State :=
  let s1 := abandon s s.hart.key (if s.strand.convoy.isSome then some s.strand.unit else none)
  let s2 := { s1 with hart := { s1.hart with pending := s1.hart.pending.erase u } }
  match s2.strand.convoy with
  | none =>
    let s3 := { s2 with strand := { s2.strand with stall := none } }
    deliver s3 s3.strand.pc 1 u.code u.cword
  | some ks =>
    if waitsInConvoy s2 then
      let s3 := setAside s2 ks
      deliver s3 s3.strand.pc 1 u.code u.cword
    else
      let s3 := pastConvoy (unlatched s2)
      behindConvoy (unlatched s2) (deliver s3 s3.strand.pc 1 u.code u.cword)

def execUserInterruptDelivery (h : HartId) (r : Role) (s : State) : Result :=
  onStrand s h r (fun t =>
    if interruptDue t then
      match nextInterrupt t with
      | some u => .next (takeInterrupt t u)
      | none => .next s
    else .next s)

/-! ## Streams (R183, R184) -/

/-- One entry of a stream, or as much of it as a fault leaves. -/
def execStreamEntry (h : HartId) (n : BitVec 3) (s : State) : Result :=
  onStrand s h .access (fun t =>
    match streamOf t n with
    | some x => if streamReady t x then .next (streamWork t x) else .next s
    | none => .next s)

/-- A stream's fault traps at the access strand's next boundary; the stream keeps its progress. -/
def execStreamFault (h : HartId) (n : BitVec 3) (s : State) : Result :=
  onStrand s h .access (fun t =>
    match streamOf t n with
    | some x =>
      match x.fault with
      | some f => if atBoundary t.strand then .next (raise { f with pc := t.strand.pc } (putStream t { x with fault := none })) else .next s
      | none => .next s
    | none => .next s)

/-- The end of a stream after its last entry. -/
def execStreamEnd (h : HartId) (n : BitVec 3) (s : State) : Result :=
  onStrand s h .access (fun t =>
    match streamOf t n with
    | some x => if streamCount x.spec ≤ x.entry then .next (endStream t n) else .next s
    | none => .next s)

/-! ## Commands, retirement, completion -/

/-- An incomplete command completes (R187 to R190) once it owns its lines and no earlier one owns what it reads. -/
def execCommandCompletion (c : Nat) (s : State) : Result :=
  match s.sched.commands.find? (·.id == c) with
  | some x => if commandDue s x then .next (completeCommand s x) else .next s
  | none => .next s

/-- The link whose function of a tenant sends its messages: link 0 where the function is there, else link 1. -/
def vectorLink (s : State) (fn : Nat) : BitVec 1 := if fn ≤ s.host.vfs.1 || s.host.vfs.2 < fn then 0 else 1

/-- Whether a vector of a function is sent or only marked pending (R329). -/
def sendMsix (s : State) (fn vec : Nat) : State :=
  let v := (fn, vectorLink s fn, vec)
  if s.host.masked.contains v || (if fn = 0 then 256 else 16) ≤ vec then
    { s with host := { s.host with pendingVec := if s.host.pendingVec.contains v then s.host.pendingVec else v :: s.host.pendingVec } }
  else { s with host := { s.host with out := s.host.out ++ [.msix fn vec] } }

/-- Whether a hart of a launch is on a slot or being stopped. An image of a launch that has ended holds no hart any more (R243, R354). -/
def hartsLeft (s : State) (l : Nat) : Bool := (boxes s).any (fun b => b.hart.key.launch == l)

/-- Whether a launch has completed: every hart retired, or failed with no hart and no command left. -/
def launchDone (s : State) (l : Launch) : Bool :=
  if l.failed.isSome then !hartsLeft s l.id && !s.sched.commands.any (·.hart.launch == l.id) else launchHarts l ≤ l.retired.length

/-- Whether the store of a launch's completion word must wait for a line, or its walk for a table's (R190, R243, R360). -/
def completionWaits (s : State) (l : Launch) : Bool := unitWaits s (leadDie l) l.tenant (headerOf l.record).cword 8 .write

/-- The completion word of a launch (R243). -/
def completionOf (l : Launch) : Word :=
  match l.failed with
  | none => (headerOf l.record).cval
  | some (cause, owner) => 1#1 ++ BitVec.ofNat 7 cause ++ 0#45 ++ BitVec.ofNat 11 owner

/-- A launch's things leave the scheduler: channels, barriers, places and crews. -/
def dropLaunch (s : State) (l : Nat) : State :=
  let c := s.sched
  { s with sched := { c with
      launches := c.launches.filter (fun x => x.id != l), queued := c.queued.filter (fun x => x.launch != l)
      crews := c.crews.filter (fun x => x.launch != l), channels := c.channels.filter (fun x => x.launch != l)
      barriers := c.barriers.filter (fun x => x.key.launch != l), arrivals := c.arrivals.filter (fun x => x.key.launch != l) } }

/-- The completion word, then the launch is gone, then its interrupt (R243, R329). -/
def completeLaunch (s : State) (l : Launch) : State :=
  let s1 := sweepObjects (dropLaunch (putCompletion s (leadDie l) l.tenant (headerOf l.record).cword (completionOf l)) l.id)
  match l.issuer with
  | .ring fn _ true vec => sendMsix s1 fn vec
  | _ => s1

def execLaunchCompletion (l : Nat) (s : State) : Result :=
  match launchOf s l with
  | some x => if launchDone s x && !completionWaits s x then .next (completeLaunch s x) else .next s
  | none => .next s

/-- Free banks of a core rejoin its L1 at a drained `hexit` (R28). -/
def rejoinBanks (s : State) (d : DieId) (c : CoreId) : State :=
  setCore s { coreRec s d c with l1Banks := min 48 (64 - banksHeld s d c) }

/-- A crew none of whose harts is left is gone. -/
def tidyCrews (s : State) : State :=
  { s with sched := { s.sched with crews := s.sched.crews.filter (fun c =>
      (boxes s).any (fun b => b.hart.key.launch == c.launch && b.hart.key.die == c.die && c.first ≤ b.hart.key.rank && b.hart.key.rank < c.first + c.size)
        || (dieRec s c.die).images.any (fun i => i.key.launch == c.launch && c.first ≤ i.key.rank && i.key.rank < c.first + c.size)) } }

/-- Barriers whose phase a departure completes (R226). -/
def barriersOf (s : State) (l : Nat) : List BarrierKey := ((s.sched.arrivals.map (·.key)).filter (fun k => k.launch == l)).dedup

/-- The end of retirement (R245): the hart leaves its barriers, its lane entry is cleared, and the launch may complete. -/
def retireHart (s : State) (b : HartBox) : State :=
  let k := b.hart.key
  let d := dieOf b.hart.id
  let c := coreOf b.hart.id
  let s1 := rejoinBanks (removeHart (withdraw s k) b.hart.id) d c
  let s2 := match launchOf s1 k.launch with
    | some l =>
      setLaunch s1 { l with
        retired := k :: l.retired
        sent := if l.seq.isSome && k == ⟨l.id, leadDie l, 0⟩ then l.dies.map (fun d => (d, b.hart.units)) else l.sent }
    | none => s1
  let s3 := (barriersOf s2 k.launch).foldl completePhase s2
  let s4 := tidyCrews s3
  { s4 with inputs := s4.inputs ++ [Instr.launchCompletion k.launch] }

/-- The slot is free for another hart from now on: in the model no scalar instruction of a next launch overlaps the drain, which R31 would allow
(log entry 87). -/
def execHartRetirement (h : HartId) (s : State) : Result :=
  match boxOf s h with
  | some b =>
    if b.hart.status == .retiring && !s.sched.commands.any (fun c => c.hart == b.hart.key) then .next (retireHart s b) else .next s
  | none => .next s

/-! ## Barriers, rounds, rendezvous -/

def execBarrierPhaseCompletion (k : BarrierKey) (s : State) : Result := .next (completePhase s k)

/-- The result that each participant of a round latches (R233). -/
def roundResult (win : Contender) (c : Contender) : Word :=
  let owner : BitVec 11 := (7 - win.word.extractLsb' 8 3) ++ win.word.extractLsb' 0 8
  BitVec.ofBool (c.word == win.word) ++ (0 : BitVec 20) ++ owner ++ win.word.extractLsb' 11 32

/-- The greatest driven word. -/
def greatest : List Contender → Option Contender
  | [] => none
  | c :: cs =>
    match greatest cs with
    | none => some c
    | some d => if c.word.toNat < d.word.toNat then some d else some c

/-- The participants of a slot's next round (R232): the contenders with the tag of the earliest one. -/
def roundOf (s : State) (slot : BitVec 4) : List Contender :=
  match s.sched.contenders.find? (fun c => c.slot == slot) with
  | none => []
  | some e => s.sched.contenders.filter (fun c => c.slot == slot && c.tag == e.tag)

def setLatchOf (r : Contender → Word) (cs : List Contender) (b : HartBox) : HartBox :=
  match cs.find? (fun c => c.hart == b.hart.key) with
  | some c => { b with hart := { b.hart with latch := r c, latchValid := true } }
  | none => b

/-- Contenders that register in one plane cycle, in the order of their driven identities, greatest first (R232, R317). -/
def byIdentity (cs : List Contender) : List Contender := cs.mergeSort (fun a b => (b.word.toNat % 2 ^ 11) ≤ (a.word.toNat % 2 ^ 11))

/-- A start edge of a slot: the round runs, and every participant's latch receives its result. -/
def execContendRound (slot : BitVec 4) (s : State) : Result :=
  let cs := roundOf s slot
  match greatest cs with
  | none => .next s
  | some w =>
    let s1 := mapBoxes s (setLatchOf (roundResult w) cs)
    .next { s1 with sched := { s1.sched with contenders := s1.sched.contenders.filter (fun c => !cs.contains c) } }

/-- The rendezvous at a unit completes: the harts that wait there are let go, and those at a `contend` register together (R36, R317). -/
def letGo (s : State) (x : Launch) (u : Nat) : State :=
  let go := x.arrived.filter (·.2 == u)
  let joins (c : Contender) : Bool := go.any (·.1 == c.hart)
  let s1 := setLaunch s { x with
    passed := x.passed.filter (fun p => !go.any (·.1 == p.1)) ++ go, arrived := x.arrived.filter (·.2 != u)
    joining := x.joining.filter (fun c => !joins c) }
  (byIdentity (x.joining.filter joins)).foldl register s1

/-- The rendezvous completes when every hart of the launch has reached its issue unit (R36, R386). -/
def execRendezvousCompletion (l : Nat) (s : State) : Result :=
  match launchOf s l with
  | some x =>
    match meetingUnit s x with
    | some u => .next (letGo s x u)
    | none => .next s
  | none => .next s

/-! ## The armature channel (R385) -/

def setSent (s : State) (l : Launch) (d : DieId) (n : Nat) : State :=
  setLaunch s { l with sent := (d, n) :: l.sent.filter (fun x => x.1 != d) }

/-- The next unit that the lead has issued reaches a die. -/
def execIssueUnit (l : Nat) (d : DieId) (s : State) : Result :=
  match launchOf s l with
  | some x => if x.seq.isSome && x.dies.contains d && sentTo x d < leadIssued s x then .next (setSent s x d (sentTo x d + 1)) else .next s
  | none => .next s

/-- The lead learns how many units a hart has consumed, and the outcome of its last branch. -/
def execCredit (l : Nat) (h : HartId) (s : State) : Result :=
  match launchOf s l, boxOf s h with
  | some x, some b =>
    if x.seq.isSome && b.hart.key.launch == l then
      .next (setLaunch s { x with
        credits := (b.hart.key, b.hart.units) :: x.credits.filter (fun c => c.1 != b.hart.key)
        told := x.branches.filter (·.1 == b.hart.key) ++ x.told.filter (·.1 != b.hart.key) })
    else .next s
  | _, _ => .next s

/-- The lead sends a die every unit from the first missing one, out of the text it keeps. -/
def execResendRequest (l : Nat) (d : DieId) (s : State) : Result :=
  match launchOf s l with
  | some x => if x.seq.isSome && x.dies.contains d then .next (setSent s x d (max (sentTo x d) (leadIssued s x))) else .next s
  | none => .next s

end Sys2Proof.Machine
end

