-- ==== Sys2Proof/Machine/Image.lean ====
section
/-! DEFINITION. Save images (R346, R352, R353, R355): a hart as the bytes of its image slot, the image as memory, the checks of an image,
and the hart that an image holds. -/

namespace Sys2Proof.Machine

/-! ## Large ranges of memory -/

/-- The non-zero bytes of the 2^k bytes that v holds, from an address on. -/
def cellsOf : Nat → Nat → Nat → Memory
  | 0, base, v => if BitVec.ofNat 8 v = 0 then [] else [(base, BitVec.ofNat 8 v)]
  | k + 1, base, v =>
    if v = 0 then [] else cellsOf k base (v % 2 ^ (8 * 2 ^ k)) ++ cellsOf k (base + 2 ^ k) (v / 2 ^ (8 * 2 ^ k))

/-- 2^k bytes from an address on replaced by the bytes of v. -/
def Memory.put (m : Memory) (k base v : Nat) : Memory :=
  m.filter (fun c => c.1 < base) ++ cellsOf k base v ++ m.filter (fun c => base + 2 ^ k ≤ c.1)

/-- The number that 2^k bytes from an address on hold. -/
def gatherCells : Nat → Nat → Memory → Nat
  | 0, base, l => Memory.readNat l base 1
  | k + 1, base, l =>
    match l with
    | [] => 0
    | l => gatherCells k base (l.filter (fun c => c.1 < base + 2 ^ k))
        + 2 ^ (8 * 2 ^ k) * gatherCells k (base + 2 ^ k) (l.filter (fun c => base + 2 ^ k ≤ c.1))

def Memory.take20 (m : Memory) (base : Nat) : Nat := gatherCells 20 base (m.filter (fun c => base ≤ c.1 && c.1 < base + 2 ^ 20))

/-- The address of an image slot of a die's pool (`cr.simg`). -/
def slotAddress (s : State) (d : DieId) (slot : Nat) : Nat := ((dieRec s d).sup.simg.extractLsb' 20 32).toNat * 2 ^ 20 + slot * 2 ^ 20

/-- The slots of a die's pool. -/
def poolSize (s : State) (d : DieId) : Nat := ((dieRec s d).sup.simg.extractLsb' 52 12).toNat

/-- A free image slot: the lowest that no image holds. -/
def freeSlot (s : State) (d : DieId) : Option Nat :=
  (List.range (poolSize s d)).find? (fun i => !(dieRec s d).images.any (fun x => x.slot == i))

def freeSlots (s : State) (d : DieId) : Nat :=
  ((List.range (poolSize s d)).filter (fun i => !(dieRec s d).images.any (fun x => x.slot == i))).length

/-! ## Sections -/

/-- A section at a byte offset. -/
def sec (off v : Nat) : Nat := v * 2 ^ (8 * off)

/-- The bytes of a section. -/
def secOf (img off bytes : Nat) : Nat := img / 2 ^ (8 * off) % 2 ^ (8 * bytes)

/-- A doubleword of an image. -/
def dwordAt (img off : Nat) : Word := BitVec.ofNat 64 (secOf img off 8)

def dwords (l : List Word) : Nat := joinVals 64 (l.map (·.toNat))

/-- The counters that an image records for a slot of the focused strand. -/
def savedCtr (s : State) (k : Slot) : List Nat :=
  if isDg k then List.replicate 8 0
  else if k.done then (List.range 8).map (fun j => (groupElems s j).length)
  else k.ctr.toList.map (·.toNat)

/-- What the device keeps of a slot in flight beside the image. -/
def Slot.record (k : Slot) : Kept := ⟨k.done, k.pushed, k.ew, k.shadow, k.abandoned.met⟩

/-- The six slots' records of a strand's convoy in flight. -/
def convoyRecord (s : State) : List Captured :=
  match s.strand.convoy, s.strand.resumed with
  | some ks, _ => ks.map (fun k =>
      { fmtw := k.fmtw, xsv := k.xsv, xbv := k.xbv, rbase := k.rbase
        ctr := Vector.ofFn (fun j : Fin 8 => BitVec.ofNat 16 ((savedCtr s k).getD j.val 0)), staged := k.staged, kept := some k.record })
  | none, some cs => cs
  | none, none => []

/-- The strand section of the focused strand. -/
def strandSection (s : State) : Nat :=
  let x := s.strand
  let cs := convoyRecord s
  let six (f : Captured → Word) : List Word := (List.range 6).map (fun i => ((cs[i]?).map f).getD 0)
  let flags : Word := ofBool (x.convoy.isSome || x.resumed.isSome) ||| (ofBool x.hexited <<< 1)
  sec 0 (dwords ([x.pc] ++ (0 :: x.x.toList.drop 1) ++ x.shadow.toList ++ [x.vl.setWidth 64, x.ew.setWidth 64, flags]))
    + sec 352 (joinVals 16 ((List.range 48).map (fun i => ((cs[i / 8]?).map (fun c => ((c.ctr.toList).getD (i % 8) 0).toNat)).getD 0)))
    + sec 448 (dwords (six (·.fmtw) ++ six (·.xsv) ++ six (·.xbv) ++ six (·.rbase)))

/-- The vector queues in the order of the image. -/
def imageQueues (q : Queues) : List (List QEntry) := q.lq.toList ++ q.sq.toList

/-- The two places of each queue. -/
def queuePlaces (q : Queues) : List (Option QEntry) := (imageQueues q).flatMap (fun es => [es[0]?, es[1]?])

/-- A hart's arrival record for scope c and id (R226). -/
def barrierWord (s : State) (k : HartKey) (c id : Nat) : Word :=
  match s.sched.arrivals.find? (fun a => a.hart == k && a.key.launch == k.launch && a.key.scope.toNat == c && a.key.id.toNat == id) with
  | some a => BitVec.ofNat 64 (a.count % 2 ^ 32) ||| (ofBool a.outstanding <<< 32)
  | none => 0

def pendingWord (u : UserInt) : Word := u.code ++ 1#1 ++ 0#5 ++ u.cword.extractLsb' 0 52

/-- The hart section (R352). -/
def hartSection (s : State) : Nat :=
  let h := s.hart
  let c := h.cr
  let barriers := (List.range 48).map (fun i => barrierWord s h.key (i / 16 + 1) (i % 16))
  let pend := (List.range 16).map (fun i => ((h.pending[i]?).map pendingWord).getD 0)
  let qstate : List Word := (queuePlaces h.q).map (fun e => match e with
    | some e => 1 ||| (ofBool e.full <<< 1) ||| (e.vl.setWidth 64 <<< 16)
    | none => 0)
  dwords ([c.ahead, c.seed, c.rngctr, c.mshape, c.accwin, c.dprog, c.uivec, c.upc, c.ucause, c.utval, c.itlo, c.itcnt, c.itstep, c.launch,
    c.instret, c.dit, h.latch, ofBool h.latchValid] ++ barriers ++ pend ++ qstate)

/-- A stream's 128 bytes. -/
def streamSection (t : Stream) : Nat := sec 0 t.spec.toNat + sec 64 t.queue.toNat + sec 72 t.entry + sec 80 1

/-- xq.ac, xq.ca, their counts, bq.ac, bq.ca and their counts. -/
def scalarQueueSection (q : Queues) : Nat :=
  let bits (l : List Bool) : Nat := joinVals 1 (l.map (·.toNat))
  sec 0 (dwords q.xqAC) + sec 128 (dwords q.xqCA) + sec 256 (joinVals 32 [q.xqAC.length, q.xqCA.length])
    + sec 264 (joinVals 32 [bits q.bqAC, bits q.bqCA]) + sec 272 (joinVals 32 [q.bqAC.length, q.bqCA.length])

/-- The next instruction of the focused strand opens a strip, or the strand has executed `hexit` (R355). -/
def atVsetvl (s : State) : Bool :=
  s.strand.hexited ||
    match fetchBytes s 4 with
    | .error _ => false
    | .ok pas =>
      match decodeWord (BitVec.ofNat 32 (readPas s.mem pas)) with
      | .ok (.vsetvl ..) => true
      | .ok (.vsetvli ..) => true
      | _ => false

/-- R355, with the single or access strand in the focus. -/
def pinned (s : State) : Bool :=
  let free (s : State) : Bool := s.strand.convoy.isNone && s.strand.resumed.isNone && atVsetvl s
  !(free s && (match s.mate with | none => true | some _ => free (focusOn s s.hart.id .compute))
    && (s.mate.isNone || (imageQueues s.hart.q).all (·.isEmpty)))

/-- The image header (R352). -/
def imageHeader (s : State) (reason : Nat) : Nat :=
  let h := s.hart
  let g := h.grant
  let f (lo v : Nat) : Nat := v * 2 ^ lo
  0x494D4731 + f 32 1 + f 40 s.mate.isSome.toNat + f 41 (pinned s).toNat + f 42 reason + f 44 g.groups + f 48 (8 * g.groups)
    + f 56 (if g.vlen = 0 then 0 else Nat.log2 g.vlen) + f 64 g.banks + f 72 g.share + f 80 g.cls + f 96 h.id.toNat + f 112 h.tenant
    + f 128 (((launchOf s h.key.launch).map Launch.addr).getD 0).toNat + f 192 h.key.rank + f 208 h.stash + f 213 h.dg.accs + f 256 (g.vlen / 8)

/-- The whole image of the focused hart, whose single or access strand is in the focus (R352). -/
def imageOf (s : State) (reason : Nat) : Nat :=
  let h := s.hart
  let rbytes := h.grant.vlen / 8
  sec 0 (imageHeader s reason) + sec 0x100 (strandSection s)
    + (match s.mate with | none => 0 | some _ => sec 0x500 (strandSection (focusOn s h.id .compute)))
    + sec 0x900 (hartSection s)
    + sec 0x1000 (joinVals 64 (h.stashMap.map (fun u => 1 + 2 ^ 5 * u.unit + 2 ^ 12 * u.base)))
    + sec 0x1400 ((h.streams.map (fun t => sec (128 * t.num.toNat) (streamSection t))).foldl (· + ·) 0)
    + sec 0x1800 (scalarQueueSection h.q)
    + sec 0x2000 (joinVals (rbytes) (h.regs.m.toList.map (·.toNat)))
    + sec 0x4000 (joinVals (8 * rbytes) (h.regs.v.toList.map (·.toNat)))
    + sec 0x44000 (joinVals 65536 ((queuePlaces h.q).map (fun e => (e.map (·.bits.toNat)).getD 0)))
    + sec 0x74000 h.dg.acc.toNat + sec 0xB4000 h.dg.present.toNat
    + sec 0xB6000 (h.dg.stageA.toNat + 2 ^ 524288 * h.dg.stageB.toNat)

/-! ## The checks of an image (R353) -/

/-- Fields of an image's header. -/
def hdr (img lo n : Nat) : Nat := img / 2 ^ lo % 2 ^ n

def imageStrandOk (img off : Nat) : Bool :=
  let flags := dwordAt img (off + 344)
  let ctrs := (List.range 48).map (fun i => secOf img (off + 352 + 2 * i) 2)
  ctrs.all (· ≤ 8192) && (flags.getLsbD 0 || ctrs.all (· == 0))

/-- Magic, version, the ranges of the header and the counters, and the grant's consistency. -/
def imageOk (img : Nat) : Bool :=
  let groups := hdr img 44 4
  let vlog := hdr img 56 5
  let vlen := if vlog = 0 then 0 else 2 ^ vlog
  let cls := hdr img 80 5
  hdr img 0 32 == 0x494D4731 && hdr img 32 8 == 1 && hdr img 42 2 ≤ 2 && groups ≤ 8 && hdr img 48 7 == 8 * groups
    && (vlog == 0 || (9 ≤ vlog && vlog ≤ 16)) && (vlog == 0) == (groups == 0) && vlen ≤ 8192 * groups
    && hdr img 64 6 == (if vlen = 0 then 0 else bankNeed (hdr img 40 1 == 1) vlen) && hdr img 72 4 ≤ 8
    && (cls == 0 || (9 ≤ cls && cls ≤ 16)) && hdr img 112 7 ≤ 64 && hdr img 208 5 ≤ 16 && hdr img 213 6 ≤ 32
    && hdr img 256 64 == vlen / 8 && imageStrandOk img 0x100 && (hdr img 40 1 == 0 || imageStrandOk img 0x500)

/-! ## The hart that an image holds -/

/-- What the device has kept of a strand beside its image. -/
structure Beside where
  staged : Nat × Nat
  aside  : Option Aside
  ahead  : Option (Word × Word)
  later  : Option Strip
  kept   : List Kept
  unit   : Nat
  strips : Nat
  shape  : Nat × Nat × Nat
  portable : Bool
  deriving DecidableEq, Repr

/-- What an image's record has kept of strand 0 and of strand 1. -/
def Image.beside0 (x : Image) : Beside := ⟨x.staged, x.aside0, x.ahead0, x.later0, x.kept0, x.flight.getD 0, x.strips.1, x.shapes.1, x.portable.1⟩
def Image.beside1 (x : Image) : Beside := ⟨x.staged, x.aside1, x.ahead1, x.later1, x.kept1, 0, x.strips.2, x.shapes.2, x.portable.2⟩

/-- A strand from its section. Where its scalar instructions have got to holds for the convoy at the address it was recorded for; with no convoy in flight
the strip is the last that they opened. -/
def strandFrom (img off : Nat) (k : Beside) : Strand :=
  let d (i : Nat) : Word := dwordAt img (off + i)
  let flags := d 344
  let cap (i : Nat) : Captured :=
    { fmtw := d (448 + 8 * i), xsv := d (496 + 8 * i), xbv := d (544 + 8 * i), rbase := d (592 + 8 * i)
      ctr := Vector.ofFn (fun j : Fin 8 => BitVec.ofNat 16 (secOf img (off + 352 + 16 * i + 2 * j.val) 2)), staged := k.staged, kept := k.kept[i]? }
  let x : Strand :=
  { pc := d 0 &&& ~~~3#64, x := Vector.ofFn (fun i : Fin 32 => if i.val = 0 then 0 else d (8 + 8 * i.val))
    shadow := Vector.ofFn (fun i : Fin 8 => d (264 + 8 * i.val)), vl := (d 328).setWidth 14, ew := (d 336).setWidth 2
    hexited := flags.getLsbD 1, convoy := none, aside := k.aside
    resumed := if flags.getLsbD 0 then some ((List.range 6).map cap) else none
    stall := if flags.getLsbD 1 then some .mateHexit else none
    ahead := if flags.getLsbD 0 then (k.ahead.filter (fun a => a.1 == d 0 &&& ~~~3#64)).map (fun a => (a.2 &&& ~~~3#64, none)) else none
    later := k.later, unit := k.unit
    rows := k.shape.1, rowLen := k.shape.2.1, rowCap := k.shape.2.2, portable := k.portable, lastIssue := 0, resv := none, links := [], strips := k.strips }
  if flags.getLsbD 0 then x else x.lastStrip

/-- The entries of queue n of the image's order. -/
def queueFrom (img n : Nat) : List QEntry :=
  (List.range 2).filterMap (fun i =>
    let st := dwordAt img (0x900 + 656 + 8 * (2 * n + i))
    if st.getLsbD 0 then some { bits := BitVec.ofNat 65536 (secOf img (0x44000 + 8192 * (2 * n + i)) 8192), full := st.getLsbD 1, vl := st.extractLsb' 16 14 }
    else none)

/-- The queues of an image. -/
def queuesFrom (img : Nat) : Queues :=
  let half (off n : Nat) : Nat := secOf img (0x1800 + off + 4 * n) 4
  let bools (v n : Nat) : List Bool := (List.range n).map v.testBit
  { lq := Vector.ofFn (fun i : Fin 8 => queueFrom img i.val), sq := Vector.ofFn (fun i : Fin 4 => queueFrom img (8 + i.val))
    xqAC := (List.range (min 16 (half 256 0))).map (fun i => dwordAt img (0x1800 + 8 * i))
    xqCA := (List.range (min 16 (half 256 1))).map (fun i => dwordAt img (0x1800 + 128 + 8 * i))
    bqAC := bools (half 264 0) (min 32 (half 272 0)), bqCA := bools (half 264 1) (min 32 (half 272 1)) }

/-- `cr.dprog` of an image: it reads 0 unless a convoy is in flight on a strand that may hold a DG slot, the compute or single strand (R13, R216). -/
def dprogFrom (img : Nat) : Word :=
  if (dwordAt img ((if hdr img 40 1 == 1 then 0x500 else 0x100) + 344)).getLsbD 0 then dwordAt img (0x900 + 8 * 5) else 0

/-- The control registers of an image; RO and reserved bits of registers that software writes stay as their maps say. -/
def ctrlFrom (img : Nat) : CtrlRegs :=
  let d (i : Nat) : Word := dwordAt img (0x900 + 8 * i)
  { ahead := d 0, seed := d 1, rngctr := d 2, mshape := d 3, accwin := d 4, dprog := dprogFrom img, uivec := d 6 &&& 0x000FFFFFFFFFFFFD
    upc := d 7 &&& 0x000FFFFFFFFFFFFC, ucause := d 8, utval := d 9, itlo := d 10, itcnt := d 11, itstep := d 12, launch := d 13
    instret := d 14, dit := d 15 }

/-- The pending user interrupts of an image, to the strand that each engine command was issued by: the access or single strand. -/
def pendingFrom (img : Nat) (decoupled : Bool) : List UserInt :=
  (List.range 16).filterMap (fun i =>
    let w := dwordAt img (0x900 + 528 + 8 * i)
    if w.getLsbD 57 then some { access := decoupled, code := w.extractLsb' 58 6, cword := (w.extractLsb' 0 52).setWidth 64 } else none)

/-- A stash unit of an image, mapped again on the core that the hart resumes on (R180). -/
def unitFrom (s : State) (h : HartId) (tenant unit base : Nat) : StashUnit :=
  match checkPage s (.core (dieOf h) (coreOf h)) tenant (BitVec.ofNat 64 (4096 * base)) .read false with
  | .ok (pa, l) => ⟨unit, base, some pa, l.large⟩
  | .error _ => ⟨unit, base, none, false⟩

/-- The registers of an image whose vector registers have r bits each. -/
def regsFrom (img r : Nat) : VecRegs :=
  { v := Vector.ofFn (fun i : Fin 32 => BitVec.ofNat 65536 (img / 2 ^ (8 * 0x4000 + r * i.val) % 2 ^ r))
    m := Vector.ofFn (fun i : Fin 8 => BitVec.ofNat 8192 (img / 2 ^ (8 * 0x2000 + r / 8 * i.val) % 2 ^ (r / 8))) }

/-- The hart of an image, placed at an identity; a hart that is not pinned starts with no grant (R356, R357). -/
def boxFrom (s : State) (x : Image) (img : Nat) (h : HartId) (inPlace : Bool) : HartBox :=
  let dec := hdr img 40 1 == 1
  let vlen := if hdr img 56 5 = 0 then 0 else 2 ^ hdr img 56 5
  let saved : Grant := { share := hdr img 72 4, cls := hdr img 80 5, groups := hdr img 44 4, banks := hdr img 64 6, vlen := vlen, short := false }
  let keep := inPlace || hdr img 41 1 == 1
  let hart : Hart :=
    { live := true, id := h, key := x.key, status := .running, trap := none, trapAccess := false, supervisor := false
      tenant := hdr img 112 7
      regs := (x.held.map (·.1)).getD (regsFrom img (8 * hdr img 256 64))
      q := queuesFrom img
      dg := { acc := BitVec.ofNat 2097152 (secOf img 0x74000 262144), present := BitVec.ofNat 65536 (secOf img 0xB4000 8192)
              stageA := BitVec.ofNat 524288 (secOf img 0xB6000 65536), stageB := BitVec.ofNat 524288 (secOf img 0xC6000 65536), accs := hdr img 213 6 }
      stash := hdr img 208 5
      stashMap := (List.range 128).filterMap (fun i =>
        let w := secOf img (0x1000 + 8 * i) 8
        if w % 2 = 1 then some (unitFrom s h (hdr img 112 7) (w / 2 ^ 5 % 128) (w / 2 ^ 12 % 2 ^ 40)) else none)
      streams := x.streams
      grant := if keep then { saved with short := x.short } else Grant.none
      savedVlen := (x.held.map (·.2)).getD (if keep then 0 else vlen)
      cr := ctrlFrom img, latch := dwordAt img (0x900 + 128), latchValid := (dwordAt img (0x900 + 136)).getLsbD 0
      pending := pendingFrom img dec ++ x.later
      recVlen := ((launchOf s x.key.launch).map (fun l => (headerOf l.record).vlenlog)).getD 0
      units := if (dwordAt img (0x100 + 344)).getLsbD 0 then x.units else x.flight.getD x.units }
  { hart := hart, s0 := strandFrom img 0x100 x.beside0
    s1 := if dec then some (strandFrom img 0x500 x.beside1) else none }

/-! ## Writing the image -/

/-- The 512 tiles of an image slot filled, as the device reaches them (R368). -/
def fillTiles (s : State) (base : Nat) : State := (List.range 512).foldl (fun s i => fillTile s (tileOf base + i)) s

/-- Whether the device's access to an image slot waits: a tile's fill waits, or an engine owns one of its lines (R367, R377). -/
def imageWaits (s : State) (d : DieId) (slot : Nat) : Bool :=
  let base := slotAddress s d slot
  (!s.sealed.held.isEmpty && (List.range 512).any (fun i => fillWaits s (tileOf base + i)))
    || s.coh.home.any (fun h => lineOf base ≤ h.line && h.line < lineOf base + 2 ^ 13 && (match h.st with | .G _ => true | _ => false))

/-- The free image slot of a die that takes the next image, once the device can reach it. -/
def slotReady (s : State) (d : DieId) : Option Nat := (freeSlot s d).filter (fun n => !imageWaits s d n)

/-- The lines of an image slot that the directories name. -/
def slotLines (s : State) (base : Nat) : List HomeLine := s.coh.home.filter (fun h => lineOf base ≤ h.line && h.line < lineOf base + 2 ^ 13)

/-- The poisoned lines of an image slot. -/
def badLines (s : State) (base : Nat) : List Nat :=
  ((slotLines s base).filter (fun h => match h.st with | .P _ => true | _ => false)).map (·.line)

/-- The device's write of an image (R264, R368): the slot's tiles are filled, and those that are not poisoned become dirty (R371); copies of its lines are
recalled, and a poisoned line keeps what it held. -/
def putImage (s : State) (base v : Nat) : State :=
  let s1 := fillTiles s base
  let s2 := ((slotLines s1 base).map (·.line)).foldl touchStoreAll s1
  let s3 := (List.range 512).foldl (fun s i => let t := tileOf base + i; if 2 ≤ (tileRec s t).state then s else markDirty s (16 * t)) s2
  setMem s3 ((badLines s3 base).foldl (fun m l => m.put 7 (128 * l) (Memory.readNat s.mem (128 * l) 128)) (s3.mem.put 20 base v))

/-- The address of a strand's convoy in flight or to be taken up, with where its scalar instructions have got to. -/
def aheadOf (x : Strand) : Option (Word × Word) := if x.convoy.isSome || x.resumed.isSome then x.ahead.map (fun a => (x.pc, a.1)) else none

/-- The records of the slots of a strand's convoy in flight. -/
def keptOf (x : Strand) : List Kept := match x.convoy with
  | some ks => ks.map Slot.record
  | none => (x.resumed.getD []).filterMap (·.kept)

/-- The rows, row length and row capacity of a strand. -/
def stripShape (x : Strand) : Nat × Nat × Nat := (x.rows, x.rowLen, x.rowCap)

/-- What the device keeps of the focused hart beside its image. -/
def imageRecord (s : State) (slot reason : Nat) : Image :=
  let stagedOf (x : Strand) : Nat × Nat := (((x.convoy.getD []).find? isDg).map (·.staged)).getD (((x.resumed.getD []).head?.map (·.staged)).getD (0, 0))
  { slot := slot, key := s.hart.key, reason := reason, inPlace := true, answered := false, owner := s.hart.id, streams := s.hart.streams
    later := s.hart.pending.drop 16
    staged := match s.mate with | none => stagedOf s.strand | some c => stagedOf c
    aside0 := s.strand.aside, aside1 := s.mate.bind (·.aside), ahead0 := aheadOf s.strand, ahead1 := s.mate.bind aheadOf
    later0 := s.strand.later, later1 := s.mate.bind (·.later), kept0 := keptOf s.strand, kept1 := (s.mate.map keptOf).getD []
    flight := s.strand.flight
    held := if s.hart.grant.vlen == 0 && s.hart.savedVlen != 0 then some (s.hart.regs, s.hart.savedVlen) else none, units := s.hart.units
    strips := (s.strand.strips, (s.mate.map (·.strips)).getD 0), short := s.hart.grant.short
    portable := (s.strand.portable, (s.mate.map (·.portable)).getD false), shapes := (stripShape s.strand, (s.mate.map stripShape).getD (0, 0, 1)) }

/-- The image of the focused hart written into a slot of its die's pool. -/
def writeImage (s : State) (slot reason : Nat) : State :=
  let d := myDie s
  let base := slotAddress s d slot
  let s1 := putImage s base (imageOf s reason)
  let x := dieRec s1 d
  setDie s1 d { x with images := x.images ++ [imageRecord s slot reason] }

/-- Whether an image slot lies in memory (R346, R374). -/
def slotExists (s : State) (d : DieId) (slot : Nat) : Bool := isMappable (slotAddress s d slot) && isMappable (slotAddress s d slot + 2 ^ 20 - 1)

end Sys2Proof.Machine
end

