-- ==== Sys2Proof/Machine/Stopping.lean ====
section
/-! DEFINITION. Stopping a hart, its trap record, and the end of a launch that fails (R189, R243, R346 to R350, R354). -/

namespace Sys2Proof.Machine

/-! ## The end of a launch -/

/-- A command ended at once (R189 cause 6), or with the word that it still had to store: it gives up its lines, and its places behind other engines. -/
def endCommand (s : State) (c : Command) : State :=
  let rest := s.sched.commands.filter (fun x => x.id != c.id)
  let s1 := c.lines.foldl (fun s l => withdrawClaim s l c.id) { s with sched := { s.sched with commands := rest } }
  putCompletion s1 c.die c.tenant (c.desc.extractLsb' 0 64) (c.word.getD (failWord 6 0))

/-- A command abandoned with its launch (R189 cause 6): it ends, or where its completion word cannot be stored yet it keeps that, and raises no interrupt
for the hart that is gone. -/
def abandonCommand (s : State) (c : Command) : State :=
  let s1 := keepWord s c (c.word.getD (failWord 6 0)) (c.desc &&& ~~~(1#512 <<< 480))
  if wordWaits s1 { c with lines := [] } then s1 else endCommand s c

/-- A hart ends with its launch: its waits are abandoned and its slot is free. Its banks stay free; they rejoin the L1 at a drained `hexit` only
(R28). -/
def endHart (s : State) (b : HartBox) : State := removeHart (withdraw s b.hart.key) b.hart.id

/-- The images of a launch that owe no answer are dropped; those whose trap record stands keep their slot until it is answered. -/
def dropImages (s : State) (l : Nat) : State :=
  { s with dies := s.dies.map (fun x => { x with images := x.images.filter (fun i => i.key.launch != l || x.unanswered.contains i.slot) }) }

/-- A launch fails: its harts and commands end, and its completion word will record the cause (R243). -/
def failLaunch (s : State) (l cause owner : Nat) : State :=
  match launchOf s l with
  | none => s
  | some x =>
    if x.failed.isSome then s
    else
      let mine := (boxes s).filter (fun b => b.hart.key.launch == l)
      let s1 := (s.sched.commands.filter (fun c => c.hart.launch == l)).foldl abandonCommand s
      let s2 := mine.foldl endHart s1
      let s3 := dropImages (setLaunch s2 { x with failed := some (cause, owner) }) l
      { s3 with
        sched := { s3.sched with queued := s3.sched.queued.filter (fun q => q.launch != l), crews := s3.sched.crews.filter (fun c => c.launch != l) }
        inputs := s3.inputs ++ [Instr.launchCompletion l] }

/-! ## Stopping (R347) -/

/-- Whether a crew holds a hart. -/
def Crew.holds (c : Crew) (k : HartKey) : Bool := c.die == k.die && c.launch == k.launch && c.first ≤ k.rank && k.rank < c.first + c.size

/-- Every hart of a running crew is asked to stop (R342, R347 pre-emption); a hart already stopped by its trap leaves its slot with it. -/
def preempt (s : State) (c : Crew) : State :=
  let ask (b : HartBox) : Bool := c.holds b.hart.key && (b.hart.status == .running || b.hart.status == .held)
  let out (b : HartBox) : Bool := c.holds b.hart.key && b.hart.trap.isNone && (match b.hart.status with | .stopped 1 _ => true | _ => false)
  let asked := ((boxes s).filter ask).map (·.hart.id)
  let gone := ((boxes s).filter out).map (·.hart.id)
  let s1 := mapBoxes s (fun b => if ask b then { b with hart := { b.hart with status := .stopping 0 } } else b)
  let s2 := gone.foldl removeHart s1
  { s2 with
    sched := { s2.sched with crews := s2.sched.crews.map (fun x => if x.holds ⟨c.launch, c.die, c.first⟩ then { x with waiting := true, preempted := true } else x) }
    dies := s2.dies.map (fun x => { x with images := x.images.map (fun i => if gone.contains i.owner && c.holds i.key then { i with inPlace := false } else i) })
    inputs := s2.inputs ++ asked.map (fun h => Instr.hartStop h) }

/-- A strand as a stop leaves it: waits abandoned, reservation and links cleared. -/
def Strand.halted (x : Strand) : Strand :=
  { x with
    stall := if x.hexited then some .mateHexit else none, convoy := x.convoy.map (fun ks => ks.map Slot.abandoned)
    ahead := x.ahead.map (fun a => (a.1, none)), resv := none, links := [] }

/-- Steps 1 to 4 of R347 on the focused hart. -/
def haltHart (s : State) : State :=
  let s1 := withdraw s s.hart.key
  let s2 := (s1.hart.stashMap.flatMap (unitLines s1)).foldl writeBack s1
  { s2 with strand := s2.strand.halted, mate := s2.mate.map Strand.halted }

/-- A hart stopped by pre-emption or an armature stop leaves its slot and waits with its crew; one stopped by its trap stays (R354). -/
def leaveSlot (s : State) (slot reason : Nat) : State :=
  let h := s.hart.id
  let k := s.hart.key
  if reason = 1 then { s with hart := { s.hart with status := .stopped 1 slot } }
  else
    let d := myDie s
    let s1 := removeHart s h
    let x := dieRec s1 d
    let s2 := setDie s1 d { x with images := x.images.map (fun i => if i.slot == slot then { i with inPlace := false, answered := true } else i) }
    { s2 with sched := { s2.sched with crews := s2.sched.crews.map (fun c => if c.holds k then { c with waiting := true } else c) } }

/-- Instructions that stop at the points of R33 and R217 within the strip: those of VA, VB and VM that act element by element, the plain loads, stores
and translations of elements, and the sweeps. VX runs whole by R33, the other DG instructions by R217, and `vsc` and `vscc` by R172. In the
model so do the instructions of VM and LS whose result depends on elements together: the strip's end is their stop point (DESIGN CHOICE, log entry
85). -/
def stopsWithin : Instr → Bool
  | .dsweep .. | .dsweepf .. | .spsweep .. | .spsweepf .. => true
  | .mand .. | .mor .. | .mxor .. | .mandn .. | .mnot .. | .mmov .. | .mset .. => true
  | .vld .. | .vlds .. | .vldx .. | .vldxo .. | .vst .. | .vsts .. | .vstx .. | .vstxo .. | .vgl .. | .vxlate .. => true
  | i => match (infoOf i).map (·.unit) with
    | some 0 | some 1 => true
    | _ => false

/-- Whether a slot would overwrite, at another width, a register that it still has elements to read of (R6, R151). -/
def overwrites (s : State) (k : Slot) : Bool :=
  match infoOf k.instr with
  | some i =>
    let w := fmtOf s k (i.fmt.getD 0)
    i.fmt.isSome && i.dst.any i.srcs.contains && [w.a, w.b, w.c].any (fun c => fmtWidth c != fmtWidth w.d)
  | none => false

/-- Whether the strand that is to stop has a slot under way that goes on to a stop point (step 2 of R347). A strand that trapped stays where it is, and
beside it no slot of the LS or DG unit goes on, since it could trap (R349, log entry 85). -/
def goesToStop (s : State) (reason : Nat) : Option Instr :=
  if s.strand.stall.isSome then none
  else
    match s.strand.convoy.bind (fun ks => nextSlot ks 0) with
    | some (_, k) =>
      if k.stop.isSome || !stopsWithin k.instr || overwrites s k then none
      else if reason == 1 && (s.hart.trapAccess == (s.role == .access) || [some 4, some 5].contains ((infoOf k.instr).map (·.unit))) then none
      else some k.instr
    | none => none

/-- The next slot of the focused strand is asked to stop, at points that the free value chooses. -/
def askSlot (s : State) : State :=
  match s.strand.convoy with
  | some ks =>
    match nextSlot ks 0 with
    | some (n, k) => bump (setConvoy s (some (ks.set n { k with stop := some s.fresh })))
    | none => s
  | none => s

/-- A strand of a hart that stops, with the slot that it still takes to its stop point. -/
def slotToStop (s : State) (h : HartId) (reason : Nat) : Option (State × Instr) :=
  ([Role.access, Role.compute].map (focusOf s h)).findSome? (fun t => t.bind (fun t => (goesToStop t reason).map (fun i => (askSlot t, i))))

/-- A hart that has been asked to stop takes the slots under way to their stop points, and stops once its die has a free image slot that the
device can reach (R346, R347, R367). -/
def execHartStop (h : HartId) (s : State) : Result :=
  match focusOf s h .access with
  | none => .next s
  | some t =>
    match t.hart.status with
    | .stopping reason =>
      match slotToStop s h reason with
      | some (u, i) => .next { u with inputs := i :: .hartStop h :: u.inputs }
      | none =>
        match slotReady t (myDie t) with
        | none => .next (haltHart t)
        | some slot =>
          if slotExists t (myDie t) slot then .next (leaveSlot (writeImage (haltHart t) slot reason) slot reason)
          else .fault (.noMemory (slotAddress t (myDie t) slot))
    | _ => .next s

/-! ## The trap record (R350) -/

/-- Records that the trap queue of a die holds. -/
def queueLimit (s : State) (d : DieId) : Nat := 16 * 2 ^ ((dieRec s d).sup.strapq.extractLsb' 0 4).toNat

/-- The 64 bytes of a record. -/
def recordBits (s : State) (h : Hart) (access : Bool) (t : Trap) (slot seq : Nat) : Nat :=
  let f (lo v n : Nat) : Nat := v % 2 ^ n * 2 ^ lo
  f 0 t.value.toNat 64 + f 64 t.pc.toNat 64 + f 128 t.elem 16 + f 144 t.slot 3 + f 147 access.toNat 1 + f 148 t.cls 4 + f 152 t.sub 8
    + f 160 h.id.toNat 11 + f 176 slot 12 + f 192 (((launchOf s h.key.launch).map Launch.addr).getD 0).toNat 64 + f 256 h.tenant 7
    + f 272 t.entry 16 + f 288 t.stream 3 + f 291 t.sflag.toNat 1 + f 320 seq 64

/-- The record's address: entry seq modulo the queue's size, in the supervisor's address space. -/
def recordAddress (s : State) (d : DieId) : Word :=
  ((dieRec s d).sup.strapq &&& 0x000FFFFFFFFFF000) + BitVec.ofNat 64 (64 * ((dieRec s d).trapSeq % queueLimit s d))

/-- After its record a hart whose crew has been pre-empted leaves its slot (R349). -/
def afterRecord (s : State) (b : HartBox) (slot : Nat) : State :=
  if s.sched.crews.any (fun c => c.holds b.hart.key && c.preempted) then
    let s1 := removeHart s b.hart.id
    let d := dieOf b.hart.id
    let x := dieRec s1 d
    setDie s1 d { x with images := x.images.map (fun i => if i.slot == slot then { i with inPlace := false } else i) }
  else s

/-- The record of a stopped hart's trap, once fewer records than the queue holds are unanswered; a queue that the device cannot write
leaves the hart as it is. -/
def execTrapRecord (h : HartId) (s : State) : Result :=
  match boxOf s h with
  | none => .next s
  | some b =>
    match b.hart.status, b.hart.trap with
    | .stopped _ slot, some t =>
      let d := dieOf h
      if queueLimit s d ≤ (dieRec s d).unanswered.length || unitWaits s d 0 (recordAddress s d) 64 .write then .next s
      else
        match unitStore s d 0 (recordAddress s d) 64 (recordBits s b.hart b.hart.trapAccess t slot (dieRec s d).trapSeq) with
        | .error _ => .next s
        | .ok s1 =>
          let x := dieRec s1 d
          let s2 := setDie s1 d { x with trapSeq := x.trapSeq + 1, unanswered := slot :: x.unanswered }
          .next (afterRecord (onHart s2 h (fun b => { b with hart := { b.hart with trap := none } })) b slot)
    | _, _ => .next s

end Sys2Proof.Machine
end

