-- ==== Sys2Proof/Machine/Placement.lean ====
section
/-! DEFINITION. The dispatch unit (R20 to R23, R228, R237 to R242, R336 to R343, R354 to R357): wait conditions, queues, placement and hart
start, pre-emption by priority, and resuming. -/

namespace Sys2Proof.Machine

/-! ## Wait conditions (R238, R337) -/

/-- One read of a condition: none when the read faults. -/
def condHolds (s : State) (d : DieId) (tenant : Nat) (w : WaitCond) : Option Bool :=
  match unitLoad s d tenant w.addr w.size with
  | .error _ => none
  | .ok v => some (waitHolds w.cmp (8 * w.size) v w.value)

/-- An evaluation: the index of the first condition whose read faults, or whether all hold. While a condition's line is an engine's, its read waits there. -/
def evaluate (s : State) (d : DieId) (tenant : Nat) (ws : List WaitCond) : Nat ⊕ Bool :=
  if ws.any (fun w => unitWaits s d tenant w.addr w.size .read) then .inr false
  else match (List.range ws.length).find? (fun i => (ws[i]?.bind (condHolds s d tenant)).isNone) with
  | some i => .inl i
  | none => .inr (ws.all (fun w => condHolds s d tenant w == some true))

/-- Whether a launch waits in the pool and is not ready. -/
def waits (s : State) (l : Nat) : Bool := s.sched.queued.any (fun q => q.launch == l && q.pooled && !q.ready)

/-- A launch becomes ready; its number among the ready ones is the next place. -/
def makeReady (s : State) (l : Nat) : State :=
  { s with sched := { s.sched with
      queued := s.sched.queued.map (fun q => if q.launch == l && q.pooled then { q with ready := true, entry := s.sched.nextEntry } else q)
      nextEntry := s.sched.nextEntry + 1 } }

def execWaitConditionEvaluation (l : Nat) (s : State) : Result :=
  match launchOf s l with
  | none => .next s
  | some x =>
    if waits s l then
      match evaluate s (leadDie x) x.tenant (waitsOf x.record) with
      | .inl i =>
        let w := (waitsOf x.record).getD i default
        .next (failLaunch (unitReach s (leadDie x) x.tenant w.addr w.size) l 12 i)
      | .inr true => .next (makeReady s l)
      | .inr false => .next s
    else .next s

/-- The first ready launch of a die's pool for a level. -/
def firstReady (s : State) (d : DieId) (level : Nat) : Option Queued :=
  (s.sched.queued.filter (fun q => q.die == d && q.pooled && q.ready && q.level == level)).foldl
    (fun (a : Option Queued) q => match a with | none => some q | some b => if q.entry < b.entry then some q else some b) none

/-- Whether a die's queue of a level has room. -/
def queueFits (s : State) (d : DieId) (level : Nat) : Bool := queueCount s d level < 256

/-- A ready launch enters its queue on a die; that moment is its place of entry there (R337, R338). -/
def enterQueue (s : State) (d : DieId) (l : Nat) : State :=
  { s with sched := { s.sched with
      queued := s.sched.queued.map (fun q => if q.launch == l && q.die == d then { q with pooled := false, entry := s.sched.nextEntry } else q)
      nextEntry := s.sched.nextEntry + 1 } }

def execReadyLaunchEntry (d : DieId) (level : BitVec 3) (s : State) : Result :=
  match firstReady s d level.toNat with
  | none => .next s
  | some q => if queueFits s d level.toNat then .next (enterQueue s d q.launch) else .next s

/-! ## Hart start (R21, R23, R241, R242) -/

/-- The rank of a die among the participants. -/
def dieRank (l : Launch) (d : DieId) : Nat := (l.dies.filter (fun x => x.toNat < d.toNat)).length

/-- The level spatial over cores. -/
def coreLevel (r : BitVec 2048) : Option Level := (levelsOf r).find? (fun l => l.kind == 1)

/-- Iterations that rank r of H owns of T in blocks of b (R21). -/
def ownedCount (t b h r : Nat) : Nat :=
  let blocks := (t + b - 1) / b
  if blocks ≤ r then 0
  else
    let mine := (blocks - 1 - r) / h + 1
    if (blocks - 1) % h = r then mine * b - (blocks * b - t) else mine * b

/-- The control registers a hart starts with. -/
def startRegs (l : Launch) (d : DieId) (r : Nat) : CtrlRegs :=
  let h := headerOf l.record
  let n := hartsPerDie l
  let k := dieRank l d
  let c := { CtrlRegs.reset with
    ahead := if h.decoupled then 16 else 0, seed := h.seed, rngctr := h.ctr + BitVec.ofNat 64 ((k * n + r) * 2 ^ 44)
    launch := BitVec.ofNat 64 (r * 2 ^ 56 + k * 2 ^ 5 + (l.dies.length - 1)) ||| (l.addr &&& 0x000FFFFFFFFFFF00)
    dit := ofBool h.dit }
  match coreLevel l.record with
  | none => { c with itlo := 0, itcnt := 1, itstep := 0x0000000100000001 }
  | some v => { c with
      itlo := BitVec.ofInt 64 (v.lo + v.block * r), itcnt := BitVec.ofNat 64 (ownedCount v.count v.block n r)
      itstep := BitVec.ofNat 64 (v.block * 2 ^ 32 + n * v.block % 2 ^ 32) }

/-- A hart at its start (R23, R362). -/
def startBox (l : Launch) (h : HartId) (r : Nat) : HartBox :=
  let f := headerOf l.record
  let d := dieOf h
  { hart := { Hart.empty with
      live := true, id := h, key := ⟨l.id, d, r⟩, status := if l.seq.isSome then .held else .running, tenant := l.tenant
      dg := { Hart.empty.dg with accs := f.accs }, stash := f.stash, cr := startRegs l d r, recVlen := if f.vlenlog = 0 then 0 else f.vlenlog }
    s0 := Strand.start (f.pc0 &&& ~~~3#64), s1 := if f.decoupled then some (Strand.start (f.pc1 &&& ~~~3#64)) else none }

/-! ## Eligible cores (R339, R356) -/

/-- What a core holds. -/
def coreStash (s : State) (d : DieId) (c : CoreId) : Nat := sumOf ((coreHarts s d c).map (·.stash))
def coreAccs (s : State) (d : DieId) (c : CoreId) : Nat := sumOf ((coreHarts s d c).map (·.dg.accs))
def coreGroups (s : State) (d : DieId) (c : CoreId) : Nat := sumOf ((coreHarts s d c).map (·.grant.groups))
def coreGrantBanks (s : State) (d : DieId) (c : CoreId) : Nat := sumOf ((coreHarts s d c).map (·.grant.banks))

/-- What a crew needs: hart slots, stash and accumulator units, and for pinned harts their saved groups and banks. -/
structure Need where
  harts : Nat
  stash : Nat
  accs  : Nat
  groups : Nat
  banks : Nat
  /-- the core that a hart of the crew still stands on -/
  core  : Option CoreId
  deriving DecidableEq, Repr, Inhabited

/-- Whether a core can take a crew, the harts in `gone` not counted. -/
def eligible (s : State) (d : DieId) (n : Need) (c : CoreId) : Bool :=
  let r := coreRec s d c
  let used := (coreHarts s d c).length
  !r.draining && n.core.all (· == c) && used + n.harts ≤ 4 && used + n.harts ≤ workingGroups r
    && banksHeld s d c + n.stash + n.banks ≤ 48 && coreStash s d c + n.stash ≤ 16 && coreAccs s d c + n.accs ≤ 32
    && coreGroups s d c + n.groups ≤ workingGroups r && (n.banks == 0 || coreGrantBanks s d c + n.banks ≤ bankLimit s d)

/-- Banks of a core that are in no use. -/
def freeBanks (s : State) (d : DieId) (c : CoreId) : Nat := 64 - (coreRec s d c).l1Banks - banksHeld s d c

/-- Crews on a core. -/
def coreCrews (s : State) (d : DieId) (c : CoreId) : Nat :=
  (s.sched.crews.filter (fun x => x.die == d && x.core == c && !x.waiting)).length

/-- Whether a core is chosen before another: most free hart slots, most free banks, fewest crews, lowest number. -/
def corePref (s : State) (d : DieId) (a b : CoreId) : Bool :=
  let key (c : CoreId) : List Nat := [(coreHarts s d c).length, 64 - freeBanks s d c, coreCrews s d c, c.toNat]
  key a < key b

/-- The core chosen for a crew. -/
def pickCore (s : State) (d : DieId) (n : Need) : Option CoreId :=
  (allCores.filter (eligible s d n)).foldl (fun (a : Option CoreId) c => match a with | none => some c | some b => if corePref s d c b then some c else some b) none

/-- Free hart slots of a core, ascending. -/
def freeHartSlots (s : State) (d : DieId) (c : CoreId) : List HartId :=
  ((List.range 4).map (fun i => d ++ c ++ BitVec.ofNat 2 i)).filter (fun h => (boxOf s h).isNone)

/-! ## Placing a crew -/

/-- The least of some launches by a number. -/
def leastBy (f : Queued → Nat) (l : List Queued) : Option Queued :=
  l.foldl (fun (a : Option Queued) q => match a with | none => some q | some b => if f q < f b then some q else some b) none

/-- The package sequence number of a launch under the armature (R341). -/
def seqOf (s : State) (q : Queued) : Option Nat := (launchOf s q.launch).bind (·.seq)

/-- The oldest launch of a level of a die that has a crew to place (R338). -/
def oldestAt (s : State) (d : DieId) (level : Nat) : Option Queued :=
  leastBy (·.entry) (s.sched.queued.filter (fun q => q.die == d && q.level == level && inQueue s q))

/-- The launch of a level under the armature that has a crew to place on a die and the lowest sequence number, in the queue or not (R341). -/
def lowestSeq (s : State) (d : DieId) (level : Nat) : Option Queued :=
  leastBy (fun x => (seqOf s x).getD 0) (s.sched.queued.filter (fun q => q.die == d && q.level == level && (seqOf s q).isSome && toPlace s q))

/-- The launch a die's dispatch unit serves at a level: the oldest that has a crew to place (R339). Where that is one under the armature, the one with
the lowest sequence number takes its turn, also out of the pool once it is ready; until then the level waits for it (R341, log entry 102). -/
def servedAt (s : State) (d : DieId) (level : Nat) : Option Queued :=
  match oldestAt s d level with
  | none => none
  | some q => if (seqOf s q).isSome then (lowestSeq s d level).filter (fun x => !x.pooled || x.ready) else some q

/-- The highest level of a die that is not empty. -/
def topLevel (s : State) (d : DieId) : Option Nat := [7, 6, 5, 4, 3, 2, 1, 0].find? (fun l => (oldestAt s d l).isSome)

def served (s : State) (d : DieId) : Option Queued := (topLevel s d).bind (servedAt s d)

/-- The images of a crew. -/
def crewImages (s : State) (c : Crew) : List Image :=
  (dieRec s c.die).images.filter (fun i => i.key.launch == c.launch && c.first ≤ i.key.rank && i.key.rank < c.first + c.size && !i.inPlace)

def imageBits (s : State) (d : DieId) (slot : Nat) : Nat := s.mem.take20 (slotAddress s d slot)

/-- Whether the device can read an image: no line of its slot is poisoned, once its tiles are filled (R264, R368). -/
def imageReadable (s : State) (d : DieId) (slot : Nat) : Bool := (badLines (fillTiles s (slotAddress s d slot)) (slotAddress s d slot)).isEmpty

/-- Whether an image may be resumed (R353): it can be read, and passes the device's check. -/
def imageGood (s : State) (d : DieId) (slot : Nat) : Bool := imageReadable s d slot && imageOk (imageBits s d slot)

/-- What a stopped crew needs to be placed again: by its images, of which one that cannot be resumed asks for nothing (R264). -/
def needAgain (s : State) (c : Crew) : Need :=
  let is := crewImages s c
  let imgs := is.map (fun i => if imageGood s c.die i.slot then imageBits s c.die i.slot else 0)
  let pins := imgs.filter (fun v => hdr v 41 1 == 1)
  let stays := (boxes s).find? (fun b => c.holds b.hart.key)
  { harts := is.length, stash := sumOf (imgs.map (hdr · 208 5)), accs := sumOf (imgs.map (hdr · 213 6)), groups := sumOf (pins.map (hdr · 44 4))
    banks := sumOf (pins.map (hdr · 64 6)), core := stays.map (fun b => coreOf b.hart.id) }

def needNew (l : Launch) : Need :=
  let h := headerOf l.record
  { harts := h.crew, stash := h.crew * h.stash, accs := h.crew * h.accs, groups := 0, banks := 0, core := none }

/-- Whether an armature launch's crews on every die are placed and none waits. -/
def allPlaced (s : State) (l : Launch) : Bool :=
  l.dies.all (fun d => (headerOf l.record).crews ≤ placedOn l d) && !s.sched.crews.any (fun c => c.launch == l.id && c.waiting)
    && allDies.all (fun d => (dieRec s d).images.all (fun i => i.key.launch != l.id))

/-- The armature starts its broadcast when every crew is placed (R38, R341). -/
def startArmature (s : State) (l : Nat) : State :=
  match launchOf s l with
  | none => s
  | some x =>
    if x.seq.isSome && allPlaced s x then
      setLaunch (mapBoxes s (fun b => if b.hart.key.launch == l && b.hart.status == .held then { b with hart := { b.hart with status := .running } } else b))
        { x with started := true }
    else s

/-- A crew of new harts on a core (R21): the next ranks, ascending hart slots. A hart's start is an acquire (R260). -/
def placeNew (s : State) (l : Launch) (d : DieId) (c : CoreId) : State :=
  let n := (headerOf l.record).crew
  let first := placedOn l d * n
  let hs := (freeHartSlots s d c).take n
  let s1 := ((hs.zipIdx).map (fun p => startBox l p.1 (first + p.2))).foldl addHart (dropCopies s d c (fun _ => true))
  let crew : Crew := { die := d, core := c, launch := l.id, first := first, size := n, placedAt := s.sched.nextEntry, waiting := false, preempted := false }
  let s2 := { s1 with sched := { s1.sched with crews := s1.sched.crews ++ [crew], nextEntry := s1.sched.nextEntry + 1 } }
  let s3 := setLaunch s2 { l with placed := (d, placedOn l d + 1) :: l.placed.filter (fun p => p.1 != d) }
  startArmature (takeBanks s3 d c) l.id

/-- The hart of an image takes a slot; its image slot is free (R354). -/
def placeImage (s : State) (i : Image) (d : DieId) (h : HartId) : State :=
  let b := boxFrom s i (imageBits s d i.slot) h false
  let held := underArmature s i.key.launch
  let s1 := addHart s { b with hart := { b.hart with status := if held then .held else .running } }
  let x := dieRec s1 d
  setDie s1 d { x with images := x.images.filter (fun y => y.slot != i.slot) }

/-- A stopped crew is placed again on a core; an image that fails its check ends the launch with cause 7 (R353, R356). -/
def placeAgain (s : State) (w : Crew) (c : CoreId) : State :=
  let is := crewImages s w
  let s := is.foldl (fun s i => fillTiles s (slotAddress s w.die i.slot)) s
  match is.find? (fun i => !imageGood s w.die i.slot) with
  | some i => failLaunch s w.launch 7 i.owner.toNat
  | none =>
    let hs := freeHartSlots s w.die c
    let s1 := (is.zip hs).foldl (fun s p => placeImage s p.1 w.die p.2) (dropCopies s w.die c (fun _ => true))
    let s2 := { s1 with sched := { s1.sched with
      crews := s1.sched.crews.map (fun x => if x == w then { x with core := c, waiting := false, preempted := false, placedAt := s1.sched.nextEntry } else x)
      nextEntry := s1.sched.nextEntry + 1 } }
    startArmature (takeBanks s2 w.die c) w.launch

/-- R228: channels that a launch claims are free, or its own, on a die. -/
def channelsFree (s : State) (l : Launch) (d : DieId) : Bool :=
  s.sched.channels.all (fun c => c.die != d || c.launch == l.id || !(headerOf l.record).chans.getLsbD c.num.toNat)

def claimChannels (s : State) (l : Launch) (d : DieId) : State :=
  if s.sched.channels.any (fun c => c.die == d && c.launch == l.id) then s
  else
    let new := ((List.range 32).filter (headerOf l.record).chans.getLsbD).map
      (fun n => { die := d, launch := l.id, num := BitVec.ofNat 5 n, front := -1, posted := [] : Channel })
    { s with sched := { s.sched with channels := s.sched.channels ++ new } }

/-- R386: a rendezvous line for a launch under the armature. -/
def lineFree (s : State) (l : Launch) : Bool :=
  l.seq.isNone || !l.placed.isEmpty || (s.sched.launches.filter (fun x => x.seq.isSome && !x.placed.isEmpty)).length < 8

/-- A launch keeps no chosen core any more. -/
def untarget (s : State) (q : Queued) : State :=
  { s with sched := { s.sched with
      queued := s.sched.queued.map (fun x => if x.launch == q.launch && x.die == q.die then { x with target := none } else x) } }

/-- The core that takes a launch's next crew: the one on which victims have been pre-empted for it, once they have stopped (R342); else the one of R339. -/
def coreFor (s : State) (q : Queued) (n : Need) : Option CoreId :=
  match q.target with
  | some c =>
    if eligible s q.die n c then some c
    else if (coreHarts s q.die c).any (fun h => match h.status with | .stopping _ => true | _ => false) then none
    else pickCore s q.die n
  | none => pickCore s q.die n

/-- The next crew of the launch a die serves: the core that takes it, and the machine after its placement; none when no core can, or while the device cannot
reach an image of the crew. -/
def placement (s : State) (d : DieId) : Option State :=
  match served s d with
  | none => none
  | some q =>
    match launchOf s q.launch with
    | none => none
    | some l =>
      match (waitingCrews s d l.id).head? with
      | some w =>
        if (crewImages s w).any (fun i => imageWaits s d i.slot) then none else (coreFor s q (needAgain s w)).map (placeAgain (untarget s q) w)
      | none =>
        if channelsFree s l d && lineFree s l then (coreFor s q (needNew l)).map (placeNew (claimChannels (untarget s q) l d) l d)
        else none

/-- A crew of the oldest launch of the highest level is placed on an eligible core. -/
def execCrewPlacement (d : DieId) (s : State) : Result :=
  if dieFull s d then
    match placement s d with
    | some t => .next t
    | none => .next s
  else .next s

/-! ## Pre-emption by priority (R342, R343, R346) -/

/-- The sublists of a list. -/
def subsets {α : Type} : List α → List (List α)
  | [] => [[]]
  | a :: l => subsets l ++ (subsets l).map (a :: ·)

/-- The level and place of entry of a crew's launch on a die. -/
def crewLevel (s : State) (c : Crew) : Nat := ((s.sched.queued.find? (fun q => q.die == c.die && q.launch == c.launch)).map (·.level)).getD 0
def crewEntry (s : State) (c : Crew) : Nat := ((s.sched.queued.find? (fun q => q.die == c.die && q.launch == c.launch)).map (·.entry)).getD 0

/-- The harts of a crew that hold slots. -/
def crewHarts (s : State) (c : Crew) : List HartId := ((boxes s).filter (fun b => c.holds b.hart.key)).map (·.hart.id)

/-- Whether a crew has a hart on its core that a pre-emption would stop: one that waits after an armature stop too, for the harts that a trap has stopped
there (R354, R396). -/
def stoppable (s : State) (x : Crew) : Bool :=
  !x.preempted && (boxes s).any (fun b => x.holds b.hart.key && (match b.hart.status with | .running | .held | .stopped 1 _ => true | _ => false))

/-- The crews of lower levels on a core. -/
def preemptible (s : State) (d : DieId) (level : Nat) (c : CoreId) : List Crew :=
  s.sched.crews.filter (fun x => x.die == d && x.core == c && stoppable s x && crewLevel s x < level)

/-- The machine as it would be for placement with some crews gone. -/
def withoutCrews (s : State) (cs : List Crew) : State := (cs.flatMap (crewHarts s)).foldl removeHart s

/-- Harts of a set of crews. -/
def setHarts (s : State) (cs : List Crew) : Nat := (cs.flatMap (crewHarts s)).length

/-- Whether one set of victims is chosen before another, by the keys of R342. -/
def victimPref (s : State) (a b : List Crew × CoreId) : Bool :=
  let top (cs : List Crew) : Nat := (cs.map (crewLevel s)).foldl max 0
  let entries (cs : List Crew) : List Nat := (cs.map (crewEntry s)).mergeSort (· ≤ ·)
  let last (cs : List Crew) : Nat := (cs.map (·.placedAt)).foldl max 0
  let ea := entries a.1
  let eb := entries b.1
  match (ea.zip eb).find? (fun p => p.1 != p.2) with
  | d =>
    let young := match d with | some p => p.2 < p.1 | none => false
    let old := match d with | some p => p.1 < p.2 | none => false
    let na := setHarts s a.1
    let nb := setHarts s b.1
    na < nb || (na == nb && (top a.1 < top b.1 || (top a.1 == top b.1 && (young || (!old && (a.2.toNat < b.2.toNat
      || (a.2 == b.2 && last b.1 < last a.1)))))))

/-- The crews that go: a victim under the armature takes its whole launch with it (R38). -/
def wholeVictims (s : State) (cs : List Crew) : List Crew :=
  s.sched.crews.filter (fun x => !x.preempted && cs.any (fun c => x == c || (x.launch == c.launch && underArmature s c.launch)))

/-- Whether the image pools have as many free slots as the victim crews have harts (R346). -/
def poolsHold (s : State) (cs : List Crew) : Bool :=
  allDies.all (fun d => setHarts s ((wholeVictims s cs).filter (fun c => c.die == d)) ≤ freeSlots s d)

/-- The sets of victims on one core that would make it eligible, with the fewest harts among them (R342). -/
def setsOn (s : State) (d : DieId) (level : Nat) (n : Need) (c : CoreId) : List (List Crew) :=
  let sets := (subsets (preemptible s d level c)).filter (fun cs => !cs.isEmpty && eligible (withoutCrews s cs) d n c)
  sets.filter (fun a => sets.all (fun b => setHarts s a ≤ setHarts s b))

/-- The victims for a crew of a level that no core can take, and the core they stand on. -/
def victimsFor (s : State) (d : DieId) (level : Nat) (n : Need) : Option (List Crew × CoreId) :=
  (allCores.flatMap (fun c => (setsOn s d level n c).map (fun cs => (cs, c)))).foldl
    (fun (a : Option (List Crew × CoreId)) x => match a with | none => some x | some b => if victimPref s x b then some x else some b) none

/-- What the next crew of a die's served launch needs. -/
def needOf (s : State) (d : DieId) (l : Launch) : Need :=
  match (waitingCrews s d l.id).head? with
  | some w => needAgain s w
  | none => needNew l

/-- The core on which a launch's next crew is to be placed. -/
def setTarget (s : State) (q : Queued) (c : CoreId) : State :=
  { s with sched := { s.sched with
      queued := s.sched.queued.map (fun x => if x.launch == q.launch && x.die == q.die then { x with target := some c } else x) } }

/-- The end of a grace period of the oldest launch of a level: placement is tried again, and then the victims that R342
chooses are pre-empted, if the image pools hold them (R346); the waiting crew takes their core. -/
def execGracePeriodExpiry (d : DieId) (level : BitVec 3) (s : State) : Result :=
  match served s d with
  | none => .next s
  | some q =>
    if q.level != level.toNat then .next s
    else
      match placement s d, launchOf s q.launch with
      | some t, _ => .next t
      | none, some l =>
        if channelsFree s l d && lineFree s l then
          match victimsFor s d q.level (needOf s d l) with
          | some (cs, c) => if poolsHold s cs then .next ((wholeVictims s cs).foldl preempt (setTarget s q c)) else .next s
          | none => .next s
        else .next s
      | none, none => .next s

/-! ## Resuming and ending (R353, R354) -/

/-- An image's record is answered: its slot of the trap queue is free. -/
def answer (s : State) (d : DieId) (slot : Nat) : State :=
  let x := dieRec s d
  setDie s d { x with unanswered := x.unanswered.filter (· != slot) }

/-- The image's slot is free. -/
def freeImage (s : State) (d : DieId) (slot : Nat) : State :=
  let x := dieRec s d
  setDie s d { x with images := x.images.filter (fun i => i.slot != slot) }

/-- A hart stopped by its own trap resumes where it stands; under the armature it is held until its whole launch goes on (R38). -/
def resumeInPlace (s : State) (d : DieId) (i : Image) : State :=
  let b := boxFrom s i (imageBits s d i.slot) i.owner true
  let s1 := freeImage (removeHart s i.owner) d i.slot
  let held := underArmature s i.key.launch
  startArmature (addHart s1 { b with hart := { b.hart with status := if held then .held else .running } }) i.key.launch

/-- Whether a launch is gone or has failed: an image of it is answered and nothing more. -/
def ended (s : State) (l : Nat) : Bool :=
  match launchOf s l with
  | none => true
  | some x => x.failed.isSome

/-- `cr.sresume` with action 0 on the image of a trap. -/
def execResume (d : DieId) (img : BitVec 12) (s : State) : Result :=
  match (dieRec s d).images.find? (fun i => i.slot == img.toNat && i.reason == 1 && (dieRec s d).unanswered.contains i.slot) with
  | none => .next s
  | some i =>
    let s1 := answer s d i.slot
    let s1 := fillTiles s1 (slotAddress s d i.slot)
    if ended s i.key.launch then .next (freeImage s1 d i.slot)
    else if !imageGood s d i.slot then .next (freeImage (failLaunch s1 i.key.launch 7 i.owner.toNat) d i.slot)
    else if i.inPlace then .next (resumeInPlace s1 d i)
    else
      let x := dieRec s1 d
      .next (setDie s1 d { x with images := x.images.map (fun y => if y.slot == i.slot then { y with answered := true } else y) })

/-- `cr.sresume` with action 1: the launch ends with cause 7. -/
def execEndLaunch (d : DieId) (img : BitVec 12) (s : State) : Result :=
  match (dieRec s d).images.find? (fun i => i.slot == img.toNat && i.reason == 1 && (dieRec s d).unanswered.contains i.slot) with
  | none => .next s
  | some i => .next (freeImage (failLaunch (answer s d i.slot) i.key.launch 7 i.owner.toNat) d i.slot)

end Sys2Proof.Machine
end

