-- ==== Sys2Proof/Machine/Host.lean ====
section
/-! DEFINITION. The host side (R324 to R334): device-memory windows, rings and their dispatcher, links and IDE keys. -/

namespace Sys2Proof.Machine

/-- An event in the log, which holds the last 4,096 (R402). -/
def logEvent (s : State) (e : LogEvent) : State :=
  let l := s.kiln.log ++ [(e, s.now)]
  { s with kiln := { s.kiln with log := (l.reverse.take 4096).reverse } }

/-- Something the device sends out. -/
def sendOut (s : State) (o : HostOut) : State := { s with host := { s.host with out := s.host.out ++ [o] } }

/-! ## Windows (R326 to R328) -/

/-- The fields of a window entry. -/
def Window128.en (w : Window128) : Bool := w.bits.getLsbD 112
def Window128.wr (w : Window128) : Bool := w.bits.getLsbD 113
def Window128.size (w : Window128) : Nat := (w.bits.extractLsb' 88 24).toNat * 65536
def Window128.boff (w : Window128) : Nat := (w.bits.extractLsb' 64 24).toNat * 65536
def Window128.dbase (w : Window128) : Word := w.bits.extractLsb' 0 64 &&& 0x000FFFFFFFFF0000

/-- Whether an entry's range holds an offset. -/
def Window128.holds (w : Window128) (o : Nat) : Bool := w.en && 0 < w.size && w.boff ≤ o && o < w.boff + w.size

/-- The lowest-numbered enabled entry of a function whose range holds an access's offset. -/
def windowFor (s : State) (fn o : Nat) : Option Window128 :=
  (List.range 8).findSome? (fun i => s.host.windows.find? (fun w => w.fn == fn && w.idx == i && w.holds o))

/-- The die whose tables the host's accesses walk: the lowest in the full state. -/
def hostDie (s : State) : Option DieId := allDies.find? (dieFull s)

/-- Whether a function is there on a link: the physical functions, and the virtual ones that SR-IOV enables (R324). -/
def present (s : State) (f : HostFn) : Bool := f.fn ≤ 64 && (f.fn == 0 || f.fn ≤ if f.link == 0 then s.host.vfs.1 else s.host.vfs.2)

/-- Whether a request comes in a selective IDE stream of its function and link. -/
def inStream (s : State) (f : HostFn) : Bool := f.ide && s.host.ideKeys.contains (f.fn, f.link)

/-- Whether a request is turned away for want of IDE (R326). -/
def ideMissing (s : State) (f : HostFn) : Bool := s.host.ideReq.contains f.fn && !inStream s f

/-- Whether a function's window bar takes an access: the function is there, the module is in stage 3 (R387), and the access lies in the bar. -/
def barTakes (s : State) (f : HostFn) (off n : Nat) : Bool :=
  present s f && s.kiln.stage == 3 && off + n ≤ if f.fn = 0 then 2 ^ (30 + Config.barLog.val) else 2 ^ (20 + Config.vfBarLog.val)

/-- The device address of an access at an offset. -/
def windowAddress (w : Window128) (o : Nat) : Word := w.dbase + BitVec.ofNat 64 (o - w.boff)

/-- What an access at an offset meets as it arrives (R327): the device address of its first byte, and whether the entry allows writes. An access that runs past
the end of that entry goes on at the addresses that follow (the model's choice, log entry 53). -/
def windowTarget (s : State) (f : HostFn) (off n : Nat) : Option (Word × Bool) :=
  if !barTakes s f off n then none else (windowFor s f.fn off).map (fun w => (windowAddress w off, w.wr))

/-- A read that is answered with Unsupported Request, and logged (R328). -/
def refuseRead (s : State) (fn : Nat) (a : Word) : State := sendOut (logError s fn a) (.read fn none false)

/-- A read through a window, or none while a line of it waits. -/
def windowRead (s : State) (f : HostFn) (off size : Nat) (target : Option (Word × Bool)) : Option State :=
  let fn := f.fn
  match target, hostDie s with
  | some (a, _), some d =>
    if unitWaits s d fn a size .read then none
    else
      let s1 := unitReads s d fn a size
      match checkRange s (.unit d) fn a size .read false with
      | .ok (pas, _) => some (sendOut s1 (.read fn (some (pas.map s.mem.read)) false))
      | .error (e, va) =>
        let s2 := unitReach s1 d fn a size
        if e.cls == 5 || e.cls == 6 then some (sendOut (logError s2 fn va) (.read fn (some (List.replicate size 0xFF)) true))
        else some (refuseRead s2 fn va)
  | _, _ => some (refuseRead s fn (BitVec.ofNat 64 off))

/-- A posted write through a window, or none while a line of it waits. -/
def windowWrite (s : State) (f : HostFn) (off : Nat) (data : List Byte) (target : Option (Word × Bool)) : Option State :=
  let fn := f.fn
  let n := data.length
  match target, hostDie s with
  | some (a, wr), some d =>
    if !wr then some (logError s fn a)
    else if unitWaits s d fn a n .write then none
    else
      match unitStore s d fn a n (leNat data) with
      | .ok t => some t
      | .error (_, va) => some (logError (unitReach s d fn a n) fn va)
  | _, _ => some (logError s fn (BitVec.ofNat 64 off))

/-- An access through a window, or none while it waits. Whether it lacks the IDE that its function requires is judged when its turn comes, after the writes it
must stay behind (R325, R326). -/
def windowAccess (s : State) (x : HostAccess) : Option State :=
  let target := if ideMissing s x.f then none else x.target
  match x.data with
  | none => windowRead s x.f x.off x.size target
  | some b => windowWrite s x.f x.off b target

/-- A link trains; every function stays, and the width and rate are what it trained to (R324). -/
def execLinkTraining (link : BitVec 1) (width rate : Nat) (s : State) : Result :=
  .next { s with host := { s.host with links := (link, width, rate) :: s.host.links.filter (fun l => l.1 != link) } }

/-- An SPDM session sets up the IDE keys of one function and link (R326, R392). -/
def execSpdmKeyExchange (fn : Nat) (link : BitVec 1) (s : State) : Result :=
  if s.kiln.stage == 0 then .next s
  else .next { s with host := { s.host with ideKeys := (fn, link) :: s.host.ideKeys.filter (· != (fn, link)) } }

/-! ## Rings (R330, R331) -/

/-- A ring slot at reset. -/
def Ring.fresh (fn : Nat) (slot : BitVec 3) : Ring :=
  { fn := fn, slot := slot, base := 0, en := false, die := 0, hdrerr := false, reset := false, run := false, rcount := 0, slog := 4, vec := 0, busy := none }

def ringOf (s : State) (fn : Nat) (slot : BitVec 3) : Ring :=
  (s.host.rings.find? (fun r => r.fn == fn && r.slot == slot)).getD (Ring.fresh fn slot)

def setRing (s : State) (r : Ring) : State :=
  { s with host := { s.host with rings := s.host.rings.filter (fun x => !(x.fn == r.fn && x.slot == r.slot)) ++ [r] } }

/-- The ring could not be served: hdrerr set, no vector sent, the failure in the function's error log (R334). -/
def headerError (s : State) (r : Ring) : State :=
  logError (setRing s { r with hdrerr := true, reset := false, run := false, busy := none }) r.fn r.base

/-- A running ring stops because its header cannot be read or written (R334): a ring stop in the event log too (R402). -/
def headerStop (s : State) (r : Ring) : State := logEvent (headerError s r) .ringStop

/-- A write into line 1 of the header, which lies 128 bytes from its start. -/
def writeLine1 (s : State) (r : Ring) (off n v : Nat) : Except (Fail × Word) State :=
  unitStore s r.die r.fn (r.base + BitVec.ofNat 64 (128 + off)) n v

/-- rcount with the run bit and the cause (R331). -/
def statusBits (rcount : Word) (run : Bool) (cause : Nat) : Nat := rcount.toNat + (run.toNat + 2 * cause) * 2 ^ 64

/-- The ring stops with a cause (R333). -/
def ringStop (s : State) (r : Ring) (cause : Nat) : State :=
  match writeLine1 s r 8 16 (2 * cause + r.rcount.toNat * 2 ^ 64) with
  | .error _ => headerStop s r
  | .ok t => logEvent (sendMsix (setRing t { r with run := false, busy := none }) r.fn r.vec) .ringStop

/-- The reset of a ring (R334). -/
def resetRing (s : State) (r : Ring) : State :=
  match unitLoad s r.die r.fn r.base 128 with
  | .error _ => headerError (unitReach s r.die r.fn r.base 128) r
  | .ok v =>
    let slog := field v 1 64 + 2 * field v 1 65 + 4 * field v 1 66 + 8 * field v 1 67 + 16 * field v 1 68
    let bad := slog < 4 || 16 < slog || v / 2 ^ 69 % 8 != 0 || v / 2 ^ 80 != 0
    let w : Word := BitVec.ofNat 64 v
    if bad then
      match writeLine1 s r 8 8 (2 * 5) with
      | .error _ => headerError s r
      | .ok t => setRing t { r with reset := false, run := false }
    else
      match writeLine1 s r 0 16 (statusBits w true 0) with
      | .error _ => headerError s r
      | .ok t =>
        match writeLine1 t r 24 104 0 with
        | .error _ => headerError t r
        | .ok t => setRing t { r with reset := false, run := true, rcount := w, slog := slog, vec := v / 2 ^ 72 % 256 }

/-! ## Consuming entries (R333) -/

/-- How the handling of one entry ends. -/
inductive Handled where
  | ok (s : State)
  | again
  | stop (s : State) (cause : Nat)
  deriving DecidableEq, Repr

/-- An entry of kind 1. -/
def entryLaunch (s : State) (r : Ring) (e : Nat) : Handled :=
  let a : Word := BitVec.ofNat 64 e
  let irq := e / 2 ^ 99 % 2 == 1
  let ivec := e / 2 ^ 104 % 256
  if a.toNat % 256 ≠ 0 then .stop s 4
  else if unitWaits s r.die r.fn a 256 .read then .again
  else
    match unitLoad s r.die r.fn a 256 with
    | .error _ => .stop (unitReach s r.die r.fn a 256) 4
    | .ok v =>
      let rec' := BitVec.ofNat 2048 v
      let code := refusalCode s rec'
      let cword := (headerOf rec').cword
      if code = 7 then .again
      else if code = 0 then .ok (acceptLaunch s r.fn a rec' (.ring r.fn r.slot irq ivec))
      else if cword.toNat % 8 ≠ 0 || cword.extractLsb' 52 12 != 0 then .stop s 7
      else if unitWaits s r.die r.fn cword 8 .write then .again
      else
        match unitStore s r.die r.fn cword 8 (1#1 ++ 10#7 ++ 0#45 ++ BitVec.ofNat 11 code : BitVec 64).toNat with
        | .error _ => .stop s 7
        | .ok t => .ok (if irq then sendMsix t r.fn ivec else t)

/-- One entry, whose bits are e, at index r.rcount. -/
def handleEntry (s : State) (r : Ring) (e : Nat) : Handled :=
  let seq : BitVec 32 := BitVec.ofNat 32 (e / 2 ^ 64)
  let want : BitVec 32 := r.rcount.setWidth 32
  let kind := e / 2 ^ 96 % 8
  let maddr : Word := BitVec.ofNat 64 (e / 2 ^ 128)
  if seq ≠ want then .stop s (if (seq - want).toNat < 2 ^ 31 then 1 else 2)
  else if e / 2 ^ 100 % 16 != 0 || e / 2 ^ 112 % 2 ^ 16 != 0 || e / 2 ^ 256 != 0 || 2 < kind || (kind == 2 && maddr.toNat % 8 != 0) then .stop s 5
  else if kind = 1 then entryLaunch s r e
  else if kind = 2 && unitWaits s r.die r.fn maddr 8 .write then .again
  else if kind = 2 then
    match unitStore s r.die r.fn maddr 8 (e / 2 ^ 192 % 2 ^ 64) with
    | .error _ => .stop s 7
    | .ok t => .ok t
  else .ok s

/-- The entry that a ring's dispatcher has read, handled: the machine after it, and whether the dispatcher goes on with the next; none while the entry must be
tried again. -/
def concludeEntry (s : State) (r : Ring) (e : Nat) : Option (State × Bool) :=
  match handleEntry s r e with
  | .again => none
  | .stop t c => some (ringStop t r c, false)
  | .ok t =>
    let r1 := { r with rcount := r.rcount + 1, busy := none }
    match writeLine1 t r 0 8 r1.rcount.toNat with
    | .error _ => some (headerStop t r1, false)
    | .ok u => some (setRing u r1, true)

/-- Where the entry at a ring's count lies. -/
def entryAt (r : Ring) : Word := r.base + BitVec.ofNat 64 (256 + 128 * (r.rcount.toNat % 2 ^ r.slog))

/-- Whether no line of a ring's header waits, and none of its next entry (R190, R360). -/
def headerFree (s : State) (r : Ring) : Bool := !unitWaits s r.die r.fn r.base 256 .read
def entryFree (s : State) (r : Ring) : Bool := headerFree s r && !unitWaits s r.die r.fn (entryAt r) 128 .read

/-- The loop over entries up to the count w, at most `fuel` of them; it leaves the rest for later where one waits for a line. -/
def serveEntries (fn : Nat) (slot : BitVec 3) (w : Nat) : Nat → State → State
  | 0, s => s
  | fuel + 1, s =>
    let r := ringOf s fn slot
    if !entryFree s r then s
    else
    match unitLoad s r.die fn (entryAt r) 128 with
    | .error _ => ringStop (unitReach s r.die fn (entryAt r) 128) r 4
    | .ok e =>
      match concludeEntry s r e with
      | none => setRing s { r with busy := some (e, w) }
      | some (t, true) => serveEntries fn slot w fuel t
      | some (t, false) => t

/-- The dispatcher reads wcount and consumes what is new; an entry that it is handling it tries again first (R333). -/
def serveRing (s : State) (r : Ring) : State :=
  match r.busy with
  | some (e, w) =>
    match concludeEntry s r e with
    | none => s
    | some (t, true) => serveEntries r.fn r.slot w (w - (r.rcount.toNat + 1)) t
    | some (t, false) => t
  | none =>
    match unitLoad s r.die r.fn r.base 8 with
    | .error _ => headerStop (unitReach s r.die r.fn r.base 8) r
    | .ok w =>
      if w = r.rcount.toNat then s
      else if w < r.rcount.toNat then ringStop s r 3
      else if 2 ^ r.slog < w - r.rcount.toNat then ringStop s r 1
      else serveEntries r.fn r.slot w (w - r.rcount.toNat) s

/-- Whether a ring's dispatcher works: its die has joined, in stage 3 (R387), and no line of the header or of the next entry waits for an engine. -/
def dispatcherOn (s : State) (r : Ring) : Bool :=
  dieFull s r.die && s.kiln.stage == 3 && entryFree s r

/-- Whether a ring is served. -/
def ringServed (s : State) (r : Ring) : Bool := r.en && r.run && !r.reset && dispatcherOn s r

def execRingWake (fn : Nat) (slot : BitVec 3) (s : State) : Result :=
  let r := ringOf s fn slot
  if ringServed s r then .next (serveRing s r) else .next s

/-! ## Resets and stops by the host (R330, R334) -/

/-- The dispatcher finishes the entry that it is handling, if any; none while that entry must be tried again. -/
def finishEntry (s : State) (r : Ring) : Option State :=
  match r.busy with
  | none => some s
  | some (e, _) => (concludeEntry s r e).map (·.1)

/-- The reset of a ring, once the entry in hand is finished. -/
def execRingReset (fn : Nat) (slot : BitVec 3) (s : State) : Result :=
  let r := ringOf s fn slot
  if r.reset && dispatcherOn s r then
    match finishEntry s r with
    | none => .next s
    | some t => .next (resetRing t { ringOf t fn slot with reset := true, hdrerr := false })
  else .next s

/-- A ring whose en has gone to 0 is consumed no longer after the entry in hand; run reads 0. -/
def execRingDisable (fn : Nat) (slot : BitVec 3) (s : State) : Result :=
  let r := ringOf s fn slot
  if r.en || !r.run || !headerFree s r then .next s
  else
    match finishEntry s r with
    | none => .next s
    | some t =>
      let x := ringOf t fn slot
      if !x.run then .next t
      else
        match writeLine1 t x 8 8 0 with
        | .error _ => .next (headerStop t x)
        | .ok u => .next (setRing u { x with run := false })

end Sys2Proof.Machine
end

