-- ==== Sys2Proof/Machine/Glaze.lean ====
section
/-! DEFINITION. The glaze unit's commands and its own steps (R363 to R371): GENERATE, DESTROY, SCRUB, CLEAR, OWNER, GLAZE_COMMAND_END,
TILE_FILL and TILE_RESEAL. -/

namespace Sys2Proof.Machine

/-- A command has done its work, or has been refused, with a result; the end of the command follows. -/
def glazeDone (s : State) (d : DieId) (result : Nat) : State :=
  let x := dieRec s d
  let s1 := setDie s d { x with glaze := { x.glaze with result := result } }
  { s1 with inputs := s1.inputs ++ [Instr.glazeCommandEnd d] }

/-! ## Keys -/

/-- The held tiles of a tenant on a die. -/
def heldOf (s : State) (d : DieId) (tenant : Nat) : List Nat :=
  s.sealed.held.filter (fun t => homeDieOf (2048 * t) == d && tileOwner s t == tenant)

/-- A fresh key into a slot, which becomes the newer one; held write-backs proceed (R367, R370), one whose home cannot go on yet at a later TILE_RESEAL. -/
def generateKey (s : State) (d : DieId) (tenant : Nat) (slot : Bool) : State :=
  let k : KeySlot := { die := d, tenant := tenant, slot := slot, key := Config.glazeKey s.sealed.gens, gen := s.sealed.gens }
  let keys := s.sealed.keys.filter (fun x => !(x.die == d && x.tenant == tenant && x.slot == slot)) ++ [k]
  let s1 := { s with sealed := { s.sealed with keys := keys, gens := s.sealed.gens + 1, due := s.sealed.due.filter (· != (d, tenant)) } }
  ((heldOf s1 d tenant).filter (fun t => !tileWaits s1 t)).foldl reseal s1

def execGenerate (d : DieId) (tenant : Nat) (slot : BitVec 1) (s : State) : Result :=
  if sealedCount s d tenant (slot == 1) ≠ 0 then .next (glazeDone s d 2)
  else .next (glazeDone (generateKey s d tenant (slot == 1)) d 0)

def execDestroy (d : DieId) (tenant : Nat) (slot : BitVec 1) (s : State) : Result :=
  if sealedCount s d tenant (slot == 1) ≠ 0 then .next (glazeDone s d 2)
  else
    let keys := s.sealed.keys.filter (fun x => !(x.die == d && x.tenant == tenant && x.slot == (slot == 1)))
    .next (glazeDone { s with sealed := { s.sealed with keys := keys } } d 0)

/-- One tile resealed under (newer, 0); a tile that fails its verification is poisoned instead (R367, R370). -/
def scrubTile (newer : Bool) (s : State) (t : Nat) : State :=
  let s1 := fillTile s t
  if (tileRec s1 t).state == 1 && (tileRec s1 t).slot != newer then sealTile (collectTile s1 t) t newer 0 else s1

def execScrub (d : DieId) (tenant : Nat) (slot : BitVec 1) (s : State) : Result :=
  let b := slot == 1
  match newerSlot s d tenant with
  | none => .next (glazeDone s d 4)
  | some n =>
    if n == b then .next (glazeDone s d 4)
    else
      let ts := (s.sealed.tiles.filter (fun r => r.state == 1 && r.slot == b && homeDieOf (2048 * r.tile) == d && tileOwner s r.tile == tenant)).map (·.tile)
      let late := ts.filter (tileWaits s)
      let s1 := (ts.filter (fun t => !late.contains t)).foldl (scrubTile n) s
      if late.isEmpty then .next (glazeDone s1 d 0)
      else .next (setDie s1 d { dieRec s1 d with glaze := { (dieRec s1 d).glaze with scrubbing := late } })

/-- A tile of a die's `scrub` that waited is resealed; the command ends with its last tile (log entry 130). -/
def scrubWaiting (s : State) (d : DieId) : Option State :=
  ((dieRec s d).glaze.scrubbing.find? (fun t => !tileWaits s t)).map (fun t =>
    let s1 := match newerSlot s d (tileOwner s t) with | some n => scrubTile n s t | none => s
    let rest := (dieRec s1 d).glaze.scrubbing.erase t
    let s2 := setDie s1 d { dieRec s1 d with glaze := { (dieRec s1 d).glaze with scrubbing := rest } }
    if rest.isEmpty then glazeDone s2 d 0 else s2)

/-! ## `clear` and `owner` -/

/-- Whether `count` units of a size from a stack offset on lie below the metadata region; an empty range is no range. -/
def rangeOk (first count unit : Nat) : Bool := 0 < count && (first + count) * unit ≤ regionStart

/-- The ciphertext that stays in DRAM of the sealed tiles that are to be cleared (R366). -/
def leaveCipher (s : State) (tile : Nat → Bool) : State :=
  (s.sealed.tiles.filter (fun r => tile r.tile && r.state == 1 && !s.sealed.inL2.contains r.tile)).foldl (fun s r => putCipher s r.tile r.slot r.counter) s

/-- The owner that a die's `clear` is to a home (R377); commands are numbered far below it. -/
def clearEngine (d : DieId) : Nat := 2 ^ 64 + d.toNat

/-- Whether what waits is a claim of some die's `clear`. -/
def Waiting.ofClear : Waiting → Bool
  | .claim e => 2 ^ 64 ≤ e
  | .ask _ => false

/-- Tiles cleared: every copy, dirty byte and poison goes, slot and counter stay, and requests that waited are served (R370, R371). -/
def clearSet (s : State) (tile : Nat → Bool) : State :=
  let line (l : Nat) : Bool := tile (l / 16)
  let s := leaveCipher s tile
  let s1 := onStrands s (fun _ => true) (fun x =>
    { x with resv := (if x.resv.any (fun r => line r.line) then none else x.resv), links := x.links.filter (fun l => !line l) })
  let waiting := (s1.coh.home.filter (fun x => line x.line && !x.queue.isEmpty)).map (fun x => (x.line, x.queue))
  let s2 := { s1 with
    mem := s1.mem.filter (fun c => !tile (tileOf c.1))
    coh := { s1.coh with
      l1 := s1.coh.l1.filter (fun x => !line x.line), streams := s1.coh.streams.filter (fun x => !line x.line), home := s1.coh.home.filter (fun x => !line x.line)
      proxy := s1.coh.proxy.filter (fun x => !line x.line), delayed := s1.coh.delayed.filter (fun x => !(line x.1 && x.2.ofClear)) }
    sealed := { s1.sealed with
      tiles := s1.sealed.tiles.map (fun r => if tile r.tile then { r with state := 0 } else r)
      inL2 := s1.sealed.inL2.filter (fun t => !tile t), dirty := s1.sealed.dirty.filter (fun l => !line l)
      held := s1.sealed.held.filter (fun t => !tile t) } }
  waiting.foldl (fun s w => serveQueue s w.1 w.2) s2

/-- Tiles of a physical range cleared at once. -/
def clearTiles (s : State) (t0 n : Nat) : State := clearSet s (fun t => t0 ≤ t && t < t0 + n)

/-- The tiles of a range of which an engine owns a line: to them the clear comes after it (R371, R377). -/
def blockedTiles (s : State) (d : DieId) (tile : Nat → Bool) : List Nat :=
  ((s.coh.home.filter (fun h => tile (h.line / 16) && (match h.st with | .G e => e != clearEngine d | _ => false))).map (fun h => h.line / 16)).dedup

/-- A tile's lines claimed for a die's clear, behind the engines that own some of them. -/
def claimTile (d : DieId) (s : State) (t : Nat) : State := (List.range 16).foldl (fun s i => claimLine s (16 * t + i) (clearEngine d)) s

/-- The number of a stack's first tile and first frame. -/
def stackTile (d : DieId) : Nat := d.toNat * 2 ^ 25
def stackFrame (d : DieId) : Nat := d.toNat * 2 ^ 20

def execClear (d : DieId) (first count : Nat) (s : State) : Result :=
  if !rangeOk first count 2048 then .next (glazeDone s d 3)
  else
    let tile (t : Nat) : Bool := stackTile d + first ≤ t && t < stackTile d + first + count
    match blockedTiles s d tile with
    | [] => .next (glazeDone (clearTiles s (stackTile d + first) count) d 0)
    | b =>
      let s1 := b.foldl (claimTile d) (clearSet s (fun t => tile t && !b.contains t))
      .next (setDie s1 d { dieRec s1 d with glaze := { (dieRec s1 d).glaze with clearing := b } })

/-- The tiles of a die's `clear` that waited and can be cleared now are cleared; the command ends with its last tile. -/
def clearWaiting (s : State) (d : DieId) : Option State :=
  let left := (dieRec s d).glaze.clearing
  let blocked := blockedTiles s d left.contains
  let ready := left.filter (fun t => !blocked.contains t)
  if ready.isEmpty then none
  else
    let s1 := clearSet s ready.contains
    let rest := left.filter blocked.contains
    let s2 := setDie s1 d { dieRec s1 d with glaze := { (dieRec s1 d).glaze with clearing := rest } }
    some (if rest.isEmpty then glazeDone s2 d 0 else s2)

/-- What a glaze unit does of its own: a `clear` or a `scrub` that waited goes on. -/
def serveGlaze (s : State) : Option State := allDies.findSome? (fun d => (clearWaiting s d).or (scrubWaiting s d))

/-- Frames given an owner byte. -/
def setOwners (s : State) (f0 n : Nat) (o : BitVec 7) : State :=
  let rest := s.sealed.owners.filter (fun x => !(f0 ≤ x.frame && x.frame < f0 + n))
  { s with sealed := { s.sealed with owners := rest ++ (if o == 0x7F then [] else (List.range n).map (fun i => ⟨f0 + i, o⟩)) } }

/-- Whether every tile of a range of frames is clear. -/
def framesClear (s : State) (f0 n : Nat) : Bool :=
  s.sealed.tiles.all (fun r => r.state == 0 || !(f0 ≤ r.tile / 32 && r.tile / 32 < f0 + n))

def execOwner (d : DieId) (first count : Nat) (o : BitVec 7) (s : State) : Result :=
  if !rangeOk first count 65536 then .next (glazeDone s d 3)
  else if !framesClear s (stackFrame d + first) count then .next (glazeDone s d 5)
  else .next (glazeDone (setOwners s (stackFrame d + first) count o) d 0)

/-- The end of a command: busy goes to 0. -/
def execGlazeCommandEnd (d : DieId) (s : State) : Result :=
  let x := dieRec s d
  .next (setDie s d { x with glaze := { x.glaze with busy := false } })

/-! ## The unit's own steps -/

/-- Whether a tile number names a tile below its stack's region. -/
def isTile (t : Nat) : Bool := isMappable (2048 * t)

/-- A fill of a whole tile (R368); into a set full of held lines it waits (R367), and the tile is filled when something reaches it. -/
def execTileFill (t : Nat) (s : State) : Result := if isTile t && !fillWaits s t then .next (fillTile s t) else .next s

/-- A reseal of a tile with dirty lines (R367), after the verified fill of what L2 does not hold. -/
def execTileReseal (t : Nat) (s : State) : Result := if isTile t && !tileWaits s t then .next (reseal (fillTile s t) t) else .next s

end Sys2Proof.Machine
end

