-- ==== Sys2Proof/Machine/Messages.lean ====
section
/-! DEFINITION. Coherence messages as events (R376 to R381): GETS to DWN at a home or a proxy, INV, FWD_S and FWD_M at a holder, ACK, engine
claims, and the timeout of an unanswered message. A message is handled once, by its number; the flits that carry it. -/

namespace Sys2Proof.Machine

/-! ## Flits (R380) -/

/-- The header of a flit and its payload. The codes of the message types are the link's. -/
structure Flit where
  kind    : BitVec 6
  last    : BitVec 2
  part    : BitVec 2
  src     : DieId
  dst     : DieId
  agentDie : DieId
  agent   : BitVec 5
  seq     : BitVec 16
  payload : BitVec 416
  deriving DecidableEq, Repr

/-- One step of a CRC with the polynomial 0x04C11DB7, most significant bit first. -/
def crcStep (c : BitVec 32) (b : Bool) : BitVec 32 := if c.msb != b then (c <<< 1) ^^^ 0x04C11DB7 else c <<< 1

/-- The CRC-32 of bits 479:0 of a flit. The manual gives the polynomial and the bits covered; the register starts at 0, bit 479 goes in first, and nothing is
complemented at the end (the model's choice, log entry 115). -/
def crc32 (w : BitVec 480) : BitVec 32 := (List.range 480).foldl (fun c i => crcStep c (w.getLsbD (479 - i))) 0

/-- Bits 479:0 of a flit. -/
def Flit.body (f : Flit) : BitVec 480 :=
  f.payload ++ f.seq ++ f.agentDie ++ f.agent ++ f.dst ++ f.src ++ f.part ++ f.last ++ f.kind ++ (0 : BitVec 24)

/-- The 64 bytes of a flit. -/
def Flit.bits (f : Flit) : BitVec 512 := crc32 f.body ++ f.body

/-- Whether a receiver keeps a flit: one whose CRC fails is dropped. -/
def flitKept (w : BitVec 512) : Bool := w.extractLsb' 480 32 == crc32 (w.extractLsb' 0 480)

/-- Flits of a message: three where it carries a line of data, and of the one to three that R380 allows one where it does not (the model's choice, log
entry 115). -/
def flitCount (data : Bool) : Nat := if data then 3 else 1

/-! ## Sequence windows (R381) -/

/-- What a receiver does with a number. -/
inductive Arrived where
  | handle (w : Window)
  | inProgress
  | done (r : Reply)
  | stale
  deriving DecidableEq, Repr

/-- A receiver's judgement of a number: the window holds the 64 numbers up to the highest. -/
def judge (w : Option Window) (src : DieId) (agent : BitVec 5) (dst : DieId) (n : BitVec 16) : Arrived :=
  match w with
  | none => .handle ⟨src, agent, dst, n, [(n, none)]⟩
  | some w =>
    if 64 ≤ (w.high - n).toNat && (w.high - n).toNat < 2 ^ 15 then .stale
    else
      match w.seen.find? (·.1 == n) with
      | some (_, some r) => .done r
      | some (_, none) => .inProgress
      | none => .handle (w.mark n none)

/-- One more message older than the window at a die (`pkdie`.stale, saturating). -/
def countStale (s : State) (d : DieId) : State :=
  let x := dieRec s d
  setDie s d { x with stale := min (x.stale + 1) 65535 }

/-- The answer to a number, if there is one by now, goes into the window. -/
def conclude (s : State) (src : DieId) (agent : BitVec 5) (dst : DieId) (n : BitVec 16) (r : Option Reply) : State :=
  match r, seqWindow s src agent dst with
  | some _, some w => answered (setWindow s (w.mark n r)) src agent dst n
  | _, _ => s

/-- Handles a numbered message between two dies once: `f` handles it and says what it answers, none while the answer is still to come. A duplicate of a
number in progress is dropped; one of a number that is done has its answer sent again, and the sender has it. Within a die no message is
numbered. -/
def once (s : State) (src : DieId) (agent : BitVec 5) (dst : DieId) (n : BitVec 16) (f : State → State × Option Reply) : State :=
  if src == dst then (f s).1
  else
    match judge (seqWindow s src agent dst) src agent dst n with
    | .done _ => answered s src agent dst n
    | .inProgress => s
    | .stale => countStale s dst
    | .handle w =>
      let r := f (setWindow s w)
      conclude r.1 src agent dst n r.2

/-! ## Requests -/

/-- The die a requester of a home sends from. -/
def requesterDie (l : Nat) : Requester → DieId
  | .core _ => lineHome l
  | .die d => d

/-- A request as it waits at the home. -/
def askOf (l : Nat) (r : Requester) (write : Bool) (n : BitVec 16) : Ask :=
  match r with
  | .core c => ⟨r, write, some c, none, false⟩
  | .die d => ⟨r, write, none, if d == lineHome l then none else some n, false⟩

/-- The message of a die that the request waits for is outstanding there. -/
def askWaits (s : State) (l : Nat) (r : Requester) (n : BitVec 16) (i : Instr) : State :=
  match r with
  | .core _ => s
  | .die d => if d == lineHome l then s else unanswered s d proxyAgent (lineHome l) n (some i) none

/-- A request at the home, its tile filled first (R377). Behind an engine it is queued, and stays in progress; while its tile's fill waits, or the home cannot go
on with the line, it is delayed (R367, R380); a poisoned line answers with its poison, which a core's L1 holds from then on. -/
def requestAtHome (l : Nat) (r : Requester) (write : Bool) (n : BitVec 16) (i : Instr) (s : State) : State × Option Reply :=
  if homeWaits s l then (delay (askWaits s l r n i) l (.ask (askOf l r write n)), none)
  else
  let s1 := fillTile s (l / 16)
  match homeLine s1 l with
  | some (.P k) =>
    match r with
    | .core c => (putL1 s1 (lineHome l) c l (some (.P k)) none, some (.poison k))
    | .die _ => (s1, some (.poison k))
  | some (.G _) => (enqueue (askWaits s1 l r n i) l (.ask (askOf l r write n)), none)
  | _ => (serveAsk s1 l ⟨r, write, none, none, false⟩, some .data)

/-- Whether a proxy grants a request of a core without a message to the home (R378). -/
def proxyGrants (s : State) (d : DieId) (c : CoreId) (l : Nat) (write : Bool) : Bool :=
  match proxyLine s d l with
  | some (.S _) => !write
  | some (.X o) => write || o == c
  | none => false

/-- A request of an own core at the proxy of a die that is not the line's home (R378): what the proxy has it gives; else the request goes to the home, or is
delayed while the proxy has 64 messages unanswered there, or the home could not handle it (R367, R380). -/
def requestAtProxy (s : State) (d : DieId) (c : CoreId) (l : Nat) (write : Bool) : State :=
  if d == lineHome l then s
  else if !proxyGrants s d c l write && (homeWaits s l || proxyFull s d l) then delay s l (.ask ⟨.die d, write, some c, none, false⟩)
  else
    let s1 := fillTile s (l / 16)
    if write then coreGetM s1 d c l else coreGetS s1 d c l

/-- A request as a message. -/
def requestMsg (st : Station) (l : Nat) (r : Requester) (write : Bool) (n : BitVec 16) (i : Instr) (s : State) : Result :=
  match st, r with
  | .home, _ => .next (once s (requesterDie l r) proxyAgent (lineHome l) n (requestAtHome l r write n i))
  | .proxy d, .core c => .next (requestAtProxy s d c l write)
  | _, _ => .next s

def execGets (st : Station) (l : Nat) (r : Requester) (n : BitVec 16) (s : State) : Result := requestMsg st l r false n (.gets st l r n) s
def execGetm (st : Station) (l : Nat) (r : Requester) (n : BitVec 16) (s : State) : Result := requestMsg st l r true n (.getm st l r n) s

/-- An upgrade acts as an ownership request, and is sent again as one (R377, R378). -/
def execUpg (st : Station) (l : Nat) (r : Requester) (n : BitVec 16) (s : State) : Result := requestMsg st l r true n (.getm st l r n) s

/-! ## Lines given back -/

/-- The owner of a line at the home gives it back. -/
def putAtHome (s : State) (l : Nat) (r : Requester) (data : Bool) : State :=
  if homeLine s l == some (.X r) then
    let s1 := if data then markDirty s l else s
    setHome (dropHolder s1 l r) l none
  else s

def putAt (st : Station) (l : Nat) (r : Requester) (n : BitVec 16) (data : Bool) (s : State) : State :=
  match st, r with
  | .home, _ => once s (requesterDie l r) proxyAgent (lineHome l) n (fun s => (putAtHome s l r data, some .ack))
  | .proxy d, .core c =>
    if proxyLine s d l == some (.X c) then corePut (if data then markDirty s l else s) d c l else s
  | _, _ => s

def execPute (st : Station) (l : Nat) (r : Requester) (n : BitVec 16) (s : State) : Result := .next (putAt st l r n false s)
def execPutm (st : Station) (l : Nat) (r : Requester) (n : BitVec 16) (s : State) : Result := .next (putAt st l r n true s)

/-- A proxy's downgrade: its data goes to L2, and the home keeps the die as the only sharer (R377, R378). -/
def execDwn (l : Nat) (d : DieId) (n : BitVec 16) (s : State) : Result :=
  .next (once s d proxyAgent (lineHome l) n (fun s =>
    (if homeLine s l == some (.X (.die d)) then setHome (markDirty (shareProxy s d l) l) l (some (.S [] [d])) else s, some .ack)))

/-! ## Forwards -/

/-- A home's message to a holder: the proxy of a die, by its number, or the L1 of a core. -/
def forwardMsg (st : Station) (l : Nat) (n : BitVec 16) (proxy : State → DieId → State) (core : State → DieId → CoreId → State) (s : State) : Result :=
  match st with
  | .home => .next s
  | .proxy d => .next (once s (lineHome l) homeAgent d n (fun s => (proxy s d, some .ack)))
  | .l1 d c => .next (core s d c)

def execInv (st : Station) (l : Nat) (n : BitVec 16) (s : State) : Result :=
  forwardMsg st l n (fun s d => dropProxy s d l) (fun s d c => dropL1 s d c l) s

def execFwdS (st : Station) (l : Nat) (n : BitVec 16) (s : State) : Result :=
  forwardMsg st l n (fun s d => shareProxy s d l) (fun s d c => shareL1 s d c l) s

/-- A forward for ownership takes the line away, its data going with it. -/
def execFwdM (st : Station) (l : Nat) (n : BitVec 16) (s : State) : Result :=
  forwardMsg st l n (fun s d => dropProxy s d l) (fun s d c => dropL1 s d c l) s

/-- Whether a holder has the line. -/
def holdsLine (s : State) (l : Nat) : Requester → Bool
  | .core c => (l1State s (lineHome l) c l).isSome
  | .die d => (proxyLine s d l).isSome

/-- A sharer that has dropped the line is no sharer any more. -/
def ackAtHome (s : State) (l : Nat) (r : Requester) : State :=
  if holdsLine s l r then s
  else
    match homeLine s l with
    | some (.S cs ds) =>
      let cs' := cs.filter (fun c => r != .core c)
      let ds' := ds.filter (fun d => r != .die d)
      setHome s l (if cs'.isEmpty && ds'.isEmpty then none else some (.S cs' ds'))
    | _ => s

/-- A holder's acknowledgement carries the home's number, and the home counts each number of a die once (R381), apart from the numbers of that die's own
requests. -/
def execAck (l : Nat) (r : Requester) (n : BitVec 16) (s : State) : Result :=
  let d := requesterDie l r
  .next (once (answered s (lineHome l) homeAgent d n) d ackAgent (lineHome l) n (fun s => (ackAtHome s l r, some .ack)))

/-! ## Engines and timeouts -/

def execEngineClaim (l e : Nat) (s : State) : Result := .next (claimLine s l e)

/-- The engine's final line is in L2, and the queue is served. -/
def execEngineDone (l e : Nat) (s : State) : Result :=
  if homeLine s l == some (.G e) then .next (releaseLine (markDirty s l) l e) else .next s

/-- Flits of the unanswered message, or of its answer, were dropped by their CRC (`pkdie`.crcerr): how many is free. -/
def countDropped (s : State) (src dst : DieId) : State :=
  let n := Config.droppedFlits s.fresh
  let x := dieRec s dst
  let s1 := setDie s dst { x with crcerr := min (x.crcerr + n.1) 65535 }
  let y := dieRec s1 src
  bump (setDie s1 src { y with crcerr := min (y.crcerr + n.2) 65535 })

/-- A die in the full state is to leave it; one report of that is enough. -/
def reportDie (s : State) (d : DieId) : State :=
  if dieFull s d && !s.inputs.contains (Instr.dieFailure d) then { s with inputs := s.inputs ++ [Instr.dieFailure d] } else s

/-- A message unanswered for 20 µs is sent again with its number; at the eighth timeout its destination is reported unreachable (R380). A
request or a claim that waits is known by its number; any other is a home's Inv or Fwd, whose answer the model takes at once where no flit is lost, and
how it reads is not known (log entry 114). -/
def execReissueTimeout (src dst : DieId) (n : BitVec 16) (s : State) : Result :=
  let m := (s.coh.sent.find? (fun m => m.src == src && m.dst == dst && m.seq == n)).getD ⟨src, homeAgent, dst, n, 0, none, none⟩
  let s1 := answered (countDropped s src dst) src m.agent dst n
  if 7 ≤ m.timeouts then .next (reportDie s1 dst)
  else
    let x := dieRec s1 src
    let s2 := setDie s1 src { x with reissue := min (x.reissue + 1) 65535 }
    .next { s2 with
      coh := { s2.coh with sent := s2.coh.sent ++ [{ m with timeouts := m.timeouts + 1 }] }
      inputs := s2.inputs ++ m.msg.toList }

end Sys2Proof.Machine
end

