-- ==== Sys2Proof/Machine/Registers.lean ====
section
/-! DEFINITION. The registers of the functions' BAR0 (R324, R327, R330, R342, R369, R382, R387, R390, R394, R396, R398, R401): what each reads, and
REGISTER_WRITE, field by field as its map states. The manual does not place the registers that a host reaches by configuration requests (SR-IOV, the
IDE-required bit, link status, the outbound window table) nor gives BAR4 a row of its own: from `configBase` and `bar4Base` on the model numbers them
itself. -/

namespace Sys2Proof.Machine

/-- A field of a register: v at bit lo. -/
def put (lo : Nat) (v : Nat) : Word := BitVec.ofNat 64 (v * 2 ^ lo)
def flag (lo : Nat) (b : Bool) : Word := put lo b.toNat

/-- A bit for each die that passes a test. -/
def dieBits (p : DieId → Bool) : Nat := sumOf (allDies.map (fun d => (p d).toNat * 2 ^ d.toNat))

/-! ## The kiln block -/

/-- `kstate` (R387). -/
def kstateWord (s : State) : Word :=
  put 56 s.kiln.failedDies.toNat ||| put 48 (dieBits (dieFull s)) ||| put 16 (s.kiln.secver % 65536) ||| flag 4 s.kiln.bank ||| put 0 s.kiln.stage

/-- A counter's blown bits: during a raise of it those that are known to be blown by now (R390, R392). -/
def blownBits (s : State) (object : Bool) : Nat :=
  let k := s.kiln
  if k.fuseBusy && k.fuseWhich == object then k.fuseBlown else if object then k.objv else k.fwv

/-- `kfuse` (R390). -/
def kfuseWord (s : State) : Word :=
  let k := s.kiln
  flag 63 k.fuseBusy ||| put 60 k.fuseResult ||| flag 48 k.fuseWhich ||| put 40 k.fuseTarget ||| put 8 (blownBits s true) ||| put 0 (blownBits s false)

/-- Retired lane groups and cores of the module (R394, R396). -/
def groupsRetired (s : State) : Nat := sumOf (s.cores.map (fun c => 8 - workingGroups c))
def coresRetired (s : State) : Nat := (s.cores.filter (fun c => c.lgmask == 0xFF)).length
def dieRetired (s : State) (d : DieId) : Bool := (dieRec s d).state == 3 || (dieRec s d).state == 4

/-- Whether anything is retired. -/
def degraded (s : State) : Bool :=
  groupsRetired s != 0 || allDies.any (dieRetired s) || s.sealed.owners.any (fun o => o.owner == 0x7E)

/-- `khealth`.health (R394). DESIGN CHOICE (log entry 133): with no die in the full state it is 3, as its meaning says, also from reset until the first die joins,
where the table gives 0 as the reset value. -/
def healthOf (s : State) : Nat :=
  if s.kiln.recovering then 2 else if s.kiln.stage == 4 || !allDies.any (dieFull s) then 3 else if degraded s then 1 else 0

/-- `khealth` (R394). -/
def khealthWord (s : State) : Word :=
  put 48 s.kiln.faults ||| put 35 (groupsRetired s) ||| put 25 (coresRetired s) ||| put 17 (dieBits (dieRetired s)) ||| flag 3 s.kiln.replace
    ||| put 0 (healthOf s)

/-- The lowest core clock among the joined dies, in MHz. -/
def lowestClock (s : State) : Nat := ((allDies.filter (dieFull s)).map (fun d => (dieRec s d).clock)).foldl min 4000

/-- `kpower` (R401). -/
def kpowerWord (s : State) : Word :=
  let k := s.kiln
  put 56 (k.dramt % 256) ||| put 48 (k.jt % 256) ||| put 32 (lowestClock s) ||| flag 29 k.limcur ||| flag 28 (allDies.any (fun d => (dieRec s d).limthm))
    ||| flag 27 (allDies.any (fun d => (dieRec s d).dref)) ||| put 0 k.cap

/-- `ksoft` of a die (R398). -/
def ksoftWord (s : State) (d : DieId) : Word :=
  let c := (dieRec s d).soft
  put 48 c.frret ||| put 32 c.ue ||| put 16 c.cedram ||| put 0 c.cesram

/-- The retirement byte of a core (R396). -/
def retirementByte (s : State) (d : DieId) (c : CoreId) : Byte := (coreRec s d c).lgmask

/-- `pkdie` (R382). -/
def pkdieWord (s : State) (d : DieId) : Word :=
  let x := dieRec s d
  put 48 x.crcerr ||| put 32 x.reissue ||| put 16 x.stale ||| flag 3 x.lostpg ||| put 0 x.state

/-- The lost list (R383): the count, then the entries. -/
def lostWord (s : State) (i : Nat) : Word :=
  match i with
  | 0 => put 0 s.kiln.lost.length
  | i + 1 => match s.kiln.lost[i]? with | some (f, t) => put 16 f ||| put 56 t | none => 0

/-! ## The glaze block (R369) -/

def gcmdWord (s : State) (d : DieId) : Word :=
  let g := (dieRec s d).glaze
  flag 63 g.busy ||| put 56 g.result ||| g.gcmd

def geventWord (s : State) (d : DieId) : Word :=
  let g := (dieRec s d).glaze
  put 32 g.tfcount ||| put 16 g.tenant ||| flag 2 g.tagfail ||| flag 1 g.wrapblk ||| flag 0 g.due

/-- `gslot` of a tenant (R364). DESIGN CHOICE (log entry 128): `newer` reads 0 while the tenant holds no key. -/
def gslotWord (s : State) (d : DieId) (t : Nat) : Word :=
  flag 4 (s.sealed.due.contains (d, t)) ||| flag 3 (!(heldOf s d t).isEmpty) ||| flag 2 ((newerSlot s d t).getD false)
    ||| flag 1 (keySlot s d t true).isSome ||| flag 0 (keySlot s d t false).isSome

def glazeWord (s : State) (d : DieId) (o : Nat) : Word :=
  if o = 0 then gcmdWord s d
  else if o = 8 then (dieRec s d).glaze.garg
  else if o = 0x10 then geventWord s d
  else if 0x100 ≤ o && o < 0x100 + 8 * 65 then gslotWord s d ((o - 0x100) / 8)
  else if 0x1000 ≤ o && o < 0x1000 + 16 * 65 then put 0 (sealedCount s d ((o - 0x1000) / 16) ((o - 0x1000) / 8 % 2 == 1))
  else 0

/-! ## Reads -/

/-- A ring control register (R330). -/
def ringWord (s : State) (fn : Nat) (slot : BitVec 3) : Word :=
  let r := ringOf s fn slot
  r.base ||| flag 5 r.hdrerr ||| flag 4 r.reset ||| flag 3 r.en ||| put 0 r.die.toNat

def windowOf (s : State) (fn i : Nat) : BitVec 128 := ((s.host.windows.find? (fun w => w.fn == fn && w.idx == i)).map (·.bits)).getD 0

/-- A register of the kiln block. -/
def kilnWord (s : State) (o : Nat) : Word :=
  if o = 0x100000 then kstateWord s
  else if o = 0x100008 then Config.revision
  else if o = 0x100010 then kfuseWord s
  else if o = 0x100018 then khealthWord s
  else if o = 0x100020 then kpowerWord s
  else if 0x100100 ≤ o && o < 0x100140 then ksoftWord s (BitVec.ofNat 3 ((o - 0x100100) / 8))
  else if 0x101000 ≤ o && o < 0x101200 then
    sumOf' ((List.range 8).map (fun i => (retirementByte s (BitVec.ofNat 3 ((o - 0x101000) / 64)) (BitVec.ofNat 6 ((o - 0x101000) % 64 + i))).toNat))
  else 0
where
  /-- eight bytes as one doubleword -/
  sumOf' (l : List Nat) : Word := BitVec.ofNat 64 (l.foldr (fun b acc => b + 256 * acc) 0)

/-- The kiln block of PF0 BAR0. -/
def inKiln (o : Nat) : Bool := 0x100000 ≤ o && o < 0x200000

/-- Where the model's numbers of configuration registers and of BAR4 begin. -/
def configBase : Nat := 2 ^ 32
def bar4Base : Nat := 2 ^ 33

/-- Whether a function has a register at an offset and it is served in this stage (R324, R387): PF1 has no BAR0, a VF has 64 KiB of it and no BAR4. -/
def servedNow (s : State) (f : HostFn) (o : Nat) : Bool :=
  present s f && s.kiln.stage != 0
    && (if bar4Base ≤ o then f.fn == 0 && o < bar4Base + 65536 && s.kiln.stage == 3
        else if configBase ≤ o then o < configBase + 4096
        else if f.fn = 0 then f.link == 0 && o < 2 ^ 24 && (s.kiln.stage == 3 || inKiln o)
        else o < 65536 && s.kiln.stage == 3)

/-- The speed code and the width that a link trained to, as a link status register has them (R324). -/
def linkStatus (s : State) (link : BitVec 1) : Word :=
  let (w, r) := ((s.host.links.find? (·.1 == link)).map (·.2)).getD (16, 128)
  put 4 (w % 64) ||| put 0 (1 + ([4, 7, 15, 31, 63, 127].filter (· < r)).length)

/-- A configuration register of a function: its IDE-required bit, the VFs enabled, the link status, and of PF0 the outbound window table (R393). -/
def configWord (s : State) (f : HostFn) (o : Nat) : Word :=
  if o = 0 then flag 0 (s.host.ideReq.contains f.fn)
  else if o = 8 ∧ f.fn = 0 then put 0 (if f.link == 0 then s.host.vfs.1 else s.host.vfs.2)
  else if o = 0x10 then linkStatus s f.link
  else if 0x100 ≤ o ∧ f.fn = 0 ∧ f.link = 0 then ((s.host.outbound.find? (·.1 == (o - 0x100) / 8)).map (·.2)).getD 0
  else 0

/-- A doubleword of an MSI-X table: the message's address; its data with the mask bit of the vector control (R324, R329). -/
def msixWord (s : State) (f : HostFn) (o : Nat) : Word :=
  let i := o / 8
  let set := ((s.host.msix.find? (fun x => x.1 == f.fn && x.2.1 == f.link && x.2.2.1 == i)).map (·.2.2.2)).getD 0
  if i % 2 = 1 then set ||| flag 32 (s.host.masked.contains (f.fn, f.link, i / 2)) else set

/-- A doubleword of a pending bit array: 64 vectors. -/
def pbaWord (s : State) (f : HostFn) (o : Nat) : Word :=
  BitVec.ofNat 64 (sumOf ((List.range 64).map (fun i => (s.host.pendingVec.contains (f.fn, f.link, 8 * o + i)).toNat * 2 ^ i)))

/-- A doubleword of a function's registers, at a multiple of 8. The pending bit array follows the MSI-X table (the model's choice, log entry 105). -/
def registerWord (s : State) (f : HostFn) (o : Nat) : Word :=
  let fn := f.fn
  if !servedNow s f o then 0
  else if bar4Base ≤ o then
    let b := o - bar4Base
    if b < 4096 then msixWord s f b else if b < 4096 + 32 then pbaWord s f (b - 4096) else 0
  else if configBase ≤ o then configWord s f (o - configBase)
  else if fn ≠ 0 ∧ 0x8000 ≤ o ∧ o < 0x8100 then msixWord s f (o - 0x8000)
  else if fn ≠ 0 ∧ o = 0x8100 then pbaWord s f 0
  else if o < 0x40 then ringWord s fn (BitVec.ofNat 3 (o / 8))
  else if 0x100 ≤ o && o < 0x180 then (windowOf s fn ((o - 0x100) / 16)).extractLsb' (64 * (o / 8 % 2)) 64
  else if fn ≠ 0 then 0
  else if inKiln o then kilnWord s o
  else if 0x200000 ≤ o && o < 0x200040 then put 0 (dieRec s (BitVec.ofNat 3 ((o - 0x200000) / 8))).grace
  else if 0x300000 ≤ o && o < 0x300040 then pkdieWord s (BitVec.ofNat 3 ((o - 0x300000) / 8))
  else if 0x310000 ≤ o && o < 0x400000 then lostWord s ((o - 0x310000) / 8)
  else if 0x400000 ≤ o && o < 0x480000 then glazeWord s (BitVec.ofNat 3 ((o - 0x400000) / 65536)) (o % 65536)
  else 0

/-- Whether two requests reach one function over one link, so that they stay in order (R325). -/
def sameFn (f g : HostFn) : Bool := f.fn == g.fn && f.link == g.link

/-- Whether a function responds to a read of a register: where it serves the register, and PF0 BAR0 whole in stages 1, 2 and 4, in which what is not served
reads 0 (R387). -/
def responds (s : State) (f : HostFn) (o : Nat) : Bool :=
  servedNow s f o || (present s f && s.kiln.stage != 0 && f.fn == 0 && f.link == 0 && o < 2 ^ 24)

/-- How a read of a register ends. -/
inductive ReadAnswer where
  /-- it waits for an earlier posted write of its function and link (R325) -/
  | waits
  /-- Unsupported Request (R326) -/
  | unsupported
  | data (w : Word)
  deriving DecidableEq, Repr

/-- What completes a read of a register, once every earlier posted write of its function and link has performed (R325): Unsupported Request for a function that
does not respond there, and for a request without the IDE that the function requires (R324, R326). -/
def registerRead (s : State) (f : HostFn) (o : Nat) : ReadAnswer :=
  if s.host.waiting.any (fun x => sameFn x.f f) then .waits
  else if ideMissing s f || !responds s f o then .unsupported
  else .data (registerWord s f o)

/-! ## Writes -/

/-- A write of a ring control register (R330). -/
def writeRing (s : State) (fn : Nat) (slot : BitVec 3) (v : Word) : State :=
  let r := ringOf s fn slot
  let r1 := if r.en then r else { r with base := v &&& 0x000FFFFFFFFFFF00, die := v.extractLsb' 0 3 }
  let en := v.getLsbD 3
  let again := v.getLsbD 4 || (en && !r.en)
  let r2 := if again then { r1 with reset := true, hdrerr := false } else r1
  let s1 := setRing s { r2 with en := en }
  { s1 with inputs := s1.inputs ++ (if again then [Instr.ringReset fn slot] else []) ++ (if r.en && !en then [Instr.ringDisable fn slot] else []) }

/-- A write of half a window entry (R327). -/
def writeWindow (s : State) (fn i : Nat) (high : Bool) (v : Word) : State :=
  let old := windowOf s fn i
  let new : BitVec 128 :=
    if high then (v &&& 0x0003FFFFFFFFFFFF) ++ old.extractLsb' 0 64 else old.extractLsb' 64 64 ++ (v &&& 0x000FFFFFFFFF0000)
  { s with host := { s.host with windows := s.host.windows.filter (fun w => !(w.fn == fn && w.idx == i)) ++ [⟨fn, i, new⟩] } }

/-- A vector masked or unmasked; unmasking sends a pending message (R329). -/
def setMask (s : State) (f : HostFn) (vec : Nat) (m : Bool) : State :=
  let v := (f.fn, f.link, vec)
  let s1 := { s with host := { s.host with masked := s.host.masked.filter (· != v) ++ (if m then [v] else []) } }
  if !m && s1.host.pendingVec.contains v then
    { s1 with host := { s1.host with pendingVec := s1.host.pendingVec.filter (· != v), out := s1.host.out ++ [.msix f.fn vec] } }
  else s1

/-- A write in an MSI-X table: an entry's address, or its data and the mask bit of its vector control. -/
def writeMsix (s : State) (f : HostFn) (o : Nat) (v : Word) : State :=
  let i := o / 8
  let w := if i % 2 = 1 then v &&& 0xFFFFFFFF else v &&& 0xFFFFFFFFFFFFFFFC
  let s1 := { s with host := { s.host with
    msix := s.host.msix.filter (fun x => !(x.1 == f.fn && x.2.1 == f.link && x.2.2.1 == i)) ++ [(f.fn, f.link, i, w)] } }
  if i % 2 = 1 then setMask s1 f (i / 2) (v.getLsbD 32) else s1

/-- A request of the device's own to the host (R393): outside the windows that the outbound table grants it is dropped and logged. How an entry of the table
grants a window is not given (`Config.grants`). -/
def deviceRequest (s : State) (a : Word) (b : List Byte) : State :=
  if Config.grants s.host.outbound a b.length then sendOut s (.request a b) else logError s 0 a

/-- A write of a configuration register. -/
def writeConfig (s : State) (f : HostFn) (o : Nat) (v : Word) : State :=
  let h := s.host
  if o = 0 then { s with host := { h with ideReq := h.ideReq.filter (· != f.fn) ++ (if v.getLsbD 0 then [f.fn] else []) } }
  else if o = 8 ∧ f.fn = 0 then
    let n := min (v.toNat % 128) 64
    { s with host := { h with vfs := if f.link == 0 then (n, h.vfs.2) else (h.vfs.1, n) } }
  else if 0x100 ≤ o ∧ f.fn = 0 ∧ f.link = 0 then
    let i := (o - 0x100) / 8
    { s with host := { h with outbound := h.outbound.filter (·.1 != i) ++ [(i, v)] } }
  else s

/-- The event that a command of the glaze unit is (R369); none for an operation or a tenant outside the map. -/
def glazeEvent (d : DieId) (v garg : Word) : Option Instr :=
  let t := (v.extractLsb' 16 7).toNat
  let slot := v.extractLsb' 8 1
  let first := (garg.extractLsb' 0 40).toNat
  let count := (garg.extractLsb' 40 24).toNat
  match (v.extractLsb' 0 4).toNat with
  | 1 => if t ≤ 64 then some (.generate d t slot) else none
  | 2 => if t ≤ 64 then some (.destroy d t slot) else none
  | 3 => if t ≤ 64 then some (.scrub d t slot) else none
  | 4 => some (.clear d first count)
  | 5 => if t ≤ 64 || t == 0x7E || t == 0x7F then some (.owner d first count (v.extractLsb' 16 7)) else none
  | _ => none

/-- A write of `gcmd` (R370): ignored while busy. -/
def writeGcmd (s : State) (d : DieId) (v : Word) : State :=
  let x := dieRec s d
  if x.glaze.busy then s
  else
    let s1 := setDie s d { x with glaze := { x.glaze with gcmd := v &&& 0x7F010F, busy := true } }
    if v.extractLsb' 23 33 != 0 || v.extractLsb' 9 7 != 0 || v.extractLsb' 4 4 != 0 then glazeDone s1 d 6
    else
      match glazeEvent d v x.glaze.garg with
      | some e => { s1 with inputs := s1.inputs ++ [e] }
      | none => glazeDone s1 d 6

/-- A write of `gevent`: its W1C bits. -/
def writeGevent (s : State) (d : DieId) (v : Word) : State :=
  let x := dieRec s d
  setDie s d { x with glaze := { x.glaze with
    tagfail := x.glaze.tagfail && !v.getLsbD 2, wrapblk := x.glaze.wrapblk && !v.getLsbD 1, due := x.glaze.due && !v.getLsbD 0 } }

def writeGlaze (s : State) (d : DieId) (o : Nat) (v : Word) : State :=
  let x := dieRec s d
  if !x.plinth then s
  else if o = 0 then writeGcmd s d v
  else if o = 8 then setDie s d { x with glaze := { x.glaze with garg := v } }
  else if o = 0x10 then writeGevent s d v
  else s

/-- A write in the kiln block: `kfuse` and `kpower` (R390, R401). -/
def writeKiln (s : State) (o : Nat) (v : Word) : State :=
  let k := s.kiln
  if o = 0x100010 then
    if k.fuseBusy then s
    else
      let s1 := { s with kiln := { k with fuseWhich := v.getLsbD 48, fuseTarget := (v.extractLsb' 40 8).toNat } }
      { s1 with inputs := s1.inputs ++ [Instr.fuseRaise (v.getLsbD 48) (v.extractLsb' 40 8)] }
  else if o = 0x100020 then
    let cap := (v.extractLsb' 0 12).toNat
    { s with kiln := { k with cap := if cap < 300 then 300 else if 2800 < cap then 2800 else cap, limcur := k.limcur && !v.getLsbD 29 } }
  else s

/-- A write of a doubleword of a function's registers; one that no register takes is dropped, and one without the IDE that the function requires is dropped
and logged (R326). -/
def registerWritten (s : State) (f : HostFn) (o : Nat) (v : Word) : State :=
  let fn := f.fn
  if ideMissing s f then logError s fn (BitVec.ofNat 64 o)
  else if !servedNow s f o || o % 8 != 0 then s
  else if bar4Base ≤ o then (if o - bar4Base < 4096 then writeMsix s f (o - bar4Base) v else s)
  else if configBase ≤ o then writeConfig s f (o - configBase) v
  else if o < 0x40 then writeRing s fn (BitVec.ofNat 3 (o / 8)) v
  else if 0x100 ≤ o && o < 0x180 then writeWindow s fn ((o - 0x100) / 16) (o / 8 % 2 == 1) v
  else if fn ≠ 0 then (if 0x8000 ≤ o && o < 0x8100 then writeMsix s f (o - 0x8000) v else s)
  else if inKiln o then writeKiln s o v
  else if 0x200000 ≤ o && o < 0x200040 then
    let d : DieId := BitVec.ofNat 3 ((o - 0x200000) / 8)
    setDie s d { dieRec s d with grace := v.toNat % 65536 }
  else if 0x400000 ≤ o && o < 0x480000 then writeGlaze s (BitVec.ofNat 3 ((o - 0x400000) / 65536)) (o % 65536) v
  else s

/-- The first request that the firmware has asked for is judged, whatever the firmware is (R393). MSI-X messages are sent apart from this (R329). -/
def serveRequests (s : State) : Option State :=
  match s.host.requests with
  | [] => none
  | r :: rest => some (deviceRequest { s with host := { s.host with requests := rest } } r.1 r.2)

/-! ## Accesses in order (R325, R328) -/

/-- A host access, or none while it waits. -/
def hostAccess (s : State) (x : HostAccess) : Option State :=
  match x.reg with
  | some v => some (registerWritten s x.f x.off v)
  | none => windowAccess s x

/-- Whether two accesses reach one function over one link, so that they stay in order (R325). -/
def sameWay (x y : HostAccess) : Bool := sameFn x.f y.f

/-- An access joins those that wait. -/
def waitAccess (s : State) (x : HostAccess) : State := { s with host := { s.host with waiting := s.host.waiting ++ [x] } }

/-- A host access as it arrives: behind an earlier one of its function and link that waits, it waits. -/
def arriveAccess (s : State) (x : HostAccess) : State :=
  if s.host.waiting.any (sameWay x) then waitAccess s x else (hostAccess s x).getD (waitAccess s x)

/-- The first waiting accesses, in a list of them, that can go on now. -/
def nextAccess (s : State) : List HostAccess → List HostAccess → Option State
  | _, [] => none
  | before, x :: after =>
    match (if before.any (sameWay x) then none else hostAccess s x) with
    | some t => some { t with host := { t.host with waiting := before ++ after } }
    | none => nextAccess s (before ++ [x]) after

/-- A waiting host access that can go on now goes on. -/
def serveHost (s : State) : Option State := nextAccess s [] s.host.waiting

/-- The machine as an access of a function finds its registers: with the register writes done that have arrived before it over its link and still wait (R327). -/
def afterWrites (s : State) (f : HostFn) : State :=
  (s.host.waiting.filter (fun x => sameFn x.f f)).foldl (fun t x => match x.reg with | some v => registerWritten t x.f x.off v | none => t) s

/-- A host read through a window (R328). -/
def execHostWindowRead (f : HostFn) (off size : Nat) (s : State) : Result :=
  .next (arriveAccess s ⟨f, off, size, none, windowTarget (afterWrites s f) f off size, none⟩)

/-- A host posted write through a window (R328). -/
def execHostWindowWrite (f : HostFn) (off : Nat) (data : List Byte) (s : State) : Result :=
  .next (arriveAccess s ⟨f, off, data.length, some data, windowTarget (afterWrites s f) f off data.length, none⟩)

/-- A host write of a register: a posted write too, behind the earlier ones of its function and link. -/
def execRegisterWrite (f : HostFn) (o : Nat) (v : Word) (s : State) : Result := .next (arriveAccess s ⟨f, o, 8, none, none, some v⟩)

end Sys2Proof.Machine
end

