-- ==== Sys2Proof/Machine/Dies.lean ====
section
/-! DEFINITION. Dies and cores (R341, R356, R382, R383, R387, R391, R395 to R397): joining, failing, rejoining, evacuation, draining and
retirement, and the supervisor harts. -/

namespace Sys2Proof.Machine

/-! ## Supervisor harts (R345, R391) -/

/-- The first core of a die, none that is draining, with room for one more hart, and its first free slot. -/
def supervisorSlot (s : State) (d : DieId) : Option HartId :=
  (allCores.find? (fun c => !(coreRec s d c).draining && (coreHarts s d c).length < min 4 (workingGroups (coreRec s d c)))).bind
    (fun c => (freeHartSlots s d c).head?)

/-- Where a die's firmware starts: a pc, whose bits 1:0 are 0 (R68). -/
def firmwareEntry (d : DieId) : Word := Config.supervisorEntry d.toNat &&& 0xFFFFFFFFFFFFFFFC

/-- The supervisor hart of a die at its firmware entry. -/
def supervisorBox (d : DieId) (h : HartId) : HartBox :=
  { hart := { Hart.empty with live := true, id := h, key := ⟨0, d, 0⟩, supervisor := true }
    s0 := Strand.start (firmwareEntry d), s1 := none }

def startSupervisor (s : State) (d : DieId) : State :=
  match supervisorSlot s d with
  | some h => addHart s (supervisorBox d h)
  | none => s

/-- A die enters the full state: its supervisor hart and its dispatcher start. -/
def enterFull (s : State) (d : DieId) : State :=
  startSupervisor (setDie s d { dieRec s d with state := 2, cycle0 := s.cycle }) d

/-! ## Joining (R387) -/

/-- A trained die joins; the first brings the module to stage 3. -/
def execDieJoin (d : DieId) (s : State) : Result :=
  let x := dieRec s d
  if (s.kiln.stage == 2 || s.kiln.stage == 3) && x.state == 1 && x.plinth then
    let s1 := enterFull s d
    .next { s1 with kiln := { s1.kiln with stage := 3 } }
  else .next s

/-- A die not trained in time is left out. -/
def execTrainingTimeout (d : DieId) (s : State) : Result :=
  if (s.kiln.stage == 2 || s.kiln.stage == 3) && (dieRec s d).state == 1 then
    let s1 := setDie s d { dieRec s d with state := 0 }
    .next { s1 with kiln := { s1.kiln with failedDies := s1.kiln.failedDies ||| BitVec.ofNat 8 (2 ^ d.toNat) } }
  else .next s

/-! ## Failure of a die (R382, R383) -/

/-- What waits at a home for a die that is down, or for an engine of it. -/
def Waiting.ofDie (d : DieId) (own : Bool) (engines : List Nat) : Waiting → Bool
  | .ask a => match a.who with | .core _ => own | .die e => e == d
  | .claim e => engines.contains e

/-- A home entry after a die is marked down: copies on it count as acked, lines it owned are lost, and nothing waits for it. -/
def downEntry (d : DieId) (engines : List Nat) (h : HomeLine) : Option HomeLine :=
  let own := lineHome h.line == d
  let q := h.queue.filter (fun w => !w.ofDie d own engines)
  match h.st with
  | .S cs ds =>
    let cs := if own then [] else cs
    let ds := ds.filter (· != d)
    if cs.isEmpty && ds.isEmpty then none else some { h with st := .S cs ds, queue := q }
  | .X (.core c) => some { h with st := if own then .P .lost else .X (.core c), queue := q }
  | .X (.die e) => some { h with st := if e == d then .P .lost else .X (.die e), queue := q }
  | .G e => some { h with st := if engines.contains e then .P .lost else .G e, queue := q }
  | .P k => some { h with st := .P k, queue := q }

/-- A die's caches, translations and windows are gone, and its proxy answers no home. -/
def Coherence.without (c : Coherence) (d : DieId) : Coherence :=
  { c with
    l1 := c.l1.filter (·.die != d), streams := c.streams.filter (·.die != d), proxy := c.proxy.filter (·.die != d), tlb := c.tlb.filter (·.die != d)
    walkers := c.walkers.filter (·.die != d), windows := c.windows.filter (·.src != d)
    sent := c.sent.filter (fun m => m.src != d && !(m.dst == d && m.agent == homeAgent)) }

/-- What is delayed, without what a die or its engines sent. -/
def stillDelayed (d : DieId) (engines : List Nat) (l : List (Nat × Waiting)) : List (Nat × Waiting) :=
  l.filter (fun p => !p.2.ofDie d (lineHome p.1 == d) engines)

/-- Every plinth marks a die down. What waited for a line that is lost receives the poison. -/
def markDown (s : State) (d : DieId) : State :=
  let engines := (s.sched.commands.filter (fun c => c.die == d)).map (·.id)
  let home := s.coh.home.filterMap (downEntry d engines)
  let lost := home.filter (fun h => h.st == .P .lost)
  let s1 := { s with
    coh := { s.coh.without d with
      home := home.map (fun h => if h.st == .P .lost then { h with queue := [] } else h), delayed := stillDelayed d engines s.coh.delayed }
    sealed := { s.sealed with dirty := s.sealed.dirty.filter (fun l => !lost.any (·.line == l)) } }
  lost.foldl (fun s h => serveQueue s h.line h.queue) s1

/-- The frames of a stack that tenants own, as the lost list records them. -/
def ownedFrames (s : State) (d : DieId) : List (Nat × Nat) :=
  (s.sealed.owners.filter (fun o => homeDieOf (65536 * o.frame) == d && o.owner.toNat ≤ 64)).map (fun o => (o.frame, o.owner.toNat))

/-- Nothing of a stack is left in any cache or directory. -/
def forgetStack (s : State) (d : DieId) : State :=
  { s with coh := { s.coh with
      l1 := s.coh.l1.filter (fun x => lineHome x.line != d), streams := s.coh.streams.filter (fun x => lineHome x.line != d)
      home := s.coh.home.filter (fun x => lineHome x.line != d), proxy := s.coh.proxy.filter (fun x => lineHome x.line != d)
      sent := s.coh.sent.filter (fun m => m.dst != d), delayed := s.coh.delayed.filter (fun p => lineHome p.1 != d) } }

/-- The plinth of a die fails (R383): every frame of its stack is lost, and the die is offline. -/
def failPlinth (s : State) (d : DieId) : State :=
  let s1 := setDie (forgetStack s d) d { dieRec s d with plinth := false, state := 4, lostpg := true }
  { s1 with kiln := { s1.kiln with lost := s1.kiln.lost ++ ownedFrames s d } }

/-- Where a die that has left the full state goes: memory-only while its plinth works; offline with its frames lost otherwise. -/
def afterFailure (s : State) (d : DieId) : State :=
  let s1 := setDie s d { dieRec s d with state := 3, images := [], unanswered := [] }
  if (dieRec s d).plinth then s1 else failPlinth s1 d

/-- A die leaves the full state. -/
def failDie (s : State) (d : DieId) : State :=
  let s1 := markDown s d
  let s2 := (s1.sched.launches.filter (fun l => l.dies.contains d)).foldl (fun s l => failLaunch s l.id 8 0) s1
  let s3 := (s2.sched.commands.filter (fun c => c.die == d)).foldl abandonCommand s2
  let s4 := ((boxes s3).filter (fun b => dieOf b.hart.id == d)).foldl endHart s3
  let s5 := afterFailure s4 d
  logEvent { s5 with kiln := { s5.kiln with failedDies := s5.kiln.failedDies ||| BitVec.ofNat 8 (2 ^ d.toNat), replace := true } } .retirement

/-- A die fails: one in the full state leaves it; one that is memory-only has only its plinth left to fail. -/
def execDieFailure (d : DieId) (s : State) : Result :=
  if dieFull s d then .next (failDie s d) else if (dieRec s d).state == 3 then .next (failPlinth s d) else .next s

/-! ## Retirement of lane groups and cores (R396) -/

/-- A core's groups retired; groups that are still due after that keep it draining. -/
def CoreRec.retire (r : CoreRec) (mask : BitVec 8) : CoreRec :=
  let due := r.due &&& ~~~(r.lgmask ||| mask)
  { r with lgmask := r.lgmask ||| mask, due := due, draining := r.draining && due != 0, overdue := r.overdue && due != 0 }

/-- A core's groups retired at once. -/
def retireGroups (s : State) (d : DieId) (c : CoreId) (mask : BitVec 8) : State :=
  let s1 := setCore s ((coreRec s d c).retire mask)
  logEvent { s1 with kiln := { s1.kiln with replace := true } } .retirement

/-- Whether an empty core could take a crew with some need (R339, R356). -/
def couldTake (s : State) (d : DieId) (n : Need) (c : CoreId) : Bool :=
  let w := workingGroups (coreRec s d c)
  n.harts ≤ min 4 w && n.stash ≤ 16 && n.accs ≤ 32 && n.groups ≤ w && n.banks ≤ bankLimit s d

/-- Whether some crew of a launch can be placed on no core of its die. -/
def unplaceable (s : State) (l : Launch) : Bool :=
  l.failed.isNone
    && (l.dies.any (fun d => placedOn l d < (headerOf l.record).crews && !allCores.any (couldTake s d (needNew l)))
        || s.sched.crews.any (fun w => w.launch == l.id && w.waiting && !allCores.any (couldTake s w.die (needAgain s w))))

/-- Launches that retirement has left without a core end with cause 11 (R341, R356). -/
def failUnplaceable (s : State) : State := (s.sched.launches.filter (unplaceable s)).foldl (fun s l => failLaunch s l.id 11 0) s

/-- A die with 32 or more cores retired leaves the full state (R395). -/
def checkDie (s : State) (d : DieId) : State :=
  if 32 ≤ (s.cores.filter (fun c => c.die == d && c.lgmask == 0xFF)).length then reportDie s d else s

/-- The kiln controller marks a core draining. -/
def startDrain (s : State) (d : DieId) (c : CoreId) (mask : BitVec 8) : State :=
  let r := coreRec s d c
  setCore s { r with draining := true, due := r.due ||| mask }

/-- A supervisor hart that stands on a core starts again on another, if one has room. -/
def moveSupervisor (s : State) (d : DieId) (c : CoreId) : State :=
  match (boxes s).find? (fun b => b.hart.supervisor && dieOf b.hart.id == d && coreOf b.hart.id == c), supervisorSlot s d with
  | some b, some h => addHart (endHart s b) (supervisorBox d h)
  | _, _ => s

/-- The crews on a core that can be pre-empted now: the image pools have a free slot for each of their harts (R346). -/
def drainVictims (s : State) (d : DieId) (c : CoreId) : List Crew :=
  s.sched.crews.filter (fun x => x.die == d && x.core == c && stoppable s x && poolsHold s [x])

/-- One crew of a core pre-empted, where the pools still hold it; one under the armature takes its launch with it (R38). -/
def drainCrew (s : State) (x : Crew) : State := if poolsHold s [x] then (wholeVictims s [x]).foldl preempt s else s

/-- After a second the crews still on a draining core are pre-empted, each as soon as the pools hold it, and a supervisor hart starts again
elsewhere. -/
def execDrainTimeout (d : DieId) (c : CoreId) (s : State) : Result :=
  let r := coreRec s d c
  if r.draining then
    let s1 := setCore s { r with overdue := true }
    .next (moveSupervisor ((drainVictims s1 d c).foldl drainCrew s1) d c)
  else .next s

/-- Whether a core holds no hart. -/
def coreEmpty (s : State) (d : DieId) (c : CoreId) : Bool := (coreHarts s d c).isEmpty

/-- An empty draining core's retirement byte is updated. -/
def execCoreRetirement (d : DieId) (c : CoreId) (s : State) : Result :=
  let r := coreRec s d c
  if r.draining && coreEmpty s d c then .next (checkDie (failUnplaceable (retireGroups s d c r.due)) d) else .next s

/-! ## Rejoining (R383) -/

/-- A retrained compute die rejoins with its failed groups and cores retired; like the first die that joins it brings the module to stage 3 (R387). -/
def execDieRejoin (d : DieId) (failed : List (CoreId × BitVec 8)) (s : State) : Result :=
  if (s.kiln.stage == 2 || s.kiln.stage == 3) && (dieRec s d).state == 3 && (dieRec s d).plinth then
    let s1 := enterFull (failed.foldl (fun s p => retireGroups s d p.1 p.2) s) d
    .next (checkDie { s1 with kiln := { s1.kiln with stage := 3 } } d)
  else .next s

/-! ## Moving frames (R383, R397) -/

/-- Whether a frame is free: below the region of a working stack, and unassigned. -/
def frameFree (s : State) (f : Nat) : Bool :=
  frameThere s (65536 * f) && ownerOf s f == 0x7F && ((dieRec s (homeDieOf (65536 * f))).state == 2 || (dieRec s (homeDieOf (65536 * f))).state == 3)

/-- One tile copied through L2; a poisoned source leaves the new tile clear. -/
def moveTile (s : State) (t u : Nat) : State × Bool :=
  let s1 := fillTile s t
  if (List.range 16).any (fun i => (poisonOf s1 (16 * t + i)).isSome) then (clearTiles s1 u 1, false)
  else
    let v := gatherCells 11 (2048 * t) (s1.mem.filter (fun c => 2048 * t ≤ c.1 && c.1 < 2048 * t + 2048))
    let s2 := (List.range 16).foldl (fun s i => touchStoreAll s (16 * u + i)) s1
    (setMem s2 (s2.mem.put 11 (2048 * u) v), true)

/-- A tenant has a key on a die before anything of it is sealed there. -/
def haveKey (s : State) (d : DieId) (tenant : Nat) : State := if (newerSlot s d tenant).isSome then s else generateKey s d tenant false

/-- The frames of a stack below its metadata region. -/
def stackFrames (d : DieId) : List Nat := (List.range (regionStart / 65536)).map (stackFrame d + ·)

/-- Some free frame that is none of a list, on the stack of frame f first, and then on the others but that of a die in `off`. -/
def someFree (s : State) (f : Nat) (not : List Nat) (off : List DieId := []) : Option Nat :=
  (homeDieOf (65536 * f) :: allDies.filter (!off.contains ·)).findSome? (fun e => (stackFrames e).find? (fun g => !not.contains g && frameFree s g))

/-- The 8,192 level-2 leaves that stand for a 512 MiB leaf, as the number that a table of them holds. -/
def splitTable (pte : Word) : Nat := leNat ((List.range 8192).flatMap (fun i => leBytes 8 (pte.toNat + 65536 * i)))

/-- A 512 MiB leaf replaced by a table, in a frame of tenant 0, of the leaves that say the same. -/
def splitLeaf (s : State) (x : Mapping) (table : Nat) : State :=
  let s1 := setOwners (haveKey s (homeDieOf (65536 * table)) 0) table 1 0
  let s2 := (List.range 512).foldl (fun s i => touchStoreAll s (512 * table + i)) s1
  setEntry (shootMapping (setMem s2 (s2.mem.writeNat (65536 * table) 65536 (splitTable x.leaf.pte))) x) x.entry (BitVec.ofNat 64 (65536 * table + 1))

/-- Every leaf for a frame is one of 64 KiB, the tables on the new frame's stack where it has room; none where no frame is left for a table. -/
def splitLeaves (s : State) (old new : Nat) : Option State :=
  ((mappingsTo s old).filter (·.leaf.large)).foldlM (fun s x => (someFree s new [old, new] [homeDieOf (65536 * old)]).map (splitLeaf s x)) s

/-- Whether something of a frame waits: the fill of a tile, a home that cannot go on with a line, or a line that an engine owns (R367, R377, R380). -/
def frameWaits (s : State) (f : Nat) : Bool :=
  (List.range 32).any (fun i => tileWaits s (32 * f + i)) || s.coh.home.any (fun h => h.line / 512 == f && (match h.st with | .G _ => true | _ => false))

/-- Whether the move of a frame must wait for something of the frame, of the new one, or of one that its large leaves' tables need. -/
def moveWaits (s : State) (old new : Nat) : Bool :=
  frameWaits s old || frameWaits s new || ((splitLeaves s old new).getD s).sealed.owners.any (fun o => ownerOf s o.frame != o.owner && frameWaits s o.frame)

/-- Whether a frame can be moved to another now: a tenant owns it, the other is free, its large leaves can be split, and nothing waits. -/
def frameMovable (s : State) (old new : Nat) : Bool :=
  (ownerOf s old).toNat ≤ 64 && frameFree s new && frameThere s (65536 * old) && (splitLeaves s old new).isSome && !moveWaits s old new

/-- A frame moved to a free one: shot down, copied, its leaves set to the new frame, the old frame cleared and given an owner byte. -/
def moveFrame (s : State) (old new : Nat) (left : BitVec 7) : State :=
  let o := ownerOf s old
  if !frameMovable s old new then s
  else
    let s0 := (splitLeaves s old new).getD s
    let maps := mappingsTo s0 old
    let s1 := maps.foldl shootMapping s0
    let s2 := setOwners (haveKey s1 (homeDieOf (65536 * new)) o.toNat) new 1 o
    let (s3, whole) := (List.range 32).foldl (fun (p : State × Bool) i =>
      let q := moveTile p.1 (32 * old + i) (32 * new + i)
      (q.1, p.2 && q.2)) (s2, true)
    let s4 := maps.foldl (fun s x => remap s x (some new)) s3
    let s5 := setOwners (clearTiles s4 (32 * old) 32) old 1 left
    if whole then s5
    else
      let s6 := { s5 with kiln := { s5.kiln with lost := s5.kiln.lost ++ [(old, o.toNat)] } }
      let d := homeDieOf (65536 * old)
      setDie s6 d { dieRec s6 d with lostpg := true }

/-- A memory-only die's frames moved in turn to frames on other dies. -/
def evacuate (s : State) (d : DieId) (moves : List (Nat × Nat)) : State :=
  let mine (p : Nat × Nat) : Bool := homeDieOf (65536 * p.1) == d && homeDieOf (65536 * p.2) != d
  (moves.filter mine).foldl (fun s p => moveFrame s p.1 p.2 0x7F) s

/-- The firmware moves a memory-only die's frames to other dies, and the die goes offline; where the free frames cannot hold every frame that it
owns for a tenant, or something of one waits, none is moved and the die stays memory-only, and the firmware may try again (R383). -/
def execEvacuation (d : DieId) (moves : List (Nat × Nat)) (s : State) : Result :=
  let s1 := evacuate s d moves
  if (dieRec s d).state == 3 && (ownedFrames s1 d).isEmpty then .next (setDie s1 d { dieRec s1 d with state := 4 }) else .next s

/-- A frame's retirement waits (log entry 130). -/
def retireLater (s : State) (f : Nat) : State := { s with kiln := { s.kiln with retiring := s.kiln.retiring.filter (· != f) ++ [f] } }

/-- A frame is retired (R397): one that a tenant owns moves first; with no free frame it stays in service, and while something of it waits its retirement does. -/
def retireFrame (s : State) (f : Nat) : State :=
  let d := homeDieOf (65536 * f)
  let count (s : State) : State :=
    let x := dieRec s d
    let s1 := setDie s d { x with soft := { x.soft with frret := min (x.soft.frret + 1) 65535 } }
    logEvent { s1 with kiln := { s1.kiln with replace := true } } .retirement
  let o := ownerOf s f
  if o == 0x7E then s
  else if frameWaits s f then retireLater s f
  else if o == 0x7F then count (setOwners (clearTiles s (32 * f) 32) f 1 0x7E)
  else
    match someFree s f [f] with
    | some g => if moveWaits s f g then retireLater s f else if frameMovable s f g then count (moveFrame s f g 0x7E) else logEvent s (.frameKept f)
    | none => logEvent s (.frameKept f)

/-- Whether a frame's retirement need not wait any more. -/
def retireReady (s : State) (f : Nat) : Bool :=
  !frameWaits s f && (match someFree s f [f] with | some g => !moveWaits s f g | none => true)

/-- A frame whose retirement waited is retired. -/
def serveFrames (s : State) : Option State :=
  (s.kiln.retiring.find? (retireReady s)).map (fun f => retireFrame { s with kiln := { s.kiln with retiring := s.kiln.retiring.erase f } } f)

/-! ## Supervisor faults (R391) -/

/-- A supervisor's trap is logged and the hart restarts; a second within 1 s takes the die out of the full state. -/
def execSupervisorFault (d : DieId) (now : Nat) (s : State) : Result :=
  if !dieFull s d then .next s
  else
    let x := dieRec s d
    let s1 := logEvent { setDie s d { x with superFault := some now } with now := max s.now now } .supervisorFault
    if x.superFault.any (fun t => now < t + 1000000) then .next (reportDie s1 d)
    else
      match (boxes s1).find? (fun b => b.hart.supervisor && dieOf b.hart.id == d) with
      | some b => .next (addHart (endHart s1 b) (supervisorBox d b.hart.id))
      | none => .next (startSupervisor s1 d)

end Sys2Proof.Machine
end

