-- ==== Sys2Proof/Machine/Kiln.lean ====
section
/-! DEFINITION. The kiln controller (R387 to R402): the ROM's boot, fuses, attestation, telemetry, power, errors, and the recovery from a
device fault. -/

namespace Sys2Proof.Machine

/-! ## The ROM (R388, R389) -/

/-- A little-endian field of a byte list. -/
def bytesNat (l : List Byte) (off n : Nat) : Nat := leNat ((l.drop off).take n)
def bytesOf (l : List Byte) (off n : Nat) : List Byte := (l.drop off).take n

/-- The body of a firmware image. -/
def imageBody (f : List Byte) : List Byte := bytesOf f 4096 (bytesNat f 16 8)

/-- The bytes of a number, little-endian. -/
def nBytes (n v : Nat) : List Byte := leBytes n v

/-- The revision translation public key, and its signatures (R286). -/
def translationKey : List Byte := nBytes 1312 Config.translationKey.toNat
def signTranslation (b : List Byte) : List Byte := nBytes 2420 (Config.signTranslation b).toNat

/-- Whether a signature verifies: the device's own, made under the revision translation key, does on every module of the revision (R286). -/
def verify (pk b sig : List Byte) : Bool := Config.verify pk b sig || (pk == translationKey && sig == signTranslation b)

/-- Whether an image passes the ROM's checks (R389). DESIGN CHOICE (log entry 131): an image whose `blen` is 0 or above 2^26, or whose body runs past the bank's
bytes, fails, though no check of R389 names `blen`. -/
def imagePasses (s : State) (f : List Byte) : Bool :=
  let blen := bytesNat f 16 8
  let pk := bytesOf f 56 1312
  4096 + blen ≤ f.length && bytesNat f 0 4 == 0x4E4C494B && bytesNat f 4 4 == 1 && (bytesOf f 3788 308).all (· == 0) && 1 ≤ blen && blen ≤ 2 ^ 26
    && sha3 pk == nBytes 32 Config.rootKeyHash.toNat && verify pk (bytesOf f 0 56) (bytesOf f 1368 2420)
    && sha3 (imageBody f) == bytesOf f 24 32 && s.kiln.fwv ≤ bytesNat f 8 4

/-- The bank the ROM boots: the passing image with the greater secver, a tie to A. -/
def bootBank (s : State) : Option Bool :=
  match imagePasses s s.kiln.flashA, imagePasses s s.kiln.flashB with
  | true, true => some (bytesNat s.kiln.flashA 8 4 < bytesNat s.kiln.flashB 8 4)
  | true, false => some false
  | false, true => some true
  | false, false => none

/-- The ROM verifies both banks; a booted image brings a stage, none brings recovery, in which no firmware runs. -/
def bootRom (s : State) (stage : Nat) : State :=
  match bootBank s with
  | none =>
    let r := Kiln.reset
    { s with kiln := { s.kiln with stage := 4, bank := r.bank, secver := r.secver, tfloor := r.tfloor, hbody := r.hbody } }
  | some b =>
    let f := if b then s.kiln.flashB else s.kiln.flashA
    { s with kiln := { s.kiln with stage := stage, bank := b, secver := bytesNat f 8 4, tfloor := bytesNat f 12 4, hbody := bytesOf f 24 32 } }

/-- Power-good starts the ROM; without the plinth of stack 0 the module never leaves stage 0. -/
def execPowerGood (s : State) : Result := if s.kiln.stage == 0 && (dieRec s 0).plinth then .next (bootRom s 1) else .next s

/-- The running firmware starts DRAM and link training: every die joins in time or is left out (R387). -/
def startTraining (s : State) : State :=
  let s1 := allDies.foldl (fun s d => if (dieRec s d).state == 0 then setDie s d { dieRec s d with state := 1 } else s) s
  { s1 with kiln := { s1.kiln with stage := 2 } }

/-! ## Fuses (R289, R390) -/

/-- The value of the counter that a raise names. -/
def fuseValue (s : State) (object : Bool) : Nat := if object then s.kiln.objv else s.kiln.fwv

/-- A raise of a fuse counter (R390). DESIGN CHOICE (log entry 132): in stage 4, where no firmware runs, the secver compared is 0, and it is compared before the
current value is, so that a firmware target of 1 up to the current value gives result 2. -/
def execFuseRaise (object : Bool) (target : BitVec 8) (s : State) : Result :=
  let k := s.kiln
  let t := target.toNat
  let done (r : Nat) : Result := .next { s with kiln := { k with fuseWhich := object, fuseTarget := t, fuseResult := r } }
  if k.fuseBusy then .next s
  else if 64 < t || (!object && k.secver < t) then done 2
  else if t ≤ fuseValue s object then done 1
  else
    .next { s with
      kiln := { k with fuseWhich := object, fuseTarget := t, fuseBusy := true, fuseBlown := fuseValue s object }
      inputs := s.inputs ++ [Instr.fuseRaiseComplete] }

/-- Cached outputs below a counter are evicted, each logged (R288, R289). -/
def evictBelow (s : State) (v : Nat) : State :=
  let gone := s.kiln.cache.filter (fun c => c.secver < v)
  let s1 := gone.foldl (fun s c => logEvent s (.revoked c.hin c.secver)) s
  { s1 with kiln := { s1.kiln with cache := s1.kiln.cache.filter (fun c => v ≤ c.secver) } }

/-- Placed objects below a counter are unloaded, each logged. -/
def revokeBelow (s : State) (v : Nat) : State :=
  let s1 := (s.kiln.placed.filter (fun p => p.secver < v)).foldl (fun s p => logEvent s (.revoked p.hin p.secver)) (evictBelow s v)
  sweepObjects (unloadBelow s1 v)

/-- The last bit of a raise is blown: the counter has its new value, and a raise of the object counter revokes what lies below (R289). -/
def raiseDone (s : State) : State :=
  let k := s.kiln
  let k1 := { k with fuseBusy := false, fuseResult := 0, fwv := if k.fuseWhich then k.fwv else k.fuseTarget
                     objv := if k.fuseWhich then k.fuseTarget else k.objv }
  let s1 := logEvent { s with kiln := k1 } .fuseRaise
  if k.fuseWhich then revokeBelow s1 k.fuseTarget else s1

def execFuseRaiseComplete (s : State) : Result := if s.kiln.fuseBusy then .next (raiseDone s) else .next s

/-- How far a raise in progress has come: a value from what it is known to have reached to a bound. -/
def fuseProgress (s : State) (bound : Nat) : Nat :=
  let k := s.kiln
  k.fuseBlown + Config.fuseStop s.fresh % (bound - k.fuseBlown + 1)

/-- A raise that is cut short leaves a value from the old one to the target; one whose last bit had been blown is done. -/
def cutFuse (s : State) : State :=
  let k := s.kiln
  if k.fuseBusy then
    let v := fuseProgress s k.fuseTarget
    if v = k.fuseTarget then bump (raiseDone s)
    else bump { s with kiln := { k with fuseBusy := false, fwv := if k.fuseWhich then k.fwv else v, objv := if k.fuseWhich then v else k.objv } }
  else s

/-- Loss of power: flash and fuses stay, all else is gone; keys and free values made later are fresh ones. -/
def execPowerLoss (s : State) : Result :=
  let s1 := cutFuse s
  let k := s1.kiln
  .next { State.reset with
    kiln := { Kiln.reset with fwv := k.fwv, objv := k.objv, flashA := k.flashA, flashB := k.flashB }
    sealed := { Sealed.reset with gens := s1.sealed.gens }, fresh := s1.fresh, inputs := s1.inputs }

/-- A reset of the kiln controller reruns the ROM; the dies keep their state. -/
def execKilnControllerReset (s : State) : Result :=
  if s.kiln.stage == 0 then .next s
  else
    let s1 := cutFuse s
    .next (bootRom s1 (if allDies.any (dieFull s1) then 3 else 1))

/-! ## Attestation, update, telemetry (R392, R402) -/

/-- The measurement blocks, each an index byte and its content; block 2 is absent in stage 4. The manual gives the contents; their layout as bytes is the
model's choice (log entry 118). -/
def measurementBlocks (s : State) : List (List Byte) :=
  let k := s.kiln
  [(1 : Byte) :: sha3 Config.romImage]
    ++ (if k.stage == 4 then [] else [(2 : Byte) :: (k.hbody ++ nBytes 4 k.secver ++ nBytes 1 k.bank.toNat)])
    ++ [(3 : Byte) :: (nBytes 1 (blownBits s false) ++ nBytes 1 (blownBits s true)), (4 : Byte) :: nBytes 8 Config.revision.toNat,
        (5 : Byte) :: translationKey, (6 : Byte) :: nBytes 8 (kstateWord s).toNat]

/-- A signed response, the blocks joined together and the signature over them (log entry 118); during a raise it shows the bits blown so far, which only grow. -/
def execMeasurements (s : State) : Result :=
  if s.kiln.stage == 0 then .next s
  else
    let s1 := if s.kiln.fuseBusy then bump { s with kiln := { s.kiln with fuseBlown := fuseProgress s (s.kiln.fuseTarget - 1) } } else s
    let body := (measurementBlocks s1).flatten
    .next (sendOut s1 (.bytes 1 (body ++ nBytes 2420 (Config.signIdentity body).toNat)))

/-- An image into the bank that is not running. -/
def execFirmwareUpdate (image : List Byte) (s : State) : Result :=
  if s.kiln.stage == 0 then .next s
  else .next { s with kiln := if s.kiln.bank then { s.kiln with flashA := image } else { s.kiln with flashB := image } }

/-- The largest grants of a die's cores, of those that are not retired. -/
def largestOn (s : State) (d : DieId) : List Nat :=
  (allCores.filter (fun c => (coreRec s d c).lgmask != 0xFF)).map (fun c => fitVlen false 16 (workingGroups (coreRec s d c)) (bankLimit s d))

/-- The module's largest VLEN: one that every core can grant, so that it follows the fall of any core's (the worked case of R397, log entry 94). -/
def largestVlen (s : State) : Nat :=
  match (allDies.filter (dieFull s)).flatMap (largestOn s) with
  | [] => 0
  | v :: r => r.foldl min v

/-- What a sensor reads. The input current is the module's power at the 48 V rail, in mA. -/
def sensorValue (s : State) : Sensor → Word
  | .power => put 0 s.kiln.watts
  | .current => put 0 (s.kiln.watts * 1000 / 48)
  | .powerReg => kpowerWord s
  | .clock d => put 0 (dieRec s d).clock
  | .largestVlen => put 0 (largestVlen s)
  | .health => khealthWord s
  | .soft d => ksoftWord s d

/-- PLDM but for firmware update is served in stages 1 to 3 (R387). -/
def pldmOn (s : State) : Bool := s.kiln.stage == 1 || s.kiln.stage == 2 || s.kiln.stage == 3

def execPlatformMonitoring (x : Sensor) (s : State) : Result :=
  if !pldmOn s then .next s else .next (sendOut s (.value 2 (sensorValue s x)))

/-- The event log. -/
def execFileTransfer (s : State) : Result := if !pldmOn s then .next s else .next (sendOut s (.log s.kiln.log))

/-! ## Power and heat (R393, R401) -/

/-- A core clock after one sample: lowered by 250 MHz, but not below 1,000 MHz, or raised again. -/
def nextClock (s : State) (watts temp clock : Nat) : Nat :=
  if s.kiln.cap < watts || 92 < temp then (if clock ≤ 1000 then clock else max 1000 (clock - 250))
  else if 100 * watts < 95 * s.kiln.cap then min 4000 (clock + 250) else clock

/-- One die's part of a sample: its clock, as every die's, the refresh of its stack, and of a die in the full state its thermal throttle; at 95 °C it leaves
that state. -/
def sampleDie (watts : Nat) (hot : List (DieId × Nat)) (s : State) (d : DieId) : State :=
  let x := dieRec s d
  let t := ((hot.find? (fun h => h.1 == d)).map (·.2)).getD 0
  let c := nextClock s watts t x.clock
  if !dieFull s d then setDie s d { x with clock := c, dref := x.state == 3 && 85 < t, limthm := false }
  else
    let s1 := setDie s d { x with clock := c, dref := 85 < t, limthm := 92 < t }
    let s2 := if x.clock == 4000 && c < 4000 then logEvent s1 .throttleStart else if x.clock < 4000 && c == 4000 then logEvent s1 .throttleEnd else s1
    if 95 ≤ t then reportDie s2 d else s2

/-- The comparator on the 48 V rail halves the core clock of every die (R393). -/
def limitCurrent (s : State) : State :=
  logEvent { s with dies := s.dies.map (fun x => { x with clock := x.clock / 2 }), kiln := { s.kiln with limcur := true } } .throttleStart

/-- Whether a power is more than 60.0 A at 48 V. -/
def overCurrent (watts : Nat) : Bool := 60 * 48 < watts

/-- A sample, 100 µs after the last. Where the input current has averaged more than 60.0 A over them, the comparator has acted. -/
def execPowerSample (watts junction dram : Nat) (hot : List (DieId × Nat)) (s : State) : Result :=
  if s.kiln.stage == 0 then .next s
  else
    let s1 := { s with now := s.now + 100, kiln := { s.kiln with watts := watts, jt := junction, dramt := dram } }
    .next (allDies.foldl (sampleDie watts hot) (if overCurrent watts then limitCurrent s1 else s1))

/-- The input current crosses the limit. -/
def execCurrentLimit (s : State) : Result := .next (limitCurrent s)

/-! ## Errors (R351, R368, R395, R398, R399) -/

/-- The die an error counts on. -/
def siteDie : ErrorSite → DieId
  | .laneGroup d _ _ => d
  | .coreSram d _ => d
  | .frame f => homeDieOf (65536 * f)
  | .tile t => homeDieOf (2048 * t)
  | .line l => lineHome l
  | .hartState h _ => dieOf h
  | .shared d => d

/-- The unit of R395 that an error belongs to: a tile's DRAM error is its frame's, one in a hart's registers a lane group's of its core, an opaque one, and
one in a hart's queues or accumulator store its core's other SRAM's (log entry 95). -/
def siteUnit (s : State) : ErrorSite → ErrorSite
  | .tile t => .frame (t / 32)
  | .hartState h sub => if sub == 0 then .laneGroup (dieOf h) (coreOf h) (Config.errorGroup s.fresh) else .coreSram (dieOf h) (coreOf h)
  | e => e

def isDramSite : ErrorSite → Bool
  | .frame _ | .tile _ => true
  | _ => false

/-- 24 hours in microseconds. -/
def dayUs : Nat := 86400000000

/-- Corrected errors of a unit within the last 24 h. -/
def errorsOf (s : State) (u : ErrorSite) : Nat := (s.kiln.recent.filter (fun e => e.1 == u)).length

/-- A unit at its threshold is retired. -/
def atThreshold (s : State) (u : ErrorSite) : State :=
  let forget (s : State) : State := { s with kiln := { s.kiln with recent := s.kiln.recent.filter (fun e => e.1 != u) } }
  match u with
  | .laneGroup d c g => if 16 ≤ errorsOf s u then forget (startDrain s d c (BitVec.ofNat 8 (2 ^ g.toNat))) else s
  | .coreSram d c => if 16 ≤ errorsOf s u then forget (startDrain s d c 0xFF) else s
  | .frame f => if 4 ≤ errorsOf s u then forget (retireFrame s f) else s
  | _ => s

/-- A corrected error is counted in `ksoft` and in the window of its unit. -/
def execCorrectedError (e : ErrorSite) (now : Nat) (s : State) : Result :=
  let t := max s.now now
  let d := siteDie e
  let x := dieRec s d
  let soft := if isDramSite e then { x.soft with cedram := min (x.soft.cedram + 1) 65535 } else { x.soft with cesram := min (x.soft.cesram + 1) 65535 }
  let u := siteUnit s e
  let s1 := bump (setDie { s with now := t } d { x with soft := soft })
  let recent := (s1.kiln.recent ++ [(u, t)]).filter (fun r => t < r.2 + dayUs)
  .next (atThreshold { s1 with kiln := { s1.kiln with recent := recent } } u)

/-- A line's data is lost to an error: its copies go, and it is poisoned. -/
def poisonLine (s : State) (l : Nat) : State :=
  let s1 := recallAll (fillTile s (l / 16)) l
  setHome { s1 with sealed := { s1.sealed with dirty := s1.sealed.dirty.filter (· != l) } } l (some (.P .seal))

/-- A tile's bytes are lost to an error. It is poisoned in the same way as by a failing fill (R368), and in the model it counts as one too, in
`gevent`.tfcount and tagfail (the model's choice, log entry 117). -/
def poisonTileNow (s : State) (t : Nat) : State :=
  failTile ((List.range 16).foldl (fun s i => recallAll s (16 * t + i)) s) t

/-- A value whose bits an error has struck. -/
def struck {w : Nat} (n i : Nat) (v : BitVec w) : BitVec w := v ^^^ BitVec.ofNat w (Config.softBits n i)

/-- A value of which an error has struck some of the low m bits: those that are in use (R352). -/
def struckLow {w : Nat} (m n i : Nat) (v : BitVec w) : BitVec w := v ^^^ BitVec.ofNat w (Config.softBits n i % 2 ^ m)

/-- A strand's scalar registers struck. -/
def Strand.struck (n i : Nat) (x : Strand) : Strand :=
  { x with x := Vector.ofFn (fun j : Fin 32 => if j.val = 0 then 0 else Machine.struck n (i + j.val) (x.x.get j)) }

/-- A queue entry struck below VLEN; of one that is not full, the bits `filled` of the elements that have been filled (R17, R352). -/
def QEntry.struck (vlen : Nat) (filled : VBits) (n i : Nat) (q : QEntry) : QEntry :=
  { q with bits := if q.full then struckLow vlen n i q.bits else q.bits ^^^ (BitVec.ofNat 65536 (Config.softBits n i) &&& (filled ||| q.bits)) }

/-- The width of the elements with which a slot fills its queue entry. -/
def pushWidth (s : State) (k : Slot) : Nat :=
  match k.instr with
  | .vxlate .. => 64
  | i => match (infoOf i).bind (·.fmt) with | some f => fmtWidth (fmtOf s k f).d | none => ewBits s

/-- All bits of some elements of a width. -/
def elemBits (w : Nat) (es : List Nat) : VBits := setElems 0 w (es.map (fun e => (e, 2 ^ w - 1)))

/-- The bits that a slot of the focused strand has filled of the entry that it pushes into a queue. -/
def filledBySlot (s : State) (q : VOpd) : Option VBits :=
  ((s.strand.convoy.getD []).find? (fun k => !k.done && k.pushed && (infoOf k.instr).bind (·.dst) == some q)).map
    (fun k => elemBits (pushWidth s k) ((positions s).filter (passed s k)))

/-- The bits of a queue's partly filled entry that its pusher has filled: a slot of either strand, or a stream. -/
def filledOf (s : State) (q : VOpd) : VBits :=
  let stream := (s.hart.streams.find? (fun t => t.queue == q && !t.left.isEmpty)).map
    (fun t => elemBits (8 * 2 ^ dfield t.spec 352 8) ((List.range t.vl).filter (fun e => !t.left.contains e)))
  (((filledBySlot s q).or (filledBySlot (focusOn s s.hart.id .compute) q)).or stream).getD 0

/-- The bytes that the focused hart's sweep in flight has staged of each source. -/
def stagedNow (s : State) : Nat × Nat :=
  let of' (x : Strand) : Option (Nat × Nat) := ((x.convoy.getD []).find? isDg).map (·.staged)
  ((of' s.strand).or (s.mate.bind of')).getD (0, 0)

/-- A list struck piece by piece. -/
def struckList {α : Type} (f : Nat → Nat → α → α) (n i : Nat) (l : List α) : List α := l.zipIdx.map (fun p => f n (i + p.2) p.1)

/-- The focused hart with the section of its state that a subcause names holding corrupted bits (R351): registers, queues, or the accumulator store with its
staging. Which bits are corrupted, of those in use, is free. -/
def corrupt (s : State) (sub : Nat) : State :=
  let n := s.fresh
  let h := s.hart
  let bit (n i : Nat) (b : Bool) : Bool := b != (Config.softBits n i % 2 == 1)
  bump <|
    match sub with
    | 0 => { s with
        strand := s.strand.struck n 0, mate := s.mate.map (·.struck n 32)
        hart := { h with regs := {
          v := Vector.ofFn (fun j : Fin 32 => struckLow h.grant.vlen n (64 + j.val) (h.regs.v.get j))
          m := Vector.ofFn (fun j : Fin 8 => struckLow (h.grant.vlen / 8) n (96 + j.val) (h.regs.m.get j)) } } }
    | 1 => { s with hart := { h with q := {
        lq := Vector.ofFn (fun j : Fin 8 => struckList (QEntry.struck h.grant.vlen (filledOf s (BitVec.ofNat 6 (32 + j.val)))) n (200 + 2 * j.val) (h.q.lq.get j))
        sq := Vector.ofFn (fun j : Fin 4 => struckList (QEntry.struck h.grant.vlen (filledOf s (BitVec.ofNat 6 (40 + j.val)))) n (216 + 2 * j.val) (h.q.sq.get j))
        xqAC := struckList struck n 300 h.q.xqAC, xqCA := struckList struck n 320 h.q.xqCA
        bqAC := struckList bit n 340 h.q.bqAC, bqCA := struckList bit n 380 h.q.bqCA } } }
    | _ => { s with hart := { h with dg := { h.dg with
        acc := struckLow (65536 * h.dg.accs) n 0 h.dg.acc, stageA := struckLow (8 * (stagedNow s).1) n 1 h.dg.stageA
        stageB := struckLow (8 * (stagedNow s).2) n 2 h.dg.stageB } } }

/-- A hart that retires stands at its `hexit` again, which it executes anew when it resumes (log entry 65). -/
def unretired (s : State) : State :=
  if s.hart.status == .retiring then
    let back (x : Strand) : Strand := { x with hexited := false, stall := none }
    { s with strand := back s.strand, mate := s.mate.map back }
  else s

/-- A hart whose own state is struck takes the soft-error trap, in place of one that is not written yet. The state of a hart that is stopped stands in its
image. -/
def softTrap (s : State) (h : HartId) (sub : BitVec 2) : State :=
  match boxOf s h with
  | some b =>
    match b.hart.status with
    | .running | .held | .stopping _ | .retiring => withHart s h (fun t => let t := corrupt (unretired t) sub.toNat; raise (trapAt t 11 sub.toNat 0) t)
    | .stopped .. => s
  | none => s

/-- An error in shared state: health reads 2 until the device has recovered. -/
def beginFault (s : State) (e : ErrorSite) : State :=
  { s with kiln := { s.kiln with recovering := true }, inputs := s.inputs ++ [Instr.deviceFault e] }

/-- An uncorrectable error on a core counts towards the core's retirement (R395). -/
def countCore (s : State) (d : DieId) (c : CoreId) : State := let r := coreRec s d c; setCore s { r with ues := r.ues + 1 }

/-- An uncorrectable error in a hart's own state counts on its core; one in its registers retires a lane group, and a second on the core retires the core
(R395). No recovery follows it, so the core drains first (R396, log entry 95). -/
def countHart (s : State) (h : HartId) (sub : BitVec 2) : State :=
  let d := dieOf h
  let c := coreOf h
  let s1 := countCore s d c
  let s2 := if sub == 0 then bump (startDrain s1 d c (BitVec.ofNat 8 (2 ^ (Config.errorGroup s1.fresh).toNat))) else s1
  if 2 ≤ (coreRec s2 d c).ues then startDrain s2 d c 0xFF else s2

def execUncorrectableError (e : ErrorSite) (s : State) : Result :=
  let d := siteDie e
  let x := dieRec s d
  let s1 := logEvent (setDie s d { x with soft := { x.soft with ue := min (x.soft.ue + 1) 65535 } }) .uncorrectable
  match e with
  | .tile t => .next (poisonTileNow s1 t)
  | .frame f => .next ((List.range 32).foldl (fun s i => poisonTileNow s (32 * f + i)) s1)
  | .line l => .next (poisonLine s1 l)
  | .hartState h sub => .next (softTrap (countHart s1 h sub) h sub)
  | .laneGroup d c g => .next (beginFault (countCore s1 d c) (.laneGroup d c g))
  | .coreSram d c => .next (beginFault (countCore s1 d c) (.coreSram d c))
  | .shared d => .next (beginFault s1 (.shared d))

/-! ## Device faults (R399, R400) -/

/-- Every hart and engine stops; images and unanswered records are discarded. -/
def stopAll (s : State) : State :=
  let s1 := (boxes s).foldl (fun s b => removeHart s b.hart.id) s
  { s1 with dies := s1.dies.map (fun x => { x with images := [], unanswered := [] }) }

/-- Whether the directory entry of a line is lost with the failing unit: the home's, or the one that the proxy of its owner holds. -/
def entryLost (s : State) (unit : ErrorSite) (h : HomeLine) : Bool :=
  match unit with
  | .shared d => (lineHome h.line == d || h.st == .X (.die d)) && Config.choose (s.fresh + h.line)
  | .line l => h.line == l
  | _ => false

/-- Dirty lines with intact entries are written back, the others are lost; no cache holds a line. -/
def settleLines (s : State) (unit : ErrorSite) : State :=
  let keep := s.coh.home.filterMap (fun h =>
    match h.st with
    | .P _ => some h
    | _ => if entryLost s unit h then some { h with st := .P .lost, queue := [] } else none)
  let lost := keep.map (·.line)
  let dirty := (s.sealed.dirty ++ (s.coh.l1.filter (·.st == .M)).map (·.line)).dedup
  let s1 := { s with
    coh := { Coherence.reset with home := keep }
    sealed := { s.sealed with dirty := dirty.filter (fun l => !lost.contains l) } }
  bump (((s1.sealed.dirty.map (· / 16)).dedup).foldl reseal s1)

/-- Completion words of every incomplete command (cause 6) and launch (cause 9). -/
def discardWork (s : State) : State :=
  let s1 := s.sched.commands.foldl endCommand s
  let s2 := s1.sched.launches.foldl (fun s l => completeLaunch s { l with failed := some (9, 0) }) s1
  { s2 with sched := { s2.sched with queued := [], crews := [], channels := [], barriers := [], arrivals := [], contenders := [] } }

/-- Every enabled ring stops with cause 6. -/
def stopRings (s : State) : State := (s.host.rings.filter (·.en)).foldl (fun s r => ringStop s r 6) s

/-- The failing unit is retired where R395 names one. -/
def retireUnit (s : State) (unit : ErrorSite) : State :=
  match unit with
  | .laneGroup d c g => checkDie (retireGroups s d c (if 2 ≤ (coreRec s d c).ues then 0xFF else BitVec.ofNat 8 (2 ^ g.toNat))) d
  | .coreSram d c => if 2 ≤ (coreRec s d c).ues then checkDie (retireGroups s d c 0xFF) d else s
  | _ => s

/-- The five steps of R399. -/
def execDeviceFault (unit : ErrorSite) (s : State) : Result :=
  let s1 := logEvent { s with kiln := { s.kiln with recovering := true, faults := min (s.kiln.faults + 1) 255 } } .deviceFault
  let s2 := stopRings (discardWork (settleLines (stopAll s1) unit))
  let s3 := (allDies.filter (dieFull s2)).foldl startSupervisor (retireUnit s2 unit)
  .next { s3 with kiln := { s3.kiln with recovering := false } }

end Sys2Proof.Machine
end

