-- ==== Sys2Proof/Machine/Install.lean ====
section
/-! DEFINITION. Installation and loading (R277, R281 to R290, R408): the container, the installer's checks, the certificate, the translation
cache and the loader. What the requests answer goes out under these numbers: 3 the installer's code, 4 the text offset of the first
failing word, 5 the loader's code (values); 3 the certified object, 5 what the loader returns (bytes). -/

namespace Sys2Proof.Machine

/-! ## The container (R277) -/

structure KernelEntry where
  pc0  : Nat
  pc1  : Nat
  mode : Nat
  rsvd : Nat
  deriving DecidableEq, Repr, Inhabited

structure Container where
  kind  : Nat
  kernels : List KernelEntry
  secver : Nat
  vlenlog : Nat
  lendep : Nat
  tsize : Nat
  dsize : Nat
  toff  : Nat
  doff  : Nat
  ktab  : Nat
  revision : Word
  /-- where the sections end -/
  size  : Nat
  deriving DecidableEq, Repr, Inhabited

def kernelAt (b : List Byte) (off : Nat) : KernelEntry :=
  { pc0 := bytesNat b off 4, pc1 := bytesNat b (off + 4) 4, mode := bytesNat b (off + 8) 1 % 2, rsvd := bytesNat b (off + 8) 8 / 2 }

def containerOf (b : List Byte) : Container :=
  let k := bytesNat b 6 2
  let ktab := bytesNat b 48 8
  let toff := bytesNat b 32 8
  let doff := bytesNat b 40 8
  let tsize := bytesNat b 16 8
  let dsize := bytesNat b 24 8
  { kind := bytesNat b 4 1, kernels := (List.range (min k 1024)).map (fun i => kernelAt b (ktab + 16 * i)), secver := bytesNat b 8 4
    vlenlog := bytesNat b 12 1, lendep := bytesNat b 13 1 % 2, tsize := tsize, dsize := dsize, toff := toff, doff := doff, ktab := ktab
    revision := BitVec.ofNat 64 (bytesNat b 56 8), size := max 64 (max (toff + tsize) (max (doff + dsize) (ktab + 16 * k))) }

/-- Whether two sections, as (start, length), share a byte. A section of no bytes counts as overlapping one that it begins inside of (the model's choice,
log entry 119). -/
def shareByte (a b : Nat × Nat) : Bool := a.1 < b.1 + b.2 && b.1 < a.1 + a.2

/-- Whether a byte list is a well-formed container. -/
def containerOk (b : List Byte) : Bool :=
  let c := containerOf b
  let k := bytesNat b 6 2
  let input := c.kind == 1 || c.kind == 2
  let secs := [(0, 64), (c.toff, c.tsize), (c.doff, c.dsize), (c.ktab, 16 * k)]
  64 ≤ b.length && bytesNat b 0 4 == 0x4F4C544B && (input || c.kind == 3) && bytesNat b 5 1 == 1 && 1 ≤ k && k ≤ 1024
    && (c.vlenlog == 0 || (9 ≤ c.vlenlog && c.vlenlog ≤ 16)) && bytesNat b 13 3 / 2 == 0 && (!input || (c.lendep == 0 && c.revision == 0))
    && c.tsize % 4 == 0 && 4 ≤ c.tsize && c.tsize ≤ 2 ^ 32 && c.toff % 64 == 0 && c.doff % 64 == 0 && c.ktab % 16 == 0 && c.size ≤ b.length
    && (List.range 4).all (fun i => (List.range i).all (fun j => !shareByte (secs.getD i (0, 0)) (secs.getD j (0, 0))))
    && c.kernels.all (fun e => e.rsvd == 0 && (e.mode == 1 || e.pc1 == 0xFFFFFFFF))

/-! ## Walking the text (R282) -/

/-- A place in the text: a scalar word, or a convoy with its slots. -/
structure Unit' where
  off  : Nat
  size : Nat
  body : List Instr
  deriving DecidableEq, Repr, Inhabited

/-- A failing word: its offset and the code. -/
abbrev Bad := Nat × Nat

/-- The failing word of a convoy's header, if any. -/
def badHeader (text : List Byte) (off : Nat) (h : Word32) : Option Bad :=
  let n := bodySlots h
  let count := headerCount h
  let units := h.extractLsb' 5 18
  if count == 0 || count == 7 || !((List.range n).map (unitAt units)).Nodup then some (off, 18)
  else if text.length < off + 4 + 8 * n then some (off, 18)
  else if h.extractLsb' 0 5 != 0 || !headerOk count units then some (off, 17)
  else none

/-- Whether a slot names no queue twice (R16). -/
def queuesFit (i : Instr) : Bool :=
  match infoOf i with
  | some v => queuesOnce (v.srcs ++ v.dst.toList)
  | none => true

/-- A slot of a convoy: its instruction, or the code of what is wrong with it. -/
def checkSlot (kind : Nat) (unit : BitVec 3) (w : BitVec 64) : Except Nat Instr :=
  match decodeVec w with
  | .error _ => .error 17
  | .ok v =>
    if ((infoOf v).map (·.unit)) != some unit.toNat then .error 18
    else if kind == 2 && !portableOk v then .error 20
    else if !queuesFit v then .error 17
    else .ok v

/-- A convoy header at an offset with its body: the place it takes with the slots that are sound, and its first failing word. -/
def checkConvoy (kind : Nat) (text : List Byte) (off w : Nat) : Unit' × Option Bad :=
  let h : Word32 := BitVec.ofNat 32 w
  let n := bodySlots h
  let ws := takeDwords n (text.drop (off + 4))
  let slots := (List.range (min n ws.length)).map (fun i => (off + 4 + 8 * i, checkSlot kind (unitAt (h.extractLsb' 5 18) i) (ws.getD i 0)))
  let worst := slots.findSome? (fun p => match p.2 with | .error c => some (p.1, c) | .ok _ => none)
  let is := slots.filterMap (fun p => match p.2 with | .ok i => some i | .error _ => none)
  match badHeader text off h with
  | some e => (⟨off, 4 + 8 * n, is⟩, some e)
  | none => (⟨off, 4 + 8 * n, is⟩, worst)

/-- Whether an index names a control register of user text (R79, R110). -/
def userIndex (i : BitVec 12) : Bool := !i.getLsbD 11 && (userReg State.reset i.toNat).isSome

/-- The code of what is wrong with a scalar instruction, if anything: `setshape` is Mygar's, `vsetvl` and `vsetvli` are native text's. -/
def scalarCode (kind : Nat) : Instr → Option Nat
  | .setshape .. => if kind == 2 then none else some 20
  | .vsetvl .. | .vsetvli .. => if kind == 2 then some 20 else none
  | .crd _ i | .cwr _ i | .crs _ _ i | .crc _ _ i => if userIndex i then none else some 17
  | _ => none

/-- A scalar word at an offset. -/
def checkScalar (kind : Nat) (off w : Nat) : Unit' × Option Bad :=
  match decodeWord (BitVec.ofNat 32 w) with
  | .error _ => (⟨off, 4, []⟩, some (off, 17))
  | .ok i => (⟨off, 4, [i]⟩, (scalarCode kind i).map (fun c => (off, c)))

/-- The words in address order, by the structure of the convoys, each with what fails in it; `fuel` bounds the words. -/
def walkText (kind : Nat) (text : List Byte) : Nat → Nat → List (Unit' × Option Bad)
  | 0, _ => []
  | fuel + 1, off =>
    if text.length ≤ off then []
    else
      let w := bytesNat text off 4
      let u := if isHeader (BitVec.ofNat 32 w) then checkConvoy kind text off w else checkScalar kind off w
      u :: walkText kind text fuel (off + u.1.size)

/-- The target of a direct branch or jump, as a text offset. -/
def directTarget (u : Unit') : Option Int :=
  match u.body with
  | [.b _ _ _ off] => some (u.off + 4 * off.toInt)
  | [.bm _ _ off] => some (u.off + 4 * off.toInt)
  | [.bq _ off] => some (u.off + 4 * off.toInt)
  | [.jal _ off] => some (u.off + 4 * off.toInt)
  | _ => none

/-- Whether an offset lies in the text and in no body of the convoys walked. -/
def targetOk (us : List Unit') (size : Nat) (t : Int) : Bool :=
  0 ≤ t && t < size && !us.any (fun u => (u.off : Int) < t && t < u.off + u.size)

/-- The first branch whose target fails. -/
def badBranch (us : List Unit') (size : Nat) : Option Bad :=
  (us.find? (fun u => match directTarget u with | some t => !targetOk us size t | none => false)).map (fun u => (u.off, 19))

/-- The kernel entry on a body word or outside the text with the lowest offset. -/
def badEntry (us : List Unit') (size : Nat) (ks : List KernelEntry) : Option Bad :=
  (((ks.flatMap (fun k => if k.mode == 1 then [k.pc0, k.pc1] else [k.pc0])).filter
    (fun (p : Nat) => p % 4 != 0 || !targetOk us size (p : Int))).min?).map (fun p => (p, 19))

/-! ## Strands of a decoupled kernel (R12, R14, R16) -/

/-- Instructions that only the access strand executes. -/
def accessAlone : Instr → Bool
  | .ld .. | .st .. | .lda .. | .stl .. | .ll .. | .sc .. | .svc .. | .fence .. | .barArrive .. | .barWait .. | .ipost .. | .iwait .. | .contend ..
  | .dsync | .launch .. | .lwait .. => true
  | _ => false

/-- Whether a strand may hold an instruction, as far as no register value decides it. -/
def strandHolds (r : Role) (i : Instr) : Bool :=
  match i with
  | .bm _ m _ => ownsM r (m.extractLsb' 0 3)
  | _ =>
    if accessAlone i then r == .access
    else
      match infoOf i with
      | some v => useOk { State.reset with role := r } v (capture State.reset i)
      | none => true

/-- The offsets that sequential flow and direct branches reach next. -/
def flowNext (u : Unit') : List Nat :=
  let t := ((directTarget u).filter (0 ≤ ·)).toList.map Int.toNat
  match u.body with
  | [.jal ..] => t
  | [.jalr ..] | [.hexit] | [.uiret] => []
  | _ => (u.off + u.size) :: t

/-- The units reached from some offsets. -/
def unitsReached (us : List Unit') : Nat → List Nat → List Unit' → List Unit'
  | 0, _, seen => seen
  | fuel + 1, todo, seen =>
    match todo with
    | [] => seen
    | p :: rest =>
      match us.find? (fun u => u.off == p) with
      | none => unitsReached us fuel rest seen
      | some u => if seen.contains u then unitsReached us fuel rest seen else unitsReached us fuel (flowNext u ++ rest) (u :: seen)

/-- The first word of a decoupled kernel that its strand may not hold. The text of a coupled kernel is not looked at: a queue instruction or operand there
traps when it is executed (R88, R347), and no check of R282 names it (the model's choice, log entry 120). -/
def badStrand (us : List Unit') (ks : List KernelEntry) : Option Bad :=
  let bad (r : Role) (p : Nat) : List Nat :=
    (unitsReached us (3 * us.length + 3) [p] []).filterMap (fun u => if u.body.all (strandHolds r) then none else some u.off)
  let offs := (ks.filter (fun k => k.mode == 1)).flatMap (fun k => bad .access k.pc0 ++ bad .compute k.pc1)
  (offs.foldl (fun (a : Option Nat) o => match a with | none => some o | some b => some (min o b)) none).map (fun o => (o, 17))

/-! ## The installer (R282 to R285) -/

/-- Of two failing words the one at the lower offset. -/
def firstOf (a b : Option Bad) : Option Bad :=
  match a, b with
  | some x, some y => if y.1 < x.1 then some y else some x
  | some x, none => some x
  | none, y => y

/-- The failing word of a container's text, if any. -/
def textFault (c : Container) (b : List Byte) : Option Bad :=
  let text := bytesOf b c.toff c.tsize
  let ws := walkText c.kind text (c.tsize / 4) 0
  let us := ws.map (·.1)
  let bad := ws.findSome? (·.2)
  firstOf bad (firstOf (badBranch us c.tsize) (firstOf (badStrand us c.kernels) (badEntry us c.tsize c.kernels)))

/-- Whether a container's text holds an instruction of some kind. -/
def textHolds (c : Container) (b : List Byte) (p : Instr → Bool) : Bool :=
  (walkText c.kind (bytesOf b c.toff c.tsize) (c.tsize / 4) 0).any (fun u => u.1.body.any p)

/-- Whether a text opens strips by `setshape`: it is Mygar's, or a translation (R279, log entry 91). -/
def usesShape (c : Container) (b : List Byte) : Bool := textHolds c b (fun i => match i with | .setshape .. => true | _ => false)

/-- Whether native text holds `vspill` or `vfill` (R284). -/
def usesSpill (c : Container) (b : List Byte) : Bool :=
  textHolds c b (fun i => match i with | .vspill .. | .vfill .. => true | _ => false)

/-- A container's bytes with some of them replaced from an offset on. -/
def patch (b : List Byte) (off : Nat) (v : List Byte) : List Byte := b.take off ++ v ++ b.drop (off + v.length)

/-- The output container: kind 3, this device's revision, and what R284 records. -/
def outputOf (b : List Byte) (lendep : Bool) (vlenlog : Nat) : List Byte :=
  patch (patch (patch b 4 [3]) 12 [BitVec.ofNat 8 (if lendep then vlenlog else 0), BitVec.ofNat 8 lendep.toNat]) 56 (nBytes 8 Config.revision.toNat)

/-- The mark of a translation: a word that executes nowhere, and a `setshape` that no flow reaches. -/
def shapeMark : List Byte := List.replicate 4 0 ++ nBytes 4 0x8CE648B8

/-- A Mygar container as its translation holds it (R283): the text's own words, to which a hart of such text gives their two-dimensional meaning. A text that
holds no `setshape` is moved behind the other sections with the mark after it, so that the object is known as a translation (DESIGN CHOICE, log entry 91). -/
def translateOf (c : Container) (b : List Byte) : List Byte :=
  if usesShape c b || 2 ^ 32 < c.tsize + 8 then b
  else
    let off := (c.size + 63) / 64 * 64
    patch (patch (b ++ List.replicate (off - c.size) 0 ++ bytesOf b c.toff c.tsize ++ shapeMark) 16 (nBytes 8 (c.tsize + 8))) 32 (nBytes 8 off)

/-- The version of the translator in the running firmware (R286, R288). -/
def translatorVersion (s : State) : Nat := (Config.translatorVersion s.kiln.hbody).toNat

/-- A certificate (R286), by a translator's version. -/
def certificate (tver : Nat) (input output : List Byte) (secver : Nat) : List Byte :=
  let rev := nBytes 8 Config.revision.toNat
  let tv := nBytes 4 tver
  let sec := nBytes 4 secver
  let signed := sha3 input ++ sha3 output ++ sha3 rev ++ sha3 tv ++ sha3 sec
  nBytes 4 0x43455254 ++ nBytes 4 1 ++ rev ++ tv ++ sec ++ signed ++ signTranslation signed ++ List.replicate 84 0

/-- Bytes padded to the next multiple of 64. -/
def pad64Bytes (b : List Byte) : List Byte := b ++ List.replicate ((64 - b.length % 64) % 64) 0

/-- A request's container: what follows its last section is no part of it (log entry 93). -/
def containerPart (b : List Byte) : List Byte := b.take (containerOf b).size

/-- What the installer makes of a well-formed input: the certified object, or a code and the failing word's offset. Native text is copied. In this model a
Mygar kernel's translation is its own words, which a hart of such text executes with their two-dimensional meaning (R279 to R281, R283, log entry 91). -/
def certify (tver : Nat) (b : List Byte) : Except (Nat × Option Nat) (List Byte) :=
  let c := containerOf b
  match textFault c b with
  | some (off, code) => .error (code, some off)
  | none =>
    if usesSpill c b && c.vlenlog == 0 then .error (21, none)
    else
      let o := outputOf (if c.kind == 2 then translateOf c b else b) (usesSpill c b) c.vlenlog
      .ok (pad64Bytes o ++ certificate tver b o c.secver)

/-- The installer's answer. -/
def answerInstall (s : State) (code : Nat) (off : Option Nat) (out : List Byte) : State :=
  let s1 := sendOut s (.value 3 (put 0 code))
  let s2 := match off with | some o => sendOut s1 (.value 4 (put 0 o)) | none => s1
  if out.isEmpty then s2 else sendOut s2 (.bytes 3 out)

/-- A revoked version is refused, its cache entries evicted, and the event logged (R288). -/
def revoke (s : State) (hin : List Byte) (secver : Nat) : State :=
  let s1 := { s with kiln := { s.kiln with cache := s.kiln.cache.filter (fun e => e.hin != hin) } }
  logEvent s1 (.revoked hin secver)

/-- An install request (R282 to R290). DESIGN CHOICE (log entry 129): a well-formed container of kind 3, certified output that is handed in again, is answered
with code 16 as no input. -/
def execInstall (input : List Byte) (s : State) : Result :=
  if s.kiln.stage ≠ 3 then .next s
  else if !containerOk input || (containerOf input).kind == 3 then .next (answerInstall s 16 none [])
  else
    let b := containerPart input
    let c := containerOf b
    let hin := sha3 b
    let tver := translatorVersion s
    let hit := s.kiln.cache.find? (fun e => e.hin == hin && e.revision == Config.revision && e.tver == tver)
    if c.secver < s.kiln.objv then
      .next (answerInstall (if hit.isSome then revoke s hin c.secver else s) 22 none [])
    else
      match hit with
      | some e => .next (answerInstall s 0 none e.output)
      | none =>
        match certify tver b with
        | .error (code, off) => .next (answerInstall s code off [])
        | .ok out =>
          .next (answerInstall { s with kiln := { s.kiln with cache := s.kiln.cache ++ [⟨hin, Config.revision, tver, c.secver, out⟩] } } 0 none out)

/-! ## The loader (R287, R408) -/

/-- The certificate after an object's container. -/
def certOf (b : List Byte) : List Byte := bytesOf b (((containerOf b).size + 63) / 64 * 64) 2688

/-- The first failing check of R287, 0 when all hold. -/
def loaderCode (s : State) (b : List Byte) : Nat :=
  let c := containerOf b
  let t := certOf b
  if !containerOk b || c.kind != 3 || t.length < 2688 || bytesNat t 0 4 != 0x43455254 || bytesNat t 4 4 != 1
    || (bytesOf t 2604 84).any (· != 0) then 1
  else if bytesOf t 88 32 != sha3 (bytesOf t 8 8) || bytesOf t 120 32 != sha3 (bytesOf t 16 4)
    || bytesOf t 152 32 != sha3 (bytesOf t 20 4) || bytesOf t 56 32 != sha3 (containerPart b)
    || !verify translationKey (bytesOf t 24 160) (bytesOf t 184 2420) then 2
  else if bytesNat t 8 8 != Config.revision.toNat || c.revision != Config.revision then 3
  else if c.secver < s.kiln.objv then 4
  else if bytesNat t 16 4 < s.kiln.tfloor then 5
  else 0

/-- The data section with its relocations made for a text and a data base (R408). DESIGN CHOICE (log entry 134), where R408 is silent: data under 8 bytes, or a
count beyond the data, is left as it is; an entry that reaches past the end is passed over; an offset need not be aligned, and reserved bits of an entry are
not looked at. -/
def relocate (data : List Byte) (tbase dbase : Nat) : List Byte :=
  if data.length < 8 then data
  else
    let n := bytesNat data (data.length - 8) 8
    if data.length < 8 * (n + 1) then data
    else
      (List.range n).foldl (fun d i =>
        let e := bytesNat data (data.length - 8 * (n + 1) + 8 * i) 8
        let off := e % 2 ^ 40
        if data.length < off + 8 then d
        else patch d off (nBytes 8 ((bytesNat d off 8 + (if e / 2 ^ 63 == 1 then dbase else tbase)) % 2 ^ 64))) data

/-- The non-zero bytes of a list, as cells from an address on. -/
def cellsFrom (base : Nat) : List Byte → Memory
  | [] => []
  | v :: r => if v = 0 then cellsFrom (base + 1) r else (base, v) :: cellsFrom (base + 1) r

/-- A range of memory replaced by bytes. -/
def Memory.putBytes (m : Memory) (base : Nat) (b : List Byte) : Memory :=
  m.filter (fun c => c.1 < base) ++ cellsFrom base b ++ m.filter (fun c => base + b.length ≤ c.1)

/-- Free frames, one after another, on the lowest die in the full state, from a starting point of the loader's. -/
def freeRun (s : State) (n : Nat) : Option Nat :=
  (hostDie s).bind (fun d =>
    let total := regionStart / 65536
    let k := Config.loadBase s.fresh n
    ((List.range total).map (fun i => stackFrame d + (k + i) % total)).find? (fun f => (List.range n).all (fun j => frameFree s (f + j))))

/-- The object's text and data placed, in frames of tenant 0. -/
def placeObject (s : State) (b : List Byte) (frame tframes frames : Nat) : State :=
  let c := containerOf b
  let tbase := 65536 * frame
  let dbase := tbase + 65536 * tframes
  let s1 := setOwners s frame frames 0
  let s2 := (List.range (512 * frames)).foldl (fun s i => touchStoreAll s (512 * frame + i)) s1
  let m := (s2.mem.putBytes tbase (bytesOf b c.toff c.tsize)).putBytes dbase (relocate (bytesOf b c.doff c.dsize) tbase dbase)
  let s3 := bump (setMem s2 m)
  { s3 with kiln := { s3.kiln with placed := s3.kiln.placed ++ [⟨s.fresh, c.secver, tbase, 65536 * frames, bytesOf (certOf b) 24 32, usesShape c b⟩] } }

/-- What the loader returns: text and data addresses, kernel entries, lendep and vlenlog. -/
def loadReply (b : List Byte) (tbase dbase : Nat) : List Byte :=
  let c := containerOf b
  nBytes 8 tbase ++ nBytes 8 dbase ++ bytesOf b c.ktab (16 * c.kernels.length) ++ nBytes 1 c.lendep ++ nBytes 1 c.vlenlog

/-- A load request. With no room nothing is placed and nothing is answered. -/
def execLoad (object : List Byte) (s : State) : Result :=
  if s.kiln.stage ≠ 3 then .next s
  else
    let code := loaderCode s object
    let c := containerOf object
    if code = 4 then .next (sendOut (revoke s (bytesOf (certOf object) 24 32) c.secver) (.value 5 (put 0 4)))
    else if code ≠ 0 then .next (sendOut s (.value 5 (put 0 code)))
    else
      let tframes := (c.tsize + 65535) / 65536
      let frames := tframes + (c.dsize + 65535) / 65536
      match freeRun s frames with
      | none => .next s
      | some f =>
        let s1 := placeObject s object f tframes frames
        .next (sendOut (sendOut s1 (.value 5 0)) (.bytes 5 (loadReply object (65536 * f) (65536 * (f + tframes)))))

end Sys2Proof.Machine
end

