-- ==== Sys2Proof/Machine/System.lean ====
section
/-! DEFINITION. `trap`, `svc` and `uiret` (R112 to R116). -/

namespace Sys2Proof.Machine

/-- A user trap: to the handler, or to the supervisor, or a wait for the other strand's handler (R112, R116), also where the handler is no longer
enabled (log entry 84). -/
def execTrap (c : BitVec 6) (s : State) : Result :=
  if !inhibited s.hart then
    if handlerOn s.hart then .next (deliver (countInstr s 1) (s.strand.pc + 4) 0 c s.strand.pc)
    else .next (raise (trapAt s 9 c.toNat s.strand.pc) s)
  else if handlerAccess s.hart == (s.role == .access) then .next (raise (trapAt s 9 c.toNat s.strand.pc) s)
  else .next (stallOn s .handler)

/-- A supervisor call (R112): its resume point is pc + 4 (R352), its record names the `svc` word (R350). -/
def execSvc (c : BitVec 12) (s : State) : Result :=
  accessOnly (.svc c) s (.next (raise (trapAt s 10 (c.toNat % 256) (c.setWidth 64)) (advance s)))

/-- The strand with a convoy that was set aside in flight again, and its scalar instructions where they had got to, which is where the handler has returned. -/
def Strand.resume (x : Strand) (c : Aside) : Strand :=
  { (match c.strip with | some p => { x.withStrip p with later := some x.strip } | none => x) with
    pc := c.pc &&& ~~~3#64, convoy := some c.slots, ahead := if x.pc = c.pc then none else some (x.pc, none), unit := c.unit }

/-- A convoy that the interrupt set aside is in flight again when the handler returns to where the interrupt was taken (R177, R236). -/
def takeBack (s : State) : State :=
  match s.strand.aside with
  | none => s
  | some c =>
    let s1 := { s with strand := { s.strand with aside := none } }
    if c.ret = s.strand.pc then
      let s2 := { s1 with strand := { s1.strand.resume c with portable := translatedText s (myDie s) s.hart.tenant c.pc } }
      if s.role == .access then s2
      else setDprog s2 (if c.slots.any (fun k => isDg k && k.done) then 0x8000000000000000 else 0)
    else s1

/-- Return from the user handler (R115). -/
def execUiret (s : State) : Result :=
  if inHandler s then .next (takeBack (userReturn (countInstr s 1))) else .next (illegal .uiret s)

end Sys2Proof.Machine
end

