-- ==== Sys2Proof/Machine/VecMask.lean ====
section
/-! DEFINITION. VM: the mask instructions (R135, R149, R281). -/

namespace Sys2Proof.Machine

/-- The run of an instruction that writes mask bits at every position; bits elsewhere keep their values. -/
def maskWrite (d : MReg) (f : State → Nat → Bool) : Slot → State → SlotOut := fun k s =>
  endElems s (beyond s k) (putMask s d (((positions s).filter (openAt s k)).map (fun e => (e, f s e)))) k

/-- The place among the positions of the first 1 bit of a mask. -/
def firstOne (s : State) (a : MReg) : Option Nat := (positions s).findIdx? (fun e => (getM s a).getLsbD e)

def execMand (d a b : MReg) (s : State) : Result :=
  vectorStep (.mand d a b) (maskWrite d (fun s e => (getM s a).getLsbD e && (getM s b).getLsbD e)) s
def execMor (d a b : MReg) (s : State) : Result :=
  vectorStep (.mor d a b) (maskWrite d (fun s e => (getM s a).getLsbD e || (getM s b).getLsbD e)) s
def execMxor (d a b : MReg) (s : State) : Result :=
  vectorStep (.mxor d a b) (maskWrite d (fun s e => (getM s a).getLsbD e != (getM s b).getLsbD e)) s
def execMandn (d a b : MReg) (s : State) : Result :=
  vectorStep (.mandn d a b) (maskWrite d (fun s e => (getM s a).getLsbD e && !(getM s b).getLsbD e)) s
def execMnot (d a : MReg) (s : State) : Result := vectorStep (.mnot d a) (maskWrite d (fun s e => !(getM s a).getLsbD e)) s
def execMmov (d a : MReg) (s : State) : Result := vectorStep (.mmov d a) (maskWrite d (fun s e => (getM s a).getLsbD e)) s
def execMset (d : MReg) (v : Bool) (s : State) : Result := vectorStep (.mset d v) (maskWrite d (fun _ _ => v)) s

/-- x[d] := the number of 1 bits below vl. -/
def execMpopc (d : XReg) (a : MReg) (s : State) : Result :=
  vectorStep (.mpopc d a) (fun k s =>
    .done (slotX s k d (BitVec.ofNat 64 ((positions s).filter (fun e => (getM s a).getLsbD e)).length))) s

/-- x[d] := the first position with a 1 bit, or −1. -/
def execMfirst (d : XReg) (a : MReg) (s : State) : Result :=
  vectorStep (.mfirst d a) (fun k s =>
    .done (slotX s k d (match firstOne s a with | some i => BitVec.ofNat 64 i | none => BitVec.allOnes 64))) s

/-- Bit e := 1 for the positions before the first 1 bit of a. -/
def execMbefore (d a : MReg) (s : State) : Result :=
  vectorStep (.mbefore d a) (fun _ s =>
    let n := (firstOne s a).getD (positions s).length
    .done (putMask s d ((positions s).zipIdx.map (fun p => (p.1, decide (p.2 < n)))))) s

end Sys2Proof.Machine
end

