-- ==== Sys2Proof/Machine/Dispatch.lean ====
section
/-! DEFINITION. What each instruction and each event does: one arm per row of the opcode table, each a call of its meaning. -/

namespace Sys2Proof.Machine

/-- The meaning of an instruction or event. -/
def exec (i : Instr) (s : State) : Host.Outcome State Fault Refusal :=
  match i with
  | .add d a b => Sys2Proof.Machine.execAdd d a b s
  | .sub d a b => Sys2Proof.Machine.execSub d a b s
  | .and d a b => Sys2Proof.Machine.execAnd d a b s
  | .or d a b => Sys2Proof.Machine.execOr d a b s
  | .xor d a b => Sys2Proof.Machine.execXor d a b s
  | .andn d a b => Sys2Proof.Machine.execAndn d a b s
  | .orn d a b => Sys2Proof.Machine.execOrn d a b s
  | .sll d a b => Sys2Proof.Machine.execSll d a b s
  | .srl d a b => Sys2Proof.Machine.execSrl d a b s
  | .sra d a b => Sys2Proof.Machine.execSra d a b s
  | .rol d a b => Sys2Proof.Machine.execRol d a b s
  | .mul d a b => Sys2Proof.Machine.execMul d a b s
  | .mulh d a b => Sys2Proof.Machine.execMulh d a b s
  | .mulhu d a b => Sys2Proof.Machine.execMulhu d a b s
  | .div d a b => Sys2Proof.Machine.execDiv d a b s
  | .divu d a b => Sys2Proof.Machine.execDivu d a b s
  | .rem d a b => Sys2Proof.Machine.execRem d a b s
  | .remu d a b => Sys2Proof.Machine.execRemu d a b s
  | .min d a b => Sys2Proof.Machine.execMin d a b s
  | .max d a b => Sys2Proof.Machine.execMax d a b s
  | .minu d a b => Sys2Proof.Machine.execMinu d a b s
  | .maxu d a b => Sys2Proof.Machine.execMaxu d a b s
  | .slt d a b => Sys2Proof.Machine.execSlt d a b s
  | .sltu d a b => Sys2Proof.Machine.execSltu d a b s
  | .clz d a => Sys2Proof.Machine.execClz d a s
  | .ctz d a => Sys2Proof.Machine.execCtz d a s
  | .popc d a => Sys2Proof.Machine.execPopc d a s
  | .bswap d a => Sys2Proof.Machine.execBswap d a s
  | .sext d a w => Sys2Proof.Machine.execSext d a w s
  | .zext d a w => Sys2Proof.Machine.execZext d a w s
  | .fadd d a b x => Sys2Proof.Machine.execFadd d a b x s
  | .fsub d a b x => Sys2Proof.Machine.execFsub d a b x s
  | .fmul d a b x => Sys2Proof.Machine.execFmul d a b x s
  | .fdiv d a b x => Sys2Proof.Machine.execFdiv d a b x s
  | .fsqrt d a x => Sys2Proof.Machine.execFsqrt d a x s
  | .fma d a b x => Sys2Proof.Machine.execFma d a b x s
  | .fmin d a b x => Sys2Proof.Machine.execFmin d a b x s
  | .fmax d a b x => Sys2Proof.Machine.execFmax d a b x s
  | .fcvt d a sq x => Sys2Proof.Machine.execFcvt d a sq x s
  | .fcmpEq d a b x => Sys2Proof.Machine.execFcmpEq d a b x s
  | .fcmpLt d a b x => Sys2Proof.Machine.execFcmpLt d a b x s
  | .fcmpLe d a b x => Sys2Proof.Machine.execFcmpLe d a b x s
  | .fmv d a x => Sys2Proof.Machine.execFmv d a x s
  | .addi d a imm => Sys2Proof.Machine.execAddi d a imm s
  | .andi d a imm => Sys2Proof.Machine.execAndi d a imm s
  | .ori d a imm => Sys2Proof.Machine.execOri d a imm s
  | .xori d a imm => Sys2Proof.Machine.execXori d a imm s
  | .slli d a n => Sys2Proof.Machine.execSlli d a n s
  | .srli d a n => Sys2Proof.Machine.execSrli d a n s
  | .srai d a n => Sys2Proof.Machine.execSrai d a n s
  | .roli d a n => Sys2Proof.Machine.execRoli d a n s
  | .slti d a imm => Sys2Proof.Machine.execSlti d a imm s
  | .sltiu d a imm => Sys2Proof.Machine.execSltiu d a imm s
  | .lui d imm => Sys2Proof.Machine.execLui d imm s
  | .addhi d a imm => Sys2Proof.Machine.execAddhi d a imm s
  | .ld d a z off => Sys2Proof.Machine.execLd d a z off s
  | .st d a z off => Sys2Proof.Machine.execSt d a z off s
  | .lda d a z off => Sys2Proof.Machine.execLda d a z off s
  | .stl d a z off => Sys2Proof.Machine.execStl d a z off s
  | .ll d a z off => Sys2Proof.Machine.execLl d a z off s
  | .sc d a z off => Sys2Proof.Machine.execSc d a z off s
  | .b c a b off => Sys2Proof.Machine.execB c a b off s
  | .jal d off => Sys2Proof.Machine.execJal d off s
  | .jalr d a imm => Sys2Proof.Machine.execJalr d a imm s
  | .bm c m off => Sys2Proof.Machine.execBm c m off s
  | .bq c off => Sys2Proof.Machine.execBq c off s
  | .qpush a => Sys2Proof.Machine.execQpush a s
  | .qpop d => Sys2Proof.Machine.execQpop d s
  | .bqpush a => Sys2Proof.Machine.execBqpush a s
  | .crd d ix => Sys2Proof.Machine.execCrd d ix s
  | .cwr a ix => Sys2Proof.Machine.execCwr a ix s
  | .crs d a ix => Sys2Proof.Machine.execCrs d a ix s
  | .crc d a ix => Sys2Proof.Machine.execCrc d a ix s
  | .trap c => Sys2Proof.Machine.execTrap c s
  | .svc c => Sys2Proof.Machine.execSvc c s
  | .uiret => Sys2Proof.Machine.execUiret s
  | .vsetvl d a c => Sys2Proof.Machine.execVsetvl d a c s
  | .vsetvli d a share cls ew => Sys2Proof.Machine.execVsetvli d a share cls ew s
  | .setshape d a share ew cls => Sys2Proof.Machine.execSetshape d a share ew cls s
  | .fence sq => Sys2Proof.Machine.execFence sq s
  | .barArrive id sq => Sys2Proof.Machine.execBarArrive id sq s
  | .barWait id sq => Sys2Proof.Machine.execBarWait id sq s
  | .ipost a c => Sys2Proof.Machine.execIpost a c s
  | .iwait a c => Sys2Proof.Machine.execIwait a c s
  | .contend d a sq => Sys2Proof.Machine.execContend d a sq s
  | .dsync => Sys2Proof.Machine.execDsync s
  | .launch d a => Sys2Proof.Machine.execLaunch d a s
  | .lwait d a => Sys2Proof.Machine.execLwait d a s
  | .hexit => Sys2Proof.Machine.execHexit s
  | .convoy count units body => Sys2Proof.Machine.execConvoy count units body s
  | .vadd d a b g f => Sys2Proof.Machine.execVadd d a b g f s
  | .vsub d a b g f => Sys2Proof.Machine.execVsub d a b g f s
  | .vmul d a b g f => Sys2Proof.Machine.execVmul d a b g f s
  | .vmulh d a b g f => Sys2Proof.Machine.execVmulh d a b g f s
  | .vdiv d a b g f => Sys2Proof.Machine.execVdiv d a b g f s
  | .vrem d a b g f => Sys2Proof.Machine.execVrem d a b g f s
  | .vsqrt d a g f => Sys2Proof.Machine.execVsqrt d a g f s
  | .vrcp d a g f => Sys2Proof.Machine.execVrcp d a g f s
  | .vrsqrt d a g f => Sys2Proof.Machine.execVrsqrt d a g f s
  | .vexp2 d a g f => Sys2Proof.Machine.execVexp2 d a g f s
  | .vlog2 d a g f => Sys2Proof.Machine.execVlog2 d a g f s
  | .vfma d a b c g f => Sys2Proof.Machine.execVfma d a b c g f s
  | .vfms d a b c g f => Sys2Proof.Machine.execVfms d a b c g f s
  | .vfnma d a b c g f => Sys2Proof.Machine.execVfnma d a b c g f s
  | .vmin d a b g f => Sys2Proof.Machine.execVmin d a b g f s
  | .vmax d a b g f => Sys2Proof.Machine.execVmax d a b g f s
  | .vabs d a g f => Sys2Proof.Machine.execVabs d a g f s
  | .vneg d a g f => Sys2Proof.Machine.execVneg d a g f s
  | .vcvt d a g f => Sys2Proof.Machine.execVcvt d a g f s
  | .vand d a b g f => Sys2Proof.Machine.execVand d a b g f s
  | .vor d a b g f => Sys2Proof.Machine.execVor d a b g f s
  | .vxor d a b g f => Sys2Proof.Machine.execVxor d a b g f s
  | .vsll d a b g f => Sys2Proof.Machine.execVsll d a b g f s
  | .vsrl d a b g f => Sys2Proof.Machine.execVsrl d a b g f s
  | .vsra d a b g f => Sys2Proof.Machine.execVsra d a b g f s
  | .vclz d a g f => Sys2Proof.Machine.execVclz d a g f s
  | .vpopc d a g f => Sys2Proof.Machine.execVpopc d a g f s
  | .vcmp d a b c g f => Sys2Proof.Machine.execVcmp d a b c g f s
  | .vclass d a g f => Sys2Proof.Machine.execVclass d a g f s
  | .mand d a b => Sys2Proof.Machine.execMand d a b s
  | .mor d a b => Sys2Proof.Machine.execMor d a b s
  | .mxor d a b => Sys2Proof.Machine.execMxor d a b s
  | .mandn d a b => Sys2Proof.Machine.execMandn d a b s
  | .mnot d a => Sys2Proof.Machine.execMnot d a s
  | .mmov d a => Sys2Proof.Machine.execMmov d a s
  | .mset d v => Sys2Proof.Machine.execMset d v s
  | .mpopc d a => Sys2Proof.Machine.execMpopc d a s
  | .mfirst d a => Sys2Proof.Machine.execMfirst d a s
  | .mbefore d a => Sys2Proof.Machine.execMbefore d a s
  | .vmv d a g => Sys2Proof.Machine.execVmv d a g s
  | .vbcast d x g => Sys2Proof.Machine.execVbcast d x g s
  | .vext d a x => Sys2Proof.Machine.execVext d a x s
  | .vins d x ix => Sys2Proof.Machine.execVins d x ix s
  | .vslideup d a x k g => Sys2Proof.Machine.execVslideup d a x k g s
  | .vslidedn d a x k g => Sys2Proof.Machine.execVslidedn d a x k g s
  | .vperm d a b g => Sys2Proof.Machine.execVperm d a b g s
  | .vmerge d a b g => Sys2Proof.Machine.execVmerge d a b g s
  | .viota d g => Sys2Proof.Machine.execViota d g s
  | .vcompress d a g => Sys2Proof.Machine.execVcompress d a g s
  | .vexpand d a g => Sys2Proof.Machine.execVexpand d a g s
  | .vprefixpop d a g => Sys2Proof.Machine.execVprefixpop d a g s
  | .vconflict d a g => Sys2Proof.Machine.execVconflict d a g s
  | .vscan d a c seg op g f => Sys2Proof.Machine.execVscan d a c seg op g f s
  | .vscanf d a c seg op g f => Sys2Proof.Machine.execVscanf d a c seg op g f s
  | .vred d a x op g f => Sys2Proof.Machine.execVred d a x op g f s
  | .vredf d a x op g f => Sys2Proof.Machine.execVredf d a x op g f s
  | .vprune d a c z x g f => Sys2Proof.Machine.execVprune d a c z x g f s
  | .vrand d g f => Sys2Proof.Machine.execVrand d g f s
  | .vsmfin d a b g f => Sys2Proof.Machine.execVsmfin d a b g f s
  | .vld d x z o g => Sys2Proof.Machine.execVld d x z o g s
  | .vlds d x sq z o g => Sys2Proof.Machine.execVlds d x sq z o g s
  | .vldx d x b z gl o g => Sys2Proof.Machine.execVldx d x b z gl o g s
  | .vldxo d x b z gl o g => Sys2Proof.Machine.execVldxo d x b z gl o g s
  | .vldff d x z o g => Sys2Proof.Machine.execVldff d x z o g s
  | .vldm d x o => Sys2Proof.Machine.execVldm d x o s
  | .vfill d x => Sys2Proof.Machine.execVfill d x s
  | .vst a x z o g => Sys2Proof.Machine.execVst a x z o g s
  | .vsts a x sq z o g => Sys2Proof.Machine.execVsts a x sq z o g s
  | .vstx a x b z gl o g => Sys2Proof.Machine.execVstx a x b z gl o g s
  | .vstxo a x b z gl o g => Sys2Proof.Machine.execVstxo a x b z gl o g s
  | .vstm a x o => Sys2Proof.Machine.execVstm a x o s
  | .vspill a x => Sys2Proof.Machine.execVspill a x s
  | .vgl d x b z g => Sys2Proof.Machine.execVgl d x b z g s
  | .vsc d a x b z g => Sys2Proof.Machine.execVsc d a x b z g s
  | .vscc d a x b z r op g f => Sys2Proof.Machine.execVscc d a x b z r op g f s
  | .vxlate d a x g => Sys2Proof.Machine.execVxlate d a x g s
  | .vxlateff d a x g => Sys2Proof.Machine.execVxlateff d a x g s
  | .vwait d a b x z c g => Sys2Proof.Machine.execVwait d a b x z c g s
  | .smap x b n => Sys2Proof.Machine.execSmap x b n s
  | .sunmap x n => Sys2Proof.Machine.execSunmap x n s
  | .sflush x n => Sys2Proof.Machine.execSflush x n s
  | .strm q x n => Sys2Proof.Machine.execStrm q x n s
  | .strmend n => Sys2Proof.Machine.execStrmend n s
  | .cpy x => Sys2Proof.Machine.execCpy x s
  | .cpy2d x => Sys2Proof.Machine.execCpy2d x s
  | .trim x => Sys2Proof.Machine.execTrim x s
  | .cpywait d x => Sys2Proof.Machine.execCpywait d x s
  | .vpf x b g => Sys2Proof.Machine.execVpf x b g s
  | .mshape x => Sys2Proof.Machine.execMshape x s
  | .maccwin x => Sys2Proof.Machine.execMaccwin x s
  | .dmac d a b x init g f => Sys2Proof.Machine.execDmac d a b x init g f s
  | .dmacf d a b x init g f => Sys2Proof.Machine.execDmacf d a b x init g f s
  | .dsweep a b x init f => Sys2Proof.Machine.execDsweep a b x init f s
  | .dsweepf a b x init f => Sys2Proof.Machine.execDsweepf a b x init f s
  | .spsweep a b x f => Sys2Proof.Machine.execSpsweep a b x f s
  | .spsweepf a b x f => Sys2Proof.Machine.execSpsweepf a b x f s
  | .sppack d a f => Sys2Proof.Machine.execSppack d a f s
  | .spunpack d a f => Sys2Proof.Machine.execSpunpack d a f s
  | .acld a x => Sys2Proof.Machine.execAcld a x s
  | .acst d x f => Sys2Proof.Machine.execAcst d x f s
  | .aczero x => Sys2Proof.Machine.execAczero x s
  | .acmap d x => Sys2Proof.Machine.execAcmap d x s
  | .grantRelay h => Sys2Proof.Machine.execGrantRelay h s
  | .streamEntry h n => Sys2Proof.Machine.execStreamEntry h n s
  | .streamEnd h n => Sys2Proof.Machine.execStreamEnd h n s
  | .commandCompletion c => Sys2Proof.Machine.execCommandCompletion c s
  | .hartRetirement h => Sys2Proof.Machine.execHartRetirement h s
  | .launchCompletion l => Sys2Proof.Machine.execLaunchCompletion l s
  | .barrierPhaseCompletion k => Sys2Proof.Machine.execBarrierPhaseCompletion k s
  | .contendRound slot => Sys2Proof.Machine.execContendRound slot s
  | .rendezvousCompletion l => Sys2Proof.Machine.execRendezvousCompletion l s
  | .issueUnit l d => Sys2Proof.Machine.execIssueUnit l d s
  | .credit l h => Sys2Proof.Machine.execCredit l h s
  | .waitConditionEvaluation l => Sys2Proof.Machine.execWaitConditionEvaluation l s
  | .readyLaunchEntry d level => Sys2Proof.Machine.execReadyLaunchEntry d level s
  | .crewPlacement d => Sys2Proof.Machine.execCrewPlacement d s
  | .hartStop h => Sys2Proof.Machine.execHartStop h s
  | .trapRecord h => Sys2Proof.Machine.execTrapRecord h s
  | .resume d img => Sys2Proof.Machine.execResume d img s
  | .endLaunch d img => Sys2Proof.Machine.execEndLaunch d img s
  | .shootdown d v => Sys2Proof.Machine.execShootdown d v s
  | .shootdownComplete d => Sys2Proof.Machine.execShootdownComplete d s
  | .ringReset fn slot => Sys2Proof.Machine.execRingReset fn slot s
  | .ringDisable fn slot => Sys2Proof.Machine.execRingDisable fn slot s
  | .ringWake fn slot => Sys2Proof.Machine.execRingWake fn slot s
  | .generate d tenant slot => Sys2Proof.Machine.execGenerate d tenant slot s
  | .destroy d tenant slot => Sys2Proof.Machine.execDestroy d tenant slot s
  | .scrub d tenant slot => Sys2Proof.Machine.execScrub d tenant slot s
  | .clear d first count => Sys2Proof.Machine.execClear d first count s
  | .owner d first count o => Sys2Proof.Machine.execOwner d first count o s
  | .glazeCommandEnd d => Sys2Proof.Machine.execGlazeCommandEnd d s
  | .dieFailure d => Sys2Proof.Machine.execDieFailure d s
  | .dieRejoin d failed => Sys2Proof.Machine.execDieRejoin d failed s
  | .evacuation d moves => Sys2Proof.Machine.execEvacuation d moves s
  | .dieJoin d => Sys2Proof.Machine.execDieJoin d s
  | .fuseRaise object target => Sys2Proof.Machine.execFuseRaise object target s
  | .fuseRaiseComplete => Sys2Proof.Machine.execFuseRaiseComplete s
  | .supervisorFault d now => Sys2Proof.Machine.execSupervisorFault d now s
  | .deviceFault unit => Sys2Proof.Machine.execDeviceFault unit s
  | .drainTimeout d c => Sys2Proof.Machine.execDrainTimeout d c s
  | .coreRetirement d c => Sys2Proof.Machine.execCoreRetirement d c s
  | .strandDeadlock h => Sys2Proof.Machine.execStrandDeadlock h s
  | .waitResumption h r => Sys2Proof.Machine.execWaitResumption h r s
  | .vwaitExpiry h r => Sys2Proof.Machine.execVwaitExpiry h r s
  | .userInterruptDelivery h r => Sys2Proof.Machine.execUserInterruptDelivery h r s
  | .streamFault h n => Sys2Proof.Machine.execStreamFault h n s
  | .resendRequest l d => Sys2Proof.Machine.execResendRequest l d s
  | .gracePeriodExpiry d level => Sys2Proof.Machine.execGracePeriodExpiry d level s
  | .tlbMissWalk d c tenant va => Sys2Proof.Machine.execTlbMissWalk d c tenant va s
  | .hostWindowRead fn off size => Sys2Proof.Machine.execHostWindowRead fn off size s
  | .hostWindowWrite fn off data => Sys2Proof.Machine.execHostWindowWrite fn off data s
  | .registerWrite fn off v => Sys2Proof.Machine.execRegisterWrite fn off v s
  | .gets st l r sq => Sys2Proof.Machine.execGets st l r sq s
  | .getm st l r sq => Sys2Proof.Machine.execGetm st l r sq s
  | .upg st l r sq => Sys2Proof.Machine.execUpg st l r sq s
  | .pute st l r sq => Sys2Proof.Machine.execPute st l r sq s
  | .putm st l r sq => Sys2Proof.Machine.execPutm st l r sq s
  | .dwn l d sq => Sys2Proof.Machine.execDwn l d sq s
  | .inv st l sq => Sys2Proof.Machine.execInv st l sq s
  | .fwdS st l sq => Sys2Proof.Machine.execFwdS st l sq s
  | .fwdM st l sq => Sys2Proof.Machine.execFwdM st l sq s
  | .ack l r sq => Sys2Proof.Machine.execAck l r sq s
  | .engineClaim l e => Sys2Proof.Machine.execEngineClaim l e s
  | .engineDone l e => Sys2Proof.Machine.execEngineDone l e s
  | .reissueTimeout src dst sq => Sys2Proof.Machine.execReissueTimeout src dst sq s
  | .tileFill t => Sys2Proof.Machine.execTileFill t s
  | .tileReseal t => Sys2Proof.Machine.execTileReseal t s
  | .powerGood => Sys2Proof.Machine.execPowerGood s
  | .trainingTimeout d => Sys2Proof.Machine.execTrainingTimeout d s
  | .measurements => Sys2Proof.Machine.execMeasurements s
  | .firmwareUpdate image => Sys2Proof.Machine.execFirmwareUpdate image s
  | .platformMonitoring sq => Sys2Proof.Machine.execPlatformMonitoring sq s
  | .fileTransfer => Sys2Proof.Machine.execFileTransfer s
  | .install input => Sys2Proof.Machine.execInstall input s
  | .load object => Sys2Proof.Machine.execLoad object s
  | .powerSample watts junction dram hot => Sys2Proof.Machine.execPowerSample watts junction dram hot s
  | .currentLimit => Sys2Proof.Machine.execCurrentLimit s
  | .correctedError e now => Sys2Proof.Machine.execCorrectedError e now s
  | .uncorrectableError e => Sys2Proof.Machine.execUncorrectableError e s
  | .powerLoss => Sys2Proof.Machine.execPowerLoss s
  | .kilnControllerReset => Sys2Proof.Machine.execKilnControllerReset s
  | .linkTraining link width rate => Sys2Proof.Machine.execLinkTraining link width rate s
  | .spdmKeyExchange fn link => Sys2Proof.Machine.execSpdmKeyExchange fn link s

end Sys2Proof.Machine
end

