-- ==== Sys2Proof/Machine/Passing.lean ====
section
/-! DEFINITION. Scalar instructions behind a convoy in flight (R28, R83, R249 to R252): which of them may execute before it has drained. -/

namespace Sys2Proof.Machine

/-- The slots of the convoy in flight that are not complete. -/
def openSlots (s : State) : List Slot := (s.strand.convoy.getD []).filter (fun k => !k.done)

/-! ## Registers -/

/-- The x registers that a scalar instruction reads or writes. -/
def xRegs : Instr → List XReg
  | .add d a b | .sub d a b | .and d a b | .or d a b | .xor d a b | .andn d a b | .orn d a b | .sll d a b | .srl d a b | .sra d a b
  | .rol d a b | .mul d a b | .mulh d a b | .mulhu d a b | .div d a b | .divu d a b | .rem d a b | .remu d a b
  | .min d a b | .max d a b | .minu d a b | .maxu d a b | .slt d a b | .sltu d a b | .vsetvl d a b => [d, a, b]
  | .fadd d a b _ | .fsub d a b _ | .fmul d a b _ | .fdiv d a b _ | .fma d a b _ | .fmin d a b _ | .fmax d a b _
  | .fcmpEq d a b _ | .fcmpLt d a b _ | .fcmpLe d a b _ => [d, a, b]
  | .clz d a | .ctz d a | .popc d a | .bswap d a | .launch d a | .lwait d a => [d, a]
  | .sext d a _ | .zext d a _ | .fsqrt d a _ | .fmv d a _ => [d, a]
  | .fcvt d a _ _ => [d, a]
  | .addi d a _ | .andi d a _ | .ori d a _ | .xori d a _ | .slti d a _ | .sltiu d a _ | .addhi d a _ | .jalr d a _ => [d, a]
  | .slli d a _ | .srli d a _ | .srai d a _ | .roli d a _ => [d, a]
  | .ld d a _ _ | .st d a _ _ | .lda d a _ _ | .stl d a _ _ | .ll d a _ _ | .sc d a _ _ => [d, a]
  | .crs d a _ | .crc d a _ => [d, a]
  | .vsetvli d a _ _ _ | .setshape d a _ _ _ => [d, a]
  | .contend d a _ => [d, a]
  | .lui d _ => [d]
  | .jal d _ => [d]
  | .qpop d => [d]
  | .crd d _ => [d]
  | .b _ a b _ => [a, b]
  | .qpush a | .bqpush a => [a]
  | .cwr a _ => [a]
  | .ipost a _ | .iwait a _ => [a]
  | _ => []

/-- Whether a slot writes a register that a scalar instruction names, in the bank that each of them means (R83, R114). -/
def writesOneOf (s : State) (rs : List XReg) (k : Slot) : Bool :=
  match (infoOf k.instr).bind (·.xd) with
  | some d => d != 0 && rs.contains d && (d.toNat < 24 || k.shadow == inHandler s)
  | none => false

/-- Control registers whose access waits for the drain. -/
def drainReg (i : BitVec 12) : Bool := [0x000, 0x001, 0x002, 0x008, 0x009, 0x010, 0x011, 0x012].contains i.toNat

/-! ## Strips -/

/-- The share and class with which an instruction opens a strip, where it is one that does (R124, R278). -/
def opens (s : State) : Instr → Option (Nat × Nat)
  | .vsetvl _ _ c => some (((getX s c).extractLsb' 11 4).toNat, ((getX s c).extractLsb' 8 3).toNat + 9)
  | .vsetvli _ _ share cls _ => some (share.toNat, cls.toNat + 9)
  | .setshape _ _ share _ cls => some (share.toNat, cls.toNat + 9)
  | _ => none

/-- Whether the opening of a strip waits for the convoy in flight: where it would change the grant (R28, R29), and where a slot has still to bind or to
end a stream, which an opening ends (R184). -/
def stripWaits (s : State) (p : Nat × Nat) : Bool :=
  (s.role != .compute && grantDiffers (negotiate s p.1 p.2) s.hart.grant)
    || (openSlots s).any (fun k => match k.instr with | .strm .. => true | .strmend .. => true | _ => false)

/-! ## Memory (R249 to R252) -/

/-- The lines of a checked access: none of them where it faults, and not known while its walk waits. -/
def knownLines {α : Type} (line : Option Nat) (lines : List α) : Option (List α) := if line.isSome then none else some lines

/-- The lines of an element or a range, by the access that is made to it; none while its walk waits. -/
def siteLines (s : State) (t : Site) (a : Access) : Option (List Nat) :=
  knownLines (siteWait s t a false) (((checkSite s t a false).toOption.map (fun r => linesOf r.1)).getD [])
def rangeLines (s : State) (p : Party) (va : Word) (n : Nat) (a : Access) : Option (List Nat) :=
  match checkRange s p s.hart.tenant va n a false with
  | .ok r => some (linesOf r.1)
  | .error (f, _) => if f.cls = 0 then none else some []

/-- The lines of several accesses together. -/
def linesTogether (l : List (Option (List Nat))) : Option (List Nat) := if l.all (·.isSome) then some (l.flatMap (·.getD [])) else none

/-- The destination lines of a copy or a trim that has still to be issued (R190, R262). -/
def destLines (s : State) (k : Slot) : Option (List Nat) :=
  let u : Party := .unit (myDie s)
  let spans (l : List (Word × Nat)) : Option (List Nat) :=
    linesTogether (l.flatMap (fun p => (piecesOf p.1 p.2).map (fun a => rangeLines s u a 1 .write)))
  match k.instr with
  | .cpy _ => spans ((copyRows false k.desc).map (fun r => (r.2, dfield k.desc 256 64)))
  | .cpy2d _ => spans ((copyRows true k.desc).map (fun r => (r.2, dfield k.desc 256 64)))
  | .trim _ =>
    match unitLoad s (myDie s) s.hart.tenant (BitVec.ofNat 64 (dfield k.desc 192 64)) 64 with
    | .error (f, _) => if f.cls = 0 then none else some []
    | .ok _ => some (trimLines s (myDie s) s.hart.tenant k.desc)
  | _ => some []

/-- The lines that an open slot of the LS unit may still access, or come to own; none while a walk for one of them waits. -/
def lsLines (s : State) (k : Slot) : Option (List Nat) :=
  let es (g : Gov) : List Nat := (positions s).filter (fun e => govTest s g e && !passed s k e)
  let at' (a : Access) (g : Gov) (site : Nat → Site) : Option (List Nat) := linesTogether ((es g).map (fun e => siteLines s (site e) a))
  match k.instr with
  | .vld _ _ z o g | .vldff _ _ z o g => at' .read g (unitSite s k z o)
  | .vst _ _ z o g => at' .write g (unitSite s k z o)
  | .vlds _ _ _ z o g => at' .read g (strideSite s k z o)
  | .vsts _ _ _ z o g => at' .write g (strideSite s k z o)
  | .vldx _ _ b _ gl o g | .vldxo _ _ b _ gl o g => at' .read g (gatherSite s k b gl o)
  | .vstx _ _ b _ gl o g | .vstxo _ _ b _ gl o g => at' .write g (gatherSite s k b gl o)
  | .vgl _ _ b _ g => at' .read g (indexSite s k.xsv b)
  | .vsc _ _ _ b _ g | .vscc _ _ _ b _ _ _ g _ => at' .write g (indexSite s k.xsv b)
  | .vldm _ _ o => rangeLines s (me s) (baseOf k o) ((vlOf s + 7) / 8) .read
  | .vstm _ _ o => rangeLines s (me s) (baseOf k o) ((vlOf s + 7) / 8) .write
  | .vfill .. => rangeLines s (me s) k.xsv (s.hart.grant.vlen / 8) .read
  | .vspill .. => rangeLines s (me s) k.xsv (s.hart.grant.vlen / 8) .write
  | .vxlate _ a _ g | .vxlateff _ a _ g =>
    knownLines ((es g).findSome? (lookWait s k a)) ((lookUps s k a (es g)).ok.flatMap (fun p => linesOf p.2.1))
  | _ => destLines s k

/-- Whether a slot is an acquire, after which the hart's later accesses come (R98, R175, R191). -/
def acquires (k : Slot) : Bool := match k.instr with
  | .vwait .. | .cpywait .. => true
  | _ => false

/-- The open slots of the LS unit. -/
def openLs (s : State) : List Slot := (openSlots s).filter (fun k => ((infoOf k.instr).map (·.unit)) == some 4)

/-- The address of a scalar load or store, its bytes, and which of the two it is. -/
def scalarSite (s : State) : Instr → Option (Word × Nat × Access)
  | .ld _ a z off | .lda _ a z off | .ll _ a z off => some (effAddr s a off, sizeBytes z, .read)
  | .st _ a z off | .sc _ a z off => some (effAddr s a off, sizeBytes z, .write)
  | .lwait _ a => some (getX s a, 8, .read)
  | _ => none

/-- Whether an instruction is a release or a fence, before which the hart's earlier accesses come (R98, R223, R254). -/
def releases : Instr → Bool
  | .stl .. | .fence .. | .barArrive .. | .ipost .. | .contend .. | .dsync | .launch .. => true
  | _ => false

/-- Whether an instruction orders later accesses behind it alone. -/
def acquiresOnly : Instr → Bool
  | .barWait .. | .iwait .. => true
  | _ => false

/-- Whether an open slot of the LS unit may access a line of a scalar access. Where the slot's addresses depend on a slot before it that is not
complete, or while a walk for it waits, it may. -/
def mayMeet (s : State) (lines : List Nat) (k : Slot) : Bool :=
  ((s.strand.convoy.getD []).takeWhile (· != k)).any (fun b => !b.done && k.after b)
    || (match lsLines s k with | some ls => ls.any lines.contains | none => true)

/-- Whether a scalar instruction waits for the memory accesses of the convoy in flight: a release for all of them, any access for an acquire, an access
of a later strip for those of this one, and a load or store for those of a common location. -/
def memoryWaits (s : State) (i : Instr) : Bool :=
  let ls := openLs s
  if releases i then !ls.isEmpty
  else
    match scalarSite (pastConvoy s) i with
    | some (a, n, k) =>
      let lines := ((checkRange s (me s) s.hart.tenant a n k false).toOption.map (fun r => linesOf r.1)).getD []
      (s.strand.later.isSome && !ls.isEmpty) || ls.any acquires || ls.any (mayMeet s lines)
    | none => acquiresOnly i && ls.any acquires

/-! ## Passing -/

/-- Whether an instruction may execute behind the convoy in flight of the focused strand (R83). Vector instructions and `hexit` wait for the drain;
an instruction that names a register that an open slot writes waits for the slot, `bm` for one that writes its mask or may shorten its strip, and an
access of memory as the memory order asks; a shootdown waits for every access before it (R361). -/
def mayPass (s : State) (i : Instr) : Bool :=
  let ks := openSlots s
  !ks.any (writesOneOf s (xRegs i)) && !memoryWaits s i &&
    match i with
    | .convoy .. | .hexit => false
    | .crd _ r => !drainReg r
    | .cwr _ r | .crs _ _ r | .crc _ _ r => !drainReg r && (r != 0x804 || (openLs s).isEmpty)
    | .bm _ m _ => !ks.any (fun k => writesMask k (m.extractLsb' 0 3) || (s.strand.later.isNone && k.trims))
    | .uiret => s.strand.aside.isNone
    | i =>
      match opens (pastConvoy s) i with
      | some p => !stripWaits s p
      | none => (infoOf i).isNone

end Sys2Proof.Machine
end

