-- ==== Sys2Proof/Machine/Auto.lean ====
section
/-! DEFINITION. What the machine does next when no event is waiting in `State.inputs`: the device's own work first, each piece as soon as it
can be done; then the ready stream whose last issue is oldest (R344); then, when nothing else can move, what only the passing of
time brings. -/

namespace Sys2Proof.Machine

/-- What a step does. -/
inductive Work where
  /-- an event happens -/
  | event (i : Instr)
  /-- the firmware's start of training, a host access that waited, or time that passes -/
  | settled (s : State)
  /-- the instruction at the pc of the strand in the focus is issued; when the strand last issued before -/
  | issue (s : State) (last : Nat)
  /-- the next slot of its convoy in flight runs -/
  | slot (s : State)
  /-- the next scalar instruction behind its convoy in flight is issued -/
  | ahead (s : State) (last : Nat)
  deriving DecidableEq, Repr

/-- The first event of a list of proposals. -/
def firstEvent (l : List (Option Instr)) : Option Instr := l.findSome? id

/-! ## Work of harts -/

/-- Whether the trap record of a stopped hart can be written now. -/
def recordReady (s : State) (b : HartBox) : Bool :=
  match b.hart.status, b.hart.trap with
  | .stopped _ slot, some t =>
    let d := dieOf b.hart.id
    (dieRec s d).unanswered.length < queueLimit s d
      && !unitWaits s d 0 (recordAddress s d) 64 .write
      && (match unitStore s d 0 (recordAddress s d) 64 (recordBits s b.hart b.hart.trapAccess t slot (dieRec s d).trapSeq) with
          | .ok _ => true
          | .error _ => false)
  | _, _ => false

/-- Whether a stream can do something now, with its hart's access strand in the focus. -/
def streamMoves (s : State) (t : Stream) : Bool := streamReady s t && streamOf (streamWork s t) t.num != some t

/-- Whether a hart under an armature stop is at the issue unit in which another hart of its launch has trapped, and could execute it (R349). -/
def inLastUnit (s : State) (b : HartBox) : Bool :=
  b.hart.status == .stopping 2 && b.s0.stall.isNone && (slotReady s (dieOf b.hart.id)).isSome
    && (boxes s).any (fun c => c.hart.key.launch == b.hart.key.launch && c.unitAt == b.unitAt
      && (match c.hart.status with | .stopping 1 => true | .stopped 1 _ => true | _ => false))

/-- The hart that decides next between executing the unit of a trap and stopping before it. -/
def lastUnit (s : State) : Option HartId := ((boxes s).find? (inLastUnit s)).map (·.hart.id)

/-- The stopping, the record, or the retirement that a hart is due. -/
def hartDue (s : State) (b : HartBox) : Option Instr :=
  let h := b.hart.id
  match b.hart.status with
  | .stopping _ => if (slotReady s (dieOf h)).isSome then some (.hartStop h) else none
  | .stopped _ _ => if recordReady s b then some (.trapRecord h) else none
  | .retiring => if s.sched.commands.any (fun c => c.hart == b.hart.key) then none else some (.hartRetirement h)
  | _ => none

/-- The streams' work of a running hart. -/
def streamDue (s : State) (b : HartBox) : Option Instr :=
  if b.hart.streams.isEmpty || b.hart.status != .running then none
  else
    let t := focusOn s b.hart.id .access
    firstEvent (b.hart.streams.map (fun x =>
      if x.fault.isSome then (if atBoundary t.strand then some (.streamFault b.hart.id x.num) else none)
      else if streamCount x.spec ≤ x.entry then some (.streamEnd b.hart.id x.num)
      else if streamMoves t x then some (.streamEntry b.hart.id x.num) else none))

/-- A user interrupt that one of a hart's strands is due. -/
def interruptOf (s : State) (b : HartBox) : Option Instr :=
  if b.hart.pending.isEmpty then none
  else firstEvent (b.strands.map (fun r => if interruptDue (focusOn s b.hart.id r.1) then some (.userInterruptDelivery b.hart.id r.1) else none))

/-- The deadlock trap of a decoupled hart (R19). -/
def deadlockOf (s : State) (b : HartBox) : Option Instr :=
  if b.decoupled && deadlocked (focusOn s b.hart.id .access) then some (.strandDeadlock b.hart.id) else none

def hartWork (s : State) : Option Instr :=
  firstEvent ((boxes s).map (fun b => firstEvent [hartDue s b, streamDue s b, interruptOf s b, deadlockOf s b]))

/-! ## Work of launches -/

/-- Whether an evaluation of a waiting launch's conditions decides something. -/
def waitDecides (s : State) (l : Launch) : Bool :=
  waits s l.id && evaluate s (leadDie l) l.tenant (waitsOf l.record) != .inr false

/-- The armature's channel work of a launch (R385). -/
def channelWork (s : State) (l : Launch) : Option Instr :=
  if l.seq.isNone || !l.started then none
  else firstEvent
    (l.dies.map (fun d => if sentTo l d < leadIssued s l then some (.issueUnit l.id d) else none)
      ++ (boxes s).map (fun b =>
        if b.hart.key.launch == l.id && creditOf l b.hart.key < b.hart.units then some (.credit l.id b.hart.id) else none))

def launchWork (s : State) : Option Instr :=
  firstEvent (s.sched.launches.map (fun l =>
    if launchDone s l then (if completionWaits s l then none else some (.launchCompletion l.id))
    else if waitDecides s l then some (.waitConditionEvaluation l.id)
    else if (meetingUnit s l).isSome then some (.rendezvousCompletion l.id)
    else channelWork s l))

/-- A barrier whose next phase is complete. -/
def barrierWork (s : State) : Option Instr :=
  firstEvent ((s.sched.arrivals.map (·.key)).dedup.map (fun k => if phaseDone s k then some (.barrierPhaseCompletion k) else none))

/-- The dispatch unit of a die: ready launches enter their queues, crews are placed. -/
def dispatchWork (s : State) (d : DieId) : Option Instr :=
  let enter (n : Nat) : Option Instr :=
    match firstReady s d n with
    | some _ => if queueFits s d n then some (.readyLaunchEntry d (BitVec.ofNat 3 n)) else none
    | none => none
  firstEvent ((List.range 8).reverse.map enter ++ [if dieFull s d && (placement s d).isSome then some (.crewPlacement d) else none])

/-! ## Rings, commands, cores -/

/-- Whether a ring's dispatcher would do something now. -/
def ringWork (s : State) (r : Ring) : Option Instr :=
  if r.reset then (if dispatcherOn s r && (finishEntry s r).isSome then some (.ringReset r.fn r.slot) else none)
  else if r.run && !r.en then (if headerFree s r && (finishEntry s r).isSome then some (.ringDisable r.fn r.slot) else none)
  else if ringServed s r && ringOf (serveRing s r) r.fn r.slot != r then some (.ringWake r.fn r.slot)
  else none

/-- The oldest engine command that is due. -/
def commandWork (s : State) : Option Instr := (s.sched.commands.find? (commandDue s)).map (fun c => .commandCompletion c.id)

/-- A draining core that holds no hart. -/
def coreWork (s : State) : Option Instr :=
  firstEvent (s.cores.map (fun c =>
    if c.draining && coreEmpty s c.die c.core then some (.coreRetirement c.die c.core)
    else if c.overdue && !(drainVictims s c.die c.core).isEmpty then some (.drainTimeout c.die c.core)
    else none))

/-- The event that the device brings about next, if any. -/
def autoEvent (s : State) : Option Instr :=
  if s.kiln.stage == 0 && (dieRec s 0).plinth then some .powerGood
  else firstEvent ([commandWork s, hartWork s, launchWork s, barrierWork s, coreWork s] ++ allDies.map (dispatchWork s) ++ s.host.rings.map (ringWork s))

/-! ## Issue (R344) -/

/-- The cycles that a step takes pass. -/
def pass (s : State) : State := { s with issues := s.issues + 1, cycle := s.cycle + Config.cyclesOf s.issues }

/-- The strand in the focus issues: it becomes the youngest. -/
def youngest (s : State) : State := { s with strand := { s.strand with lastIssue := s.issues } }

/-- Whether the focused strand, which can move, goes on with the scalar instructions behind its convoy in flight: where the convoy can go on
too, either may come first (R81, R83). -/
def goesAhead (s : State) : Bool := canPass s && (!canStep s || Config.choose s.fresh)

/-- A strand goes on. -/
def issueOn (s : State) (h : HartId) (r : Role) : Work :=
  let t := pass (focusOn s h r)
  if goesAhead t then .ahead (youngest (bump t)) t.strand.lastIssue
  else if t.strand.convoy.isSome then .slot (clearStall (bump t))
  else .issue (youngest (clearStall t)) t.strand.lastIssue

/-! ## Time (R176, R232, R342) -/

/-- The slot of a `vwait` in which a strand waits with a timeout that can expire. -/
def timedWait (b : HartBox) (r : Role × Strand) : Option Instr :=
  match r.2.stall, r.2.convoy.bind vwaitSlot with
  | some r', some (_, k) =>
    if k.xsv = BitVec.allOnes 64 || !(r' == .vwait || k.held == some .vwait) then none else some (.vwaitExpiry b.hart.id r.1)
  | _, _ => none

/-- Whether a grace period's end would pre-empt something on a die. -/
def graceWork (s : State) (d : DieId) : Option Instr :=
  match served s d with
  | none => none
  | some q =>
    match launchOf s q.launch with
    | none => none
    | some l =>
      if channelsFree s l d && lineFree s l && (victimsFor s d q.level (needOf s d l)).any (fun v => poolsHold s v.1) then some (.gracePeriodExpiry d (BitVec.ofNat 3 q.level))
      else none

/-- The end of a draining core's second (R396). -/
def drainWork (c : CoreRec) : Option Instr := if c.draining && !c.overdue then some (.drainTimeout c.die c.core) else none

/-- What the passing of time brings when no stream is ready. -/
def timeEvent (s : State) : Option Instr :=
  firstEvent (s.sched.contenders.map (fun c => some (.contendRound c.slot)) ++ allDies.map (graceWork s) ++ s.cores.map drainWork
    ++ (boxes s).flatMap (fun b => if b.hart.status == .running then b.strands.map (timedWait b) else []))

/-- Cycles pass and nothing else. -/
def idle (s : State) : State := pass s

/-- What the machine does next. Whether a hart executes the unit in which another has trapped before it stops is free. -/
def nextWork (s : State) : Work :=
  match lastUnit s with
  | some h => if Config.choose s.fresh then issueOn (bump s) h .access else .event (.hartStop h)
  | none =>
  match autoEvent s, [serveDelayed s, serveGlaze s, serveFrames s, serveHost s, serveRequests s].findSome? id with
  | some i, _ => .event i
  | none, some t => .settled t
  | none, none =>
    if s.kiln.stage == 1 then .settled (startTraining s)
    else
      match oldestStream (readyStrands s) with
      | some (h, r, _) => issueOn s h r
      | none =>
        match timeEvent s with
        | some i => .event i
        | none => .settled (idle s)

end Sys2Proof.Machine
end

