-- ==== Sys2Proof/Machine/Setup.lean ====
section
/-! DEFINITION. A machine in which one user hart runs a given text: the least that a fetch needs (R23, R358, R363, R387), used to place an
instruction where the next step fetches it. -/

namespace Sys2Proof.Machine

/-- A doubleword of a page table or of text, in memory. -/
def word64 (m : Memory) (a v : Nat) : Memory := m.writeNat a 8 v

/-- The tables that map virtual page 0 of tenant 0 to frame 4, readable and executable: root at 0x1000, one table of each level. -/
def textTables (m : Memory) : Memory := word64 (word64 (word64 (word64 m 0x1000 0x10000) 0x10000 0x20001) 0x20000 0x30001) 0x30000 0x40017

/-- A coupled user hart of tenant 0 on die 0, core 0, slot 0, at address 0. -/
def textHart : Hart := { Hart.empty with live := true, id := 0, key := ⟨0, 0, 0⟩ }

/-- The machine in the full state with die 0 joined and that hart alone, its text's first bytes those of v; the tiles of the text and of the tables are in L2,
as a write of them leaves them (R368). -/
def placeText (s : State) (bytes v : Nat) : State :=
  { setDie s 0 { dieRec s 0 with state := 2, sup := { (dieRec s 0).sup with sroot := 0x1000 } } with
    strand := Strand.start 0, mate := none, role := .single, hart := textHart, parked := [], inputs := []
    mem := (textTables s.mem).writeNat 0x40000 bytes v
    sealed := { s.sealed with owners := ⟨4, 0⟩ :: s.sealed.owners.filter (fun o => o.frame != 4), inL2 := [2, 32, 64, 96, 128] ++ s.sealed.inL2 }
    kiln := { s.kiln with stage := 3 } }

end Sys2Proof.Machine
end

