-- ==== Sys2Proof/Machine/Step.lean ====
section
/-! DEFINITION. One step of the machine: the event at the head of `State.inputs`; else what the device itself brings about next; else the
instruction that the oldest ready stream fetches (R344). -/

namespace Sys2Proof.Machine

/-- What a fetch or a slot in flight asks for is done. -/
def runFetched (s : State) : Fetched → Host.Outcome State Fault Refusal
  | .run i t => exec i t
  | .drained t => .next t
  | .trapped t => .next t
  | .wait r => .next (stallOn s r)

/-- A stream that only stalls has not issued (R344). -/
def keepTurn (last : Nat) : Host.Outcome State Fault Refusal → Host.Outcome State Fault Refusal
  | .next u => if u.strand.stall.isSome then .next { u with strand := { u.strand with lastIssue := last } } else .next u
  | r => r

/-- The scalar instructions behind the convoy wait at where they are. -/
def holdAhead (s : State) (r : Stall) (last : Nat) : State :=
  { s with strand := { s.strand with
      lastIssue := last, ahead := s.strand.convoy.map (fun ks => ((behind s ks.length).1, some r)) } }

/-- The next scalar instruction behind the convoy in flight (R83): it executes as if the convoy were not there. One that must wait for it,
that traps to the supervisor, or that comes from text of the other kind (R283), waits until the convoy has drained. -/
def runAhead (s : State) (last : Nat) : Host.Outcome State Fault Refusal :=
  match fetchAt (pastConvoy s) with
  | .run i t =>
    if t.strand.portable == s.strand.portable && mayPass s i then
      match exec i t with
      | .next u =>
        if u.hart.trap.isSome then .next (holdAhead s .convoy last)
        else if u.strand.stall.isSome then .next (behindConvoy { s with strand := { s.strand with lastIssue := last } } { u with strand := { u.strand with lastIssue := last } })
        else .next (behindConvoy s u)
      | r => r
    else .next (holdAhead s .convoy last)
  | .wait r => .next (holdAhead s r last)
  | _ => .next (holdAhead s .convoy last)

/-- One step. -/
def step (s : State) : Host.Outcome State Fault Refusal :=
  match s.inputs with
  | i :: rest => exec i { s with inputs := rest }
  | [] =>
    match nextWork s with
    | .event i => exec i s
    | .settled t => .next t
    | .issue t last => keepTurn last (runFetched t (fetchAt t))
    | .slot t => runFetched t (fetchSlot t)
    | .ahead t last => runAhead t last

/-- The machine with an instruction, whose bits are w, where the next step fetches: at address 0 of the one hart that runs. -/
def State.withFetchWord (s : State) (_nbits w : Nat) : State := placeText s maxBytes w

end Sys2Proof.Machine
end

