-- ==== Sys2Proof/Safety.lean ====
section
/-! DEFINITION. What counts as a safe run, in the terms that claims use: the machine goes on, its memory keeps its canonical form, and what the
directories and the seals hold is told apart from the rest of the state. -/

namespace Sys2Proof.Machine

/-- The step answers a next state: neither a fault nor a refusal. -/
def GoesOn (s : State) : Prop := ∃ t, step s = .next t

/-- The invariant of every step: memory is in its canonical form (addresses strictly rising, no byte equal to what an unlisted one reads
as), so that equal memories are equal data. -/
def Canonical (s : State) : Prop := s.mem.wf

/-- A strand without its reservation and its links. -/
def Strand.unlinked (x : Strand) : Strand := { x with resv := none, links := [] }

/-- A die without its glaze unit's registers. -/
def Die.unglazed (x : Die) : Die := { x with glaze := Die.reset.glaze }

/-- The state without what an access does to lines and tiles beside its effect: directories, TLBs, tile records, the glaze units' registers, and
the reservations and links of strands (R99, R169, R367, R368, R376 to R379). Two states with one `bare` agree in everything else: registers,
memory, control registers, queues, scheduler, host side. -/
def bare (s : State) : State :=
  { s with
    strand := s.strand.unlinked, mate := s.mate.map Strand.unlinked, parked := s.parked.map (·.mapStrands Strand.unlinked)
    coh := Coherence.reset, sealed := Sealed.reset, dies := s.dies.map Die.unglazed }

/-- From s to t the low n bytes of v have been stored from pa on, lowest address least significant, and nothing else has changed. -/
def StoredAt (s t : State) (pa n v : Nat) : Prop :=
  bare t = bare (setMem s t.mem)
    ∧ (∀ i, i < n → t.mem.read (pa + i) = BitVec.ofNat 8 (v / 256 ^ i))
    ∧ ∀ a, a < pa ∨ pa + n ≤ a → t.mem.read a = s.mem.read a

/-! ## Program counters -/

/-- A multiple of 4, as every instruction's address is (R68). -/
def Word.aligned (w : Word) : Bool := w &&& 3 == 0

/-- A strand whose pc, and the pc of the scalar instructions behind its convoy, are multiples of 4. -/
def Strand.aligned (x : Strand) : Bool := Word.aligned x.pc && x.ahead.all (fun a => Word.aligned a.1)

/-- Every pc of the package is a multiple of 4, and so is every address that a handler returns to (R68, R113). -/
def PcsAligned (s : State) : Prop :=
  s.strand.aligned = true ∧ (∀ x ∈ s.mate, x.aligned = true) ∧ Word.aligned s.hart.cr.upc = true ∧
  ∀ b ∈ s.parked, b.s0.aligned = true ∧ (∀ x ∈ b.s1, x.aligned = true) ∧ Word.aligned b.hart.cr.upc = true

/-- The invariant that every step keeps. -/
def Sound (s : State) : Prop := Canonical s ∧ PcsAligned s

/-! ## Vector instructions in flight -/

/-- Slot n of the convoy in flight, whose instruction is i, is the next to run (R82), and no element lies beyond a point at which it is to stop (R33). -/
def RunsSlot (s : State) (i : Instr) (ks : List Slot) (n : Nat) (k : Slot) : Prop :=
  s.strand.convoy = some ks ∧ nextSlot ks 0 = some (n, k) ∧ k.instr = i ∧ beyond s k = []

/-- The vector operands that an instruction reads, and the one it writes. -/
def sourcesOf (i : Instr) : List VOpd := ((infoOf i).map (·.srcs)).getD []
def destOf (i : Instr) : Option VOpd := (infoOf i).bind (·.dst)

/-- No queue operand makes the strand wait (R15, R18). -/
def OperandsReady (s : State) (i : Instr) (k : Slot) : Prop :=
  (∀ q ∈ sourcesOf i, popStall s q = none) ∧ (k.pushed = false → ∀ q, destOf i = some q → pushStall s q = none)

/-- From u to t the elements of slot k's destination at width w are as `val` says: those with a value have its low w bits; the others stay, or
are 0 in the new entry of a queue, or stay in the entry that the slot has reserved before (R17, R33, R119 to R121). The entry is filled when the slot
completes. -/
def Delivered (u t : State) (k : Slot) (d : VOpd) (w : Nat) (val : Nat → Option Nat) (full : Bool := true) : Prop :=
  if isQueue d then
    if k.pushed then
      ∀ q x, getQ u d = q ++ [x] → ∃ b, getQ t d = q ++ [{ x with bits := b, full := full }]
        ∧ ∀ e, w * e + w ≤ 65536 → elemOf b w e = ((val e).map (· % 2 ^ w)).getD (elemOf x.bits w e)
    else ∃ b, getQ t d = getQ u d ++ [⟨b, full, u.strand.vl⟩] ∧ ∀ e, w * e + w ≤ 65536 → elemOf b w e = (val e).getD 0 % 2 ^ w
  else
    ∀ e, w * e + w ≤ 65536 → elemOf (getV t (vregOf d)) w e = ((val e).map (· % 2 ^ w)).getD (elemOf (getV u (vregOf d)) w e)

/-- From s to t only vector and mask registers and queues change: of the vector registers at most the destination, of the masks at most those
listed, and of the queues the sources, whose heads are removed, and the destination. -/
def OnlyOperands (s t : State) (i : Instr) (ms : List MReg) : Prop :=
  t = { s with hart := { s.hart with regs := t.hart.regs, q := t.hart.q } }
    ∧ (∀ r : VReg, destOf i ≠ some (ofV r) → getV t r = getV s r)
    ∧ (∀ m, m ∉ ms → getM t m = getM s m)
    ∧ (∀ q, vOk q = true → isQueue q = true → destOf i ≠ some q → getQ t q = getQ (popQs s (sourcesOf i)) q)

/-- An element-wise instruction, its slot next to run, completes: each active element of the destination has the result's bits, the overflow
mask has a bit more for each active element out of range (R50), and nothing else changes. `w`, `ov` and `f` give the width, the mask and the
results from the state and the slot's captured values. -/
def ElementResult (i : Instr) (d : VOpd) (g : Gov) (w : State → Slot → Nat) (ov : State → Slot → BitVec 3)
    (f : State → Slot → Nat → Conv) : Prop :=
  ∀ s ks n k, i.wf = true → RunsSlot s i ks n k → positions s ≠ [] → OperandsReady s i k →
    ∃ t, exec i s = .next (completeSlot t ks n k)
      ∧ Delivered (popQs s (sourcesOf i)) t k d (w s k) (fun e => if e ∈ activeOf s k g then some (f s k e).bits else none)
      ∧ (∀ m e, e < 8192 → (getM t m).getLsbD e
          = ((getM s m).getLsbD e || (ov s k != 0 && m == ov s k && (activeOf s k g).contains e && (f s k e).out)))
      ∧ OnlyOperands s t i (if ov s k = 0 then [] else [ov s k])

/-- A slot that is to stop before it is complete (R33): the elements before its stop points are complete, each lane group's counter says so, and the rest
are as before; its sources stay in their queues, memory and the pc stay, and the convoy stays in flight. -/
def StopsInPart (i : Instr) : Prop :=
  ∀ s ks n k, i.wf = true → s.strand.convoy = some ks → nextSlot ks 0 = some (n, k) → k.instr = i → positions s ≠ [] → OperandsReady s i k →
    s.hart.grant.groups ≤ 8 → (∀ e ∈ positions s, e < 8192) → beyond s k ≠ [] →
    ∃ t k', exec i s = .next (setConvoy t (some (ks.set n k'))) ∧ k'.instr = i ∧ k'.done = k.done
      ∧ (∀ e ∈ positions s, passed s k' e = within s k e)
      ∧ (∀ q ∈ sourcesOf i, isQueue q = true → destOf i ≠ some q → getQ t q = getQ s q) ∧ t.mem = s.mem ∧ t.strand = s.strand

/-- An instruction that writes elements at ew, its slot next to run, completes: the destination's elements are as `val` says and nothing else
changes. -/
def ElementsAtEw (i : Instr) (d : VOpd) (val : State → Slot → Nat → Option Nat) : Prop :=
  ∀ s ks n k, i.wf = true → s.strand.portable = false → RunsSlot s i ks n k → positions s ≠ [] → OperandsReady s i k →
    ∃ t, exec i s = .next (completeSlot t ks n k) ∧ Delivered (popQs s (sourcesOf i)) t k d (ewBits s) (val s k) ∧ OnlyOperands s t i []

/-! ## Images -/

/-- Whether what an image records of a hart fits the places of R352: the numbers of the header their fields, and the parts of varying length their
sections. -/
def ImageFits (t : State) (reason : Nat) : Prop :=
  reason < 4 ∧ t.hart.grant.groups ≤ 8 ∧ t.hart.grant.banks < 64 ∧ t.hart.grant.share < 16 ∧ t.hart.grant.cls < 32 ∧ t.hart.tenant < 128
    ∧ t.hart.key.rank < 256 ∧ t.hart.stash < 32 ∧ t.hart.dg.accs < 64 ∧ (∃ b, b ≤ 8192 ∧ t.hart.grant.vlen = 8 * b) ∧ t.hart.stashMap.length ≤ 128
    ∧ (t.hart.streams.map (fun x => sec (128 * x.num.toNat) (streamSection x))).foldl (· + ·) 0 < 2 ^ (8 * 0x400)
    ∧ t.hart.q.xqAC.length ≤ 16 ∧ t.hart.q.xqCA.length ≤ 16

/-- Whether a strand of an image is a strand as it stopped: its registers, its shadow bank, its length and width, and its pc (R352, R353). -/
def SameStrand (a b : Strand) : Prop :=
  a.pc = b.pc &&& ~~~3#64 ∧ (∀ i : Fin 32, i.val ≠ 0 → a.x[i] = b.x[i]) ∧ a.shadow = b.shadow ∧ a.vl = b.vl ∧ a.ew = b.ew ∧ a.hexited = b.hexited

/-! ## Units that move bytes -/

/-- A state that a unit passes through as it works on the bytes `own` of memory, from s on: beside lines, tiles and translations it differs from s in
those bytes only. -/
def Midway (s : State) (own : Nat → Prop) (v : State) : Prop := bare v = bare (setMem s v.mem) ∧ ∀ a, ¬own a → v.mem.read a = s.mem.read a

/-- At some point of a unit's work its n bytes at src are those at S 0, S 1 and on, and its n bytes at dst those at D 0, D 1 and on (R187, R188). -/
def MovesBytes (s : State) (own : Nat → Prop) (d : DieId) (agent : BitVec 5) (tenant : Nat) (src dst : Word) (n : Nat) (S D : Nat → Nat) : Prop :=
  ∃ v x y, Midway s own v ∧ checkRange v (.unit d) tenant src n .read false = .ok ((List.range n).map S, x)
    ∧ checkRange (unitReads v d tenant src n agent) (.unit d) tenant dst n .write false = .ok ((List.range n).map D, y)

/-! ## Vector memory instructions -/

/-- The bytes that element e of a slot accesses and the leaf of their page, once its checks have passed and no access to a line of them waits (R155,
R190). -/
def Reaches (s : State) (site : Site) (a : Access) (strict : Bool) (pas : List Nat) (l : Leaf) : Prop :=
  checkSite s site a strict = .ok (pas, l) ∧ ∀ x ∈ linesOf pas, engineLine s x = false

/-- The number that the bytes of an access at ea hold, the lowest address least significant: in memory, or on a stream page, each page by its own leaf
(R259), in the copy that the core's L1 may hold (R260), of which an element that the gather agent reads (`far`) sees nothing (R262). -/
def seenAt (s : State) (ea : Word) (pas : List Nat) (l : Leaf) (far : Bool) : Nat :=
  if far then readPas s.mem pas else hartReadPages s (byPage s ea pas l)

/-- Whether the gather agent reads an element: one of a form with G = 1 whose bytes are homed on another die (R164). -/
def farAt (s : State) (gl : Bool) (pas : List Nat) : Bool := gl && pas.any (fun a => homeDieOf a != myDie s)

/-- A load whose active elements all pass their checks completes, where it is no rendezvous that other harts have yet to reach: each active
element of the destination is the number that its bytes hold, or the six bits of its packed field (R54, R156, R158); besides lines and links
nothing else changes. -/
def LoadsElements (i : Instr) (d : VOpd) (g : Gov) (strict gl : Bool) (waits : State → Slot → Bool) (site : State → Slot → Nat → Site) : Prop :=
  ∀ s ks n k (pas : Nat → List Nat) (leaf : Nat → Leaf), i.wf = true → RunsSlot s i ks n k → positions s ≠ [] → OperandsReady s i k →
    waits s k = false → (∀ e ∈ activeOf s k g, Reaches s (site s k e) .read strict (pas e) (leaf e)) →
    ∃ t u, exec i s = .next (completeSlot t ks n k) ∧ bare t = bare u ∧ OnlyOperands s u i []
      ∧ Delivered s u k d (ewBits s) (fun e => if e ∈ activeOf s k g then
          some (match (site s k e).shift with
            | none => seenAt s (site s k e).ea (pas e) (leaf e) (farAt s gl (pas e))
            | some b => seenAt s (site s k e).ea (pas e) (leaf e) (farAt s gl (pas e)) / 2 ^ b % 64) else none)

/-- A store whose active elements all pass their checks completes (R156 to R159). A byte that no active element reaches is as before. Where the
elements that share a byte with element e write exactly its bytes, one of them stands there whole, the highest when `ordered`. A packed
element that shares no byte leaves the bits beside its field as they are. Besides lines, popped queues and the counter of free values
nothing else changes. -/
def StoresElements (i : Instr) (a : VOpd) (g : Gov) (ordered : Bool) (site : State → Slot → Nat → Site) : Prop :=
  ∀ s ks n k (pas : Nat → List Nat), i.wf = true → Canonical s → RunsSlot s i ks n k → positions s ≠ [] → OperandsReady s i k →
    (∀ e ∈ activeOf s k g, ∃ l, Reaches s (site s k e) .write false (pas e) l) →
    ∃ t, exec i s = .next (completeSlot t ks n k)
      ∧ bare t = bare { popQs s (sourcesOf i) with mem := t.mem, fresh := t.fresh }
      ∧ (∀ x, (∀ e ∈ activeOf s k g, x ∉ pas e) → t.mem.read x = s.mem.read x)
      ∧ (∀ e ∈ activeOf s k g, (site s k e).shift = none →
          (∀ j ∈ activeOf s k g, (pas j = pas e ∧ (site s k j).shift = none) ∨ ∀ x ∈ pas j, x ∉ pas e) →
          ∃ j ∈ activeOf s k g, pas j = pas e ∧ readPas t.mem (pas e) = elemOf (srcBits s a) (ewBits s) j
            ∧ (ordered = true → s.strand.portable = false → ∀ m ∈ activeOf s k g, pas m = pas e → m ≤ j))
      ∧ (∀ e ∈ activeOf s k g, ∀ b, (site s k e).shift = some b → (∀ j ∈ activeOf s k g, j ≠ e → ∀ x ∈ pas j, x ∉ pas e) →
          readPas t.mem (pas e) / 2 ^ b % 64 = elemOf (srcBits s a) (ewBits s) e % 64
            ∧ readPas t.mem (pas e) % 2 ^ b = readPas s.mem (pas e) % 2 ^ b
            ∧ readPas t.mem (pas e) / 2 ^ (b + 6) = readPas s.mem (pas e) / 2 ^ (b + 6))

end Sys2Proof.Machine
end

