-- ==== Sys2Proof/Certificates/Slice0/Obligations.lean ====
section
/-! DEFINITION. The statements for the provers: what the rules of the manual say the machine does. Each docstring names the rules it rests
on. `Sys2Proof/Safety.lean` holds the words that several statements share. -/

open Sys2Proof Sys2Proof.Machine

/-! ## Text and steps -/

/-- A step with no event waiting issues the oldest ready strand (R344); when that strand has no convoy in flight and no interrupted one, and the
bytes at its pc decode to an instruction, the step is `exec` of that instruction, the text's lines reached by the fetch (R68, R69, R379); under
the armature a hart that follows executes the unit that the lead die broadcasts, whatever its own memory holds (R34). A strand that only
stalls keeps its place in the order of issue. A slot of a convoy in flight runs as `exec` of its instruction, and a scalar instruction that may
pass the convoy executes at the pc behind it (R83), where it stands in text of the same kind. An undecodable word traps as illegal with the word as
its value (R88, R350), and where it is no header, the record of a convoy in flight is gone with it (R353). Text is that of a Mygar translation where
the loader has placed one (R283). An event at the head of `inputs` is the step.
The model's choice or reading: that a step is one event, one issue unit or one slot of the package, events first, that a whole convoy is fetched
at once, which scalar instructions pass a convoy, and what a translation's text is (log entries 2, 3, 20, 21, 75, 91). -/
def Obligations.StepRunsTheInstruction : Prop :=
  (∀ s i rest, s.inputs = i :: rest → step s = exec i { s with inputs := rest }) ∧
  (∀ s t last first pas i left, s.inputs = [] → nextWork s = .issue t last → t.strand.convoy = none → t.strand.resumed = none → t.strand.ahead = none →
    t.strand.later = none → broadcast t = none → fetchBytes t 4 = .ok first → fetchBytes t (textLength (readPas t.mem first)) = .ok pas →
    (linesOf pas).find? (engineLine t) = none → decode (pas.map t.mem.read) = .ok (i, left) →
    step s = keepTurn last (exec i (keepText (fetched t pas (textLength (readPas t.mem first))) (pas.map t.mem.read)))) ∧
  (∀ s t last b i left, s.inputs = [] → nextWork s = .issue t last → t.strand.convoy = none → t.strand.resumed = none → t.strand.ahead = none →
    t.strand.later = none → broadcast t = some b → decode b = .ok (i, left) →
    step s = keepTurn last (exec i (inText t (translatedText t (fetcher t).die t.hart.tenant t.strand.pc)))) ∧
  (∀ s t ks n k, s.inputs = [] → nextWork s = .slot t → t.strand.convoy = some ks → nextSlot ks 0 = some (n, k) → step s = exec k.instr t) ∧
  (∀ s t last i u v, s.inputs = [] → nextWork s = .ahead t last → fetchAt (pastConvoy t) = .run i u →
    u.strand.portable = t.strand.portable → mayPass t i = true → exec i u = .next v → v.hart.trap = none → v.strand.stall = none → step s = .next (behindConvoy t v)) ∧
  (∀ s t last first pas e, s.inputs = [] → nextWork s = .issue t last → broadcast t = none →
    fetchBytes t 4 = .ok first → fetchBytes t (textLength (readPas t.mem first)) = .ok pas →
    (linesOf pas).find? (engineLine t) = none → decode (pas.map t.mem.read) = .error e →
    let u := keepText (fetched t pas (textLength (readPas t.mem first))) (pas.map t.mem.read)
    let v := if isHeader (BitVec.ofNat 32 (readPas t.mem first)) then u else unresumed u
    step s = keepTurn last (.next (raise (trapAt v 1 0 (BitVec.ofNat 64 (readPas t.mem first))) v)))

/-- Words written out from the encoding tables decode to the instructions they stand for (R72 to R80, R85 to R87): `add x1, x2, x3`;
`addi x1, x1, 1`; `ld.d x1, 8(x2)`; `st.w x1, -4(x2)`; a `b.eq`; a `convoy` header of one VA slot; `vadd v1, v2, v3`. -/
def Obligations.WrittenWordsDecode : Prop :=
  decodeWord 0b000001_00001_00010_00011_000000_00000#32 = .ok (.add 1 2 3) ∧
  decodeWord 0b000011_00001_00001_0000000000000001#32 = .ok (.addi 1 1 1) ∧
  decodeWord 0b010000_00001_00010_110_0000000001000#32 = .ok (.ld 1 2 6 8) ∧
  decodeWord 0b010001_00001_00010_100_1111111111100#32 = .ok (.st 1 2 4 (-4)) ∧
  decodeWord 0b011000_00001_00010_0000_000000000100#32 = .ok (.b 0 1 2 4) ∧
  decodeConvoy 0b111111_001_000_000_000_000_000_000_00000#32 [0#64] = .ok (.convoy 1 0 [0#64]) ∧
  decodeVec 0b000001_000001_000010_000011_000000_000_0_00000_00000_000000_00000000000000#64
    = .ok (.vadd 1 2 (.vec 3) ⟨0, false⟩ 0)

/-- Decoding the word of a well-formed scalar instruction gives the instruction back, whatever its operands (R68, R72 to R79): no bit of an
encoding is dropped.
A scalar word has one reading: the instruction it decodes to is well formed, and its encoding is that word; every other word is refused (R88). -/
def Obligations.ScalarWordsReadAsWritten : Prop :=
  (∀ i w, i.wf = true → encodeWord i = some w → decodeWord w = .ok i) ∧
  (∀ w i, decodeWord w = .ok i → i.wf = true ∧ encodeWord i = some w)

/-- Decoding the 64 bits of a well-formed vector instruction gives the instruction back (R85 to R87), and decoding the bytes of a convoy gives
its header fields, its body, and the bytes after it (R69, R80). -/
def Obligations.VectorWordsRoundTrip : Prop :=
  (∀ i w, i.wf = true → encodeVec i = some w → decodeVec w = .ok i) ∧
  (∀ c u body rest, headerOk c u = true → body.length = c.toNat →
    decode (leBytes 4 (packHeader c u).toNat ++ body.flatMap (fun w => leBytes 8 w.toNat) ++ rest) = .ok (.convoy c u body, rest))

/-! ## Integer, immediate and floating instructions -/

/-- The binary operations of major 0x01 (R93): x[d] receives the result and the pc moves on.
The unary operations of major 0x01 (R93): leading and trailing zeros counted to the first one bit, 64 for 0; the number of one bits; the
bytes reversed; the low 8, 16 or 32 bits extended.
The immediate majors (R95), the immediate sign-extended for `addi`, `slti`, `sltiu` and `addhi`, zero-extended for the logical ones. -/
def Obligations.IntegerInstructionResults : Prop :=
  (∀ d a b s,
   exec (.add d a b) s = .next (advance (setX s d (getX s a + getX s b))) ∧
   exec (.sub d a b) s = .next (advance (setX s d (getX s a - getX s b))) ∧
   exec (.and d a b) s = .next (advance (setX s d (getX s a &&& getX s b))) ∧
   exec (.or d a b) s = .next (advance (setX s d (getX s a ||| getX s b))) ∧
   exec (.xor d a b) s = .next (advance (setX s d (getX s a ^^^ getX s b))) ∧
   exec (.andn d a b) s = .next (advance (setX s d (getX s a &&& ~~~getX s b))) ∧
   exec (.orn d a b) s = .next (advance (setX s d (getX s a ||| ~~~getX s b))) ∧
   exec (.sll d a b) s = .next (advance (setX s d (getX s a <<< (getX s b &&& 63).toNat))) ∧
   exec (.srl d a b) s = .next (advance (setX s d (getX s a >>> (getX s b &&& 63).toNat))) ∧
   exec (.sra d a b) s = .next (advance (setX s d ((getX s a).sshiftRight (getX s b &&& 63).toNat))) ∧
   exec (.rol d a b) s = .next (advance (setX s d ((getX s a).rotateLeft (getX s b &&& 63).toNat))) ∧
   exec (.mul d a b) s = .next (advance (setX s d (getX s a * getX s b))) ∧
   exec (.mulh d a b) s
     = .next (advance (setX s d (((getX s a).signExtend 128 * (getX s b).signExtend 128).extractLsb' 64 64))) ∧
   exec (.mulhu d a b) s
     = .next (advance (setX s d (((getX s a).setWidth 128 * (getX s b).setWidth 128).extractLsb' 64 64))) ∧
   (getX s b ≠ 0 → exec (.div d a b) s = .next (advance (setX s d (BitVec.ofInt 64 ((getX s a).toInt.tdiv (getX s b).toInt))))) ∧
   (getX s b ≠ 0 → exec (.divu d a b) s = .next (advance (setX s d (getX s a / getX s b)))) ∧
   (getX s b ≠ 0 → exec (.rem d a b) s = .next (advance (setX s d (BitVec.ofInt 64 ((getX s a).toInt.tmod (getX s b).toInt))))) ∧
   (getX s b ≠ 0 → exec (.remu d a b) s = .next (advance (setX s d (getX s a % getX s b)))) ∧
   exec (.min d a b) s = .next (advance (setX s d (if (getX s a).toInt ≤ (getX s b).toInt then getX s a else getX s b))) ∧
   exec (.max d a b) s = .next (advance (setX s d (if (getX s a).toInt ≤ (getX s b).toInt then getX s b else getX s a))) ∧
   exec (.minu d a b) s = .next (advance (setX s d (if getX s a ≤ getX s b then getX s a else getX s b))) ∧
   exec (.maxu d a b) s = .next (advance (setX s d (if getX s a ≤ getX s b then getX s b else getX s a))) ∧
   exec (.slt d a b) s = .next (advance (setX s d (if (getX s a).toInt < (getX s b).toInt then 1 else 0))) ∧
   exec (.sltu d a b) s = .next (advance (setX s d (if getX s a < getX s b then 1 else 0)))) ∧
  (∀ d a s,
   (∃ n, n ≤ 64 ∧ (∀ i, i < n → (getX s a).getMsbD i = false) ∧ (n < 64 → (getX s a).getMsbD n = true)
     ∧ exec (.clz d a) s = .next (advance (setX s d (BitVec.ofNat 64 n)))) ∧
   (∃ n, n ≤ 64 ∧ (∀ i, i < n → (getX s a).getLsbD i = false) ∧ (n < 64 → (getX s a).getLsbD n = true)
     ∧ exec (.ctz d a) s = .next (advance (setX s d (BitVec.ofNat 64 n)))) ∧
   exec (.popc d a) s = .next (advance (setX s d (BitVec.ofNat 64 (Finset.univ.filter (fun i : Fin 64 => (getX s a).getLsbD i)).card))) ∧
   (∃ v : Word, (∀ i, i < 8 → v.extractLsb' (8 * i) 8 = (getX s a).extractLsb' (8 * (7 - i)) 8)
     ∧ exec (.bswap d a) s = .next (advance (setX s d v))) ∧
   exec (.sext d a 0) s = .next (advance (setX s d (((getX s a).extractLsb' 0 8).signExtend 64))) ∧
   exec (.sext d a 1) s = .next (advance (setX s d (((getX s a).extractLsb' 0 16).signExtend 64))) ∧
   exec (.sext d a 2) s = .next (advance (setX s d (((getX s a).extractLsb' 0 32).signExtend 64))) ∧
   exec (.zext d a 0) s = .next (advance (setX s d (((getX s a).extractLsb' 0 8).setWidth 64))) ∧
   exec (.zext d a 1) s = .next (advance (setX s d (((getX s a).extractLsb' 0 16).setWidth 64))) ∧
   exec (.zext d a 2) s = .next (advance (setX s d (((getX s a).extractLsb' 0 32).setWidth 64)))) ∧
  (∀ d a imm n s,
   exec (.addi d a imm) s = .next (advance (setX s d (getX s a + imm.signExtend 64))) ∧
   exec (.andi d a imm) s = .next (advance (setX s d (getX s a &&& imm.setWidth 64))) ∧
   exec (.ori d a imm) s = .next (advance (setX s d (getX s a ||| imm.setWidth 64))) ∧
   exec (.xori d a imm) s = .next (advance (setX s d (getX s a ^^^ imm.setWidth 64))) ∧
   exec (.slli d a n) s = .next (advance (setX s d (getX s a <<< n.toNat))) ∧
   exec (.srli d a n) s = .next (advance (setX s d (getX s a >>> n.toNat))) ∧
   exec (.srai d a n) s = .next (advance (setX s d ((getX s a).sshiftRight n.toNat))) ∧
   exec (.roli d a n) s = .next (advance (setX s d ((getX s a).rotateLeft n.toNat))) ∧
   exec (.slti d a imm) s = .next (advance (setX s d (if (getX s a).toInt < imm.toInt then 1 else 0))) ∧
   exec (.sltiu d a imm) s = .next (advance (setX s d (if getX s a < imm.signExtend 64 then 1 else 0))) ∧
   exec (.lui d imm) s = .next (advance (setX s d (BitVec.ofInt 64 (imm.toInt * 2 ^ 16)))) ∧
   exec (.addhi d a imm) s = .next (advance (setX s d (getX s a + BitVec.ofInt 64 (imm.toInt * 2 ^ 32)))))

/-- The edges of division (R94), none of which traps: the next state is the instruction's ordinary end. -/
def Obligations.DivisionEdges : Prop := ∀ d a b s,
  (getX s b = 0 →
    exec (.div d a b) s = .next (advance (setX s d 0xFFFFFFFFFFFFFFFF)) ∧
    exec (.divu d a b) s = .next (advance (setX s d 0xFFFFFFFFFFFFFFFF)) ∧
    exec (.rem d a b) s = .next (advance (setX s d (getX s a))) ∧
    exec (.remu d a b) s = .next (advance (setX s d (getX s a)))) ∧
  (getX s a = 0x8000000000000000 → getX s b = 0xFFFFFFFFFFFFFFFF →
    exec (.div d a b) s = .next (advance (setX s d 0x8000000000000000)) ∧ exec (.rem d a b) s = .next (advance (setX s d 0)))

/-- Scalar floating point (R101, R102) with a format code of R75: the result of one operation on the operands' low bits, rounded once to
nearest-even into the format; comparisons give 1 or 0 and are false on NaN, `fmv` copies the low bits and clears the rest, `fcvt`
converts between any two codes from 1 to 13, toward zero and saturating into an integer format. Any other code, and for `fcvt` a code of 0 or
above 13 in either field, traps as illegal with the word as its value (R88, R101, R102).
The model's choice or reading: the results that the tables do not cover (log entry 77). -/
def Obligations.ScalarFloatResults : Prop :=
  (∀ d a b x s, floatCodeOk x = true →
  exec (.fadd d a b x) s = .next (advance (setX s d (roundTo x (.val (addV 0 (floatVal s a x) (floatVal s b x)))))) ∧
  exec (.fsub d a b x) s = .next (advance (setX s d (roundTo x (.val (subV 0 (floatVal s a x) (floatVal s b x)))))) ∧
  exec (.fmul d a b x) s = .next (advance (setX s d (roundTo x (.val (mulV (floatVal s a x) (floatVal s b x)))))) ∧
  exec (.fdiv d a b x) s = .next (advance (setX s d (roundTo x (divV (floatVal s a x) (floatVal s b x))))) ∧
  exec (.fsqrt d a x) s = .next (advance (setX s d (roundTo x (sqrtV (floatVal s a x))))) ∧
  exec (.fma d a b x) s
    = .next (advance (setX s d (roundTo x (.val (addV 0 (mulV (floatVal s a x) (floatVal s b x)) (floatVal s d x)))))) ∧
  exec (.fmin d a b x) s = .next (advance (setX s d (roundTo x (.val (minV (floatVal s a x) (floatVal s b x)))))) ∧
  exec (.fmax d a b x) s = .next (advance (setX s d (roundTo x (.val (maxV (floatVal s a x) (floatVal s b x)))))) ∧
  exec (.fcmpEq d a b x) s
    = .next (advance (setX s d (if cmpV (floatVal s a x) (floatVal s b x) = some .eq then 1 else 0))) ∧
  exec (.fcmpLt d a b x) s
    = .next (advance (setX s d (if cmpV (floatVal s a x) (floatVal s b x) = some .lt then 1 else 0))) ∧
  exec (.fcmpLe d a b x) s
    = .next (advance (setX s d (if cmpV (floatVal s a x) (floatVal s b x) = some .lt ∨ cmpV (floatVal s a x) (floatVal s b x) = some .eq
        then 1 else 0))) ∧
  exec (.fmv d a x) s = .next (advance (setX s d (BitVec.ofNat 64 ((getX s a).toNat % 2 ^ fmtWidth x.toNat))))) ∧
  (∀ d a c x s, 1 ≤ c.toNat → c.toNat ≤ 13 → 1 ≤ x.toNat → x.toNat ≤ 13 →
    exec (.fcvt d a c x) s = .next (advance (setX s d (convertScalar x (floatVal s a c))))) ∧
  (∀ d a b x s, x.toNat < 9 ∨ 12 < x.toNat →
    ∀ i ∈ [Instr.fadd d a b x, .fsub d a b x, .fmul d a b x, .fdiv d a b x, .fsqrt d a x, .fma d a b x, .fmin d a b x, .fmax d a b x,
        .fcmpEq d a b x, .fcmpLt d a b x, .fcmpLe d a b x, .fmv d a x],
      exec i s = .next (raise (trapAt s 1 0 (instrWord i)) s)) ∧
  (∀ d a c x s, c = 0 ∨ 13 < c.toNat ∨ x = 0 ∨ 13 < x.toNat →
    exec (.fcvt d a c x) s = .next (raise (trapAt s 1 0 (instrWord (.fcvt d a c x))) s))

/-- What a scalar instruction with one result leaves (R91, R103, R112): x[d] reads the result unless d is x0, which discards it and reads 0;
every other register reads as before; the pc is 4 further, one more instruction is counted, and one more issue unit outside the user handler; and
memory, vector and mask registers, queues, every other control register, the other strand, the other harts and the rest of the machine are as before.
The model's choice or reading: that an instruction of the handler is no issue unit (log entry 111). -/
def Obligations.ScalarResultFrame : Prop := ∀ s d v,
  (d ≠ 0 → getX (advance (setX s d v)) d = v) ∧
  (∀ r, r ≠ d → getX (advance (setX s d v)) r = getX s r) ∧
  getX (advance (setX s d v)) 0 = 0 ∧
  (advance (setX s d v)).strand.pc = s.strand.pc + 4 ∧
  ∃ x h : _, advance (setX s d v)
    = { s with
        strand := { s.strand with pc := s.strand.pc + 4, x := x, shadow := h }
        hart := { s.hart with cr := { s.hart.cr with instret := s.hart.cr.instret + 1 },
                               units := s.hart.units + if inHandler s = true then 0 else 1 } }
    ∧ (inHandler s = false → h = s.strand.shadow) ∧ (∀ i : Fin 32, i.val ≠ d.toNat → x[i] = s.strand.x[i])
    ∧ (inHandler s = true → ∀ i : Fin 32, 24 ≤ i.val → x[i] = s.strand.x[i])

/-! ## Scalar memory -/

/-- The checks of an aligned access on its byte at va, in the order of R97: alignment (class 7); translation (class 3, the failing level as
subcause, R359); the frame, the permission and, where the instruction refuses it, the stream attribute (class 4, subcauses 4, 0 to 2
and 3); a failed seal (class 5); a lost line (class 6). An access that meets none of these is allowed. A walk that must wait for an engine's line of a
table (R190, R360), or a fill that must wait in a full set and would bring the poison (R367), is told apart by a class 0, which no trap has.
The model's choice or reading: that a cached translation is not checked against the owner again, and that a table which lies where no memory is
raises the access fault with subcause 4 (log entries 69, 86). -/
def Obligations.AccessChecksInOrder : Prop := ∀ s tenant va n k strict,
  (va.toNat % n ≠ 0 → checkAligned s (me s) tenant va n k strict = .error ⟨7, 0⟩) ∧
  (va.toNat % n = 0 →
    (∀ l, l < 4 → leafOf s (me s) tenant va = .error l → checkAligned s (me s) tenant va n k strict = .error ⟨3, l⟩) ∧
    (leafOf s (me s) tenant va = .error 4 → checkAligned s (me s) tenant va n k strict = .error ⟨4, 4⟩) ∧
    (leafOf s (me s) tenant va = .error 5 → checkAligned s (me s) tenant va n k strict = .error ⟨5, 0⟩) ∧
    (leafOf s (me s) tenant va = .error 6 → checkAligned s (me s) tenant va n k strict = .error ⟨6, 0⟩) ∧
    (∀ x, leafOf s (me s) tenant va = .error (7 + x) → checkAligned s (me s) tenant va n k strict = .error ⟨0, x⟩) ∧
    ∀ l, leafOf s (me s) tenant va = .ok l →
      let pa := physOf l va
      let there := frameThere s pa = true ∧ ((ownerOf s (frameOf pa)).toNat = tenant ∨ pageHeld s (me s) tenant va = true)
      (¬there → checkAligned s (me s) tenant va n k strict = .error ⟨4, 4⟩) ∧
      (there → permitted l k = false → checkAligned s (me s) tenant va n k strict = .error ⟨4, k.sub⟩) ∧
      (there → permitted l k = true → strict = true → l.stream = true → checkAligned s (me s) tenant va n k strict = .error ⟨4, 3⟩) ∧
      (there → permitted l k = true → ¬(strict = true ∧ l.stream = true) →
        (linePoison s pa = some .seal → fillWaits s (tileOf pa) = false → checkAligned s (me s) tenant va n k strict = .error ⟨5, 0⟩) ∧
        (linePoison s pa = some .lost → fillWaits s (tileOf pa) = false → checkAligned s (me s) tenant va n k strict = .error ⟨6, 0⟩) ∧
        (linePoison s pa ≠ none → fillWaits s (tileOf pa) = true → checkAligned s (me s) tenant va n k strict = .error ⟨0, lineOf pa⟩) ∧
        (linePoison s pa = none → checkAligned s (me s) tenant va n k strict = .ok (pa, l))))

/-- Loads (R97 to R99): x[d] receives the bytes at EA, lowest address least significant, sign-extended by the even size codes and zero-extended
by the odd ones; memory is untouched and the pc moves on. `ll` also reserves EA, its width and its line, and `lda`, an acquire, leaves no copy of a
stream line in the core's L1 (R256, R260). Directories, TLBs and tile records follow the access and nothing else changes.
On a stream page the bytes are those of the copy that the core's L1 may hold (R260). -/
def Obligations.ScalarLoads : Prop := ∀ d a z off s pa (l : Leaf), s.role ≠ .compute → engineLine s (lineOf pa) = false →
  let n := sizeBytes z
  let held := if l.stream then hartRead (translated s (me s) s.hart.tenant (effAddr s a off)) (bytesAt pa n) true else s.mem.readNat pa n
  let w : BitVec (8 * sizeBytes z) := BitVec.ofNat _ held
  let v : Word := if z.getLsbD 0 then w.setWidth 64 else w.signExtend 64
  (checkAligned s (me s) s.hart.tenant (effAddr s a off) (sizeBytes z) .read false = .ok (pa, l) →
    ((Instr.ld d a z off).wf = true → ∃ t, bare t = bare s ∧ exec (.ld d a z off) s = .next (advance (setX t d v))) ∧
    ((Instr.lda d a z off).wf = true → ∃ t, bare t = bare s ∧ exec (.lda d a z off) s = .next (advance (setX t d v))
      ∧ ∀ x ∈ t.coh.streams, ¬(x.die = dieOf s.hart.id ∧ x.core = coreOf s.hart.id))) ∧
  (checkAligned s (me s) s.hart.tenant (effAddr s a off) (sizeBytes z) .read true = .ok (pa, l) → (Instr.ll d a z off).wf = true →
    ∃ t, bare t = bare s ∧ exec (.ll d a z off) s
      = .next (setResv (advance (setX t d v)) (some ⟨effAddr s a off, sizeBytes z, lineOf pa⟩)))

/-- Stores (R97, R98): the low bytes of x[d] stand at EA, lowest address least significant, every other byte of memory and every register is as
before, and the pc moves on.
`sc` (R99): with a reservation of the same address and width it stores the low bytes of x[d] and writes 1; otherwise it stores nothing and
writes 0. Either way the reservation is gone.
The model's choice or reading: that `sc` fails only for the losses the model brings about (log entry 72). -/
def Obligations.ScalarStoresAndConditional : Prop :=
  (∀ d a z off s pa l, s.role ≠ .compute → Canonical s →
   checkAligned s (me s) s.hart.tenant (effAddr s a off) (sizeBytes z) .write false = .ok (pa, l) → engineLine s (lineOf pa) = false →
   ((Instr.st d a z off).wf = true →
     ∃ t, StoredAt s t pa (sizeBytes z) (getX s d).toNat ∧ exec (.st d a z off) s = .next (advance t)) ∧
   ((Instr.stl d a z off).wf = true →
     ∃ t, StoredAt s t pa (sizeBytes z) (getX s d).toNat ∧ exec (.stl d a z off) s = .next (advance t))) ∧
  (∀ d a z off s pa l, s.role ≠ .compute → Canonical s → (Instr.sc d a z off).wf = true →
   checkAligned s (me s) s.hart.tenant (effAddr s a off) (sizeBytes z) .write true = .ok (pa, l) → engineLine s (lineOf pa) = false →
   ((∃ r, s.strand.resv = some r ∧ r.ea = effAddr s a off ∧ r.size = sizeBytes z) →
     ∃ t, StoredAt s t pa (sizeBytes z) (getX s d).toNat ∧ t.strand.resv = none ∧ exec (.sc d a z off) s = .next (advance (setX t d 1))) ∧
   ((∀ r, s.strand.resv = some r → ¬(r.ea = effAddr s a off ∧ r.size = sizeBytes z)) →
     ∃ t, bare t = bare s ∧ exec (.sc d a z off) s = .next (advance (setX (setResv t none) d 0))))

/-- A scalar access whose check fails traps with EA as its value (R97), and has no effect (R91): no register, no byte of memory, no queue and no
control register changes. A line that an engine owns makes the access wait instead, and so does one that its walk must read (R190, R360).
What only the access or the single strand may execute: scalar memory, `svc`, synchronisation, `launch` and `lwait` are illegal on a compute
strand, before any effect (R12, R13). -/
def Obligations.ScalarAccessTrapsAndRoles : Prop :=
  (∀ d a z off s, s.role ≠ .compute →
   let ea := effAddr s a off
   let n := sizeBytes z
   (∀ i k strict, (i = .ld d a z off ∧ k = .read ∧ strict = false) ∨ (i = .lda d a z off ∧ k = .read ∧ strict = false)
       ∨ (i = .ll d a z off ∧ k = .read ∧ strict = true) ∨ (i = .st d a z off ∧ k = .write ∧ strict = false)
       ∨ (i = .stl d a z off ∧ k = .write ∧ strict = false) ∨ (i = .sc d a z off ∧ k = .write ∧ strict = true) →
     i.wf = true →
     (∀ f, checkAligned s (me s) s.hart.tenant ea n k strict = .error f →
       (f.cls ≠ 0 → ∃ t, bare t = bare s ∧ exec i s = .next (raise (trapAt s f.cls f.sub ea) t)) ∧
       (f.cls = 0 → exec i s = .next (stallOn s (.engine f.sub)))) ∧
     (∀ pa l, checkAligned s (me s) s.hart.tenant ea n k strict = .ok (pa, l) → engineLine s (lineOf pa) = true →
       exec i s = .next (stallOn s (.engine (lineOf pa)))))) ∧
  (∀ s d a z off c3 c5 c4 c12, s.role = .compute →
   ∀ i, i ∈ [Instr.ld d a z off, .st d a z off, .lda d a z off, .stl d a z off, .ll d a z off, .sc d a z off, .svc c12, .fence c3,
       .barArrive c4 c3, .barWait c4 c3, .ipost a c5, .iwait a c5, .contend d a c4, .dsync, .launch d a, .lwait d a] →
     exec i s = .next (raise (trapAt s 1 0 (instrWord i)) s))

/-! ## Branches and jumps -/

/-- Branches and jumps outside the armature (R103 to R106). `b` compares; `bm` looks at the mask bits of the strip's elements;
`bq` pops one outcome; a taken branch goes to pc + 4 × off, one not taken to pc + 4. `jal` and `jalr` write pc + 4, `jalr` after its target
has been formed. Nothing but the pc, that register and the popped queue changes.
Under the armature, where `bq` is illegal since every hart has one strand, the lead hart's outcomes bind the others (R35, R37): a branch or jump of
another hart at an issue unit whose recorded outcome is the same, or not yet recorded, goes on, its outcome kept for its next credit (R385); one that
differs traps in class 8 with the lead's next pc and without any effect. The lead itself records its outcome. In the user handler a branch is taken
as outside the armature.
The model's choice or reading: how an outcome under the armature is kept and compared, and that the handler's are not (log entries 47, 111). -/
def Obligations.BranchesAndDivergence : Prop :=
  (∀ s, underArmature s s.hart.key.launch = false →
   let goes (t : State) (taken : Bool) (off : BitVec 12) : State :=
     countInstr (setPc t (if taken then s.strand.pc + 4 * off.signExtend 64 else s.strand.pc + 4)) 1
   (∀ a b off,
     exec (.b 0 a b off) s = .next (goes s (decide (getX s a = getX s b)) off) ∧
     exec (.b 1 a b off) s = .next (goes s (decide (getX s a ≠ getX s b)) off) ∧
     exec (.b 2 a b off) s = .next (goes s (decide ((getX s a).toInt < (getX s b).toInt)) off) ∧
     exec (.b 3 a b off) s = .next (goes s (decide ((getX s b).toInt ≤ (getX s a).toInt)) off) ∧
     exec (.b 4 a b off) s = .next (goes s (decide ((getX s a).toNat < (getX s b).toNat)) off) ∧
     exec (.b 5 a b off) s = .next (goes s (decide ((getX s b).toNat ≤ (getX s a).toNat)) off)) ∧
   (∀ d off, exec (.jal d off) s
     = .next (countInstr (setPc (setX s d (s.strand.pc + 4)) (s.strand.pc + 4 * off.signExtend 64)) 1)) ∧
   (∀ d a imm, (getX s a + imm.signExtend 64).toNat % 4 = 0 → exec (.jalr d a imm) s
     = .next (countInstr (setPc (setX s d (s.strand.pc + 4)) (getX s a + imm.signExtend 64)) 1)) ∧
   (∀ d a imm, (getX s a + imm.signExtend 64).toNat % 4 ≠ 0 → exec (.jalr d a imm) s
     = .next (raise (trapAt s 7 0 (getX s a + imm.signExtend 64)) s)) ∧
   (∀ (m : BitVec 5) off, m.toNat ≤ 7 → ownsM s.role (m.setWidth 3) = true →
     let set (e : Nat) : Bool := (getM s (m.setWidth 3)).getLsbD e
     exec (.bm 0 m off) s = .next (goes s (decide (∃ e ∈ positions s, set e = true)) off) ∧
     exec (.bm 1 m off) s = .next (goes s (decide (∀ e ∈ positions s, set e = false)) off) ∧
     exec (.bm 2 m off) s = .next (goes s (decide (∀ e ∈ positions s, set e = true)) off)) ∧
   (∀ off v r, s.role = .access → s.hart.q.bqCA = v :: r →
     exec (.bq 0 off) s = .next (goes (setQueues s { s.hart.q with bqCA := r }) v off) ∧
     exec (.bq 1 off) s = .next (goes (setQueues s { s.hart.q with bqCA := r }) (!v) off)) ∧
   (∀ off v r, s.role = .compute → s.hart.q.bqAC = v :: r →
     exec (.bq 0 off) s = .next (goes (setQueues s { s.hart.q with bqAC := r }) v off) ∧
     exec (.bq 1 off) s = .next (goes (setQueues s { s.hart.q with bqAC := r }) (!v) off))) ∧
  (∀ s l i taken target (f : State → State), launchOf s s.hart.key.launch = some l → l.seq.isSome = true →
   ((∃ c a b off, i = .b c a b off ∧ i.wf = true ∧ taken = branchHolds c (getX s a) (getX s b)
       ∧ target = (if taken then s.strand.pc + 4 * off.signExtend 64 else s.strand.pc + 4) ∧ f = id) ∨
    (∃ c m off, i = .bm c m off ∧ i.wf = true ∧ ownsM s.role (m.extractLsb' 0 3) = true
       ∧ taken = maskHolds c (getM s (m.extractLsb' 0 3)) (positions s)
       ∧ target = (if taken then s.strand.pc + 4 * off.signExtend 64 else s.strand.pc + 4) ∧ f = id) ∨
    (∃ d off, i = .jal d off ∧ taken = true ∧ target = s.strand.pc + 4 * off.signExtend 64 ∧ f = fun t => setX t d (s.strand.pc + 4)) ∨
    (∃ d a imm, i = .jalr d a imm ∧ taken = true ∧ target = getX s a + imm.signExtend 64 ∧ target.toNat % 4 = 0
       ∧ f = fun t => setX t d (s.strand.pc + 4))) →
   let w := outcomeWord taken target
   let goes (t : State) : Host.Outcome State Fault Refusal := .next (countInstr (setPc (f t) target) 1)
   (inHandler s = true → exec i s = goes s) ∧
   (inHandler s = false → isLead s s.hart = true →
     exec i s = goes (setLaunch s { l with outcomes := ((s.hart.units, w) :: l.outcomes).take 65 })) ∧
   (inHandler s = false → isLead s s.hart = false →
     let told := setLaunch s { l with branches := (s.hart.key, s.hart.units, w) :: l.branches.filter (·.1 != s.hart.key) }
     (l.outcomes.find? (fun p => p.1 == s.hart.units) = none → exec i s = goes told) ∧
     ∀ o, l.outcomes.find? (fun p => p.1 == s.hart.units) = some o →
       (o.2 = w → exec i s = goes told) ∧ (o.2 ≠ w → exec i s = .next (raise (trapAt s 8 0 (o.2 &&& ~~~3#64)) s))))

/-! ## Queues between the strands -/

/-- The scalar queues (R15, R108): a push goes behind the words of its direction and a pop takes the oldest; nothing is lost or duplicated.
A push to a full queue and a pop from an empty one wait: nothing of the instruction has happened (R15, R91). In coupled mode these
instructions are illegal (R16). -/
def Obligations.ScalarQueueOrder : Prop :=
  (∀ s a d,
   let q := s.hart.q
   (s.role = .access →
     (q.xqAC.length < 16 → exec (.qpush a) s = .next (advance (setQueues s { q with xqAC := q.xqAC ++ [getX s a] }))) ∧
     (∀ v r, q.xqCA = v :: r → exec (.qpop d) s = .next (advance (setX (setQueues s { q with xqCA := r }) d v))) ∧
     (q.bqAC.length < 32 → exec (.bqpush a) s = .next (advance (setQueues s { q with bqAC := q.bqAC ++ [(getX s a).getLsbD 0] })))) ∧
   (s.role = .compute →
     (q.xqCA.length < 16 → exec (.qpush a) s = .next (advance (setQueues s { q with xqCA := q.xqCA ++ [getX s a] }))) ∧
     (∀ v r, q.xqAC = v :: r → exec (.qpop d) s = .next (advance (setX (setQueues s { q with xqAC := r }) d v))) ∧
     (q.bqCA.length < 32 → exec (.bqpush a) s = .next (advance (setQueues s { q with bqCA := q.bqCA ++ [(getX s a).getLsbD 0] }))))) ∧
  (∀ s a d off,
   (s.role = .access → s.hart.q.xqAC.length = 16 → exec (.qpush a) s = .next (stallOn s (.xqFull true))) ∧
   (s.role = .compute → s.hart.q.xqCA.length = 16 → exec (.qpush a) s = .next (stallOn s (.xqFull false))) ∧
   (s.role = .access → s.hart.q.xqCA = [] → exec (.qpop d) s = .next (stallOn s (.xqEmpty false))) ∧
   (s.role = .compute → s.hart.q.xqAC = [] → exec (.qpop d) s = .next (stallOn s (.xqEmpty true))) ∧
   (s.role = .access → s.hart.q.bqAC.length = 32 → exec (.bqpush a) s = .next (stallOn s (.bqFull true))) ∧
   (s.role = .compute → s.hart.q.bqCA.length = 32 → exec (.bqpush a) s = .next (stallOn s (.bqFull false))) ∧
   (s.role = .access → s.hart.q.bqCA = [] → exec (.bq 0 off) s = .next (stallOn s (.bqEmpty false))) ∧
   (s.role = .compute → s.hart.q.bqAC = [] → exec (.bq 0 off) s = .next (stallOn s (.bqEmpty true))) ∧
   (s.role = .single → ∀ i, i ∈ [Instr.qpush a, .qpop d, .bqpush a, .bq 0 off] →
     exec i s = .next (raise (trapAt s 1 0 (instrWord i)) s)))

/-! ## Control registers -/

/-- `crd`, `cwr`, `crs` and `crc` on a register that the hart may name (R79, R109): x[d] receives the register's value; `cwr` writes x[a],
`crs` sets and `crc` clears the one bits of x[a], all from the old values; `crs` and `crc` with a = 0 write nothing. A write of `cr.sshoot`
while a shootdown runs waits (R361). An index that names no register of this hart is illegal, a supervisor index on a user hart among
them (R345). The write-only `cr.sresume` (0x803) stands apart.
A register reads back what was written as its map says, read-only fields keeping their values: `cr.ahead` is held in 1 to 16 and reads 0 in
coupled mode (R18); `cr.seed` and `cr.rngctr` hold every bit (R64); `cr.uivec` and `cr.upc` hold an address of 52 bits, `cr.uivec` its enable
(R113, R115); `cr.strapq`, `cr.simg`, `cr.sbanks` and `cr.sroot` hold their fields (R345). The read-only registers keep their values.
The model's choice or reading: that `crs` and `crc` with a = 0 write nothing (log entry 23). -/
def Obligations.ControlRegisters : Prop :=
  (∀ s d a ix,
   (∀ old, readReg s ix = some old → ix ≠ 0x803 →
     exec (.crd d ix) s = .next (advance (setX s d old)) ∧
     exec (.crs d 0 ix) s = .next (advance (setX s d old)) ∧
     exec (.crc d 0 ix) s = .next (advance (setX s d old)) ∧
     (¬(ix = 0x804 ∧ (dieRec s (myDie s)).sup.sshoot.getLsbD 55 = true) →
       exec (.cwr a ix) s = .next (advance (writeReg s ix (getX s a))) ∧
       (a ≠ 0 → exec (.crs d a ix) s = .next (advance (setX (writeReg s ix (old ||| getX s a)) d old))) ∧
       (a ≠ 0 → exec (.crc d a ix) s = .next (advance (setX (writeReg s ix (old &&& ~~~getX s a)) d old)))) ∧
     (ix = 0x804 → (dieRec s (myDie s)).sup.sshoot.getLsbD 55 = true → exec (.cwr a ix) s = .next (stallOn s .shootdown))) ∧
   (readReg s ix = none → ∀ i, i ∈ [Instr.crd d ix, .cwr a ix, .crs d a ix, .crc d a ix] →
     exec i s = .next (raise (trapAt s 1 0 (instrWord i)) s)) ∧
   (s.hart.supervisor = false → 0x800 ≤ ix.toNat → readReg s ix = none)) ∧
  (∀ s w,
   (s.role ≠ .single → ∀ v, v = w.toNat % 32 →
     readReg (writeReg s 0x003 w) 0x003 = some (if v = 0 then 1 else if v ≤ 16 then BitVec.ofNat 64 v else 16)) ∧
   (s.role = .single → readReg (writeReg s 0x003 w) 0x003 = some 0) ∧
   readReg (writeReg s 0x008 w) 0x008 = some w ∧ readReg (writeReg s 0x009 w) 0x009 = some w ∧
   (∃ v, readReg (writeReg s 0x020 w) 0x020 = some v ∧ ∀ i : Fin 64,
     v.getLsbD i.val = (decide (i.val = 0 ∨ (2 ≤ i.val ∧ i.val < 52)) && w.getLsbD i.val)) ∧
   (∃ v, readReg (writeReg s 0x021 w) 0x021 = some v ∧ ∀ i : Fin 64, v.getLsbD i.val = (decide (2 ≤ i.val ∧ i.val < 52) && w.getLsbD i.val)) ∧
   (∀ ix, ix ∈ [0x000#12, 0x001, 0x002, 0x010, 0x011, 0x012, 0x022, 0x023, 0x030, 0x031, 0x032, 0x040, 0x041, 0x042, 0x043, 0x048, 0x049,
     0x050, 0x800] → writeReg s ix w = s) ∧
   (s.hart.supervisor = true →
     (∃ v, readReg (writeReg s 0x801 w) 0x801 = some v ∧ v.toNat % 16 = min 8 (w.toNat % 16) ∧ ∀ i : Fin 64, 4 ≤ i.val →
       v.getLsbD i.val = (decide (12 ≤ i.val ∧ i.val < 52) && w.getLsbD i.val)) ∧
     (∃ v, readReg (writeReg s 0x802 w) 0x802 = some v ∧ ∀ i : Fin 64, v.getLsbD i.val = (decide (20 ≤ i.val) && w.getLsbD i.val)) ∧
     readReg (writeReg s 0x805 w) 0x805 = some (BitVec.ofNat 64 (min 32 (max 4 (w.toNat % 64)))) ∧
     (∃ v, readReg (writeReg s 0x806 w) 0x806 = some v ∧ ∀ i : Fin 64,
       v.getLsbD i.val = (decide (12 ≤ i.val ∧ i.val < 52) && w.getLsbD i.val))))

/-! ## Traps -/

/-- Taking a trap to the supervisor (R345, R347): the trap is kept with the strand it belongs to, the hart stops with reason 1 and its
strand's reservation and links are gone (R99, R169); no register, no pc, no byte of memory and no other control state changes. On a user
hart the device goes on with the save image and the trap record; a supervisor hart's trap goes to the kiln controller (R350). Under
the armature every other running hart of the launch stops with reason 2 (R37), those beyond the issue unit at once, one that is still to execute
it after it has or has not (R349), and no other hart is touched.
`trap c` (R112, R116): with the handler enabled and not inhibited, delivery to it: `cr.upc` is pc + 4, `cr.ucause` says inhibited, the
strand, kind 0 and the code, `cr.utval` is the trap's pc, and the pc is the handler's (R114). With no handler, or in the handler itself,
it traps to the supervisor in class 9. While the other strand is in the handler it waits. `svc` traps in class 10 with its code and a resume
point of pc + 4. `uiret` in the handler goes to `cr.upc` and clears the inhibition (R115); elsewhere it is illegal. That a `trap` taken by
the handler, an `svc` and a `uiret` count as retired instructions is the model's reading of R110 (log entry 40), and that `uiret`, which the handler
executes, is no issue unit is the model's choice (log entry 111). -/
def Obligations.TrapsAndReturn : Prop :=
  (∀ x s,
   raise x s = { s with
     hart := { s.hart with trap := some x, trapAccess := decide (s.role = .access), status := .stopping 1 }
     strand := { s.strand with resv := none, links := [] }, parked := (raise x s).parked, inputs := (raise x s).inputs } ∧
   (s.hart.supervisor = true →
     (raise x s).parked = s.parked ∧ (raise x s).inputs = s.inputs ++ [.supervisorFault (dieOf s.hart.id) s.now]) ∧
   (s.hart.supervisor = false → underArmature s s.hart.key.launch = false →
     (raise x s).parked = s.parked ∧ (raise x s).inputs = s.inputs ++ [.hartStop s.hart.id, .trapRecord s.hart.id]) ∧
   (s.hart.supervisor = false → underArmature s s.hart.key.launch = true →
     (∃ more, (raise x s).inputs = s.inputs ++ [.hartStop s.hart.id, .trapRecord s.hart.id] ++ more
       ∧ ∀ b ∈ s.parked, b.hart.key.launch = s.hart.key.launch → b.hart.id ≠ s.hart.id → b.hart.status = .running →
           (.hartStop b.hart.id ∈ more ∨ b.unitAt = unitNow s)) ∧
     (raise x s).parked.length = s.parked.length ∧
     ∀ (n : Nat) b, s.parked[n]? = some b →
       ∃ c, (raise x s).parked[n]? = some c ∧
         c = if b.hart.key.launch = s.hart.key.launch ∧ b.hart.id ≠ s.hart.id ∧ b.hart.status = .running
           then { b with hart := { b.hart with status := .stopping 2 } } else b)) ∧
  (∀ s c,
   (s.hart.cr.ucause.getLsbD 63 = false → s.hart.cr.uivec.getLsbD 0 = true → ∃ u, exec (.trap c) s = .next u ∧ u = { s with
     strand := { s.strand with pc := s.hart.cr.uivec &&& 0x000FFFFFFFFFFFFC, resv := none, links := [] }
     hart := { s.hart with
       units := s.hart.units + 1
       cr := { s.hart.cr with
         upc := (s.strand.pc + 4) &&& 0x000FFFFFFFFFFFFC
         ucause := 0x8000000000000000 ||| (if s.role = .access then 0x4000000000000000 else 0) ||| c.setWidth 64
         utval := s.strand.pc, instret := s.hart.cr.instret + 1 } } }) ∧
   (s.hart.cr.ucause.getLsbD 63 = false → s.hart.cr.uivec.getLsbD 0 = false →
     exec (.trap c) s = .next (raise (trapAt s 9 c.toNat s.strand.pc) s)) ∧
   (inHandler s = true → exec (.trap c) s = .next (raise (trapAt s 9 c.toNat s.strand.pc) s)) ∧
   (s.hart.cr.ucause.getLsbD 63 = true → inHandler s = false → exec (.trap c) s = .next (stallOn s .handler)) ∧
   (∀ k, s.role ≠ .compute → exec (.svc k) s = .next (raise (trapAt s 10 (k.toNat % 256) (k.setWidth 64)) (advance s))) ∧
   (inHandler s = true → s.strand.aside = none → ∃ u, exec .uiret s = .next u ∧ u = { s with
     strand := { s.strand with pc := s.hart.cr.upc, resv := none, links := [] }
     hart := { s.hart with
       cr := { s.hart.cr with
         ucause := s.hart.cr.ucause &&& 0x7FFFFFFFFFFFFFFF, instret := s.hart.cr.instret + 1 } } }) ∧
   (inHandler s = false → exec .uiret s = .next (raise (trapAt s 1 0 (instrWord .uiret)) s)))

/-! ## Strips and grants -/

/-- What the opening of a strip with grant g leaves (R28 to R30, R125): vl = min(n, VLEN / ew) in `cr.vl` and x[d], the width in `cr.ew`, one
more strip begun, the pc on. The registers keep every bit below the lesser of the old and the new VLEN and are 0 above it, a mask
register by eighths; where the grant is the old one nothing is relayed. Every other register is as before.
On the compute strand `vsetvl` adopts the grant of the access strand's corresponding one, its own share and class without effect (R29, R125);
until the access strand has executed that one it waits (R126).
`vsetvl` with bits of its register outside the layout or a share above 8 is illegal (R124). A changed grant that cannot be relayed yet waits
(R28, R29), and so does the opening while a stream of the hart is within an entry or owes a fault.
The model's choice or reading: the count of strips, by which the strands' `vsetvl` correspond (log entry 71), and the wait for a stream that is within
an entry or owes a fault (log entry 37). -/
def Obligations.VsetvlOpensAdoptsTrapsAndWaits : Prop :=
  (∀ s d a c share cls ew i, s.strand.portable = false → s.role ≠ .compute → share.toNat ≤ 8 →
   (i = .vsetvli d a share cls ew ∨ (i = .vsetvl d a c ∧ getX s c = (0 : BitVec 49) ++ share ++ cls ++ ew ++ (0 : BitVec 6))) →
   let g := negotiate s share.toNat (cls.toNat + 9)
   let vl := min (getX s a).toNat (g.vlen / (8 * 2 ^ ew.toNat))
   let same := grantDiffers g s.hart.grant = false ∧ s.hart.savedVlen = 0
   let bound := min (max s.hart.grant.vlen s.hart.savedVlen) g.vlen
   unsettled s = none → (grantDiffers g s.hart.grant = false ∨ mayRelay s = true) →
   ∃ t, exec i s = .next t ∧ t.hart.grant = g ∧ t.strand.vl.toNat = vl ∧ t.strand.ew = ew ∧ (d ≠ 0 → getX t d = BitVec.ofNat 64 vl)
     ∧ (∀ r, r ≠ d → getX t r = getX s r) ∧ t.strand.strips = s.strand.strips + 1 ∧ t.strand.pc = s.strand.pc + 4
     ∧ t.hart.cr = { s.hart.cr with instret := s.hart.cr.instret + 1 } ∧ t.hart.streams = []
     ∧ (∀ v (j : Nat), (getV t v).getLsbD j = ((getV s v).getLsbD j && decide (same ∨ j < bound)))
     ∧ (∀ m (j : Nat), (getM t m).getLsbD j = ((getM s m).getLsbD j && decide (same ∨ j < bound / 8)))) ∧
  ((∀ s d a c share cls ew i, s.strand.portable = false → s.role = .compute → share.toNat ≤ 8 →
    (i = .vsetvli d a share cls ew ∨ (i = .vsetvl d a c ∧ getX s c = (0 : BitVec 49) ++ share ++ cls ++ ew ++ (0 : BitVec 6))) →
    ∀ x, s.mate = some x →
      (s.strand.strips < x.strips →
        let vl := min (getX s a).toNat (s.hart.grant.vlen / (8 * 2 ^ ew.toNat))
        exec i s = .next (advance (setX
          { s with strand := { s.strand with vl := BitVec.ofNat 14 vl, ew := ew, strips := s.strand.strips + 1 } } d (BitVec.ofNat 64 vl)))) ∧
      (x.strips ≤ s.strand.strips → exec i s = .next (stallOn s .mateVsetvl))) ∧
   (∀ s d a c,
    (∀ share cls ew, 8 < share.toNat →
      exec (.vsetvli d a share cls ew) s = .next (raise (trapAt s 1 0 (instrWord (.vsetvli d a share cls ew))) s)) ∧
    ((getX s c).extractLsb' 15 49 ≠ 0 ∨ (getX s c).extractLsb' 0 6 ≠ 0 ∨ 8 < ((getX s c).extractLsb' 11 4).toNat →
      exec (.vsetvl d a c) s = .next (raise (trapAt s 1 0 (instrWord (.vsetvl d a c))) s)) ∧
    (∀ share cls ew m, share.toNat ≤ 8 → s.strand.portable = false → s.role ≠ .compute → unsettled s = some m →
      exec (.vsetvli d a share cls ew) s = .next (stallOn s (.stream m))) ∧
    (∀ share cls ew, share.toNat ≤ 8 → s.strand.portable = false → s.role = .access → s.hart.streams = [] →
      grantDiffers (negotiate s share.toNat (cls.toNat + 9)) s.hart.grant = true → mayRelay s = false →
      exec (.vsetvli d a share cls ew) s
        = .next (stallOn s (.regrant d (getX s a).toNat share.toNat (cls.toNat + 9) ew)))))

/-- `setshape` of Mygar text (R279): row length lr = min(n, E), rows r = min(nr, E / capacity) with the capacity the least power of two that is
at least lr, E = VLEN / ew; `cr.vl` is r × capacity, x[d] is r in its upper and lr in its lower half, and no row where lr is 0. The shape is the
strand's own. In native text the word is illegal (R278).
The model's choice or reading: that the word is illegal in native text (log entry 35). -/
def Obligations.SetshapeOpensAStrip : Prop := ∀ s d a share ew cls, (Instr.setshape d a share ew cls).wf = true →
  (s.strand.portable = false →
    exec (.setshape d a share ew cls) s = .next (raise (trapAt s 1 0 (instrWord (.setshape d a share ew cls))) s)) ∧
  (s.strand.portable = true → s.role ≠ .compute →
    let g := negotiate s share.toNat (cls.toNat + 9)
    unsettled s = none → (grantDiffers g s.hart.grant = false ∨ mayRelay s = true) →
    ∃ t r lr cap k, exec (.setshape d a share ew cls) s = .next t
      ∧ lr = min ((getX s a).toNat % 2 ^ 32) (g.vlen / (8 * 2 ^ ew.toNat)) ∧ cap = 2 ^ k ∧ lr ≤ cap ∧ (0 < k → 2 ^ (k - 1) < lr)
      ∧ (lr = 0 → r = 0) ∧ (0 < lr → r = min ((getX s a).toNat / 2 ^ 32) (g.vlen / (8 * 2 ^ ew.toNat) / cap))
      ∧ t.hart.grant = g ∧ t.strand.rows = r ∧ t.strand.rowLen = lr ∧ t.strand.rowCap = cap ∧ t.strand.ew = ew
      ∧ t.strand.vl.toNat = (if lr = 0 then 0 else r * cap) ∧ (d ≠ 0 → getX t d = BitVec.ofNat 64 (r * 2 ^ 32 + lr))
      ∧ (∀ x, x ≠ d → getX t x = getX s x) ∧ t.strand.pc = s.strand.pc + 4
      ∧ ∀ m, t.mate = some m → ∃ p, s.mate = some p ∧ m.rows = p.rows ∧ m.rowLen = p.rowLen ∧ m.rowCap = p.rowCap)

/-- The grant of R26: within the share and the core's working groups and bank limit, what the other harts hold apart; its VLEN is the largest
power of two from 512 bits to the class's that 8,192 bits a group and its banks allow, and a grant of 0 bits holds no group and no bank.
When some other hart is short the entitlement bounds it too. -/
def Obligations.GrantWithinCore : Prop := ∀ s share cls, share ≤ 8 → 9 ≤ cls → cls ≤ 16 →
  let d := dieOf s.hart.id
  let c := coreOf s.hart.id
  let others := ((coreHarts s d c).filter (fun h => h.id != s.hart.id)).map (·.grant)
  let w := workingGroups (coreRec s d c)
  let b := bankLimit s d
  let k := (others.filter (fun g => 0 < g.share)).length + 1
  let need (p : Nat) : Nat := ((if s.role = .single then 32 else 56) * p / 8 + 32767) / 32768
  let g := negotiate s share cls
  g.share = share ∧ g.cls = cls ∧ g.groups ≤ share ∧ (g.groups = 0 ∨ g.groups + (others.map (·.groups)).sum ≤ w)
    ∧ (g.banks = 0 ∨ g.banks + (others.map (·.banks)).sum ≤ b) ∧ g.banks = (if g.vlen = 0 then 0 else need g.vlen)
    ∧ (g.vlen = 0 → g.groups = 0) ∧ (g.vlen ≠ 0 → g.vlen ≤ 8192 * g.groups ∧ ∃ e, 9 ≤ e ∧ e ≤ cls ∧ g.vlen = 2 ^ e)
    ∧ ((∃ o ∈ others, o.short = true) → g.groups ≤ w / k ∧ g.banks ≤ b / k)
    ∧ (share ≠ 0 → (∀ o ∈ others, o.short = false) → ∀ e, 9 ≤ e → e ≤ cls →
        2 ^ e ≤ 8192 * min share (w - (others.map (·.groups)).sum) → need (2 ^ e) ≤ b - (others.map (·.banks)).sum → 2 ^ e ≤ g.vlen)

/-! ## Barriers, the ring, contention -/

/-- `fence`, `bar.arrive`, `bar.wait`, `dsync`, `ipost`, `iwait` and `contend` where they complete (R223, R226 to R231, R234, R235). An arrival counts
one more for this hart and is outstanding, and the barrier is looked at next; a wait that finds its phase complete clears the flag; `iwait` at
or below the frontier changes no more than the pc; `contend` with a valid latch writes it to x[d] and invalidates it. Waits of die scope or wider,
`iwait`, `contend` and `dsync` are acquires: the core's L1 keeps no copy of a stream line (R256, R260). At package scope and for `dsync` the
rendezvous of the launch's harts has completed (R36). That a fence waits for nothing is this model's order of memory (log entry 7).
The frontier (R228, R229): after a post of n the frontier is the largest number up to which every iteration is posted, iterations beyond it
stay recorded, and a post at or below the frontier changes nothing. -/
def Obligations.SynchronisationAndFrontier : Prop :=
  (∀ s, s.role ≠ .compute →
   (∀ c, (Instr.fence c).wf = true → exec (.fence c) s = .next (advance s)) ∧
   (∀ id c u, (Instr.barArrive id c).wf = true → (c ≠ 3 ∧ u = s ∨ c = 3 ∧ underArmature s s.hart.key.launch = true ∧ meet s = (u, true)) →
     let b := barrierKey s id c
     let a := arrivalOf s b s.hart.key
     (a.outstanding = false → exec (.barArrive id c) s
       = .next (advance { setArrival u { a with count := a.count + 1, outstanding := true } with
           inputs := u.inputs ++ [.barrierPhaseCompletion b] })) ∧
     (a.outstanding = true → a.count ≤ phaseOf s b →
       exec (.barWait id c) s = .next (advance (acquireAt (decide (2 ≤ c.toNat)) (setArrival u { a with outstanding := false }))))) ∧
   (∀ u, underArmature s s.hart.key.launch = true → meet s = (u, true) → exec .dsync s = .next (advance (acquire u))) ∧
   (∀ a c x, channelOf s c = some x →
     ((getX s a).toInt ≤ x.front + 64 → exec (.ipost a c) s = .next (advance (setChannel s (postTo x (getX s a).toInt)))) ∧
     ((getX s a).toInt ≤ x.front → exec (.iwait a c) s = .next (advance (acquire s)))) ∧
   (acquireAt false s = s ∧ acquireAt true s = acquire s ∧ ∃ l, acquire s = { s with coh := { s.coh with streams := l } }
     ∧ ∀ x, x ∈ l ↔ x ∈ s.coh.streams ∧ ¬(x.die = dieOf s.hart.id ∧ x.core = coreOf s.hart.id)) ∧
   (∀ d a slot, (getX s a).extractLsb' 44 20 = 0 → s.hart.latchValid = true →
     exec (.contend d a slot) s = .next (advance (setX (setLatch (acquire s) s.hart.latch false) d s.hart.latch)))) ∧
  (∀ (x : Channel) n, (∀ k ∈ x.posted, x.front < k) →
   let y := postTo x n
   (n ≤ x.front → y = x) ∧
   (x.front < n →
     x.front ≤ y.front ∧ (∀ k, x.front < k → k ≤ y.front → k = n ∨ k ∈ x.posted) ∧ (y.front + 1 ≠ n ∧ y.front + 1 ∉ x.posted)
       ∧ (∀ k, k ∈ y.posted ↔ y.front < k ∧ (k = n ∨ k ∈ x.posted)) ∧ y.die = x.die ∧ y.launch = x.launch ∧ y.num = x.num))

/-- Where synchronisation waits and traps: `bar.wait` before its phase, `ipost` beyond the window of 64, `iwait` above the frontier,
a `contend` that has registered (R226, R229 to R232); an arrival twice, a wait without arrival, a channel not claimed, tag bits beyond 43, and package
scope or `dsync` outside the armature are illegal (R226 to R228, R231, R235). -/
def Obligations.SynchronisationWaitsAndTraps : Prop := ∀ s, s.role ≠ .compute →
  let ill (i : Instr) : Prop := exec i s = .next (raise (trapAt s 1 0 (instrWord i)) s)
  (∀ id c, (Instr.barArrive id c).wf = true →
    let b := barrierKey s id c
    let a := arrivalOf s b s.hart.key
    (c = 3 → underArmature s s.hart.key.launch = false → ill (.barArrive id c) ∧ ill (.barWait id c)) ∧
    (a.outstanding = true → ill (.barArrive id c)) ∧ (a.outstanding = false → ill (.barWait id c)) ∧
    (c ≠ 3 → a.outstanding = true → phaseOf s b < a.count → exec (.barWait id c) s = .next (stallOn s (.barrier b a.count)))) ∧
  (underArmature s s.hart.key.launch = false → ill .dsync) ∧
  (∀ a c, (channelOf s c = none → ill (.ipost a c) ∧ ill (.iwait a c)) ∧ ∀ x, channelOf s c = some x →
    (x.front + 64 < (getX s a).toInt → exec (.ipost a c) s = .next (stallOn s (.ipost c (getX s a).toInt))) ∧
    (x.front < (getX s a).toInt → exec (.iwait a c) s = .next (stallOn s (.iwait c (getX s a).toInt)))) ∧
  (∀ d a slot, ((getX s a).extractLsb' 44 20 ≠ 0 → ill (.contend d a slot)) ∧
    ((getX s a).extractLsb' 44 20 = 0 → s.hart.latchValid = false → underArmature s s.hart.key.launch = false →
      (∀ c ∈ s.sched.contenders, c.hart ≠ s.hart.key) → ∃ t, exec (.contend d a slot) s = .next (stallOn t (.contend slot)) ∧ t = { s with sched := { s.sched with
        contenders := s.sched.contenders ++ [{ slot := slot, tag := (getX s a).extractLsb' 32 12, hart := s.hart.key
                                               word := (getX s a).extractLsb' 0 32 ++ (7 - dieOf s.hart.id) ++ coreOf s.hart.id
                                                 ++ slotOf s.hart.id }] } }))

/-! ## Launches -/

/-- `launch` and `lwait` (R239, R240, R244, R336, R341). The record's 256 bytes are read. The first refusal code that the record gives goes to x[d] and
nothing is launched; a record that gives none is taken as a copy into a launch of its own, with a sequence number of the package under the armature
and a place on every participating die, in its wait pool when the record has wait conditions and else in its priority queue, and x[d] is 0. An
address that is no multiple of 256, and a byte that fails a check, trap. `lwait` with no incomplete launch of this hart on the word loads the word,
an acquire. Thirty-two incomplete launches, an incomplete one on the word, or a walk through an engine's line of a table (R190, R360) make the
instruction wait, and `launch` under the armature is illegal.
The refusal codes in their order (R238, R239): each is given exactly when no code before it is and its own condition on the record holds: 1 a
field outside its range, 2 an address, 3 the mode, 4 the loop table, 5 the dies, 6 no participating die with enough cores that can take a crew
once the retirements due have taken place, 7 a pool or queue of a participating die that is full.
The model's choice or reading: the order of a refusal's cases and the wait of a thirty-third launch (log entry 48). -/
def Obligations.LaunchAndRefusal : Prop :=
  (∀ s d a, s.role ≠ .compute →
   let addr := getX s a
   (underArmature s s.hart.key.launch = false → (myLaunches s).length < 32 → addr.toNat % 256 = 0 →
     (∀ pas l, checkRange s (me s) s.hart.tenant addr 256 .read false = .ok (pas, l) → (∀ x ∈ linesOf pas, engineLine s x = false) →
       let r := BitVec.ofNat 2048 (if l.stream then hartRead s pas true else readPas s.mem pas)
       let h := headerOf r
       let dies := allDies.filter (fun d => h.dies.getLsbD d.toNat && dieFull s d)
       let c := s.sched
       (refusalCode s r ≠ 0 →
         ∃ u, bare u = bare s ∧ exec (.launch d a) s = .next (advance (setX u d (BitVec.ofNat 64 (refusalCode s r))))) ∧
       (refusalCode s r = 0 →
         ∃ u new, bare u = bare { s with sched := { c with
             launches := c.launches ++ [new]
             queued := c.queued ++ dies.map (fun d => ⟨d, c.nextLaunch, h.prio, decide (0 < h.nwait), false, c.nextEntry, none⟩)
             nextLaunch := c.nextLaunch + 1, nextEntry := c.nextEntry + 1, nextSeq := c.nextSeq + 1 } }
           ∧ exec (.launch d a) s = .next (advance (setX u d 0))
           ∧ new.id = c.nextLaunch ∧ new.tenant = s.hart.tenant ∧ new.addr = addr ∧ new.record = r ∧ new.issuer = .hart s.hart.key
           ∧ new.dies = dies ∧ (new.seq = if ∃ v ∈ levelsOf r, v.kind = 2 then some c.nextSeq else none)
           ∧ new.placed = [] ∧ new.retired = [] ∧ new.failed = none ∧ new.started = false)) ∧
     (∀ f va, checkRange s (me s) s.hart.tenant addr 256 .read false = .error (f, va) →
       (f.cls ≠ 0 → ∃ u, bare u = bare s ∧ exec (.launch d a) s = .next (raise (trapAt s f.cls f.sub va) u)) ∧
       (f.cls = 0 → exec (.launch d a) s = .next (stallOn s (.engine f.sub))))) ∧
   (underArmature s s.hart.key.launch = false → (myLaunches s).length < 32 → addr.toNat % 256 ≠ 0 →
     exec (.launch d a) s = .next (raise (trapAt s 7 0 addr) s)) ∧
   (underArmature s s.hart.key.launch = true → exec (.launch d a) s = .next (raise (trapAt s 1 0 (instrWord (.launch d a))) s)) ∧
   (underArmature s s.hart.key.launch = false → 32 ≤ (myLaunches s).length → exec (.launch d a) s = .next (stallOn s .launches)) ∧
   ((∀ l ∈ myLaunches s, (headerOf l.record).cword ≠ addr) →
     ∀ pa l, checkAligned s (me s) s.hart.tenant addr 8 .read false = .ok (pa, l) → engineLine s (lineOf pa) = false →
     ∃ u, bare u = bare s ∧ exec (.lwait d a) s = .next (advance (setX u d (BitVec.ofNat 64 (s.mem.readNat pa 8))))
       ∧ ∀ x ∈ u.coh.streams, ¬(x.die = dieOf s.hart.id ∧ x.core = coreOf s.hart.id)) ∧
   ((∃ l ∈ myLaunches s, (headerOf l.record).cword = addr) → exec (.lwait d a) s = .next (stallOn s (.lwait addr)))) ∧
  (∀ s r,
   let h := headerOf r
   let ls := levelsOf r
   let ws := waitsOf r
   let named := allDies.filter (fun d => h.dies.getLsbD d.toNat)
   let full := named.filter (dieFull s)
   let spans : Prop := ∃ l ∈ ls, l.kind = 2
   let kinds (k : Nat) : Nat := (ls.filter (fun l => l.kind == k)).length
   let range : Prop := h.rsvd ≠ 0 ∨ 4 < h.nwait ∨ h.nlev = 0 ∨ 4 < h.nlev ∨ ¬(h.vlenlog = 0 ∨ (9 ≤ h.vlenlog ∧ h.vlenlog ≤ 16)) ∨ 32 < h.accs
     ∨ 16 < h.stash ∨ h.crews = 0 ∨ 64 < h.crews ∨ h.crew = 0 ∨ 4 < h.crew ∨ 16 < h.crew * h.stash
     ∨ (∃ l ∈ ls, l.rsvd ≠ 0 ∨ (l.kind ≠ 1 ∧ l.block ≠ 0))
     ∨ (∃ w ∈ ws, w.rsvd ≠ 0 ∨ 5 < w.cmp ∨ (w.wide = false ∧ 2 ^ 32 ≤ w.value))
     ∨ (∃ i, h.nwait ≤ i ∧ i < 4 ∧ (waitAt r i).raw ≠ 0) ∨ r.toNat / 2 ^ 1824 ≠ 0
   let entry (w : Word) : Prop := w.toNat % 4 ≠ 0 ∨ 2 ^ 52 ≤ w.toNat
   let address : Prop := entry h.pc0 ∨ entry h.pc1 ∨ h.cword.toNat % 8 ≠ 0 ∨ 2 ^ 63 ≤ h.cval.toNat
     ∨ ∃ w ∈ ws, w.addr.toNat % (if w.wide = true then 8 else 4) ≠ 0
   let mode : Prop := (h.decoupled = true ∧ spans) ∨ (h.decoupled = false ∧ h.pc1 ≠ 0)
   let loops : Prop := (∃ l ∈ ls, l.kind = 3 ∨ (l.kind = 2 ∧ l.count ≠ 0) ∨ (l.kind = 1 ∧ l.block = 0)) ∨ 1 < kinds 1 ∨ 1 < kinds 2
     ∨ ∃ i, h.nlev ≤ i ∧ i < 4 ∧ (levelAt r i).raw ≠ 0
   let dies : Prop := named = [] ∨ (1 < named.length ∧ ¬spans) ∨ full = []
   let working (d : DieId) (c : CoreId) : Nat :=
     ((List.range 8).filter (fun i => !(coreRec s d c).lgmask.getLsbD i && !(coreRec s d c).due.getLsbD i)).length
   let room : Prop := ∃ d ∈ full, ∃ cs : List CoreId, cs.Nodup ∧ h.crews ≤ cs.length
     ∧ ∀ c ∈ cs, h.crew ≤ working d c ∧ h.crew * h.stash ≤ 16 ∧ h.crew * h.accs ≤ 32
   let queues : Prop := ∃ d ∈ full, (0 < h.nwait ∧ 1024 ≤ (s.sched.queued.filter (fun q => q.die == d && q.pooled)).length)
     ∨ (h.nwait = 0 ∧ (256 ≤ queueCount s d h.prio ∨ 0 < readyCount s d h.prio))
   (refusalCode s r = 1 ↔ range) ∧
   (refusalCode s r = 2 ↔ ¬range ∧ address) ∧
   (refusalCode s r = 3 ↔ ¬range ∧ ¬address ∧ mode) ∧
   (refusalCode s r = 4 ↔ ¬range ∧ ¬address ∧ ¬mode ∧ loops) ∧
   (refusalCode s r = 5 ↔ ¬range ∧ ¬address ∧ ¬mode ∧ ¬loops ∧ dies) ∧
   (refusalCode s r = 6 ↔ ¬range ∧ ¬address ∧ ¬mode ∧ ¬loops ∧ ¬dies ∧ ¬room) ∧
   (refusalCode s r = 7 ↔ ¬range ∧ ¬address ∧ ¬mode ∧ ¬loops ∧ ¬dies ∧ room ∧ queues) ∧
   (refusalCode s r = 0 ↔ ¬range ∧ ¬address ∧ ¬mode ∧ ¬loops ∧ ¬dies ∧ room ∧ ¬queues))

/-- `hexit` (R245): the strand has exited, its hart's streams end, its stash units are unmapped, pending interrupts are dropped, the reservations and
links of both strands are gone, and the hart retires once its commands are done; in a decoupled hart the first strand only waits for the
second. While a stream is within an entry or owes a fault the instruction waits. One instruction is counted.
The model's choice or reading: that `hexit` counts once, when it executes (log entry 40), that it waits for such a stream (log entry 37), and that in
the user handler it is no issue unit (log entry 111). -/
def Obligations.HartExit : Prop := ∀ s,
  ((s.mate = none ∨ ∃ m, s.mate = some m ∧ m.hexited = true) → ∀ n, unsettled s = some n → exec .hexit s = .next (stallOn s (.stream n))) ∧
  ((s.mate = none ∨ ∃ m, s.mate = some m ∧ m.hexited = true) → unsettled s = none → ∃ t, exec .hexit s = .next t ∧ t.hart.status = .retiring
    ∧ t.strand.hexited = true ∧ t.hart.streams = [] ∧ t.hart.stashMap = [] ∧ t.hart.pending = [] ∧ t.strand.resv = none ∧ t.strand.links = []
    ∧ (∀ m, t.mate = some m → m.resv = none ∧ m.links = []) ∧ t.hart.cr.instret = s.hart.cr.instret + 1 ∧ t.strand.pc = s.strand.pc) ∧
  (∀ m, s.mate = some m → m.hexited = false → ∃ t, exec .hexit s = .next t ∧ t = { s with
    strand := { s.strand with hexited := true, stall := some .mateHexit }
    hart := { s.hart with
      units := s.hart.units + if inHandler s = true then 0 else 1
      cr := { s.hart.cr with instret := s.hart.cr.instret + 1 } } })

/-! ## Convoys -/

/-- A convoy whose header and slots are legal dispatches: its slots stand in flight and run in the steps that follow (R80 to R82). A header outside
R80's values traps as illegal with its word; a slot that is no instruction of the unit its header names traps with its number and word, unless a
slot before it is illegal; a dispatch that a check refuses traps with nothing done (R89), and one whose read fails leaves no more than the walks and
fills of that read (R264, R368). A dispatch whose read an engine's line keeps waiting waits (R190).
A vector instruction met with no convoy in flight acts as a convoy of that one slot (R80, R87): it dispatches and its slot runs.
The model's choice or reading: that a dispatch and each slot are steps of their own (log entry 20), and that a unit's mismatch is found in slot
order (log entry 83). -/
def Obligations.ConvoysDispatch : Prop :=
  (∀ s c u body, s.strand.convoy = none →
   (headerOk c u = true → body.length = c.toNat →
     (∀ is, decodeSlots u body 0 = .ok is → dispatchWait s is = none →
       (∀ t, dispatch s is = .ok t → exec (.convoy c u body) s = .next t) ∧
       (∀ x, dispatch s is = .error x → ∃ t, bare t = bare s ∧ (checkSlots s (is.map (capture s)) ≠ none → t = s)
         ∧ exec (.convoy c u body) s = .next (raise x t))) ∧
     (∀ is l, decodeSlots u body 0 = .ok is → dispatchWait s is = some l → exec (.convoy c u body) s = .next (stallOn s (.engine l))) ∧
     (∀ n w is, decodeSlots u body 0 = .error (n, w) → decodeSlots u (body.take n) 0 = .ok is →
       (∀ i ∈ is, slotIllegal s (capture s i) = none) →
       exec (.convoy c u body) s = .next (raise { trapAt s 1 0 w with slot := n } s))) ∧
   (headerOk c u = false → exec (.convoy c u body) s = .next (raise (trapAt s 1 0 (instrWord (.convoy c u body))) s))) ∧
  (∀ i s, (infoOf i).isSome = true → s.strand.convoy = none →
   (dispatchWait s [i] = none →
     (∀ t, dispatch s [i] = .ok t → exec i s = exec i t) ∧
     (∀ x, dispatch s [i] = .error x → ∃ t, bare t = bare s ∧ (checkSlots s [capture s i] ≠ none → t = s) ∧ exec i s = .next (raise x t))) ∧
   (∀ l, dispatchWait s [i] = some l → exec i s = .next (stallOn s (.engine l))))

/-- What dispatch captures (R65, R82, R89): each slot keeps what it reads at dispatch, its instruction, the format word, the xs register and the scalar register that vb names, as
they stand then, with the element width of the default format word and no element complete; a drawing slot's base is `cr.rngctr` past the draws of the slots before it, and `cr.rngctr` moves
past them all. The convoy is the next issue unit of its launch. Nothing else changes but lines.
The order of the checks at dispatch (R89): the first slot that its strand may not execute, or whose fields or captured values are illegal, traps
in class 1; else the first illegal format word in class 2; else the first command whose read fails or holds what it may not. The trap names
its slot.
The model's choice or reading: the value of an illegal slot's trap (log entry 24). -/
def Obligations.DispatchChecksAndCaptures : Prop :=
  (∀ s is t, dispatch s is = .ok t →
   let n := (positions s).length
   let drawn (l : List Instr) : Nat := (l.filter draws).length
   ∃ ks, t.strand.convoy = some ks ∧ ks.length = is.length
     ∧ (∀ (j : Nat) i, is[j]? = some i → ∃ k, ks[j]? = some k ∧ k.instr = i ∧ k.done = false ∧ k.pushed = false
         ∧ k.ctr = Vector.replicate 8 0 ∧ k.staged = (0, 0) ∧ k.met = 0 ∧ k.ew = s.strand.ew ∧ k.shadow = inHandler s ∧ k.stop = none
         ∧ k.held = none
         ∧ (∀ p, dispatchRead s ((is.take j).map (capture s)) (capture s i) = .ok p → k.desc = p.2)
         ∧ (∀ v, infoOf i = some v → k.fmtw = (v.fmt.map (getX s)).getD 0 ∧ k.xsv = (v.xs.map (getX s)).getD 0
           ∧ k.xbv = (v.xb.map (getX s)).getD 0)
         ∧ (draws i = true → k.rbase = s.hart.cr.rngctr + BitVec.ofNat 64 (n * drawn (is.take j))))
     ∧ bare t = bare { s with
         strand := { s.strand with convoy := some ks, unit := s.hart.units }
         hart := { s.hart with cr := { s.hart.cr with rngctr := s.hart.cr.rngctr + BitVec.ofNat 64 (n * drawn is) } } }) ∧
  (∀ s is,
   let k (i : Instr) : Slot := capture s i
   (∀ (n : Nat) i sub, is[n]? = some i → (∀ m, m < n → ∀ j, is[m]? = some j → slotIllegal s (k j) = none) → slotIllegal s (k i) = some sub →
     dispatch s is = .error { trapAt s 1 sub (instrWord i) with slot := n }) ∧
   ((∀ i ∈ is, slotIllegal s (k i) = none) →
     (∀ (n : Nat) i w, is[n]? = some i → (∀ m, m < n → ∀ j, is[m]? = some j → slotFmt s (k j) = none) → slotFmt s (k i) = some w →
       dispatch s is = .error { trapAt s 2 0 w with slot := n }) ∧
     ((∀ i ∈ is, slotFmt s (k i) = none) →
       let read (m : Nat) (i : Instr) := dispatchRead s ((is.take m).map k) (k i)
       ∀ (n : Nat) i x, is[n]? = some i → (∀ m, m < n → ∀ j, is[m]? = some j → ∃ p, read m j = .ok p) → read n i = .error x →
         dispatch s is = .error { x with slot := n })))

/-- The end of a slot (R82, R84, R216): when every other slot of the convoy is complete the convoy has drained: the pc is where the scalar
instructions behind it have got to, at first past the header and the body words, as many instructions as slots are counted, in one issue
unit, unless it was dispatched in the user handler, `cr.dprog` is 0, which an access strand's convoy leaves to the compute strand, and the strip is the
last that those instructions opened (R28). Otherwise the slot is complete and the convoy stays in
flight at its pc, and `cr.dprog` says so of a DG slot; the strand waits only while every open slot does (R81, R218). A slot that is stopped between element groups keeps the elements complete that its counters
pass (R33).
The model's choice or reading: that slots run one by one in their order, where a slot stops, and what the handler's convoys are (log entries 20,
111). -/
def Obligations.SlotCompletion : Prop :=
  (∀ s (ks : List Slot) n k, n < ks.length →
   ((∀ (m : Nat) j, ks[m]? = some j → m ≠ n → j.done = true) → ∃ t, completeSlot s ks n k = t ∧ t = { s with
     strand := { s.strand.lastStrip with
       convoy := none, ahead := none
       pc := (s.strand.ahead.map (·.1)).getD (s.strand.pc + BitVec.ofNat 64 (4 + 8 * ks.length))
       stall := triedAgain (s.strand.ahead.bind (·.2)) }
     hart := { s.hart with
       units := s.hart.units + if convoyUnit s = true then 1 else 0
       cr := { s.hart.cr with
         dprog := if s.role = .access then s.hart.cr.dprog else 0
         instret := s.hart.cr.instret + BitVec.ofNat 64 ks.length } } }) ∧
   ((∃ (m : Nat) (j : Slot), ks[m]? = some j ∧ m ≠ n ∧ j.done = false) →
     completeSlot s ks n k = { s with
       strand := { s.strand with
         convoy := some (ks.set n { k with done := true })
         ahead := s.strand.ahead.map (fun a => (a.1, triedAgain a.2))
         stall := if (nextFree [] (ks.set n { k with done := true }) 0).isSome then s.strand.stall
           else (firstOpen (ks.set n { k with done := true }) 0).bind (·.2.held) }
       hart := { s.hart with cr := { s.hart.cr with
         dprog := if (infoOf k.instr).map (·.unit) = some 5 then 0x8000000000000000 else s.hart.cr.dprog } } })) ∧
  (∀ d a b g f, StopsInPart (.vadd d a b g f) ∧ StopsInPart (.vcvt d a g f)) ∧ (∀ d a b c g f, StopsInPart (.vcmp d a b c g f))

/-! ## Vector computation -/

/-- VA arithmetic (R47, R48, R50, R56, R120 to R122, R127 to R130): each active element of the destination is the exact result of the operation on
the elements' values, converted once into dfmt under the format word's mode; a zero result without a floating operand is +0. Integer `vdiv`
truncates, gives all ones on a zero divisor and `vrem` then gives a, both out of range; `vmulh` gives the high half.
The model's choice or reading: the sign of a zero without a floating operand, results outside the tables, the high half of `vmulh` given as it is, and
`vrem` by an infinity (log entries 25, 77, 80, 122). -/
def Obligations.VectorArithmetic : Prop := ∀ d a b c g f,
  let fw (s : State) (k : Slot) : FmtWord := fmtOf s k f
  let width (s : State) (k : Slot) : Nat := fmtWidth (fw s k).d
  let mask (s : State) (k : Slot) : BitVec 3 := (fw s k).ovmask
  let va (s : State) (k : Slot) (e : Nat) : Val := valOf s a (fw s k).a (fw s k).flush e
  let vb (s : State) (k : Slot) (e : Nat) : Val := bVal s k b (fw s k).b (fw s k).flush e
  let vc (s : State) (k : Slot) (e : Nat) : Val := valOf s c (fw s k).c (fw s k).flush e
  let conv1 (s : State) (k : Slot) (x : Exact) : Conv := (fw s k).convert (plainZero (isFloatFmt (fw s k).a) x)
  let conv2 (s : State) (k : Slot) (x : Exact) : Conv := (fw s k).convert (plainZero (isFloatFmt (fw s k).a || isFloatFmt (fw s k).b) x)
  let conv3 (s : State) (k : Slot) (x : Exact) : Conv :=
    (fw s k).convert (plainZero (isFloatFmt (fw s k).a || (isFloatFmt (fw s k).b || isFloatFmt (fw s k).c)) x)
  ElementResult (.vadd d a b g f) d g width mask (fun s k e => conv2 s k (.val (addV (fw s k).round (va s k e) (vb s k e)))) ∧
  ElementResult (.vsub d a b g f) d g width mask (fun s k e => conv2 s k (.val (subV (fw s k).round (va s k e) (vb s k e)))) ∧
  ElementResult (.vmul d a b g f) d g width mask (fun s k e => conv2 s k (.val (mulV (va s k e) (vb s k e)))) ∧
  ElementResult (.vmulh d a b g f) d g width mask (fun s k e =>
    ⟨(intOfVal (va s k e) * intOfVal (vb s k e) / 2 ^ width s k % 2 ^ width s k).toNat, false⟩) ∧
  ElementResult (.vdiv d a b g f) d g width mask (fun s k e =>
    if isIntFmt (fw s k).d then
      if (vb s k e).isZero then ⟨2 ^ width s k - 1, true⟩
      else intoInt (fw s k).d (fw s k).sat (Int.tdiv (intOfVal (va s k e)) (intOfVal (vb s k e)))
    else (fw s k).convert (divV (va s k e) (vb s k e))) ∧
  ElementResult (.vrem d a b g f) d g width mask (fun s k e =>
    if isIntFmt (fw s k).d then
      if (vb s k e).isZero then ⟨(intoInt (fw s k).d false (intOfVal (va s k e))).bits, true⟩
      else intoInt (fw s k).d (fw s k).sat (Int.tmod (intOfVal (va s k e)) (intOfVal (vb s k e)))
    else (fw s k).convert (.val (remV (va s k e) (vb s k e)))) ∧
  ElementResult (.vsqrt d a g f) d g width mask (fun s k e => conv1 s k (sqrtV (va s k e))) ∧
  ElementResult (.vrcp d a g f) d g width mask (fun s k e => conv1 s k (rcpV (va s k e))) ∧
  ElementResult (.vrsqrt d a g f) d g width mask (fun s k e => conv1 s k (rsqrtV (va s k e))) ∧
  ElementResult (.vexp2 d a g f) d g width mask (fun s k e => conv1 s k (exp2V (va s k e))) ∧
  ElementResult (.vlog2 d a g f) d g width mask (fun s k e => conv1 s k (log2V (va s k e))) ∧
  ElementResult (.vfma d a b c g f) d g width mask
    (fun s k e => conv3 s k (.val (addV (fw s k).round (mulV (va s k e) (vb s k e)) (vc s k e)))) ∧
  ElementResult (.vfms d a b c g f) d g width mask
    (fun s k e => conv3 s k (.val (subV (fw s k).round (mulV (va s k e) (vb s k e)) (vc s k e)))) ∧
  ElementResult (.vfnma d a b c g f) d g width mask
    (fun s k e => conv3 s k (.val (addV (fw s k).round (mulV (va s k e) (vb s k e)).neg (vc s k e)))) ∧
  ElementResult (.vmin d a b g f) d g width mask (fun s k e => conv2 s k (.val (minV (va s k e) (vb s k e)))) ∧
  ElementResult (.vmax d a b g f) d g width mask (fun s k e => conv2 s k (.val (maxV (va s k e) (vb s k e)))) ∧
  ElementResult (.vabs d a g f) d g width mask (fun s k e => conv1 s k (.val (va s k e).abs)) ∧
  ElementResult (.vneg d a g f) d g width mask (fun s k e => conv1 s k (.val (va s k e).neg))

/-- VB and special instructions (R131, R132, R134, R147, R148). `vcvt` converts the value; the logic instructions act on the bits of one width,
the shifts move by (b mod 64) mod w, `vclz` and `vpopc` count; `vclass` gives the class code of the bits; `vrand` gives the top 24 bits of
element e's draw times 2^-24; `vsmfin` divides and gives +0 where the denominator is ±0.
The model's choice or reading: that logic and counting ignore sat and ovmask, the zeros of `vcvt` and `vsmfin` without a floating operand, results
outside the tables, and that `vrand` draws from `cr.seed` as it stands when the slot runs (log entries 25, 28, 77, 79). -/
def Obligations.VectorLogicAndSpecial : Prop := ∀ d a b y g f,
  let fw (s : State) (k : Slot) : FmtWord := fmtOf s k f
  let width (s : State) (k : Slot) : Nat := fmtWidth (fw s k).d
  let wa (s : State) (k : Slot) : Nat := fmtWidth (fw s k).a
  let xa (s : State) (k : Slot) (e : Nat) : Nat := elemOf (srcBits s a) (wa s k) e
  let xb (s : State) (k : Slot) (e : Nat) : Nat := bBits s k b (wa s k) e
  let plain : State → Slot → BitVec 3 := fun _ _ => 0
  ElementResult (.vcvt d a g f) d g width (fun s k => (fw s k).ovmask)
    (fun s k e => (fw s k).convert (plainZero (isFloatFmt (fw s k).a) (.val (valOf s a (fw s k).a (fw s k).flush e)))) ∧
  ElementResult (.vand d a b g f) d g wa plain (fun s k e => ⟨xa s k e &&& xb s k e, false⟩) ∧
  ElementResult (.vor d a b g f) d g wa plain (fun s k e => ⟨xa s k e ||| xb s k e, false⟩) ∧
  ElementResult (.vxor d a b g f) d g wa plain (fun s k e => ⟨xa s k e ^^^ xb s k e, false⟩) ∧
  ElementResult (.vsll d a b g f) d g wa plain (fun s k e => ⟨xa s k e * 2 ^ (xb s k e % 64 % wa s k) % 2 ^ wa s k, false⟩) ∧
  ElementResult (.vsrl d a b g f) d g wa plain (fun s k e => ⟨xa s k e / 2 ^ (xb s k e % 64 % wa s k), false⟩) ∧
  ElementResult (.vsra d a b g f) d g wa plain
    (fun s k e => ⟨(signedOf (wa s k) (xa s k e) / 2 ^ (xb s k e % 64 % wa s k) % 2 ^ wa s k).toNat, false⟩) ∧
  ElementResult (.vclz d a g f) d g wa plain (fun s k e => ⟨if xa s k e = 0 then wa s k else wa s k - 1 - Nat.log2 (xa s k e), false⟩) ∧
  ElementResult (.vpopc d a g f) d g wa plain
    (fun s k e => ⟨((List.range (wa s k)).filter (fun i => (xa s k e).testBit i)).length, false⟩) ∧
  ElementResult (.vclass d a g f) d g width plain (fun s k e => ⟨classOf (fw s k).a (xa s k e), false⟩) ∧
  ElementResult (.vrand d g f) d g width plain (fun s k e =>
    ⟨((fw s k).convert (.val (Val.ofDyadic false (drawTop (draw s.hart.cr.seed k.rbase ((positions s).idxOf e))) (-24)))).bits, false⟩) ∧
  ElementResult (.vsmfin d a y g f) d g width (fun s k => (fw s k).ovmask) (fun s k e =>
    let n := valOf s a (fw s k).a (fw s k).flush e
    let m := valOf s y (fw s k).b (fw s k).flush e
    (fw s k).convert (plainZero (isFloatFmt (fw s k).a || isFloatFmt (fw s k).b) (if m.isZero then .val (.zero false) else divV n m)))

/-- `vcmp` (R133) writes the comparison of the exact values into the mask bits of the active elements; `vprune` (R146) writes the keep bits and, with
Z = 1, the kept elements and 0 for the dropped ones. The other bits and elements stay, and nothing else changes.
The model's choice or reading: that a kept element is copied bit for bit, a NaN too, and that `vprune` draws from `cr.seed` as it stands when the slot
runs (log entries 78, 79). -/
def Obligations.CompareAndPrune : Prop := ∀ (d : MReg) a b c x z v g f s ks n k, positions s ≠ [] →
  let fw : FmtWord := fmtOf s k f
  let xa (e : Nat) : Val := valOf s a fw.a fw.flush e
  let newBits (i : Instr) (t : State) (val : Nat → Bool) : Prop := OnlyOperands s t i [d] ∧
    ∀ e, e < 8192 → (getM t d).getLsbD e = if e ∈ activeOf s k g then val e else (getM s d).getLsbD e
  (∀ i, i = Instr.vcmp d a b c g f → i.wf = true → RunsSlot s i ks n k → OperandsReady s i k →
    ∃ t, exec i s = .next (completeSlot t ks n k) ∧ newBits i t (fun e => compareHolds c (cmpV (xa e) (bVal s k b fw.b fw.flush e)))) ∧
  (∀ i kept, i = Instr.vprune d a v z x g f →
    (∀ e, kept e = keeps (xa e) (readVal fw.a fw.flush (k.xsv.toNat % 2 ^ fmtWidth fw.a))
      (drawTop (draw s.hart.cr.seed k.rbase ((positions s).idxOf e)))) → i.wf = true → RunsSlot s i ks n k → OperandsReady s i k →
    ∃ t, exec i s = .next (completeSlot t ks n k) ∧ newBits i t kept
      ∧ (z = true → ∀ e, fmtWidth fw.a * e + fmtWidth fw.a ≤ 65536 → elemOf (getV t v) (fmtWidth fw.a) e
          = if e ∈ activeOf s k g then (if kept e then elemOf (srcBits s a) (fmtWidth fw.a) e else 0) else elemOf (getV s v) (fmtWidth fw.a) e)
      ∧ (z = false → getV t v = getV s v))

/-- The mask instructions (R135): the bits below `vl` of the destination, every other bit and mask left as it is; `mpopc` counts, `mfirst` finds
the first one bit or gives -1, `mbefore` marks what lies before it. -/
def Obligations.MaskInstructions : Prop := ∀ (d a b : MReg) x v s ks n k, s.strand.portable = false →
  let vl := s.strand.vl.toNat
  let bit (m : MReg) (e : Nat) : Bool := (getM s m).getLsbD e
  let writes (i : Instr) (val : Nat → Bool) : Prop := RunsSlot s i ks n k →
    ∃ t, exec i s = .next (completeSlot t ks n k) ∧ OnlyOperands s t i [d]
      ∧ ∀ e, e < 8192 → (getM t d).getLsbD e = if e < vl then val e else bit d e
  writes (.mand d a b) (fun e => bit a e && bit b e) ∧ writes (.mor d a b) (fun e => bit a e || bit b e) ∧
  writes (.mxor d a b) (fun e => bit a e ^^ bit b e) ∧ writes (.mandn d a b) (fun e => bit a e && !bit b e) ∧
  writes (.mnot d a) (fun e => !bit a e) ∧ writes (.mmov d a) (fun e => bit a e) ∧ writes (.mset d v) (fun _ => v) ∧
  writes (.mbefore d a) (fun e => decide (∀ j, j ≤ e → bit a j = false)) ∧
  (RunsSlot s (.mpopc x a) ks n k → exec (.mpopc x a) s
    = .next (completeSlot (slotX s k x (BitVec.ofNat 64 ((List.range vl).filter (bit a)).length)) ks n k)) ∧
  (RunsSlot s (.mfirst x a) ks n k → ∃ w : Word, exec (.mfirst x a) s = .next (completeSlot (slotX s k x w) ks n k)
    ∧ ((∀ e, e < vl → bit a e = false) → w = BitVec.allOnes 64)
    ∧ (∀ e, e < vl → bit a e = true → (∀ j, j < e → bit a j = false) → w = BitVec.ofNat 64 e))

/-- `vmv` copies and `vbcast` writes the low bits of x[xs], each active element (R136); `vprefixpop` counts the one bits of a mask at indices
0 to e (R142); `vconflict` counts the lower active elements with the same bits (R143). -/
def Obligations.CopiesAndCounts : Prop := ∀ d a (m : MReg) x g,
  let active (s : State) (k : Slot) (e : Nat) : Prop := e ∈ activeOf s k g
  let elem (s : State) (e : Nat) : Nat := elemOf (srcBits s a) (ewBits s) e
  ElementsAtEw (.vmv d a g) d (fun s k e => if active s k e then some (elem s e) else none) ∧
  ElementsAtEw (.vbcast d x g) d (fun s k e => if active s k e then some k.xsv.toNat else none) ∧
  ElementsAtEw (.vprefixpop d m g) d (fun s k e =>
    if active s k e then some ((List.range (e + 1)).filter (fun j => (getM s m).getLsbD j)).length else none) ∧
  ElementsAtEw (.vconflict d a g) d (fun s k e =>
    if active s k e then some ((List.range e).filter (fun j => govTest s g j && elem s j == elem s e)).length else none)

/-- Permutes (R137 to R141) in native text. The slides move by k places and fill with the low bits of x[xs]; `vperm` gathers and gives 0 beyond
`vl`; `vmerge` selects; `viota` numbers the elements whose test passes; `vcompress` packs the active elements to the front and `vexpand`
spreads them. `vext` reads and `vins` writes one element, whatever `vl`, without effect beyond VLEN / ew. -/
def Obligations.Permutes : Prop := ∀ d a y (v w : VReg) x r imm g,
  let active (s : State) (k : Slot) (e : Nat) : Prop := e ∈ activeOf s k g
  let fresh (s : State) (k : Slot) (e : Nat) : Prop := e < s.strand.vl.toNat ∧ openAt s k e = true
  let elem (s : State) (q : VOpd) (e : Nat) : Nat := elemOf (srcBits s q) (ewBits s) e
  let below (s : State) (k : Slot) (e : Nat) : List Nat := (List.range e).filter (fun j => govTest s g j && openAt s k j)
  ElementsAtEw (.vslideup d a x imm g) d (fun s k e =>
    if active s k e then some (if imm.toNat ≤ e then elem s a (e - imm.toNat) else k.xsv.toNat) else none) ∧
  ElementsAtEw (.vslidedn d a x imm g) d (fun s k e =>
    if active s k e then some (if e + imm.toNat < s.strand.vl.toNat then elem s a (e + imm.toNat) else k.xsv.toNat) else none) ∧
  ElementsAtEw (.vperm d a v g) d (fun s k e =>
    let i := elemOf (getV s v) (ewBits s) e
    if active s k e then some (if i < s.strand.vl.toNat then elem s a i else 0) else none) ∧
  ElementsAtEw (.vmerge d a y g) d (fun s k e => if fresh s k e then some (if govTest s g e then elem s a e else elem s y e) else none) ∧
  ElementsAtEw (.viota d g) d (fun s k e => if fresh s k e then some ((List.range e).filter (govTest s g)).length else none) ∧
  ElementsAtEw (.vcompress d a g) d (fun s k e => ((activeOf s k g)[e]?).map (elem s a)) ∧
  ElementsAtEw (.vexpand d a g) d (fun s k e => if active s k e then some (elem s a (below s k e).length) else none) ∧
  (∀ s ks n k, RunsSlot s (.vext r v x) ks n k → exec (.vext r v x) s = .next (completeSlot
    (slotX s k r (if k.xsv.toNat < s.hart.grant.vlen / ewBits s then BitVec.ofNat 64 (elemOf (getV s v) (ewBits s) k.xsv.toNat) else 0)) ks n k)) ∧
  (∀ s ks n k, RunsSlot s (.vins w x imm) ks n k → ∃ t, exec (.vins w x imm) s = .next (completeSlot t ks n k)
    ∧ OnlyOperands s t (.vins w x imm) []
    ∧ ∀ e, ewBits s * e + ewBits s ≤ 65536 → elemOf (getV t w) (ewBits s) e
        = if e = imm.toNat ∧ e < s.hart.grant.vlen / ewBits s then k.xsv.toNat % 2 ^ ewBits s else elemOf (getV s w) (ewBits s) e)

/-- Scans and reductions (R144, R145) in native text. Element e of a scan combines the active elements of its segment up to e: those after which,
up to e, no segment starts. A reduction writes x[d], or leaves x[xs] there where no element is active. An out-of-range step sets a
reduction's bit 0 of the overflow mask.
The model's choice or reading: how a free sum is evaluated and mixed steps convert (log entries 10, 26, 27). -/
def Obligations.ScansAndReductions : Prop := ∀ d a (c : MReg) seg op x r g f free s ks n k, s.strand.portable = false → positions s ≠ [] →
  let fw : FmtWord := fmtOf s k f
  (∀ i, i = (if free then Instr.vscanf d a c seg op g f else .vscan d a c seg op g f) → i.wf = true → RunsSlot s i ks n k →
    OperandsReady s i k →
    let starts (j : Nat) : Bool := seg && (getM s c).getLsbD j
    let mine (e : Nat) : List Nat := (activeOf s k g).filter (fun j => j ≤ e && !(List.range (e + 1)).any (fun m => j < m && starts m))
    let out (e : Nat) : Option Conv := (scanOuts s fw op.toNat free
      ((mine e).map (fun j => (j, elemOf (srcBits s a) (fmtWidth fw.a) j)))).getLast?.map (·.2)
    ∃ t, exec i s = .next (completeSlot t ks n k) ∧ OnlyOperands s t i (if fw.ovmask = 0 then [] else [fw.ovmask])
      ∧ Delivered (popQs s (sourcesOf i)) t k d (fmtWidth fw.d) (fun e => if e ∈ activeOf s k g then (out e).map (·.bits) else none)) ∧
  (∀ i, i = (if free then Instr.vredf x a r op g f else .vred x a r op g f) → i.wf = true → RunsSlot s i ks n k → OperandsReady s i k →
    let es := (activeOf s k g).map (elemOf (srcBits s a) (fmtWidth fw.a))
    let v := reduceBits s fw op.toNat free k.xsv.toNat es
    let u := popQs s (sourcesOf i)
    (activeOf s k g = [] → exec i s = .next (completeSlot (slotX u k x k.xsv) ks n k)) ∧
    (activeOf s k g ≠ [] →
      exec i s = .next (completeSlot (setOverflow (slotX u k x (scalarResult fw.d v.bits)) fw.ovmask (if v.out then [0] else [])) ks n k)))

/-- At `vl` = 0 (R149, R193) computation, permute, load, store, atomic, translating and waiting instructions complete with nothing
written, pushed, popped, accessed or translated, so that the slot's end is their whole effect; `mpopc` gives 0, `mfirst` -1, a
reduction x[xs]; a stream ends at once. -/
def Obligations.ZeroLength : Prop := ∀ s ks n k, s.strand.vl = 0 → s.strand.portable = false →
  (∀ i v, infoOf i = some v → RunsSlot s i ks n k → i.wf = true →
    (v.unit ≤ 3 ∧ v.xd = none ∧ (∀ d x j, i ≠ .vins d x j)) ∨ (v.unit = 4 ∧ (v.srcs ≠ [] ∨ v.mrd ≠ [] ∨ v.dst ≠ none ∨ v.mdst ≠ none)) →
    exec i s = .next (completeSlot s ks n k)) ∧
  (∀ q x m, RunsSlot s (.strm q x m) ks n k → exec (.strm q x m) s = .next (completeSlot s ks n k)) ∧
  (∀ d a, RunsSlot s (.mpopc d a) ks n k → exec (.mpopc d a) s = .next (completeSlot (slotX s k d 0) ks n k)) ∧
  (∀ d a, RunsSlot s (.mfirst d a) ks n k → exec (.mfirst d a) s = .next (completeSlot (slotX s k d 0xFFFFFFFFFFFFFFFF) ks n k)) ∧
  (∀ d a x op g f, RunsSlot s (.vred d a x op g f) ks n k → exec (.vred d a x op g f) s = .next (completeSlot (slotX s k d k.xsv) ks n k)) ∧
  (∀ d a x op g f, RunsSlot s (.vredf d a x op g f) ks n k → exec (.vredf d a x op g f) s = .next (completeSlot (slotX s k d k.xsv) ks n k))

/-! ## Vector memory -/

/-- Where element e of native text lies (R54, R154): at B + e × ew / 8, at B + e × stride, at B + vb[e]; packed LNS6 in the field of six bits
at bit 6 × (e mod 4) of its group of three bytes, groups 3 bytes or the stride apart; with G = 1 at table[d] + offset + low bits (R164).
Vector loads complete with the loaded values (R154 to R160): `vld`, `vlds`, `vldx`, `vldxo` and `vldff` when no active element faults. A
load with G = 1 under the armature whose elements name another die is a rendezvous and stands apart (R36, R164). On a stream page a load sees the
copy in the core's L1, which the gather agent passes by (R260, R262). Through the address of all ones, which `vxlate` gives for a position out of range,
every element of a unit-stride or strided form lies at that address (R299).
The model's choice or reading: the bytes of a packed element's checks, `vldff` at its lowest element, and every element at an address of all ones (log
entries 29, 33, 82). -/
def Obligations.VectorLoadsAtTheirAddresses : Prop :=
  (∀ s k z o (b : VReg) e, s.strand.portable = false →
   let base := k.xsv + o.signExtend 64
   let w := ewBits s / 8
   (k.xsv = BitVec.allOnes 64 → (unitSite s k z o e).ea = BitVec.allOnes 64 ∧ (strideSite s k z o e).ea = BitVec.allOnes 64) ∧
   (k.xsv ≠ BitVec.allOnes 64 → z ≠ 4 → unitSite s k z o e = plainSite (base + BitVec.ofNat 64 (e * w)) w ∧
     strideSite s k z o e = plainSite (base + BitVec.ofNat 64 e * k.xbv) w) ∧
   (k.xsv ≠ BitVec.allOnes 64 → ∀ step site, step = 3 ∧ site = unitSite s k 4 o e ∨ step = k.xbv ∧ site = strideSite s k 4 o e →
     let group := base + BitVec.ofNat 64 (e / 4) * step
     site.tval = group ∧ ∃ q r, 6 * (e % 4) = 8 * q + r ∧ r < 8 ∧ site.ea = group + BitVec.ofNat 64 q ∧ site.shift = some r
       ∧ site.n = if r + 6 ≤ 8 then 1 else 2) ∧
   gatherSite s k b false o e = plainSite (base + BitVec.ofNat 64 (elemOf (getV s b) (ewBits s) e)) w ∧
   (let v := BitVec.ofNat 64 (elemOf (getV s b) 64 e)
    let entry : Word := BitVec.ofNat 64 (k.desc.toNat / 2 ^ (64 * (v.toNat / 2 ^ 61)))
    (gatherSite s k b true o e).ea = entry + o.signExtend 64 + BitVec.ofNat 64 (v.toNat % 2 ^ 61) ∧ (gatherSite s k b true o e).n = 8
      ∧ ((gatherSite s k b true o e).void = true ↔ entry = 0))) ∧
  (∀ d x y z (b : VReg) gl o g,
   LoadsElements (.vld d x z o g) d g false false (fun _ _ => false) (fun s k => unitSite s k z o) ∧
   LoadsElements (.vldff d x z o g) d g false false (fun _ _ => false) (fun s k => unitSite s k z o) ∧
   LoadsElements (.vlds d x y z o g) d g false false (fun _ _ => false) (fun s k => strideSite s k z o) ∧
   LoadsElements (.vldx d x b z gl o g) d g false gl (fun s k => remoteLoad s k b gl g) (fun s k => gatherSite s k b gl o) ∧
   LoadsElements (.vldxo d x b z gl o g) d g false gl (fun s k => remoteLoad s k b gl g) (fun s k => gatherSite s k b gl o))

/-- Vector stores complete with their bytes stored (R154 to R159): `vst`, `vsts` and `vstx` leave one of several writers' values, `vstxo` that
of the highest.
The model's choice or reading: which of several writers stands (log entry 11). -/
def Obligations.VectorStores : Prop := ∀ a x y z (b : VReg) gl o g,
  StoresElements (.vst a x z o g) a g false (fun s k => unitSite s k z o) ∧
  StoresElements (.vsts a x y z o g) a g false (fun s k => strideSite s k z o) ∧
  StoresElements (.vstx a x b z gl o g) a g false (fun s k => gatherSite s k b gl o) ∧
  StoresElements (.vstxo a x b z gl o g) a g true (fun s k => gatherSite s k b gl o)

/-- The forms that run whole (R161, R162). `vldm` loads and `vstm` stores the mask bits below `vl`, the other bits of the register and of the
last byte as they were; `vfill` loads and `vspill` stores the whole register at an address of 64 bytes. An address off that
alignment traps in class 7, and an access that fails traps with its lowest failing address (R163), or waits where its walk must (R190, R360). -/
def Obligations.WholeMoves : Prop := ∀ (m : MReg) (v : VReg) x o s ks n k, s.strand.portable = false → s.strand.vl ≠ 0 → Canonical s →
  let vl := s.strand.vl.toNat
  let mlen := (vl + 7) / 8
  let vlen := s.hart.grant.vlen / 8
  let can (a : Word) (len : Nat) (acc : Access) (pas : List Nat) (l : Leaf) : Prop :=
    checkRange s (me s) s.hart.tenant a len acc false = .ok (pas, l) ∧ ∀ y ∈ linesOf pas, engineLine s y = false
  let base := k.xsv + o.signExtend 64
  (∀ pas l, RunsSlot s (.vldm m x o) ks n k → can base mlen .read pas l →
    ∃ u b, bare u = bare s ∧ exec (.vldm m x o) s = .next (completeSlot (setM u m b) ks n k)
      ∧ ∀ e, e < 8192 → b.getLsbD e = if e < vl then (seenAt s base pas l false).testBit e else (getM s m).getLsbD e) ∧
  (∀ pas l, RunsSlot s (.vstm m x o) ks n k → can base mlen .write pas l → pas.Nodup →
    ∃ t, exec (.vstm m x o) s = .next (completeSlot t ks n k) ∧ bare t = bare (setMem s t.mem)
      ∧ (∀ y, y ∉ pas → t.mem.read y = s.mem.read y)
      ∧ ∀ e, e < 8 * mlen → (readPas t.mem pas).testBit e = if e < vl then (getM s m).getLsbD e else (readPas s.mem pas).testBit e) ∧
  (∀ pas l, k.xsv.toNat % 64 = 0 → RunsSlot s (.vfill v x) ks n k → can k.xsv vlen .read pas l →
    ∃ u, bare u = bare s ∧ exec (.vfill v x) s = .next (completeSlot (setV u v (BitVec.ofNat 65536 (seenAt s k.xsv pas l false))) ks n k)) ∧
  (∀ pas l, k.xsv.toNat % 64 = 0 → RunsSlot s (.vspill v x) ks n k → can k.xsv vlen .write pas l → pas.Nodup →
    ∃ t, exec (.vspill v x) s = .next (completeSlot t ks n k) ∧ bare t = bare (setMem s t.mem)
      ∧ (∀ y, y ∉ pas → t.mem.read y = s.mem.read y) ∧ readPas t.mem pas = (getV s v).toNat % 256 ^ pas.length) ∧
  (k.xsv.toNat % 64 ≠ 0 → ∀ i, i = Instr.vfill v x ∨ i = .vspill v x → RunsSlot s i ks n k →
    exec i s = .next (raise { trapAt s 7 0 k.xsv with slot := n } (setConvoy s (some (ks.set n k))))) ∧
  (∀ i a len acc f va, (i = .vldm m x o ∧ a = base ∧ len = mlen ∧ acc = .read) ∨ (i = .vstm m x o ∧ a = base ∧ len = mlen ∧ acc = .write) ∨
      (i = .vfill v x ∧ a = k.xsv ∧ a.toNat % 64 = 0 ∧ len = vlen ∧ acc = .read) ∨
      (i = .vspill v x ∧ a = k.xsv ∧ a.toNat % 64 = 0 ∧ len = vlen ∧ acc = .write) →
    RunsSlot s i ks n k → checkRange s (me s) s.hart.tenant a len acc false = .error (f, va) →
    (f.cls ≠ 0 → ∃ u, bare u = bare s ∧
      exec i s = .next (raise { trapAt s f.cls f.sub va with slot := n } (setConvoy u (some (ks.set n k))))) ∧
    (f.cls = 0 → exec i s = .next (stallSlot s ks n k (.engine f.sub))))

/-- Faults of element instructions (R165): within each lane group the elements before its first failing one commit and later ones have no effect; an
ordered form stops all groups at the lowest failing element. The trap is that of the lowest failing element, and carries its class, its
address, its index and the slot. An element whose walk must wait for an engine's line makes the instruction wait (R190, R360). A faulting `vld` leaves
the elements that commit loaded and the others of its destination as they were, a faulting `vst` the bytes of those that commit stored and every
other byte as it was.
The model's choice or reading: the lane groups of the granted VLEN (log entry 34). -/
def Obligations.VectorFaults : Prop := ∀ s site a strict (es : List Nat), es.Pairwise (· < ·) →
  let fails (e : Nat) : Prop := ∃ f, checkSite s (site e) a strict = .error f
  let noWait : Prop := ∀ e ∈ es, ∀ f, checkSite s (site e) a strict = .error f → f.cls ≠ 0
  let group (e : Nat) : Nat := groupOf (lanesOf s) e
  (∀ e, (∃ d ∈ (planOf s false site a strict es).commit, d.e = e) ↔ e ∈ es ∧ ∀ j ∈ es, j ≤ e → group j = group e → ¬fails j) ∧
  (noWait → ∀ e, (∃ d ∈ (planOf s true site a strict es).commit, d.e = e) ↔ e ∈ es ∧ ∀ j ∈ es, j ≤ e → ¬fails j) ∧
  (∀ ord e f, e ∈ es → checkSite s (site e) a strict = .error f → (∀ j ∈ es, j < e → ¬fails j) →
    (f.cls ≠ 0 → (planOf s ord site a strict es).fault = some (e, site e, f)) ∧
    (f.cls = 0 → (planOf s ord site a strict es).wait = some f.sub)) ∧
  (∀ ord, noWait → (planOf s ord site a strict es).wait = none) ∧
  (∀ ord, (∀ j ∈ es, ¬fails j) → (planOf s ord site a strict es).fault = none) ∧
  (∀ d x z o g ks n k e f, s.strand.portable = false → e ∈ activeOf s k g → f.cls ≠ 0 →
    let at' (e : Nat) : Site := unitSite s k z o e
    (checkSite s (at' e) .read false = .error f → (∀ j ∈ activeOf s k g, j < e → ∃ p, checkSite s (at' j) .read false = .ok p) →
      (Instr.vld d x z o g).wf = true → RunsSlot s (.vld d x z o g) ks n k → OperandsReady s (.vld d x z o g) k →
      let plan := planOf s false at' .read false (activeOf s k g)
      plan.held s = none →
      let seen (y : Done) : Nat := match y.site.shift with
        | none => seenAt s y.site.ea y.pas y.leaf false
        | some b => seenAt s y.site.ea y.pas y.leaf false / 2 ^ b % 64
      ∃ t u c, exec (.vld d x z o g) s
          = .next (raise { trapAt s f.cls f.sub (at' e).tval with slot := n, elem := e } (setConvoy t (some (ks.set n c))))
        ∧ bare t = bare u ∧ OnlyOperands s u (.vld d x z o g) []
        ∧ Delivered s u k d (ewBits s) (fun j => (plan.commit.find? (·.e == j)).map seen) false) ∧
    (checkSite s (at' e) .write false = .error f → (∀ j ∈ activeOf s k g, j < e → ∃ p, checkSite s (at' j) .write false = .ok p) →
      (Instr.vst d x z o g).wf = true → RunsSlot s (.vst d x z o g) ks n k → OperandsReady s (.vst d x z o g) k → Canonical s →
      let plan := planOf s false at' .write false (activeOf s k g)
      plan.held s = none →
      ∃ t c, exec (.vst d x z o g) s
          = .next (raise { trapAt s f.cls f.sub (at' e).tval with slot := n, elem := e } (setConvoy t (some (ks.set n c))))
        ∧ bare t = bare { s with mem := t.mem, fresh := t.fresh }
        ∧ (∀ y, (∀ j ∈ plan.commit, y ∉ j.pas) → t.mem.read y = s.mem.read y)
        ∧ ∀ j ∈ plan.commit, j.site.shift = none → (∀ i ∈ plan.commit, i.e ≠ j.e → ∀ y ∈ i.pas, y ∉ j.pas) →
            readPas t.mem j.pas = elemOf (srcBits s d) (ewBits s) j.e))

/-- Linked and conditional accesses (R169 to R171) when every active element passes its checks. `vgl` loads and links the lines that it reads, beside
those that it has linked before where it waited for a walk meanwhile (R360).
`vsc` stores the elements whose line is linked and whose address no lower active element has, and its mask bits say which; `vscc` combines
the elements of each linked address with its old value. Both leave no link.
The model's choice or reading: that `vscc` is checked for write permission, and that links are lost only as the model brings it about (log
entries 31, 72). -/
def Obligations.LinkedAccesses : Prop := ∀ (d : MReg) q a x (b : VReg) z r op g f,
  LoadsElements (.vgl q x b z g) q g true false (fun _ _ => false) (fun s k => indexSite s k.xsv b) ∧
  (∀ s ks n k (pas : Nat → List Nat), positions s ≠ [] →
    (∀ e ∈ activeOf s k g, ∃ l, Reaches s (indexSite s k.xsv b e) .read true (pas e) l) →
    RunsSlot s (.vgl q x b z g) ks n k → OperandsReady s (.vgl q x b z g) k → (Instr.vgl q x b z g).wf = true →
    ∃ t, exec (.vgl q x b z g) s = .next (completeSlot t ks n k)
      ∧ (∀ e ∈ activeOf s k g, ∀ y ∈ pas e, lineOf y ∈ t.strand.links)
      ∧ ∀ l ∈ t.strand.links, (∃ e ∈ activeOf s k g, ∃ y ∈ pas e, lineOf y = l) ∨ (l ∈ s.strand.links ∧ ∃ c ∈ k.ctr.toList, c ≠ 0)) ∧
  (∀ s ks n k (pas : Nat → List Nat), positions s ≠ [] → Canonical s → s.strand.portable = false →
    let act := activeOf s k g
    let ea (e : Nat) : Word := (indexSite s k.xsv b e).ea
    let linked (e : Nat) : Bool := s.strand.links.contains (lineOf ((pas e).headD 0))
    let first (e : Nat) : Prop := ∀ j ∈ act, j < e → ea j ≠ ea e
    (∀ e ∈ act, ∃ l, Reaches s (indexSite s k.xsv b e) .write true (pas e) l) → (∀ e ∈ act, ∀ j ∈ act, ea e ≠ ea j → ∀ y ∈ pas e, y ∉ pas j) →
      (RunsSlot s (.vsc d a x b z g) ks n k → OperandsReady s (.vsc d a x b z g) k →
        ∃ t, exec (.vsc d a x b z g) s = .next (completeSlot t ks n k) ∧ t.strand.links = []
          ∧ (∀ e, e < 8192 → ((getM t d).getLsbD e = true ↔
              if e ∈ act then linked e = true ∧ first e else (getM s d).getLsbD e = true))
          ∧ (∀ e ∈ act, linked e = true → first e → readPas t.mem (pas e) = elemOf (srcBits s a) (ewBits s) e)
          ∧ ∀ y, (∀ e ∈ act, linked e = true → y ∉ pas e) → t.mem.read y = s.mem.read y) ∧
      (RunsSlot s (.vscc d a x b z r op g f) ks n k → OperandsReady s (.vscc d a x b z r op g f) k →
        let fw := fmtOf s k f
        ∃ t, exec (.vscc d a x b z r op g f) s = .next (completeSlot t ks n k) ∧ t.strand.links = []
          ∧ (fw.ovmask ≠ d → ∀ e, e < 8192 → (getM t d).getLsbD e = if e ∈ act then linked e else (getM s d).getLsbD e)
          ∧ (∀ e ∈ act, linked e = true → readPas t.mem (pas e) % 256 ^ (pas e).length
              = (combineAt s fw op.toNat r (readPas s.mem (pas e))
                  ((act.filter (fun j => linked j && ea j == ea e)).map (elemOf (srcBits s a) (fmtWidth fw.a)))).bits % 256 ^ (pas e).length)
          ∧ ∀ y, (∀ e ∈ act, linked e = true → y ∉ pas e) → t.mem.read y = s.mem.read y))

/-- Translation over a sequence block table and `vwait` (R173 to R176) in native text. `vxlate` gives each active element the address of its
position, or all ones where the position is out of range; `vxlateff` does the same where no element stops it, and otherwise trims `vl` to
the first that does, unless that is the lowest active element and it faults; an element that was complete before a trap stops it where it was out
of range then. The fault of the lowest failing element of `vxlate`, and of `vxlateff`'s lowest active element, traps with its number and no byte of
memory changed. `vwait` waits for an engine's line (R190), completes with 0 for the met elements once every active
element is met, and with 1 for the unmet when its timeout is 0; otherwise it waits.
The model's choice or reading: that the table's doublewords are aligned accesses (log entry 32), what elements complete before a trap keep (log entry
81), and the record of those found out of range (log entry 112). -/
def Obligations.TranslateAndWait : Prop := ∀ d (m : MReg) (a b : VReg) x z c g s ks n k, s.strand.portable = false → positions s ≠ [] →
  let act := activeOf s k g
  let index (e : Nat) : Nat := elemOf (getV s a) 64 e
  let found (e : Nat) : Except (Fail × Word) (List Nat × Option Word) := lookUp s (me s) s.hart.tenant k.xsv (index e) true
  let free (e : Nat) : Prop := ∃ p r, found e = .ok (p, r) ∧ ∀ y ∈ linesOf p, engineLine s y = false
  let at' (e : Nat) : Prop := e ∈ positions s ∧ govTest s g e = true
  let faults (e : Nat) : Prop := ∃ f va, found e = .error (f, va) ∧ f.cls ≠ 0
  let stops (e : Nat) : Prop := if passed s k e = true then k.met.getLsbD e = true else ∀ p w, found e ≠ .ok (p, some w)
  let header : Prop := ∀ y ∈ linesOf (tablePas s (me s) s.hart.tenant k.xsv 64), engineLine s y = false
  (∀ i, i = Instr.vxlate d a x g ∨ (i = .vxlateff d a x g ∧ ∀ e, at' e → ¬stops e) → i.wf = true →
    RunsSlot s i ks n k → OperandsReady s i k → (∀ e ∈ act, free e) →
    ∃ t u, exec i s = .next (completeSlot t ks n k) ∧ bare t = bare u ∧ OnlyOperands s u i []
      ∧ Delivered s u k d 64 (fun e => if e ∈ act then (found e).toOption.map (fun p => (p.2.getD (BitVec.allOnes 64)).toNat) else none)) ∧
  (∀ e, at' e → stops e → (∀ j, at' j → j < e → ¬stops j) → (passed s k e = true ∨ (∃ p, found e = .ok (p, none)) ∨ ∃ j, at' j ∧ j < e) →
    RunsSlot s (.vxlateff d a x g) ks n k → OperandsReady s (.vxlateff d a x g) k → header →
    (∀ j ∈ act, j ≤ e → free j ∨ (j = e ∧ faults j)) → (Instr.vxlateff d a x g).wf = true →
    ∃ t, exec (.vxlateff d a x g) s = .next (completeSlot t ks n k) ∧ t.strand.vl = BitVec.ofNat 14 e) ∧
  (∀ i e f va, i = Instr.vxlate d a x g ∨ (i = .vxlateff d a x g ∧ ∀ j, at' j → e ≤ j) → i.wf = true → RunsSlot s i ks n k →
    OperandsReady s i k → header → e ∈ act → found e = .error (f, va) → (∀ j ∈ act, j < e → ∃ p, found j = .ok p) →
    (∀ j ∈ act, free j ∨ faults j) →
    ∃ t c, exec i s = .next (raise { trapAt s f.cls f.sub va with slot := n, elem := e } (setConvoy t (some (ks.set n c)))) ∧ t.mem = s.mem) ∧
  (∀ pas : Nat → List Nat, RunsSlot s (.vwait m a b x z c g) ks n k →
    (∀ e ∈ act, ∃ l, checkSite s (plainSite (BitVec.ofNat 64 (index e)) (4 * 2 ^ z.toNat)) .read false = .ok (pas e, l)) →
    ((∃ e ∈ act, ∃ y ∈ linesOf (pas e), engineLine s y = true) →
      exec (.vwait m a b x z c g) s = .next (stallSlot (setConvoy s (some (ks.set n k))) ks n k .vwait)) ∧
    ((∀ e ∈ act, ∀ y ∈ linesOf (pas e), engineLine s y = false) →
    let met (e : Nat) : Bool := k.met.getLsbD e
      || waitHolds c.toNat (8 * (4 * 2 ^ z.toNat)) (readPas s.mem (pas e)) (elemOf (getV s b) 64 e)
    ((∀ e ∈ act, met e = true) ∨ k.xsv = 0 → ∃ u v, exec (.vwait m a b x z c g) s = .next (completeSlot (setM u m v) ks n k) ∧ bare u = bare s
      ∧ ∀ e, e < 8192 → v.getLsbD e = if e ∈ act then !met e else (getM s m).getLsbD e) ∧
    ((∃ e ∈ act, met e = false) → k.xsv ≠ 0 → ∃ u k', bare u = bare s
      ∧ exec (.vwait m a b x z c g) s = .next (stallSlot (setConvoy u (some (ks.set n k'))) ks n k' .vwait) ∧ ∀ e, e ∈ act → e < 8192 → k'.met.getLsbD e = met e)))

/-! ## Commands -/

/-- The stash and stream commands (R178 to R184). `smap` maps its units in order, base after base, when each may be read; else the first that
may not traps with its address. `sunmap` unmaps the mapped units of its range and `sflush` keeps them; neither changes a byte. `strm` binds a
queue to a stream at its first entry and `strmend` ends one, once the entry it is within is whole. `vpf` changes nothing but lines (R192). A walk
through an engine's line of a table is waited for (R190, R360).
The engine commands (R186, R190, R191). `cpy`, `cpy2d` and `trim` record a command with the descriptor captured at dispatch and complete at once; the
engine owns its destination lines from then on, but poisoned ones. A thirty-third incomplete command waits. `cpywait` waits for the hart's
commands on the word in x[xs], then loads it. A slot that waits holds back only those of its convoy that depend on it (R81, R218).
The model's choice or reading: the unit that a range starts in, the moment an engine takes its lines, the wait of `strmend` for an entry that is not
whole or a fault that is not delivered, and the address that a mapped unit keeps (log entries 36, 37, 38, 110). -/
def Obligations.CommandSlots : Prop :=
  (∀ s ks n k,
   (∀ x b (m : BitVec 14), RunsSlot s (.smap x b m) ks n k →
     let addr (i : Nat) : Word := k.xsv + BitVec.ofNat 64 (4096 * i)
     let check (i : Nat) := checkPage s (me s) s.hart.tenant (addr i) .read true
     ((∀ i, i < m.toNat → ∃ p, check i = .ok p) → ∃ u us, exec (.smap x b m) s = .next (completeSlot u ks n k)
         ∧ bare u = bare { s with hart := { s.hart with stashMap := s.hart.stashMap ++ us } } ∧ us.length = m.toNat
         ∧ ∀ (i : Nat) y, us[i]? = some y → y.unit = k.xbv.toNat / 4096 + i ∧ y.base = k.xsv.toNat / 4096 + i
           ∧ ∀ pa l, checkPage s (me s) s.hart.tenant (BitVec.ofNat 64 (4096 * y.base)) .read false = .ok (pa, l) → y.pa = some pa) ∧
     (∀ i f, i < m.toNat → check i = .error f → (∀ j, j < i → ∃ p, check j = .ok p) →
       (f.cls ≠ 0 → ∃ u, bare u = bare s ∧
         exec (.smap x b m) s = .next (raise { trapAt s f.cls f.sub (addr i) with slot := n } (setConvoy u (some (ks.set n k))))) ∧
       (f.cls = 0 → exec (.smap x b m) s = .next (stallSlot s ks n k (.engine f.sub))))) ∧
   (∀ x (m : BitVec 14),
     let within (u : StashUnit) : Prop := k.xsv.toNat / 4096 ≤ u.base ∧ u.base < k.xsv.toNat / 4096 + m.toNat
     (RunsSlot s (.sunmap x m) ks n k → ∃ t l, exec (.sunmap x m) s = .next (completeSlot t ks n k)
       ∧ bare t = bare { s with hart := { s.hart with stashMap := l } } ∧ ∀ u, u ∈ l ↔ u ∈ s.hart.stashMap ∧ ¬within u) ∧
     (RunsSlot s (.sflush x m) ks n k → ∃ t, exec (.sflush x m) s = .next (completeSlot t ks n k) ∧ bare t = bare s)) ∧
   (∀ q x m, RunsSlot s (.strm q x m) ks n k → s.strand.vl ≠ 0 → exec (.strm q x m) s = .next (completeSlot { s with hart := { s.hart with
     streams := s.hart.streams ++ [{ num := m, queue := q, spec := k.desc, entry := 0, left := [], vl := s.strand.vl.toNat, fault := none }] } }
       ks n k)) ∧
   (∀ m, RunsSlot s (.strmend m) ks n k →
     ((∀ y, streamOf s m = some y → y.left = [] ∧ y.fault = none) → ∃ t, exec (.strmend m) s = .next (completeSlot t ks n k)
       ∧ t = { s with hart := { s.hart with streams := s.hart.streams.filter (·.num != m) } }) ∧
     (∀ y, streamOf s m = some y → (y.left ≠ [] ∨ y.fault ≠ none) → exec (.strmend m) s = .next (stallSlot s ks n k (.stream m)))) ∧
   (∀ x b g, RunsSlot s (.vpf x b g) ks n k →
     (∀ e ∈ activeOf s k g, ∀ f, checkSite s (indexSite s k.xsv b e) .read false = .error f → f.cls ≠ 0) →
     ∃ t, exec (.vpf x b g) s = .next (completeSlot t ks n k) ∧ bare t = bare s)) ∧
  (∀ s ks n k x d,
   let mine := s.sched.commands.filter (fun c => c.hart == s.hart.key)
   (∀ i kind, (i = Instr.cpy x ∧ kind = 0) ∨ (i = .cpy2d x ∧ kind = 1) ∨ (i = .trim x ∧ kind = 3) → RunsSlot s i ks n k →
     (mine.length < 32 → ∃ t ls, exec i s = .next (completeSlot t ks n k)
       ∧ bare t = bare { s with
           sched := { s.sched with
             commands := s.sched.commands ++ [{ id := s.sched.nextCommand, hart := s.hart.key, access := s.role == .access, kind := kind
                                                desc := k.desc, tenant := s.hart.tenant, die := myDie s, lines := ls, word := none }]
             nextCommand := s.sched.nextCommand + 1 }
           inputs := s.inputs ++ [.commandCompletion s.sched.nextCommand] }
       ∧ (kind ≠ 3 → ∀ l, l ∈ ls ↔ l ∈ copyLines s (kind == 1) (myDie s) s.hart.tenant k.desc)
       ∧ (kind = 3 → ∀ l, l ∈ ls ↔ l ∈ trimLines s (myDie s) s.hart.tenant k.desc)
       ∧ ∀ l ∈ ls, engineLine t l = true ∨ (poisonOf t l).isSome = true) ∧
     (32 ≤ mine.length → exec i s = .next (stallSlot s ks n k .commands))) ∧
   (RunsSlot s (.cpywait d x) ks n k →
     ((∃ c ∈ mine, c.desc.extractLsb' 0 64 = k.xsv) → exec (.cpywait d x) s = .next (stallSlot s ks n k (.cpywait k.xsv))) ∧
     ((∀ c ∈ mine, c.desc.extractLsb' 0 64 ≠ k.xsv) →
       (∀ pa l, checkAligned s (me s) s.hart.tenant k.xsv 8 .read false = .ok (pa, l) →
         (engineLine s (lineOf pa) = false →
           ∃ t, bare t = bare s ∧ exec (.cpywait d x) s = .next (completeSlot (slotX t k d (BitVec.ofNat 64 (s.mem.readNat pa 8))) ks n k)) ∧
         (engineLine s (lineOf pa) = true → exec (.cpywait d x) s = .next (stallSlot s ks n k (.engine (lineOf pa))))) ∧
       (∀ f, checkAligned s (me s) s.hart.tenant k.xsv 8 .read false = .error f →
         (f.cls ≠ 0 → ∃ t, bare t = bare s ∧ exec (.cpywait d x) s
           = .next (raise { trapAt s f.cls f.sub k.xsv with slot := n } (setConvoy t (some (ks.set n k))))) ∧
         (f.cls = 0 → exec (.cpywait d x) s = .next (stallSlot s ks n k (.engine f.sub)))))))

/-! ## Diagonals -/

/-- Shape, window and presence (R196, R202, R207). `mshape` writes `cr.mshape`, clears the window and marks every diagonal absent; `maccwin` writes
`cr.accwin` with its enable bit and marks every diagonal absent; `aczero` marks absent the offsets of the window from d on, or all; `acmap`
writes the presence of offsets d + j into a mask's bits below `vl`. -/
def Obligations.DiagonalWindow : Prop := ∀ s ks n k x (m : MReg),
  let put (c : CtrlRegs) (p : BitVec 65536) : State := { s with hart := { s.hart with cr := c, dg := { s.hart.dg with present := p } } }
  let w := winOf s
  let from0 : Int := (k.xsv.extractLsb' 0 16).toInt
  let count := (k.xsv.extractLsb' 16 16).toNat
  (RunsSlot s (.mshape x) ks n k → exec (.mshape x) s = .next (completeSlot (put { s.hart.cr with mshape := k.xsv, accwin := 0 } 0) ks n k)) ∧
  (RunsSlot s (.maccwin x) ks n k →
    exec (.maccwin x) s = .next (completeSlot (put { s.hart.cr with accwin := k.xsv ||| 0x8000000000000000 } 0) ks n k)) ∧
  (RunsSlot s (.aczero x) ks n k → ∃ p, exec (.aczero x) s = .next (completeSlot (put s.hart.cr p) ks n k)
    ∧ (count = 0 → p = 0)
    ∧ (count ≠ 0 → ∀ j, j < 65536 → p.getLsbD j
        = (s.hart.dg.present.getLsbD j && !decide (from0 ≤ w.lo + j ∧ w.lo + j < from0 + count ∧ w.lo + j ≤ w.hi)))) ∧
  (RunsSlot s (.acmap m x) ks n k → ∃ t, exec (.acmap m x) s = .next (completeSlot t ks n k) ∧ OnlyOperands s t (.acmap m x) [m]
    ∧ ∀ j, j < 8192 → (getM t m).getLsbD j = if j < vlOf s then decide (w.lo ≤ from0 + j ∧ from0 + j ≤ w.hi)
        && s.hart.dg.present.getLsbD (from0 + j - w.lo).toNat else (getM s m).getLsbD j)

/-- `dmac` and `dmacf` (R198 to R201): element c0 + t of C, where it and both operands lie below `vl` and the mask passes it, becomes the exact sum of
its old value (0 with init) and A[a0 + t] × B[b0 + t], converted once into dfmt; the other elements stay. At most one product meets an
element of one pair, so the free member gives the same.
The model's choice or reading: what a zero LNS6 product adds (log entry 44). -/
def Obligations.DiagonalPrimitive : Prop := ∀ d a b x init g f i s ks n k,
  i = Instr.dmac d a b x init g f ∨ i = .dmacf d a b x init g f → i.wf = true → RunsSlot s i ks n k → vlOf s ≠ 0 → OperandsReady s i k →
  let fw : FmtWord := fmtOf s k f
  let o := overlap (shapeOf s) (k.xsv.extractLsb' 0 16).toInt (k.xsv.extractLsb' 16 16).toInt
  let meets (t : Nat) : Prop := t < o.n ∧ o.a0 + t < vlOf s ∧ o.b0 + t < vlOf s ∧ o.c0 + t < vlOf s ∧ govTest s g (o.c0 + t) = true
  let old (t : Nat) : Val := if init then .zero false else fw.readC (elemOf (getV s d) (fmtWidth fw.c) (o.c0 + t))
  let new (t : Nat) : Conv := dmacStep fw (old t) (elemOf (srcBits s a) (fmtWidth fw.a) (o.a0 + t)) (elemOf (srcBits s b) (fmtWidth fw.b) (o.b0 + t))
  ∃ u, exec i s = .next (completeSlot u ks n k) ∧ OnlyOperands s u i (if fw.ovmask = 0 then [] else [fw.ovmask])
    ∧ (∀ t, meets t → fmtWidth fw.d * (o.c0 + t) + fmtWidth fw.d ≤ 65536 → elemOf (getV u d) (fmtWidth fw.d) (o.c0 + t)
        = (new t).bits % 2 ^ fmtWidth fw.d)
    ∧ (∀ e, fmtWidth fw.d * e + fmtWidth fw.d ≤ 65536 → (∀ t, meets t → e ≠ o.c0 + t) →
        elemOf (getV u d) (fmtWidth fw.d) e = elemOf (getV s d) (fmtWidth fw.d) e)
    ∧ (∀ t, meets t → o.c0 + t < 8192 → fw.ovmask ≠ 0 → (getM u fw.ovmask).getLsbD (o.c0 + t)
        = ((getM s fw.ovmask).getLsbD (o.c0 + t) || (new t).out))

/-- The sweeps (R208 to R211, R215): once both operands have been staged, each held element of the window has received, unit by unit in pair order,
the exact sum of the unit's products with one rounding a unit: a unit is one pair for the strict member and eight pairs for the free
one. A diagonal is present that was so, or that received a contribution. Nothing else of the machine changes after the staging, which is empty
then. A sweep that is to stop keeps the unit and the position of its stop in `cr.dprog` and goes on later (R216, R217).
Where a compressed sweep waits and traps (R208, R215): it waits for the queues that hold too little of their streams and keeps what it has staged of
either, and a malformed compressed stream traps in class 1, subcause 2, with nothing contributed, also while the other operand is short.
The model's choice or reading: that a staged sweep that no stop is asked of runs in one step, and that a malformed stream is found in its staged
bytes (log entries 42, 43, 44). -/
def Obligations.SweepSumsAndStaging : Prop :=
  (∀ a b x init f s ks n k i (free sparse : Bool) da db s1 k1 s2 k2 nA nB enA enB,
   i = (if sparse then (if free then Instr.spsweepf a b x f else .spsweep a b x f)
       else (if free then .dsweepf a b x init f else .dsweep a b x init f)) →
   let fw : FmtWord := fmtOf s k f
   let h := shapeOf s
   (nA, nB) = (if sparse then (vlOf s * ewBits s / 8, vlOf s * ewBits s / 8) else (vlOf s * fmtWidth fw.a / 8, vlOf s * fmtWidth fw.b / 8)) →
   enA = (if sparse then fun buf used => sparseDiags buf used h.m h.k fw.a (ufield k.xsv 0 16) 0 none
       else denseEnough (fmtWidth fw.a) h.lenA (sfield k.xsv 0 16) (ufield k.xsv 32 16)) →
   enB = (if sparse then fun buf used => sparseDiags buf used h.k h.n fw.b (ufield k.xsv 16 16) 0 none
       else denseEnough (fmtWidth fw.b) h.lenB (sfield k.xsv 16 16) (ufield k.xsv 48 16)) →
   RunsSlot s i ks n k → vlOf s ≠ 0 → s.hart.cr.dprog = 0 → k.stop = none →
   stageUntil false a nA enA entriesAtOnce k s = .ready s1 k1 da → stageUntil true b nB enB entriesAtOnce k1 s1 = .ready s2 k2 db →
   s.hart.dg.accs ≤ 32 → maccwinOk s (s.hart.cr.accwin &&& 0x7FFFFFFFFFFFFFFF) = true →
   let w := winOf s
   let units := groupsOf (if free then 8 else 1) (da.flatMap (fun p => db.map (fun q => (p, q))))
   let terms (ps : List (Diag × Diag)) (r : Int) (e : Nat) : List Val :=
     (ps.filter (fun p => p.1.off + p.2.off == r)).filterMap (fun p => pairTerm fw h p e)
   let before (r : Int) (e : Nat) : Nat := if init && !sparse then 0 else accRead s.hart.dg w h r e
   ∃ dg, exec i s = .next (completeSlot { s2 with hart := { s2.hart with dg := dg } } ks n k) ∧ dg.stageA = 0 ∧ dg.stageB = 0
     ∧ (∀ r e, w.held r e = true → e < h.lenC r → accRead dg w h r e % 2 ^ (8 * accWidth h.akind)
         = units.foldl (fun v ps => if terms ps r e = [] then v else accStep fw h.akind v (terms ps r e) % 2 ^ (8 * accWidth h.akind)) (before r e))
     ∧ (∀ r, w.lo ≤ r → r ≤ w.hi → (presentAt dg w r = true ↔
         ((init && !sparse) = false ∧ presentAt s.hart.dg w r = true)
           ∨ ∃ ps ∈ units, ∃ e, e < h.lenC r ∧ w.held r e = true ∧ terms ps r e ≠ []))) ∧
  (∀ a b x f s ks n k i (free : Bool),
   i = (if free then Instr.spsweepf a b x f else .spsweep a b x f) → RunsSlot s i ks n k → vlOf s ≠ 0 →
   let fw : FmtWord := fmtOf s k f
   let h := shapeOf s
   let bytes := vlOf s * ewBits s / 8
   let enA := fun buf used => sparseDiags buf used h.m h.k fw.a (ufield k.xsv 0 16) 0 none
   let enB := fun buf used => sparseDiags buf used h.k h.n fw.b (ufield k.xsv 16 16) 0 none
   (∀ s1 k1, stageUntil false a bytes enA entriesAtOnce k s = .bad s1 k1 → s1.hart.dg.acc = s.hart.dg.acc ∧ s1.hart.dg.present = s.hart.dg.present
     ∧ exec i s = .next (raise { trapAt s1 1 2 (instrWord k1.instr) with slot := n } (setConvoy s1 (some (ks.set n k1))))) ∧
   (∀ s1 k1 da s2 k2, stageUntil false a bytes enA entriesAtOnce k s = .ready s1 k1 da →
     stageUntil true b bytes enB entriesAtOnce k1 s1 = .short s2 k2 → s2.hart.dg.acc = s.hart.dg.acc ∧ s2.hart.dg.present = s.hart.dg.present
       ∧ exec i s = .next (stallSlot (setConvoy s2 (some (ks.set n k2))) ks n k2 (.popEmpty b))) ∧
   (∀ s1 k1 s2 k2 w, stageUntil false a bytes enA entriesAtOnce k s = .short s1 k1 →
     (stageUntil true b bytes enB entriesAtOnce k1 s1 = .short s2 k2 ∧ w = .popEither a b) ∨
       (∃ db, stageUntil true b bytes enB entriesAtOnce k1 s1 = .ready s2 k2 db ∧ w = .popEmpty a) →
     s2.hart.dg.acc = s.hart.dg.acc ∧ s2.hart.dg.present = s.hart.dg.present
       ∧ exec i s = .next (stallSlot (setConvoy s2 (some (ks.set n k2))) ks n k2 w)) ∧
   (∀ s1 k1 s2 k2, (stageUntil false a bytes enA entriesAtOnce k s = .short s1 k1 ∨ ∃ da, stageUntil false a bytes enA entriesAtOnce k s = .ready s1 k1 da) →
     stageUntil true b bytes enB entriesAtOnce k1 s1 = .bad s2 k2 → s2.hart.dg.acc = s.hart.dg.acc ∧ s2.hart.dg.present = s.hart.dg.present
       ∧ exec i s = .next (raise { trapAt s2 1 2 (instrWord k2.instr) with slot := n } (setConvoy s2 (some (ks.set n k2)))))) ∧
  (∀ s ks n k f free init da db u p,
   let h := shapeOf s
   let units := groupsOf (if free then 8 else 1) (da.flatMap (fun a => db.map (fun b => (a, b))))
   nextSlot ks 0 = some (n, k) → ufield s.hart.cr.dprog 0 16 % 64 = 0 →
   k.stop.bind (sweepStop free h units (ufield s.hart.cr.dprog 16 47) (ufield s.hart.cr.dprog 0 16)) = some (u, p) →
   ∃ t, runNext (sweepRun f free init da db) ks s = .next t ∧ t.strand = { s.strand with convoy := some (ks.set n k) }
     ∧ t.hart.cr.dprog = BitVec.ofNat 64 (p + 2 ^ 16 * u) ∧ p % 64 = 0 ∧ u < units.length ∧ t.mem = s.mem ∧ t.hart.regs = s.hart.regs)

/-- `sppack` and `spunpack` (R212 to R214): the result's bytes stand at the front of the destination, and a bad header, size or count traps in class 1,
a format code that is not the format word's in class 2. Unpacking what was packed gives the header and the elements back, zeros as +0.
The model's choice or reading: the order of the checks and sizes under an unknown format code (log entry 45). -/
def Obligations.DiagonalPacking : Prop :=
  (∀ d a f (unpack : Bool) i s ks n k, i = (if unpack then Instr.spunpack d a f else .sppack d a f) → i.wf = true → RunsSlot s i ks n k → vlOf s ≠ 0 →
    OperandsReady s i k →
    let limit := vlOf s * ewBits s / 8
    let out := packRun unpack (fmtOf s k f) ((srcBits s a).toNat % 2 ^ (8 * limit)) limit (if s.strand.portable then limit else s.hart.grant.vlen / 8)
    (∀ bits size, out = .ok (bits, size) → 8 * size ≤ 65536 → ∃ t, exec i s = .next (completeSlot t ks n k) ∧ OnlyOperands s t i []
      ∧ (isQueue d = true → k.pushed = false → getQ t d = getQ (popQs s (sourcesOf i)) d ++ [⟨BitVec.ofNat 65536 (bits % 2 ^ (8 * size)), true, s.strand.vl⟩])
      ∧ (isQueue d = false → ∀ j, (getV t (vregOf d)).getLsbD j = if j < 8 * size then bits.testBit j else (getV s (vregOf d)).getLsbD j)) ∧
    (out = .error false → exec i s = .next (raise { trapAt s 1 0 (instrWord k.instr) with slot := n } (setConvoy s (some (ks.set n k))))) ∧
    (out = .error true → exec i s = .next (raise { trapAt s 2 0 k.fmtw with slot := n } (setConvoy s (some (ks.set n k)))))) ∧
  (∀ f src limit room bits size limit' room',
    let h := DiagHeader.read src
    let w := 8 * valueBytes h.fmt
    packRun false f src limit room = .ok (bits, size) → size ≤ limit' → plainSize h.len h.fmt ≤ room' →
    ∃ back, packRun true f bits limit' room' = .ok (back, plainSize h.len h.fmt) ∧ (DiagHeader.read back).offset = h.offset
      ∧ (DiagHeader.read back).len = h.len ∧ (DiagHeader.read back).fmt = h.fmt
      ∧ ∀ e, e < h.len → field (back / 2 ^ 128) w e = if countsZero h.fmt (field (src / 2 ^ 128) w e) then 0 else field (src / 2 ^ 128) w e)

/-- `acld` and `acst` (R203, R205, R206) in a window that `maccwin` takes. `acld` puts va[e] into element first + e of diagonal r where that is held; the
diagonal's other elements stay, or are zero where it was absent, and it is present; other diagonals are as before. `acst` writes the elements
as they read, converted into dfmt, and changes nothing in the store.
The model's choice or reading: that `acld` fills an absent diagonal whatever it names (log entry 46). -/
def Obligations.AccumulatorAccess : Prop := ∀ a x f s ks n k, maccwinOk s (s.hart.cr.accwin &&& 0x7FFFFFFFFFFFFFFF) = true → vlOf s ≠ 0 →
  let h := shapeOf s
  let w := winOf s
  let r : Int := (k.xsv.extractLsb' 0 16).toInt
  let first := (k.xsv.extractLsb' 32 16).toNat
  let count := min (vlOf s) (h.lenC r - first)
  (∀ i, i = Instr.acld a x → i.wf = true → s.hart.dg.accs ≤ 32 → selOk s k.xsv true false = true → h.akind ≠ 13 →
    8 * accWidth h.akind = ewBits s → RunsSlot s i ks n k → OperandsReady s i k →
    ∃ dg, exec i s = .next (completeSlot { popQs s (sourcesOf i) with hart := { (popQs s (sourcesOf i)).hart with dg := dg } } ks n k)
      ∧ presentAt dg w r = true
      ∧ (∀ j, j < h.lenC r → w.held r j = true → accRead dg w h r j
          = if first ≤ j ∧ j < first + count then elemOf (srcBits s a) (ewBits s) (j - first) else accRead s.hart.dg w h r j)
      ∧ ∀ q j, q ≠ r → j < h.lenC q → accRead dg w h q j = accRead s.hart.dg w h q j) ∧
  (∀ i, i = Instr.acst a x f → i.wf = true → RunsSlot s i ks n k → OperandsReady s i k →
    let fw : FmtWord := fmtOf s k f
    let out (e : Nat) : Conv := accConvert fw h.akind (accRead s.hart.dg w h r (first + e))
    ∃ t, exec i s = .next (completeSlot t ks n k) ∧ OnlyOperands s t i (if fw.ovmask = 0 then [] else [fw.ovmask])
      ∧ Delivered s t k a (fmtWidth fw.d) (fun e => if e < count then some (out e).bits else none)
      ∧ (fw.ovmask ≠ 0 → ∀ e, e < 8192 → (getM t fw.ovmask).getLsbD e
          = ((getM s fw.ovmask).getLsbD e || (decide (e < count) && (out e).out))))

/-! ## Events of strands and harts -/

/-- Events of a strand that its hart runs (R19, R29, R39, R112 to R117, R176). A waiting strand goes on when its condition holds. Both strands held for
good trap in class 1, subcause 1. A changed grant is relayed once its conditions hold. A `vwait` whose timeout ends writes the unmet elements; a
timeout of all ones never does. A pending interrupt is delivered to the handler: `cr.upc` the pc, `cr.ucause` inhibited with kind 1,
`cr.utval` the completion word's address. A convoy that waits at `vwait` or `cpywait` is set aside; another convoy in flight stays so, a `vwait` of it
latching nothing (R177), and the scalar instruction behind it is the one to return to (R114).
The model's choice or reading: that an event whose condition fails changes nothing, when a deadlock is found and where an interrupt comes in
(log entries 3, 73, 74). -/
def Obligations.StrandEvents : Prop := ∀ s h r t, focusOf s h r = some t → t.hart.status = .running →
  (canStep t = true → exec (.waitResumption h r) s = .next { t with strand := { t.strand with
    stall := none
    convoy := if t.strand.stall = none then t.strand.convoy else t.strand.convoy.map (fun ks => ks.map (fun k => { k with held := none })) } }) ∧
  (canStep t = false → exec (.waitResumption h r) s = .next s) ∧
  (r = .access → (deadlocked t = true → ∃ x, x.cls = 1 ∧ x.sub = 1 ∧ exec (.strandDeadlock h) s = .next (raise x t)) ∧
    (deadlocked t = false → exec (.strandDeadlock h) s = .next s)) ∧
  (r = .access → ∀ d n share cls ew, t.strand.stall = some (.regrant d n share cls ew) → cls ≤ 16 →
    (mayRelay t = true → ∃ u, exec (.grantRelay h) s = .next u ∧ u.hart.grant = negotiate t share cls ∧ u.strand.stall = none
      ∧ u.strand.vl.toNat = min n ((negotiate t share cls).vlen / (8 * 2 ^ ew.toNat)) ∧ u.strand.ew = ew
      ∧ (d ≠ 0 → getX u d = BitVec.ofNat 64 u.strand.vl.toNat) ∧ (∀ x, x ≠ d → getX u x = getX t x) ∧ u.strand.pc = t.strand.pc + 4
      ∧ u.strand.strips = t.strand.strips + 1) ∧
    (mayRelay t = false → exec (.grantRelay h) s = .next t)) ∧
  (∀ i d a b x z c g ks n k (pas : Nat → List Nat), i = Instr.vwait d a b x z c g → t.strand.stall = some .vwait →
    t.strand.convoy = some ks → vwaitSlot ks = some (n, k) → k.instr = i →
    (k.xsv = BitVec.allOnes 64 → exec (.vwaitExpiry h r) s = .next s) ∧
    (k.xsv ≠ BitVec.allOnes 64 → positions t ≠ [] → (∀ e ∈ activeOf t k g, ∀ y ∈ linesOf (pas e), engineLine t y = false) →
      (∀ e ∈ activeOf t k g, ∃ l, checkSite t (plainSite (BitVec.ofNat 64 (elemOf (getV t a) 64 e)) (4 * 2 ^ z.toNat)) .read false = .ok (pas e, l)) →
      ∃ u v, exec (.vwaitExpiry h r) s = .next (completeSlot (setM u d v) (ks.map (fun k => { k with held := none })) n { k with held := none })
        ∧ bare u = bare (clearStall t)
        ∧ ∀ e, e < 8192 → v.getLsbD e = if e ∈ activeOf t k g then
            !(k.met.getLsbD e || waitHolds c.toNat (8 * (4 * 2 ^ z.toNat)) (readPas t.mem (pas e)) (elemOf (getV t b) 64 e))
          else (getM t d).getLsbD e)) ∧
  (∀ i, interruptDue t = true → nextInterrupt t = some i →
    let handler : Word := t.hart.cr.uivec &&& 0x000FFFFFFFFFFFFC
    let taken (x : Strand) (ret dprog : Word) : State := { t with
      sched := (abandon t t.hart.key (t.strand.convoy.map (fun _ => t.strand.unit))).sched
      strand := { x with resv := none, links := [] }
      hart := { t.hart with
        pending := t.hart.pending.erase i
        cr := { t.hart.cr with
          upc := ret &&& 0x000FFFFFFFFFFFFC, utval := i.cword, dprog := dprog
          ucause := 0x8000000000000000 ||| (if t.role = .access then 0x4000000000000000 else 0) ||| 0x40 ||| i.code.setWidth 64 } } }
    let waitsThere : Prop := ∃ w ∈ stallsOf t, w = .vwait ∨ ∃ a, w = .cpywait a
    let ret : Word := (t.strand.ahead.map (·.1)).getD t.strand.pc
    (∀ ks, t.strand.convoy = some ks → waitsThere →
      exec (.userInterruptDelivery h r) s = .next (taken { t.strand.lastStrip with
        pc := handler, stall := none, convoy := none, ahead := none
        aside := some ⟨t.strand.pc, ks.map Slot.abandoned, ret, t.strand.later.map (fun _ => t.strand.strip), t.strand.unit⟩ }
        ret (if t.role = .access then t.hart.cr.dprog else 0))) ∧
    (t.strand.convoy = none →
      exec (.userInterruptDelivery h r) s = .next (taken { t.strand with pc := handler, stall := none } t.strand.pc t.hart.cr.dprog)) ∧
    (∀ ks, t.strand.convoy = some ks → ¬waitsThere →
      exec (.userInterruptDelivery h r) s = .next (taken { t.strand with
          ahead := some (handler, none), convoy := some (ks.map (fun k => { k with met := k.abandoned.met })) }
        ((t.strand.ahead.map (·.1)).getD (t.strand.pc + BitVec.ofNat 64 (4 + 8 * ks.length))) t.hart.cr.dprog)))

/-- Streams (R17, R181 to R184), with the access strand in the focus. An entry of a load stream whose elements all pass their checks goes behind its
queue with their numbers; one of a store stream stores its elements and leaves its queue; the entry number moves on. A fault traps
with its element, stream and entry at a boundary and the stream keeps its progress. After its last entry the stream is gone.
The model's choice or reading: that an entry is a step, and that an event whose condition fails changes nothing (log entries 3, 37). -/
def Obligations.StreamEvents : Prop := ∀ s h t x, focusOf s h .access = some t → t.hart.status = .running →
  streamOf t x.num = some x →
  let w := 8 * 2 ^ dfield x.spec 352 8
  let moved (u : State) : Prop := u.hart.streams = t.hart.streams.map (fun y => if y.num == x.num then { x with entry := x.entry + 1, left := [] } else y)
  (∀ pas : Nat → List Nat, isLq x.queue = true → streamReady t x = true → x.left = [] →
    (∀ e, e < x.vl → ∃ l, Reaches t (streamSite x.spec x.entry e) .read false (pas e) l) →
    ∃ u b, exec (.streamEntry h x.num) s = .next u ∧ u.mem = t.mem ∧ u.hart.regs = t.hart.regs ∧ moved u
      ∧ getQ u x.queue = getQ t x.queue ++ [⟨b, true, BitVec.ofNat 14 x.vl⟩]
      ∧ ∀ e, e < x.vl → w * e + w ≤ 65536 → elemOf b w e = readPas t.mem (pas e) % 2 ^ w) ∧
  (∀ pas : Nat → List Nat, isQueue x.queue = true → isLq x.queue = false → streamReady t x = true → x.left = [] → Canonical t →
    (∀ e, e < x.vl → ∃ l, Reaches t (streamSite x.spec x.entry e) .write false (pas e) l) →
    ∃ u, exec (.streamEntry h x.num) s = .next u ∧ u.hart.regs = t.hart.regs ∧ moved u ∧ getQ u x.queue = (getQ t x.queue).tail
      ∧ (∀ y, (∀ e, e < x.vl → y ∉ pas e) → u.mem.read y = t.mem.read y)
      ∧ ∀ e, e < x.vl → (∀ j, j < x.vl → j ≠ e → ∀ y ∈ pas j, y ∉ pas e) → readPas u.mem (pas e) = elemOf (srcBits t x.queue) w e) ∧
  (∀ f, x.fault = some f → atBoundary t.strand = true → exec (.streamFault h x.num) s = .next (raise { f with pc := t.strand.pc }
    { t with hart := { t.hart with streams := t.hart.streams.map (fun y => if y.num == x.num then { x with fault := none } else y) } })) ∧
  (streamCount x.spec ≤ x.entry → ∃ u, exec (.streamEnd h x.num) s = .next u ∧ u.hart.streams = t.hart.streams.filter (·.num != x.num)) ∧
  (x.entry < streamCount x.spec → exec (.streamEnd h x.num) s = .next s)

/-- Commands and the ends of harts and launches (R113, R187 to R189, R226, R243, R245). A piece of a copy is read whole and written whole. A copy
that ends without a failure leaves each byte of its destination as the byte of its source was, the last write of a byte standing, where no byte of
the destination is one of the source's, and no other byte changes (R187). A trim moves the token of each position whose retention byte is at or above the
threshold, in order, to positions 0, 1 and on of its destination table (R188). A command that no line holds up runs, its completion word is stored (the descriptor's word, or bit 63 with the cause and the address of a failure), and it leaves the
list; the interrupt that it asks for is pending for its hart. One whose word must wait for its line does its work and keeps the word (R190). A retiring hart with no
command left leaves its slot and its launch. A launch whose harts have all retired stores its completion word, once no line holds it up, is gone, and sends the
vector its ring entry asks for.
The model's choice or reading: that a command runs whole, and that an event whose condition fails changes nothing (log entries 3, 38, 39, 114). -/
def Obligations.CommandAndRetirementEvents : Prop :=
  (∀ s d tenant src dst n agent u, Canonical s → dst.toNat % 128 + n ≤ 128 → copyPiece s d tenant src dst n agent = .ok u →
    ∃ ps qs x y, checkRange s (.unit d) tenant src n .read false = .ok (ps, x)
      ∧ checkRange (unitReads s d tenant src n agent) (.unit d) tenant dst n .write false = .ok (qs, y)
      ∧ readPas u.mem qs = readPas s.mem ps ∧ ∀ a, a ∉ qs → u.mem.read a = s.mem.read a) ∧
  (∀ s d tenant two desc agent u, Canonical s → dfield desc 256 64 ≤ 2 ^ 40 → copyAll two d tenant desc agent s = (u, none) →
    let len := dfield desc 256 64
    let rows := copyRows two desc
    let own (D : Nat → Nat → Nat) (a : Nat) : Prop := ∃ r i, r < rows.length ∧ i < len ∧ a = D r i
    ∃ S D : Nat → Nat → Nat,
      (∀ (r : Nat) p, rows[r]? = some p → ∀ a ∈ piecesOf p.2 len,
        let off := (a - p.2).toNat
        MovesBytes s (own D) d agent tenant (p.1 + BitVec.ofNat 64 off) a (min (128 - a.toNat % 128) (len - off)) (fun i => S r (off + i)) (fun i => D r (off + i)))
      ∧ (∀ a, ¬own D a → u.mem.read a = s.mem.read a)
      ∧ ((∀ r i q j, r < rows.length → q < rows.length → i < len → j < len → D r i ≠ S q j) →
        ∀ r i, r < rows.length → i < len → (∀ q j, q < rows.length → j < len → r < q ∨ (r = q ∧ i < j) → D q j ≠ D r i) →
          u.mem.read (D r i) = s.mem.read (S r i))) ∧
  (∀ s d tenant desc stride count u kept, Canonical s → trimLoop d tenant desc stride count 0 0 s = (u, kept, none) →
    let stab : Word := BitVec.ofNat 64 (dfield desc 128 64)
    let dtab : Word := BitVec.ofNat 64 (dfield desc 192 64)
    let ret (i : Nat) : Word := BitVec.ofNat 64 (dfield desc 256 64) + BitVec.ofNat 64 i
    ∃ (keep : List Nat) (S D : Nat → Nat → Nat),
      let own (a : Nat) : Prop := ∃ j i, j < kept ∧ i < stride ∧ a = D j i
      keep.Pairwise (· < ·) ∧ keep.length = kept ∧ (∀ i ∈ keep, i < count)
      ∧ (∀ i, i < count → ∃ v b, Midway s own v ∧ unitLoad v d tenant (ret i) 1 = .ok b ∧ (i ∈ keep ↔ dfield desc 384 8 ≤ b))
      ∧ (∀ (j : Nat) i, keep[j]? = some i → ∃ v w src dst, Midway s own v ∧ Midway s own w
        ∧ trimAddress v d tenant stab i true (ret i) = .ok src ∧ trimAddress w d tenant dtab j false (ret i) = .ok dst
        ∧ MovesBytes s own d trimAgent tenant src dst stride (S j) (D j))
      ∧ (∀ a, ¬own a → u.mem.read a = s.mem.read a)
      ∧ ((∀ j i q m, j < kept → q < kept → i < stride → m < stride → D j i ≠ S q m) →
        ∀ j i, j < kept → i < stride → (∀ q m, q < kept → m < stride → j < q ∨ (j = q ∧ i < m) → D q m ≠ D j i) →
          u.mem.read (D j i) = s.mem.read (S j i))) ∧
  (∀ s d tenant desc u kept, trimAll d tenant desc s = (u, kept, none) → ∃ stride s1, trimTables s d tenant desc = .ok stride
    ∧ trimLoop d tenant desc stride (dfield desc 320 64) 0 0 s = (s1, kept, none)
    ∧ unitStore s1 d tenant (BitVec.ofNat 64 (dfield desc 192 64)) 8 kept trimAgent = .ok u) ∧
  (∀ s (c : Command), s.sched.commands.find? (·.id == c.id) = some c → c.word = none → commandReady s c = true →
    let cword : Word := c.desc.extractLsb' 0 64
    ∃ u, exec (.commandCompletion c.id) s = .next u ∧ u.sched.commands = s.sched.commands.filter (·.id != c.id)
      ∧ (c.desc.getLsbD 480 = false → c.kind ≠ 3 → ∀ s1 s2, copyAll (c.kind == 1) c.die c.tenant c.desc (engineAgent c) s = (s1, none) →
          unitStore s1 c.die c.tenant cword 8 (c.desc.extractLsb' 64 64).toNat (engineAgent c) = .ok s2 → u.mem = s2.mem)
      ∧ (c.desc.getLsbD 480 = false → c.kind = 3 → ∀ s1 n s2, trimAll c.die c.tenant c.desc s = (s1, n, none) →
          unitStore s1 c.die c.tenant cword 8 (n % 2 ^ 64) trimAgent = .ok s2 → u.mem = s2.mem)
      ∧ (c.desc.getLsbD 480 = false → c.kind ≠ 3 → ∀ s1 s2 cause a, copyAll (c.kind == 1) c.die c.tenant c.desc (engineAgent c) s = (s1, some (cause, a)) →
          unitStore (unitReach s1 c.die c.tenant a 1) c.die c.tenant cword 8 (2 ^ 63 + cause % 128 * 2 ^ 56 + a.toNat % 2 ^ 52) (engineAgent c) = .ok s2 → u.mem = s2.mem)
      ∧ (c.desc.getLsbD 480 = true → s.hart.live = true → s.hart.key = c.hart → s.hart.status = .running →
          u.hart.pending = s.hart.pending ++ [{ access := c.access, code := c.desc.extractLsb' 488 6, cword := cword }])) ∧
  (∀ s (c : Command) w u, s.sched.commands.find? (·.id == c.id) = some c → c.word = some w → commandReady s c = true →
    unitStore s c.die c.tenant (c.desc.extractLsb' 0 64) 8 w.toNat (engineAgent c) = .ok u →
    ∃ t, exec (.commandCompletion c.id) s = .next t ∧ t.sched.commands = s.sched.commands.filter (·.id != c.id)
      ∧ (c.desc.getLsbD 480 = false → t.mem = u.mem)) ∧
  (∀ s (c : Command), s.sched.commands.find? (·.id == c.id) = some c → c.word = none → dataReady s c = true → wordWaits s c = true →
    ∃ t, exec (.commandCompletion c.id) s = .next t ∧ t.mem = (runWork s c).1.mem
      ∧ t.sched.commands = s.sched.commands.map (fun x => if x.id == c.id then { c with word := some (runWork s c).2, lines := [] } else x)) ∧
  (∀ s id, (∀ c, s.sched.commands.find? (·.id == id) = some c → commandDue s c = false) → exec (.commandCompletion id) s = .next s) ∧
  (∀ s h b, boxOf s h = some b → b.hart.status = .retiring → (∀ c ∈ s.sched.commands, c.hart ≠ b.hart.key) →
    ∃ u, exec (.hartRetirement h) s = .next u ∧ boxOf u h = none ∧ u.inputs = s.inputs ++ [.launchCompletion b.hart.key.launch] ∧ u.mem = s.mem
      ∧ ∀ l, launchOf s b.hart.key.launch = some l → ∃ l', launchOf u b.hart.key.launch = some l' ∧ l'.retired = b.hart.key :: l.retired) ∧
  (∀ s l x u, launchOf s l = some x → launchDone s x = true → completionWaits s x = false →
    let word : Word := match x.failed with
      | none => (headerOf x.record).cval
      | some (cause, id) => BitVec.ofNat 64 (2 ^ 63 + cause % 128 * 2 ^ 56 + id % 2 ^ 11)
    unitStore s (leadDie x) x.tenant (headerOf x.record).cword 8 word.toNat = .ok u → ∃ t, exec (.launchCompletion l) s = .next t
      ∧ launchOf t l = none ∧ (s.kiln.unloaded = [] → t.mem = u.mem)
      ∧ (∀ fn slot vec, x.issuer = .ring fn slot true vec → (fn, vectorLink s fn, vec) ∉ s.host.masked → vec < 16 → t.host.out = s.host.out ++ [.msix fn vec])) ∧
  (∀ s l x, launchOf s l = some x → launchDone s x = false ∨ completionWaits s x = true → exec (.launchCompletion l) s = .next s)

/-- Barriers, rounds and the armature's channel (R34 to R36, R226, R231 to R233, R385, R386). A phase completes when every member that has not retired
has arrived for it. In a round the contenders of a slot with the tag of its earliest one take part; every participant, wherever it runs, latches
whether its word won, the winner's id and the winner's payload. A rendezvous lets the harts that wait at its issue unit pass together once every hart of the launch has reached that unit, and those
at a `contend` register then (R317). Units reach a die one by one, or all up to the lead's after a resend, and the lead learns what a hart has
consumed and the outcome of its last branch.
The model's choice or reading: that an event whose condition fails changes nothing, and the record of units sent (log entries 3, 47). -/
def Obligations.BarrierAndArmatureEvents : Prop :=
  (∀ s b, (phaseDone s b = true → ∃ u, exec (.barrierPhaseCompletion b) s = .next u ∧ phaseOf u b = phaseOf s b + 1
      ∧ (∀ c, c ≠ b → phaseOf u c = phaseOf s c) ∧ ∃ bs, u = { s with sched := { s.sched with barriers := bs } }) ∧
    (phaseDone s b = false → exec (.barrierPhaseCompletion b) s = .next s)) ∧
  (∀ s slot e, s.sched.contenders.find? (fun c => c.slot == slot) = some e →
    let cs := s.sched.contenders.filter (fun c => c.slot == slot && c.tag == e.tag)
    let latched (h : Hart) (c w : Contender) : Prop := h.latchValid = true ∧ h.latch.getLsbD 63 = decide (c.word = w.word)
      ∧ h.latch.extractLsb' 0 32 = w.word.extractLsb' 11 32
      ∧ h.latch.extractLsb' 32 11 = (7 - w.word.extractLsb' 8 3) ++ w.word.extractLsb' 0 8 ∧ h.latch.extractLsb' 43 20 = 0
    ∃ u w, exec (.contendRound slot) s = .next u ∧ w ∈ cs ∧ (∀ c ∈ cs, c.word.toNat ≤ w.word.toNat)
      ∧ (∀ c, c ∈ u.sched.contenders ↔ c ∈ s.sched.contenders ∧ c ∉ cs)
      ∧ (∀ c, s.hart.live = true → cs.find? (fun c => c.hart == s.hart.key) = some c → latched u.hart c w)
      ∧ ∀ (j : Nat) b, s.parked[j]? = some b → ∃ y, u.parked[j]? = some y ∧ y.hart.key = b.hart.key
          ∧ (∀ c, cs.find? (fun c => c.hart == b.hart.key) = some c → latched y.hart c w)
          ∧ (cs.find? (fun c => c.hart == b.hart.key) = none → y = b)) ∧
  (∀ s slot, (∀ c ∈ s.sched.contenders, c.slot ≠ slot) → exec (.contendRound slot) s = .next s) ∧
  (∀ s l x, launchOf s l = some x →
    (∀ u, meetingUnit s x = some u → launchHarts x ≤ reachedCount s x u ∧ ∃ t y, exec (.rendezvousCompletion l) s = .next t ∧ launchOf t l = some y
      ∧ (∀ k, (k, u) ∈ x.arrived → (k, u) ∈ y.passed) ∧ (∀ p, p ∈ y.arrived ↔ p ∈ x.arrived ∧ p.2 ≠ u)
      ∧ (∀ c, c ∈ t.sched.contenders ↔ c ∈ s.sched.contenders ∨ (c ∈ x.joining ∧ (c.hart, u) ∈ x.arrived))
      ∧ (∀ c, c ∈ y.joining ↔ c ∈ x.joining ∧ (c.hart, u) ∉ x.arrived) ∧ t.mem = s.mem) ∧
    ((∀ p ∈ x.arrived, reachedCount s x p.2 < launchHarts x) → exec (.rendezvousCompletion l) s = .next s) ∧
    (x.seq.isSome = true →
      (∀ d, x.dies.contains d = true → sentTo x d < leadIssued s x → ∃ y, exec (.issueUnit l d) s = .next (setLaunch s y) ∧ y.id = x.id
        ∧ sentTo y d = sentTo x d + 1 ∧ ∀ e, e ≠ d → sentTo y e = sentTo x e) ∧
      (∀ d, x.dies.contains d = true → ∃ y, exec (.resendRequest l d) s = .next (setLaunch s y) ∧ y.id = x.id
        ∧ sentTo y d = max (sentTo x d) (leadIssued s x) ∧ ∀ e, e ≠ d → sentTo y e = sentTo x e) ∧
      (∀ h b, boxOf s h = some b → b.hart.key.launch = l → ∃ y, exec (.credit l h) s = .next (setLaunch s y) ∧ y.id = x.id
        ∧ creditOf y b.hart.key = b.hart.units ∧ (∀ k, k ≠ b.hart.key → creditOf y k = creditOf x k)
        ∧ ∀ o, x.branches.find? (fun o => o.1 == b.hart.key) = some o → y.told.find? (fun o => o.1 == b.hart.key) = some o)))

/-- Dispatch events (R21 to R23, R238 to R243, R336 to R343). A launch whose wait conditions all hold is ready; one whose condition cannot be read fails with cause
12 and the condition's index. The oldest ready launch of a level enters each of its queues that has room. A crew goes to an eligible core: its harts take the next ranks,
the launch's entry points and its seed. When a grace period ends with no core eligible the victims are asked to stop, if the image pools hold
them, and the crew takes their core. A launch that fails keeps its
cause and has no hart left.
The model's choice or reading: that an event whose condition fails changes nothing, which condition fails a launch, when channels are taken, and which
launch a level serves where one is under the armature (log entries 3, 52, 76, 102). -/
def Obligations.DispatchEvents : Prop :=
  (∀ s l x, launchOf s l = some x → waits s l = true →
    let cond (w : WaitCond) : Option Bool := condHolds s (leadDie x) x.tenant w
    (∀ w ∈ waitsOf x.record, unitWaits s (leadDie x) x.tenant w.addr w.size .read = false) →
    ((∀ w ∈ waitsOf x.record, cond w = some true) → ∃ u, exec (.waitConditionEvaluation l) s = .next u ∧ waits u l = false
      ∧ ∀ q ∈ u.sched.queued, q.launch = l → q.pooled = true → q.ready = true) ∧
    (∀ i w, (waitsOf x.record)[i]? = some w → cond w = none → (∀ (j : Nat) v, j < i → (waitsOf x.record)[j]? = some v → cond v ≠ none) →
      x.failed = none → ∃ u, exec (.waitConditionEvaluation l) s = .next u ∧ launchOf u l = some { x with failed := some (12, i) }) ∧
    ((∀ w ∈ waitsOf x.record, cond w ≠ none) → (∃ w ∈ waitsOf x.record, cond w = some false) → exec (.waitConditionEvaluation l) s = .next s)) ∧
  (∀ s d (level : BitVec 3) q, q ∈ s.sched.queued → q.die = d → q.pooled = true → q.ready = true → q.level = level.toNat →
    (∀ p ∈ s.sched.queued, p ≠ q → p.die = d → p.pooled = true → p.ready = true → p.level = level.toNat → q.entry < p.entry) →
    (queueCount s d level.toNat < 256 → ∃ u, exec (.readyLaunchEntry d level) s = .next u
      ∧ (∀ p ∈ u.sched.queued, p.launch = q.launch → p.die = d → p.pooled = false ∧ p.entry = s.sched.nextEntry)
      ∧ ∀ p, p.die ≠ d → (p ∈ u.sched.queued ↔ p ∈ s.sched.queued)) ∧
    (256 ≤ queueCount s d level.toNat → exec (.readyLaunchEntry d level) s = .next s)) ∧
  (∀ s d q l c, dieFull s d = true → served s d = some q → launchOf s q.launch = some l → waitingCrews s d l.id = [] → channelsFree s l d = true →
    lineFree s l = true → ((q.target = none ∧ pickCore s d (needNew l) = some c) ∨ (q.target = some c ∧ eligible s d (needNew l) c = true)) →
    eligible s d (needNew l) c = true
      ∧ ∃ u, exec (.crewPlacement d) s = .next u ∧ ∀ (i : Nat) h, i < (headerOf l.record).crew → (freeHartSlots s d c)[i]? = some h →
        ∃ b, boxOf u h = some b ∧ b.hart.key = ⟨l.id, d, placedOn l d * (headerOf l.record).crew + i⟩ ∧ b.hart.tenant = l.tenant
          ∧ b.s0.pc = (headerOf l.record).pc0 &&& ~~~3#64 ∧ b.hart.cr.seed = (headerOf l.record).seed ∧ b.hart.dg.accs = (headerOf l.record).accs
          ∧ b.hart.stash = (headerOf l.record).stash ∧ (b.s1 = none ↔ (headerOf l.record).decoupled = false)
          ∧ (∀ x, b.s1 = some x → x.pc = (headerOf l.record).pc1 &&& ~~~3#64) ∧ (l.seq = none → b.hart.status = .running)) ∧
  (∀ s d, placement s d = none → exec (.crewPlacement d) s = .next s) ∧
  (∀ s d (level : BitVec 3) q l cs c, served s d = some q → q.level = level.toNat → placement s d = none → launchOf s q.launch = some l →
    channelsFree s l d = true → lineFree s l = true → victimsFor s d q.level (needOf s d l) = some (cs, c) →
    (poolsHold s cs = true → exec (.gracePeriodExpiry d level) s = .next ((wholeVictims s cs).foldl preempt (setTarget s q c))) ∧
    (poolsHold s cs = false → exec (.gracePeriodExpiry d level) s = .next s)) ∧
  (∀ s d (level : BitVec 3) q t, served s d = some q → q.level = level.toNat → placement s d = some t →
    exec (.gracePeriodExpiry d level) s = .next t) ∧
  (∀ s c h b, boxOf s h = some b → (∀ b' ∈ boxes s, b'.hart.id = h → b' = b) → c.holds b.hart.key = true → b.hart.status = .running →
    Instr.hartStop h ∈ (preempt s c).inputs ∧ ∃ b', boxOf (preempt s c) h = some b' ∧ b'.hart.status = .stopping 0) ∧
  (∀ s l x cause id, launchOf s l = some x → x.failed = none →
    launchOf (failLaunch s l cause id) l = some { x with failed := some (cause, id) } ∧ ∀ b ∈ boxes (failLaunch s l cause id), b.hart.key.launch ≠ l)

/-- Stopping and resuming (R346 to R354). A hart asked to stop waits for an image slot of its die; with one its image stands there, and a hart stopped by its
own trap stays on its slot while another leaves it; a slot under way first goes to a stop point of its own. The image lies in the layout of R352:
header, strands, control registers, mask and vector registers, accumulator share, and the hart that it gives back has what the hart had. The trap
record is written while the queue has room and no line of it waits, and its number counts on. An answered image whose check holds is its hart again, with its registers
and pc; one that fails it, or an end asked for, fails the launch with cause 7, and one of a launch that has ended is freed. A pool outside memory
stops the machine.
The model's choice or reading: that a pool outside memory stops the machine, which slots go to a stop point, and that an event whose
condition fails changes nothing (log entries 3, 49, 50, 52, 85). -/
def Obligations.StopAndResumeEvents : Prop :=
  (∀ s h t reason u i, focusOf s h .access = some t → t.hart.status = .stopping reason → slotToStop s h reason = some (u, i) →
    stopsWithin i = true ∧ ∃ v ks n k, exec (.hartStop h) s = .next v ∧ v.inputs = i :: .hartStop h :: s.inputs ∧ v.mem = s.mem
      ∧ v.strand.convoy = some ks ∧ nextSlot ks 0 = some (n, k) ∧ k.instr = i ∧ k.stop = some s.fresh) ∧
  (∀ s h t reason, focusOf s h .access = some t → t.hart.status = .stopping reason → slotToStop s h reason = none → Canonical t →
    let d := myDie t
    (slotReady t d = none → exec (.hartStop h) s = .next (haltHart t)) ∧
    ∀ slot, slotReady t d = some slot →
      (slotExists t d slot = false → exec (.hartStop h) s = .fault (.noMemory (slotAddress t d slot))) ∧
      (slotExists t d slot = true → ∃ u, exec (.hartStop h) s = .next u
        ∧ (imageReadable (haltHart t) d slot = true →
            ∀ i, i < 2 ^ 20 → u.mem.read (slotAddress t d slot + i) = BitVec.ofNat 8 (imageOf (haltHart t) reason / 256 ^ i))
        ∧ (∀ a, a < slotAddress t d slot ∨ slotAddress t d slot + 2 ^ 20 ≤ a → u.mem.read a = t.mem.read a)
        ∧ (∃ i ∈ (dieRec u d).images, i.slot = slot ∧ i.key = t.hart.key ∧ i.reason = reason)
        ∧ (reason = 1 → u.hart.status = .stopped 1 slot ∧ u.hart.id = t.hart.id) ∧ (reason ≠ 1 → boxOf u t.hart.id = none))) ∧
  (∀ s t slot reason h, ImageFits t reason → t.role ≠ .compute → t.hart.live = true → (t.hart.grant.vlen = 0 → t.hart.savedVlen = 0) →
    let img := imageOf t reason
    let b := boxFrom s (imageRecord t slot reason) img h true
    let g := t.hart.grant
    hdr img 0 32 = 0x494D4731 ∧ hdr img 32 8 = 1 ∧ hdr img 40 1 = t.mate.isSome.toNat ∧ hdr img 41 1 = (pinned t).toNat ∧ hdr img 42 2 = reason
      ∧ hdr img 44 4 = g.groups ∧ hdr img 48 7 = 8 * g.groups ∧ hdr img 64 6 = g.banks ∧ hdr img 96 11 = t.hart.id.toNat ∧ hdr img 112 7 = t.hart.tenant
      ∧ hdr img 192 8 = t.hart.key.rank ∧ hdr img 208 5 = t.hart.stash ∧ hdr img 213 6 = t.hart.dg.accs ∧ hdr img 256 64 = g.vlen / 8
      ∧ dwordAt img 0x100 = t.strand.pc ∧ (∀ r : Fin 32, r.val ≠ 0 → dwordAt img (0x108 + 8 * r.val) = t.strand.x[r])
      ∧ dwordAt img 0x940 = t.hart.cr.ucause ∧ dwordAt img 0x980 = t.hart.latch
      ∧ (∀ r : Fin 8, secOf img (0x2000 + g.vlen / 64 * r.val) (g.vlen / 64) = t.hart.regs.m[r].toNat % 2 ^ (8 * (g.vlen / 64)) ∨ g.vlen % 64 ≠ 0)
      ∧ (∀ r : Fin 32, secOf img (0x4000 + g.vlen / 8 * r.val) (g.vlen / 8) = t.hart.regs.v[r].toNat % 2 ^ g.vlen)
      ∧ SameStrand b.s0 t.strand ∧ (∀ c ∈ t.mate, ∃ x, b.s1 = some x ∧ SameStrand x c) ∧ b.hart.dg = t.hart.dg
      ∧ (∀ r : Fin 32, b.hart.regs.v[r].toNat = t.hart.regs.v[r].toNat % 2 ^ g.vlen)
      ∧ b.hart.cr = { t.hart.cr with uivec := t.hart.cr.uivec &&& 0x000FFFFFFFFFFFFD, upc := t.hart.cr.upc &&& 0x000FFFFFFFFFFFFC }) ∧
  (∀ s h b r slot x u, boxOf s h = some b → b.hart.status = .stopped r slot → b.hart.trap = some x →
    (dieRec s (dieOf h)).unanswered.length < queueLimit s (dieOf h) → unitWaits s (dieOf h) 0 (recordAddress s (dieOf h)) 64 .write = false →
    let n := (dieRec s (dieOf h)).trapSeq
    let word := recordBits s b.hart b.hart.trapAccess x slot n
    unitStore s (dieOf h) 0 (recordAddress s (dieOf h)) 64 word = .ok u →
    word % 2 ^ 64 = x.value.toNat ∧ word / 2 ^ 64 % 2 ^ 64 = x.pc.toNat ∧ word / 2 ^ 148 % 16 = x.cls % 16 ∧ word / 2 ^ 152 % 256 = x.sub % 256
      ∧ ∃ t, exec (.trapRecord h) s = .next t ∧ t.mem = u.mem ∧ (dieRec t (dieOf h)).trapSeq = n + 1
        ∧ (dieRec t (dieOf h)).unanswered = slot :: (dieRec s (dieOf h)).unanswered ∧ ∀ b', boxOf t h = some b' → b'.hart.trap = none) ∧
  (∀ s h b r slot x, boxOf s h = some b → b.hart.status = .stopped r slot → b.hart.trap = some x →
    queueLimit s (dieOf h) ≤ (dieRec s (dieOf h)).unanswered.length ∨ unitWaits s (dieOf h) 0 (recordAddress s (dieOf h)) 64 .write = true →
    exec (.trapRecord h) s = .next s) ∧
  (∀ s d (img : BitVec 12) i x, (dieRec s d).images.find? (fun i => i.slot == img.toNat && i.reason == 1 && (dieRec s d).unanswered.contains i.slot) = some i →
    launchOf s i.key.launch = some x →
    let bits := imageBits s d i.slot
    (x.failed ≠ none → ∃ u, exec (.resume d img) s = .next u ∧ launchOf u i.key.launch = some x ∧ i.slot ∉ (dieRec u d).unanswered
      ∧ ∀ y ∈ (dieRec u d).images, y.slot ≠ i.slot) ∧
    (x.failed = none → imageGood s d i.slot = true → i.inPlace = true → ∃ u b, exec (.resume d img) s = .next u ∧ boxOf u i.owner = some b ∧ b.hart.key = i.key
      ∧ b.s0.pc = dwordAt bits 0x100 &&& ~~~3#64 ∧ (∀ r : Fin 32, r.val ≠ 0 → b.s0.x[r] = dwordAt bits (0x108 + 8 * r.val))
      ∧ b.hart.tenant = hdr bits 112 7 ∧ (x.seq = none → b.hart.status = .running) ∧ i.slot ∉ (dieRec u d).unanswered) ∧
    (x.failed = none → imageGood s d i.slot = true → i.inPlace = false → ∃ u, exec (.resume d img) s = .next u ∧ i.slot ∉ (dieRec u d).unanswered
      ∧ ∀ y ∈ (dieRec u d).images, y.slot = i.slot → y.answered = true) ∧
    (x.failed = none → imageGood s d i.slot = false →
      ∃ u, exec (.resume d img) s = .next u ∧ launchOf u i.key.launch = some { x with failed := some (7, i.owner.toNat) }) ∧
    (x.failed = none →
      ∃ u, exec (.endLaunch d img) s = .next u ∧ launchOf u i.key.launch = some { x with failed := some (7, i.owner.toNat) }
        ∧ ∀ y ∈ (dieRec u d).images, y.slot ≠ i.slot))

/-- Translation and the host (R324 to R334, R360, R361). A shootdown takes the named translations from every TLB and the entries over them from every
walker's cache, and its end clears the busy bit. A walk that ends at a frame of the tenant is cached, one that faults is not. Ring, window,
grace, power and IDE registers read back what was written; a write without the IDE that its function requires is dropped and logged, and a read without
it is an Unsupported Request. A read stays behind the waiting accesses of its function and link (R325), and PF0 BAR0 answers reads in stages 1, 2 and 4 too,
with 0 outside the kiln block (R387). A host access through a window reads or writes its bytes, after those it must stay behind and once its lines are
free; without a window it is turned away and logged. A register write stays behind the waiting accesses of its function and link. A ring is
reset to the header's count and size, its run bit is cleared when it is disabled, an entry of its turn is consumed, and one whose queue is full is
kept and tried again.
The model's choice or reading: which tables a host access walks, the corner cases of a ring, that an access waits for an engine's line and behind earlier
waiting ones (log entry 106), the places of the registers (log entry 105), and that an event whose condition fails changes nothing (log
entries 3, 53, 54, 55). -/
def Obligations.TranslationAndHostEvents : Prop :=
  (∀ s d v, ∃ u, exec (.shootdown d v) s = .next u ∧ u.mem = s.mem ∧ u.inputs = s.inputs ++ [.shootdownComplete d]
    ∧ (∀ t, t ∈ u.coh.tlb ↔ t ∈ s.coh.tlb ∧ (namedOf v).hits t.tenant t.page t.large = false)
    ∧ ∀ w, w ∈ u.coh.walkers ↔ w ∈ s.coh.walkers ∧ (namedOf v).covers w = false) ∧
  (∀ v tenant page, (namedOf v).hits tenant page false = true ↔ tenant = (v.extractLsb' 56 7).toNat ∧ (v.getLsbD 63 = true
    ∨ ((v.extractLsb' 16 36).toNat ≤ page ∧ page < (v.extractLsb' 16 36).toNat + (if v.extractLsb' 0 16 = 0 then 65536 else (v.extractLsb' 0 16).toNat)))) ∧
  (∀ s d, ∃ u, exec (.shootdownComplete d) s = .next u ∧ u.mem = s.mem ∧ (dieRec u d).sup.sshoot.getLsbD 55 = false
    ∧ ∀ i, i ≠ 55 → (dieRec u d).sup.sshoot.getLsbD i = (dieRec s d).sup.sshoot.getLsbD i) ∧
  (∀ s d c tenant va, tlbFind s d c tenant va = none → ∃ u, exec (.tlbMissWalk d c tenant va) s = .next u ∧ bare u = bare s
    ∧ (∀ l, walk s d tenant va = .ok l → frameOk s tenant (physOf l va) = true → tlbFind u d c tenant va = some l)
    ∧ (∀ e, walk s d tenant va = .error e → u.coh.tlb = s.coh.tlb)) ∧
  (∀ s f o v, (∀ x ∈ s.host.waiting, x.f.fn = f.fn → x.f.link ≠ f.link) →
    (ideMissing s f = false → servedNow s f o = true → o % 8 = 0 → ∃ u, exec (.registerWrite f o v) s = .next u ∧ u.mem = s.mem
      ∧ (o < 0x40 → (ringOf s f.fn (BitVec.ofNat 3 (o / 8))).en = false → ∀ i, i < 64 → i ≠ 4 → i ≠ 5 →
          (registerWord u f o).getLsbD i = (decide (i < 4 ∨ (8 ≤ i ∧ i < 52)) && v.getLsbD i))
      ∧ (0x100 ≤ o → o < 0x180 → registerRead u f o = .data (v &&& (if o / 8 % 2 = 1 then 0x0003FFFFFFFFFFFF else 0x000FFFFFFFFF0000)))
      ∧ (f.fn = 0 → 0x200000 ≤ o → o < 0x200040 → registerRead u f o = .data (v &&& 0xFFFF))
      ∧ (f.fn = 0 → o = 0x100020 → u.kiln.cap = max 300 (min 2800 (v.extractLsb' 0 12).toNat))
      ∧ (o = configBase → registerWord u f o = v &&& 1)) ∧
    (ideMissing s f = false → servedNow s f o = false → exec (.registerWrite f o v) s = .next s) ∧
    (ideMissing s f = true → exec (.registerWrite f o v) s = .next (logError s f.fn (BitVec.ofNat 64 o)))) ∧
  (∀ s f o v, (∃ x ∈ s.host.waiting, x.f.fn = f.fn ∧ x.f.link = f.link) →
    exec (.registerWrite f o v) s = .next { s with host := { s.host with waiting := s.host.waiting ++ [⟨f, o, 8, none, none, some v⟩] } }) ∧
  (∀ s f o,
    let bar0 : Prop := present s f = true ∧ s.kiln.stage ≠ 0 ∧ f.fn = 0 ∧ f.link = 0 ∧ o < 2 ^ 24
    ((∃ x ∈ s.host.waiting, x.f.fn = f.fn ∧ x.f.link = f.link) → registerRead s f o = .waits) ∧
    ((∀ x ∈ s.host.waiting, x.f.fn = f.fn → x.f.link ≠ f.link) →
      (ideMissing s f = true ∨ (servedNow s f o = false ∧ ¬bar0) → registerRead s f o = .unsupported) ∧
      (ideMissing s f = false → servedNow s f o = false → bar0 → registerRead s f o = .data 0))) ∧
  (∀ s f off size w d, (∀ x ∈ s.host.waiting, x.f.fn = f.fn → x.f.link ≠ f.link) → ideMissing s f = false → barTakes s f off size = true →
    windowFor s f.fn off = some w → hostDie s = some d →
    let a := windowAddress w off
    let met := some (a, w.wr)
    let waits (x : HostAccess) : State := { s with host := { s.host with waiting := s.host.waiting ++ [x] } }
    (unitWaits s d f.fn a size .read = false → ∀ pas l, checkRange s (.unit d) f.fn a size .read false = .ok (pas, l) →
      ∃ u, exec (.hostWindowRead f off size) s = .next u ∧ u.mem = s.mem
        ∧ u.host.out = s.host.out ++ [.read f.fn (some (pas.map s.mem.read)) false]) ∧
    (unitWaits s d f.fn a size .read = true → exec (.hostWindowRead f off size) s = .next (waits ⟨f, off, size, none, met, none⟩)) ∧
    (∀ data u, data.length = size → w.wr = true → unitWaits s d f.fn a size .write = false → unitStore s d f.fn a size (leNat data) = .ok u →
      exec (.hostWindowWrite f off data) s = .next u) ∧
    (∀ data, data.length = size → w.wr = true → unitWaits s d f.fn a size .write = true →
      exec (.hostWindowWrite f off data) s = .next (waits ⟨f, off, size, some data, met, none⟩)) ∧
    (∀ data, data.length = size → w.wr = false → exec (.hostWindowWrite f off data) s = .next (logError s f.fn a))) ∧
  (∀ s f off size data, (∀ x ∈ s.host.waiting, x.f.fn = f.fn → x.f.link ≠ f.link) → data.length = size →
    ideMissing s f = true ∨ windowFor s f.fn off = none →
    (∃ u, exec (.hostWindowRead f off size) s = .next u ∧ u.mem = s.mem ∧ u.host.out = s.host.out ++ [.read f.fn none false]
      ∧ u.host.errors = s.host.errors ++ [(f.fn, BitVec.ofNat 64 off)]) ∧
    exec (.hostWindowWrite f off data) s = .next (logError s f.fn (BitVec.ofNat 64 off))) ∧
  (∀ s fn slot, let r := ringOf s fn slot
    r.busy = none →
    (∀ v t u, r.reset = true → dispatcherOn s r = true → unitLoad s r.die r.fn r.base 128 = .ok v → 4 ≤ v / 2 ^ 64 % 32 → v / 2 ^ 64 % 32 ≤ 16 →
      v / 2 ^ 69 % 8 = 0 → v / 2 ^ 80 = 0 → writeLine1 s r 0 16 (v % 2 ^ 64 + 2 ^ 64) = .ok t → writeLine1 t r 24 104 0 = .ok u →
      ∃ x, exec (.ringReset fn slot) s = .next x ∧ x.mem = u.mem ∧ ringOf x fn slot = { r with
        hdrerr := false, reset := false, run := true, rcount := BitVec.ofNat 64 v, slog := v / 2 ^ 64 % 32, vec := v / 2 ^ 72 % 256 }) ∧
    (r.en = false → headerFree s r = false → exec (.ringDisable fn slot) s = .next s) ∧
    (∀ t, r.en = false → r.run = true → headerFree s r = true → writeLine1 s r 8 8 0 = .ok t →
      ∃ x, exec (.ringDisable fn slot) s = .next x ∧ x.mem = t.mem ∧ ringOf x fn slot = { r with run := false }) ∧
    (ringServed s r = true →
      (unitLoad s r.die r.fn r.base 8 = .ok r.rcount.toNat → exec (.ringWake fn slot) s = .next s) ∧
      (∀ e, unitLoad s r.die r.fn r.base 8 = .ok (r.rcount.toNat + 1) → unitLoad s r.die r.fn (entryAt r) 128 = .ok e →
        (∀ t u, handleEntry s r e = .ok t → writeLine1 t r 0 8 (r.rcount + 1).toNat = .ok u →
          ∃ x, exec (.ringWake fn slot) s = .next x ∧ x.mem = u.mem ∧ ringOf x fn slot = { r with rcount := r.rcount + 1 }) ∧
        (handleEntry s r e = .again → ∃ x, exec (.ringWake fn slot) s = .next x ∧ x.mem = s.mem
          ∧ ringOf x fn slot = { r with busy := some (e, r.rcount.toNat + 1) })) ∧
      (∀ e, e / 2 ^ 64 % 2 ^ 32 = r.rcount.toNat % 2 ^ 32 → e / 2 ^ 96 % 8 = 0 → e / 2 ^ 100 % 16 = 0 → e / 2 ^ 112 % 2 ^ 16 = 0 → e / 2 ^ 256 = 0 →
        handleEntry s r e = .ok s) ∧
      (∀ e t, e / 2 ^ 64 % 2 ^ 32 = r.rcount.toNat % 2 ^ 32 → e / 2 ^ 96 % 8 = 2 → e / 2 ^ 100 % 16 = 0 → e / 2 ^ 112 % 2 ^ 16 = 0 → e / 2 ^ 256 = 0 →
        e / 2 ^ 128 % 8 = 0 → unitWaits s r.die r.fn (BitVec.ofNat 64 (e / 2 ^ 128)) 8 .write = false →
        unitStore s r.die r.fn (BitVec.ofNat 64 (e / 2 ^ 128)) 8 (e / 2 ^ 192 % 2 ^ 64) = .ok t → handleEntry s r e = .ok t))) ∧
  (∀ s link width rate, ∃ u, exec (.linkTraining link width rate) s = .next u ∧ (link, width, rate) ∈ u.host.links
    ∧ ∀ x, x.1 ≠ link → (x ∈ u.host.links ↔ x ∈ s.host.links)) ∧
  (∀ s fn link, s.kiln.stage ≠ 0 → ∃ u, exec (.spdmKeyExchange fn link) s = .next u ∧ (fn, link) ∈ u.host.ideKeys
    ∧ ∀ x, x ≠ (fn, link) → (x ∈ u.host.ideKeys ↔ x ∈ s.host.ideKeys))

/-! ## Seals and coherence -/

/-- Commands and steps of the glaze unit (R363 to R371). `generate` puts a fresh key into an empty slot and `destroy` empties one; a slot with sealed tiles refuses
both with result 2. `scrub` leaves no tile sealed under an older slot, tiles that must wait after the others, and refuses the newer slot with result 4. `clear` zeroes its tiles and
keeps their counters, a tile with a line that an engine owns after the others; `owner` gives clear frames an owner byte; a range beyond its stack
is result 3 and a frame that is not clear result 5. A fill checks the tag and poisons the tile where it fails; a reseal writes the record with the
next counter, and the ciphertext. A tile out of a full set waits, and so does one with a line whose home may send no further message (R380); a poisoned one
is not resealed.
The model's choice or reading: the results of bad arguments beyond R370's, that a tile enters and leaves L2 whole (log entry 113), and that an event
whose condition fails changes nothing (log entries 3, 58). -/
def Obligations.GlazeEvents : Prop := ∀ s d,
  let ends (u : State) (result : Nat) : Prop := (dieRec u d).glaze.result = result ∧ u.inputs = s.inputs ++ [.glazeCommandEnd d]
  (∀ tenant (slot : BitVec 1), let b := slot == 1
    (sealedCount s d tenant b = 0 →
      (∃ u, exec (.generate d tenant slot) s = .next u ∧ ends u 0 ∧ u.mem = s.mem ∧ u.sealed.gens = s.sealed.gens + 1
        ∧ keySlot u d tenant b = some ⟨d, tenant, b, Config.glazeKey s.sealed.gens, s.sealed.gens⟩
        ∧ ∀ d' t' b', (d', t', b') ≠ (d, tenant, b) → keySlot u d' t' b' = keySlot s d' t' b') ∧
      (∃ u, exec (.destroy d tenant slot) s = .next u ∧ ends u 0 ∧ u.mem = s.mem ∧ keySlot u d tenant b = none
        ∧ ∀ d' t' b', (d', t', b') ≠ (d, tenant, b) → keySlot u d' t' b' = keySlot s d' t' b')) ∧
    (sealedCount s d tenant b ≠ 0 → ∀ i, i = Instr.generate d tenant slot ∨ i = .destroy d tenant slot →
      ∃ u, exec i s = .next u ∧ ends u 2 ∧ u.sealed = s.sealed) ∧
    (∀ ts, ts = (s.sealed.tiles.filter (fun r => r.state == 1 && r.slot == b && homeDieOf (2048 * r.tile) == d && tileOwner s r.tile == tenant)).map (·.tile) →
      newerSlot s d tenant = some (!b) →
      ((∀ t ∈ ts, tileWaits s t = false) → (∀ r ∈ s.sealed.tiles, ∀ q ∈ s.sealed.tiles, r.tile = q.tile → r = q) →
        ∃ u, exec (.scrub d tenant slot) s = .next u ∧ ends u 0 ∧ u.mem = s.mem ∧ sealedCount u d tenant b = 0) ∧
      (ts.filter (tileWaits s) ≠ [] → ∃ u, exec (.scrub d tenant slot) s = .next u ∧ u.mem = s.mem ∧ u.inputs = s.inputs
        ∧ (dieRec u d).glaze.scrubbing = ts.filter (tileWaits s))) ∧
    (newerSlot s d tenant ≠ some (!b) → ∃ u, exec (.scrub d tenant slot) s = .next u ∧ ends u 4 ∧ u.sealed = s.sealed)) ∧
  (∀ first count (o : BitVec 7),
    (rangeOk first count 2048 = true → blockedTiles s d (fun t => decide (stackTile d + first ≤ t) && decide (t < stackTile d + first + count)) = [] →
      ∃ u, exec (.clear d first count) s = .next u ∧ ends u 0
      ∧ (∀ a, u.mem.read a = if 2048 * (stackTile d + first) ≤ a ∧ a < 2048 * (stackTile d + first + count) then 0 else s.mem.read a)
      ∧ ∀ t, stackTile d + first ≤ t → t < stackTile d + first + count →
          (tileRec u t).state = 0 ∧ (tileRec u t).slot = (tileRec s t).slot ∧ (tileRec u t).counter = (tileRec s t).counter) ∧
    (∀ b, rangeOk first count 2048 = true →
      blockedTiles s d (fun t => decide (stackTile d + first ≤ t) && decide (t < stackTile d + first + count)) = b → b ≠ [] →
      ∃ u, exec (.clear d first count) s = .next u ∧ (dieRec u d).glaze.clearing = b ∧ u.inputs = s.inputs
        ∧ ∀ a, u.mem.read a = if stackTile d + first ≤ tileOf a ∧ tileOf a < stackTile d + first + count ∧ tileOf a ∉ b then 0 else s.mem.read a) ∧
    (rangeOk first count 2048 = false → ∃ u, exec (.clear d first count) s = .next u ∧ ends u 3 ∧ u.mem = s.mem ∧ u.sealed = s.sealed) ∧
    (rangeOk first count 65536 = true → framesClear s (stackFrame d + first) count = true → ∃ u, exec (.owner d first count o) s = .next u ∧ ends u 0
      ∧ ∀ f, ownerOf u f = if stackFrame d + first ≤ f ∧ f < stackFrame d + first + count then o else ownerOf s f) ∧
    (rangeOk first count 65536 = true → framesClear s (stackFrame d + first) count = false →
      ∃ u, exec (.owner d first count o) s = .next u ∧ ends u 5 ∧ u.sealed = s.sealed) ∧
    (rangeOk first count 65536 = false → ∃ u, exec (.owner d first count o) s = .next u ∧ ends u 3 ∧ u.sealed = s.sealed)) ∧
  (∃ u, exec (.glazeCommandEnd d) s = .next u ∧ (dieRec u d).glaze = { (dieRec s d).glaze with busy := false } ∧ u.mem = s.mem) ∧
  (∀ ts, (dieRec s d).glaze.clearing = ts →
    ((∀ t ∈ ts, t ∈ blockedTiles s d ts.contains) → clearWaiting s d = none) ∧
    (ts ≠ [] → blockedTiles s d ts.contains = [] → ∃ u, clearWaiting s d = some u ∧ ends u 0 ∧ (dieRec u d).glaze.clearing = []
      ∧ ∀ a, u.mem.read a = if tileOf a ∈ ts then 0 else s.mem.read a)) ∧
  (∀ t, isTile t = true → fillWaits s t = true → exec (.tileFill t) s = .next s ∧ exec (.tileReseal t) s = .next s) ∧
  (∀ t, isTile t = true → fillWaits s t = false →
    (s.sealed.inL2.contains t = true → exec (.tileFill t) s = .next s) ∧
    (s.sealed.inL2.contains t = false → (tileRec s t).state = 0 →
      exec (.tileFill t) s = .next { s with sealed := { s.sealed with inL2 := t :: s.sealed.inL2 } }) ∧
    (s.sealed.inL2.contains t = false → (tileRec s t).state = 2 →
      ∃ u, exec (.tileFill t) s = .next u ∧ u.mem = s.mem ∧ ∀ i, i < 16 → poisonOf u (16 * t + i) = some .seal) ∧
    (s.sealed.inL2.contains t = false → (tileRec s t).state = 1 → tagNow s t (tileRec s t).slot (tileRec s t).counter = some (tileRec s t).tag →
      ∃ u, exec (.tileFill t) s = .next u ∧ u.mem = s.mem ∧ u.coh = s.coh ∧ u.sealed.inL2 = t :: s.sealed.inL2 ∧ u.sealed.tiles = s.sealed.tiles
        ∧ dramTile u t = dramTile s t) ∧
    (s.sealed.inL2.contains t = false → (tileRec s t).state = 1 → tagNow s t (tileRec s t).slot (tileRec s t).counter ≠ some (tileRec s t).tag →
      ∃ u, exec (.tileFill t) s = .next u ∧ u.mem = s.mem ∧ (tileRec u t).state = 2 ∧ (∀ i, i < 16 → poisonOf u (16 * t + i) = some .seal)
        ∧ (dieRec u (homeDieOf (2048 * t))).glaze.tagfail = true) ∧
    ((∃ i, i < 16 ∧ homeFull s (16 * t + i) = true) → exec (.tileReseal t) s = .next s) ∧
    (∀ f, f = fillTile s t → (∀ i, i < 16 → homeFull s (16 * t + i) = false) → f.sealed.dirty.any (fun l => l / 16 == t) = true →
      (2 ≤ (tileRec f t).state → ∃ u, exec (.tileReseal t) s = .next u ∧ u.mem = s.mem ∧ u.sealed.tiles = f.sealed.tiles
        ∧ ∀ l ∈ u.sealed.dirty, l / 16 ≠ t) ∧
      ((tileRec f t).state < 2 → ∀ b c, nextSeal (tileRec f t) (newerSlot f (homeDieOf (2048 * t)) (tileOwner f t)) = some (b, c) → ∃ u, exec (.tileReseal t) s = .next u
        ∧ u.mem = s.mem ∧ tileRec u t = ⟨t, b, 1, c, (tagNow f t b c).getD 0⟩ ∧ (∀ l ∈ u.sealed.dirty, l / 16 ≠ t)
        ∧ ∀ k, keySlot f (homeDieOf (2048 * t)) (tileOwner f t) b = some k →
            ∀ i, i < 2048 → dramByte u (2048 * t + i) = (gcmCipher k.key (ivOf t b c) (f.mem.bytes (2048 * t) 2048))[i]?) ∧
      ((tileRec f t).state < 2 → nextSeal (tileRec f t) (newerSlot f (homeDieOf (2048 * t)) (tileOwner f t)) = none →
        ∃ u, exec (.tileReseal t) s = .next u ∧ u.mem = s.mem ∧ t ∈ u.sealed.held)))

/-- Coherence messages (R376 to R381). A first reader gets a line alone, the next ones share it, an owner's copy is shared with its data; a writer becomes the
only owner and every other copy is gone; a poisoned line answers with its poison, and one that an engine has makes the request wait. A request whose tile's
fill waits, or whose home may send no further message, is delayed (R367, R380), and so is an engine's claim on such a line. A line given
back leaves its home. A forward or an invalidation acts on the copy that its station holds. A message with a number already handled changes no
directory. An engine takes a line that is not poisoned, waits behind another, and lets it go to what waits next; an unanswered message is sent
again until its eighth timeout, which reports its destination, a die that is up, once.
The model's choice or reading: that a message acts whole in its step, which agents number a message, and that one whose condition fails changes
nothing (log entries 3, 59, 114). -/
def Obligations.CoherenceEvents : Prop := ∀ s l n,
  let home := lineHome l
  let f := fillTile s (l / 16)
  (∀ c,
    (homeWaits s l = false →
    (homeLine f l = none → ∃ u, exec (.gets .home l (.core c) n) s = .next u ∧ homeLine u l = some (.X (.core c)) ∧ l1State u home c l = some .E) ∧
    (∀ cs ds, homeLine f l = some (.S cs ds) → ∃ u xs, exec (.gets .home l (.core c) n) s = .next u ∧ homeLine u l = some (.S xs ds)
      ∧ (∀ x, x ∈ xs ↔ x = c ∨ x ∈ cs) ∧ l1State u home c l = some .S) ∧
    (∀ o, o ≠ c → homeLine f l = some (.X (.core o)) → l1State f home o l = some .M → ∃ u xs, exec (.gets .home l (.core c) n) s = .next u
      ∧ homeLine u l = some (.S xs []) ∧ (∀ x, x ∈ xs ↔ x = c ∨ x = o) ∧ l1State u home c l = some .S ∧ l1State u home o l = some .S
      ∧ l ∈ u.sealed.dirty) ∧
    (∀ e w, homeLine f l = some (.G e) → ∃ u, exec (if w then .getm .home l (.core c) n else .gets .home l (.core c) n) s = .next u
      ∧ homeLine u l = some (.G e) ∧ homeQueue u l = homeQueue f l ++ [.ask ⟨.core c, w, some c, none, false⟩] ∧ u.coh.l1 = f.coh.l1) ∧
    (∀ k i, homeLine f l = some (.P k) → i = Instr.gets .home l (.core c) n ∨ i = .getm .home l (.core c) n →
      ∃ u, exec i s = .next u ∧ l1State u home c l = some (.P k)) ∧
    ((∀ k, homeLine f l ≠ some (.P k)) → (∀ e, homeLine f l ≠ some (.G e)) → ∃ u, exec (.getm .home l (.core c) n) s = .next u
      ∧ homeLine u l = some (.X (.core c)) ∧ l1State u home c l = some .M
      ∧ ∀ x, x ≠ c → ((∃ cs ds, homeLine f l = some (.S cs ds) ∧ x ∈ cs) ∨ homeLine f l = some (.X (.core x))) → l1State u home x l = none) ∧
    (∀ d, d ≠ home → homeLine f l = none → proxyLine f d l = none → proxyFull s d l = false →
      (∃ u, exec (.gets (.proxy d) l (.core c) n) s = .next u ∧ homeLine u l = some (.X (.die d)) ∧ proxyLine u d l = some (.X c)
        ∧ l1State u d c l = some .E) ∧
      (∃ u, exec (.getm (.proxy d) l (.core c) n) s = .next u ∧ homeLine u l = some (.X (.die d)) ∧ proxyLine u d l = some (.X c)
        ∧ l1State u d c l = some .M))) ∧
    (homeWaits s l = true → ∀ w, ∃ u, exec (if w then .getm .home l (.core c) n else .gets .home l (.core c) n) s = .next u
      ∧ u.coh.home = s.coh.home ∧ u.coh.l1 = s.coh.l1 ∧ u.mem = s.mem ∧ (l, Waiting.ask ⟨.core c, w, some c, none, false⟩) ∈ u.coh.delayed) ∧
    (homeLine s l = some (.X (.core c)) →
      (∃ u, exec (.pute .home l (.core c) n) s = .next u ∧ homeLine u l = none ∧ l1State u home c l = none) ∧
      (∃ u, exec (.putm .home l (.core c) n) s = .next u ∧ homeLine u l = none ∧ l1State u home c l = none ∧ l ∈ u.sealed.dirty)) ∧
    (homeLine s l ≠ some (.X (.core c)) → exec (.pute .home l (.core c) n) s = .next s ∧ exec (.putm .home l (.core c) n) s = .next s) ∧
    (∀ cs ds, homeLine s l = some (.S cs ds) → l1State s home c l = none → ∃ u xs, exec (.ack l (.core c) n) s = .next u
      ∧ (∀ x, x ∈ xs ↔ x ∈ cs ∧ x ≠ c) ∧ homeLine u l = if xs = [] ∧ ds = [] then none else some (.S xs ds)) ∧
    ∀ d, (∃ u, exec (.inv (.l1 d c) l n) s = .next u ∧ l1State u d c l = none ∧ (l1State s d c l = some .M → l ∈ u.sealed.dirty)) ∧
      (∃ u, exec (.fwdM (.l1 d c) l n) s = .next u ∧ l1State u d c l = none ∧ (l1State s d c l = some .M → l ∈ u.sealed.dirty)) ∧
      (l1State s d c l = some .M → ∃ u, exec (.fwdS (.l1 d c) l n) s = .next u ∧ l1State u d c l = some .S ∧ l ∈ u.sealed.dirty) ∧
      (l1State s d c l = some .E → ∃ u, exec (.fwdS (.l1 d c) l n) s = .next u ∧ l1State u d c l = some .S)) ∧
  (∀ st r, exec (.upg st l r n) s = exec (.getm st l r n) s) ∧
  (∀ d w, d ≠ home → judge (seqWindow s d proxyAgent home) d proxyAgent home n = .handle w → homeLine s l = some (.X (.die d)) →
    ∃ u, exec (.dwn l d n) s = .next u ∧ homeLine u l = some (.S [] [d]) ∧ l ∈ u.sealed.dirty) ∧
  (∀ d, d ≠ home → (∀ w, judge (seqWindow s d proxyAgent home) d proxyAgent home n ≠ .handle w) →
    ∀ i, i ∈ [Instr.dwn l d n, .gets .home l (.die d) n, .getm .home l (.die d) n, .pute .home l (.die d) n, .putm .home l (.die d) n] →
      ∃ u, exec i s = .next u ∧ u.coh.home = s.coh.home ∧ u.coh.l1 = s.coh.l1 ∧ u.coh.proxy = s.coh.proxy ∧ u.sealed = s.sealed) ∧
  (∀ d w, d ≠ home → judge (seqWindow s home homeAgent d) home homeAgent d n = .handle w →
    (∃ u, exec (.inv (.proxy d) l n) s = .next u ∧ proxyLine u d l = none) ∧ (∃ u, exec (.fwdM (.proxy d) l n) s = .next u ∧ proxyLine u d l = none) ∧
    (∀ c, proxyLine s d l = some (.X c) → ∃ u, exec (.fwdS (.proxy d) l n) s = .next u ∧ proxyLine u d l = some (.S [c]))) ∧
  (∀ e,
    ((∀ k, homeLine s l ≠ some (.P k)) → (∀ x, homeLine s l ≠ some (.G x)) →
      (homeStuck s l = false → ∃ u, exec (.engineClaim l e) s = .next u ∧ homeLine u l = some (.G e)) ∧
      (homeStuck s l = true → ∃ u, exec (.engineClaim l e) s = .next u ∧ u.coh.home = s.coh.home ∧ (l, Waiting.claim e) ∈ u.coh.delayed)) ∧
    (∀ k, homeLine s l = some (.P k) → ∃ u, exec (.engineClaim l e) s = .next u ∧ u.coh.home = s.coh.home ∧ u.coh.l1 = s.coh.l1
      ∧ u.sealed = s.sealed ∧ u.mem = s.mem) ∧
    (homeLine s l = some (.G e) → exec (.engineClaim l e) s = .next s) ∧
    (∀ x, x ≠ e → homeLine s l = some (.G x) → Waiting.claim e ∈ homeQueue s l → exec (.engineClaim l e) s = .next s) ∧
    (∀ x, x ≠ e → homeLine s l = some (.G x) → Waiting.claim e ∉ homeQueue s l → ∃ u, exec (.engineClaim l e) s = .next u ∧ homeLine u l = some (.G x)
      ∧ homeQueue u l = homeQueue s l ++ [.claim e]) ∧
    (homeLine s l = some (.G e) → ∃ u, exec (.engineDone l e) s = .next u ∧ l ∈ u.sealed.dirty
      ∧ ((∀ w ∈ homeQueue s l, ∀ x, w ≠ .claim x) → ∀ x, homeLine u l ≠ some (.G x))
      ∧ (homeQueue s l = [] → homeLine u l = none)
      ∧ (∀ x r, homeQueue s l = .claim x :: r → homeLine u l = some (.G x) ∧ homeQueue u l = r)
      ∧ ∀ c w, homeQueue s l = [.ask ⟨.core c, w, some c, none, false⟩] →
          homeLine u l = some (.X (.core c)) ∧ l1State u home c l = some (if w then .M else .E)) ∧
    (homeLine s l ≠ some (.G e) → exec (.engineDone l e) s = .next s)) ∧
  (∀ src dst m, s.coh.sent.find? (fun m => m.src == src && m.dst == dst && m.seq == n) = some m →
    (m.timeouts < 7 → ∃ u, exec (.reissueTimeout src dst n) s = .next u ∧ { m with timeouts := m.timeouts + 1 } ∈ u.coh.sent ∧ m ∉ u.coh.sent
      ∧ (dieRec u src).reissue = min ((dieRec s src).reissue + 1) 65535 ∧ u.inputs = s.inputs ++ m.msg.toList) ∧
    (7 ≤ m.timeouts → ∃ u, exec (.reissueTimeout src dst n) s = .next u ∧ m ∉ u.coh.sent
      ∧ u.inputs = if dieFull s dst = true ∧ Instr.dieFailure dst ∉ s.inputs then s.inputs ++ [.dieFailure dst] else s.inputs))

/-! ## Dies and the kiln controller -/

/-- Dies, cores and errors (R341, R382, R383, R387, R391, R395 to R399). A trained die joins with its supervisor hart, or is left out. A die that fails keeps no
hart, ends its launches with cause 8 and is memory-only or offline; it may rejoin, or fail with its plinth, its frames lost. A frame moves with its
bytes and its owner, and the old one is cleared; a stack is evacuated whole or not at all. A core still draining after a second loses its crews to the image pools; an empty one is retired.
A supervisor's second fault within a second takes its die down. Errors are counted, poison what they lose, trap the hart whose state they strike,
or stop the device, which starts again with no hart but the supervisors'.
The model's choice or reading: the supervisor's slot and its move off a draining core, the frames that move, that an error in a hart's own
state retires by draining, and that an event whose condition fails changes nothing (log entries 3, 61 to 65, 88, 89, 95). -/
def Obligations.DieAndErrorEvents : Prop := ∀ s d,
  let x := dieRec s d
  ((s.kiln.stage = 2 ∨ s.kiln.stage = 3) → x.state = 1 →
    (x.plinth = true → ∃ u, exec (.dieJoin d) s = .next u ∧ (dieRec u d).state = 2 ∧ u.kiln.stage = 3 ∧ u.mem = s.mem
      ∧ ∀ h, supervisorSlot s d = some h → ∃ b, boxOf u h = some b ∧ b.hart.supervisor = true ∧ b.s0.pc = firmwareEntry d) ∧
    (∃ u, exec (.trainingTimeout d) s = .next u ∧ (dieRec u d).state = 0 ∧ u.kiln.failedDies.getLsbD d.toNat = true)) ∧
  (dieFull s d = true → ∃ u, exec (.dieFailure d) s = .next u ∧ (dieRec u d).state = (if x.plinth then 3 else 4)
    ∧ (∀ b ∈ boxes u, dieOf b.hart.id ≠ d) ∧ u.kiln.failedDies.getLsbD d.toNat = true ∧ u.kiln.replace = true
    ∧ ∀ l y, launchOf s l = some y → y.dies.contains d = true → y.failed = none → ∃ z, launchOf u l = some z ∧ z.failed = some (8, 0)) ∧
  (dieFull s d = false → x.state = 3 → ∃ u, exec (.dieFailure d) s = .next u ∧ u.mem = s.mem ∧ (dieRec u d).state = 4 ∧ (dieRec u d).lostpg = true
    ∧ u.kiln.lost = s.kiln.lost ++ ownedFrames s d ∧ ∀ h ∈ u.coh.home, lineHome h.line ≠ d) ∧
  (dieFull s d = false → x.state ≠ 3 → exec (.dieFailure d) s = .next s) ∧
  (∀ failed, x.state = 3 → x.plinth = true →
    ((s.kiln.stage = 2 ∨ s.kiln.stage = 3) → ∃ u, exec (.dieRejoin d failed) s = .next u ∧ (dieRec u d).state = 2 ∧ u.kiln.stage = 3
      ∧ ∀ p ∈ failed, (coreRec u d p.1).lgmask &&& p.2 = p.2) ∧
    (s.kiln.stage ≠ 2 → s.kiln.stage ≠ 3 → exec (.dieRejoin d failed) s = .next s)) ∧
  (x.state = 3 →
    (ownedFrames s d = [] → exec (.evacuation d []) s = .next (setDie s d { x with state := 4 })) ∧
    (∀ moves, ownedFrames (evacuate s d moves) d ≠ [] → exec (.evacuation d moves) s = .next s) ∧
    (∀ old new, homeDieOf (65536 * old) = d → homeDieOf (65536 * new) ≠ d → frameMovable s old new = true → Canonical s →
      ownedFrames s d = [(old, (ownerOf s old).toNat)] → ∃ u, exec (.evacuation d [(old, new)]) s = .next u ∧ ownerOf u new = ownerOf s old
        ∧ ownerOf u old = 0x7F ∧ (∀ i, i < 65536 → u.mem.read (65536 * old + i) = 0)
        ∧ (mappingsTo s old = [] → (newerSlot s (homeDieOf (65536 * new)) (ownerOf s old).toNat).isSome = true →
            (∀ t, t / 32 = old → s.sealed.inL2.contains t = true ∧ ∀ i, i < 16 → poisonOf s (16 * t + i) = none) →
            ∀ i, i < 65536 → u.mem.read (65536 * new + i) = s.mem.read (65536 * old + i)))) ∧
  (∀ c,
    let late : State := setCore s { coreRec s d c with overdue := true }
    ((coreRec s d c).draining = true → ∃ u, exec (.drainTimeout d c) s = .next u ∧ u.mem = s.mem ∧ (coreRec u d c).overdue = true
      ∧ (∀ w r, drainVictims late d c = w :: r →
          ∀ b ∈ boxes s, w.holds b.hart.key = true → b.hart.status = .running → Instr.hartStop b.hart.id ∈ u.inputs)
      ∧ (drainVictims late d c = [] → ∀ b h, (boxes s).find? (fun b => b.hart.supervisor && dieOf b.hart.id == d && coreOf b.hart.id == c) = some b →
          supervisorSlot late d = some h → boxOf u b.hart.id = none ∧ ∃ y, boxOf u h = some y ∧ y.hart.supervisor = true ∧ y.s0.pc = firmwareEntry d)) ∧
    ((coreRec s d c).draining = true → coreEmpty s d c = false → exec (.coreRetirement d c) s = .next s) ∧
    ((coreRec s d c).draining = true → coreEmpty s d c = true → ∃ u, exec (.coreRetirement d c) s = .next u
      ∧ (coreRec u d c).lgmask = (coreRec s d c).lgmask ||| (coreRec s d c).due ∧ (coreRec u d c).draining = false) ∧
    ((coreRec s d c).draining = false → exec (.drainTimeout d c) s = .next s ∧ exec (.coreRetirement d c) s = .next s)) ∧
  (∀ now, dieFull s d = true →
    ((∀ t, x.superFault = some t → t + 1000000 ≤ now) → ∀ b, (boxes s).find? (fun b => b.hart.supervisor && dieOf b.hart.id == d) = some b →
      ∃ u y, exec (.supervisorFault d now) s = .next u ∧ boxOf u b.hart.id = some y ∧ y.s0.pc = firmwareEntry d
        ∧ y.hart.status = .running) ∧
    (∀ t, x.superFault = some t → now < t + 1000000 →
      ∃ u, exec (.supervisorFault d now) s = .next u
        ∧ u.inputs = if Instr.dieFailure d ∈ s.inputs then s.inputs else s.inputs ++ [.dieFailure d])) ∧
  (∀ e now, siteDie e = d → ∃ u, exec (.correctedError e now) s = .next u
    ∧ (dieRec u d).soft.cedram = (if isDramSite e then min (x.soft.cedram + 1) 65535 else x.soft.cedram)
    ∧ (dieRec u d).soft.cesram = (if isDramSite e then x.soft.cesram else min (x.soft.cesram + 1) 65535)
    ∧ ∀ c k, k = siteUnit s e →
        16 ≤ (((s.kiln.recent ++ [(k, max s.now now)]).filter (fun r => max s.now now < r.2 + 86400000000)).filter (fun r => r.1 == k)).length →
        (∀ g, k = .laneGroup d c g → (coreRec u d c).draining = true ∧ (coreRec u d c).due.getLsbD g.toNat = true)
        ∧ (k = .coreSram d c → (coreRec u d c).draining = true ∧ (coreRec u d c).due = 0xFF)) ∧
  (∀ e, siteDie e = d → ∃ u, exec (.uncorrectableError e) s = .next u ∧ (dieRec u d).soft.ue = min (x.soft.ue + 1) 65535
    ∧ (∀ l, e = .line l → poisonOf u l = some .seal ∧ u.mem = s.mem)
    ∧ (∀ t, e = .tile t → (tileRec u t).state = 2 ∧ ∀ i, i < 16 → poisonOf u (16 * t + i) = some .seal)
    ∧ (∀ h sub b, e = .hartState h sub → boxOf s h = some b → b.hart.live = true →
        ((b.hart.status = .running ∨ b.hart.status = .held ∨ b.hart.status = .retiring ∨ ∃ r, b.hart.status = .stopping r) →
          ∃ b' t, boxOf u h = some b' ∧ b'.hart.status = .stopping 1 ∧ b'.hart.trap = some t ∧ t.cls = 11 ∧ t.sub = sub.toNat)
        ∧ (∀ r slot, b.hart.status = .stopped r slot → boxes u = boxes s)
        ∧ (coreRec u (dieOf h) (coreOf h)).ues = (coreRec s (dieOf h) (coreOf h)).ues + 1
        ∧ (sub = 0 → (coreRec u (dieOf h) (coreOf h)).draining = true ∧ (coreRec u (dieOf h) (coreOf h)).due ≠ 0)
        ∧ (1 ≤ (coreRec s (dieOf h) (coreOf h)).ues → (coreRec u (dieOf h) (coreOf h)).draining = true ∧ (coreRec u (dieOf h) (coreOf h)).due = 0xFF))
    ∧ ((∃ c g, e = .laneGroup d c g) ∨ (∃ c, e = .coreSram d c) ∨ e = .shared d → u.kiln.recovering = true ∧ u.inputs = s.inputs ++ [.deviceFault e])) ∧
  (∀ e, ∃ u, exec (.deviceFault e) s = .next u ∧ u.kiln.recovering = false ∧ u.kiln.faults = min (s.kiln.faults + 1) 255
    ∧ (∀ b ∈ boxes u, b.hart.supervisor = true) ∧ u.sched.commands = [] ∧ u.sched.launches = [] ∧ u.coh.l1 = [] ∧ u.coh.proxy = [])

/-- The kiln controller (R387 to R393, R401, R402). Power-good boots the ROM's choice of bank, or recovery; a reset of the controller reruns it. A fuse raise is refused
above its bounds, is nothing at or below the counter, and otherwise ends at its target, evicting what it revokes. Responses carry the
measurement blocks with their signature of 2,420 bytes, and in stages 1 to 3 the sensor's value and the log. A sample sets every clock by cap and
temperature; the comparator halves them, above 60.0 A at 48 V too. Loss of power keeps flash and fuses only.
The model's choice or reading: what survives a reset, the step of a sample, and that an event whose condition fails changes nothing (log
entries 3, 19, 66, 67), the layout of the measurement blocks (log entry 118). -/
def Obligations.KilnEvents : Prop := ∀ s,
  (s.kiln.stage = 0 → (dieRec s 0).plinth = true →
    (bootBank s = none → exec .powerGood s = .next { s with kiln := { s.kiln with
      stage := 4, bank := Kiln.reset.bank, secver := Kiln.reset.secver, tfloor := Kiln.reset.tfloor, hbody := Kiln.reset.hbody } }) ∧
    (∀ b, bootBank s = some b → ∃ u, exec .powerGood s = .next u ∧ u.kiln.stage = 1 ∧ u.kiln.bank = b
      ∧ u.kiln.secver = bytesNat (if b then s.kiln.flashB else s.kiln.flashA) 8 4 ∧ u = { s with kiln := u.kiln })) ∧
  (s.kiln.stage ≠ 0 → s.kiln.fuseBusy = false → ∃ u, exec .kilnControllerReset s = .next u ∧ u = { s with kiln := u.kiln }
    ∧ (bootBank s = none → u.kiln.stage = 4 ∧ u.kiln.bank = Kiln.reset.bank ∧ u.kiln.secver = Kiln.reset.secver)
    ∧ ∀ b, bootBank s = some b → u.kiln.bank = b ∧ u.kiln.stage = if ∃ d ∈ allDies, dieFull s d = true then 3 else 1) ∧
  (∀ b, bootBank s = some b → imagePasses s (if b then s.kiln.flashB else s.kiln.flashA) = true
    ∧ (imagePasses s (if b then s.kiln.flashA else s.kiln.flashB) = true →
        bytesNat (if b then s.kiln.flashA else s.kiln.flashB) 8 4 ≤ bytesNat (if b then s.kiln.flashB else s.kiln.flashA) 8 4)) ∧
  (∀ object (target : BitVec 8), s.kiln.fuseBusy = false →
    let now := if object then s.kiln.objv else s.kiln.fwv
    let result (r : Nat) : Prop := exec (.fuseRaise object target) s
      = .next { s with kiln := { s.kiln with fuseWhich := object, fuseTarget := target.toNat, fuseResult := r } }
    (64 < target.toNat ∨ (object = false ∧ s.kiln.secver < target.toNat) → result 2) ∧
    (target.toNat ≤ 64 → (object = false → target.toNat ≤ s.kiln.secver) →
      (target.toNat ≤ now → result 1) ∧
      (now < target.toNat → ∃ u, exec (.fuseRaise object target) s = .next u ∧ u.kiln.fuseBusy = true ∧ u.kiln.fuseTarget = target.toNat
        ∧ u.kiln.fuseWhich = object ∧ u.inputs = s.inputs ++ [.fuseRaiseComplete]))) ∧
  (s.kiln.fuseBusy = true → ∃ u, exec .fuseRaiseComplete s = .next u ∧ u.kiln.fuseBusy = false ∧ u.kiln.fuseResult = 0
    ∧ u.kiln.fwv = (if s.kiln.fuseWhich then s.kiln.fwv else s.kiln.fuseTarget)
    ∧ u.kiln.objv = (if s.kiln.fuseWhich then s.kiln.fuseTarget else s.kiln.objv)
    ∧ (s.kiln.fuseWhich = true → ∀ c, c ∈ u.kiln.cache ↔ c ∈ s.kiln.cache ∧ s.kiln.fuseTarget ≤ c.secver)) ∧
  (s.kiln.fuseBusy = false → exec .fuseRaiseComplete s = .next s) ∧
  (s.kiln.stage ≠ 0 →
    (∃ u body, exec .measurements s = .next u ∧ u.host.out = s.host.out ++ [.bytes 1 (body ++ nBytes 2420 (Config.signIdentity body).toNat)] ∧ u.mem = s.mem
      ∧ (s.kiln.fuseBusy = false → body = (measurementBlocks s).flatten)) ∧
    (∀ image, exec (.firmwareUpdate image) s
      = .next { s with kiln := if s.kiln.bank then { s.kiln with flashA := image } else { s.kiln with flashB := image } }) ∧
    (1 ≤ s.kiln.stage → s.kiln.stage ≤ 3 →
      (∀ y, exec (.platformMonitoring y) s = .next { s with host := { s.host with out := s.host.out ++ [.value 2 (sensorValue s y)] } }) ∧
      exec .fileTransfer s = .next { s with host := { s.host with out := s.host.out ++ [.log s.kiln.log] } }) ∧
    (s.kiln.stage = 4 → (∀ y, exec (.platformMonitoring y) s = .next s) ∧ exec .fileTransfer s = .next s) ∧
    (∀ watts junction dram hot, ∃ u, exec (.powerSample watts junction dram hot) s = .next u ∧ u.now = s.now + 100 ∧ u.kiln.watts = watts
      ∧ u.mem = s.mem ∧ (2880 < watts → u.kiln.limcur = true) ∧ (watts ≤ 2880 → u.kiln.limcur = s.kiln.limcur) ∧ ∀ d,
        let t := ((hot.find? (fun h => h.1 == d)).map (·.2)).getD 0
        let c := if 2880 < watts then (dieRec s d).clock / 2 else (dieRec s d).clock
        (dieRec u d).clock = (if s.kiln.cap < watts ∨ 92 < t then (if c ≤ 1000 then c else max 1000 (c - 250))
            else if 100 * watts < 95 * s.kiln.cap then min 4000 (c + 250) else c)
        ∧ (dieFull s d = true → (dieRec u d).dref = decide (85 < t) ∧ (dieRec u d).limthm = decide (92 < t) ∧ (95 ≤ t → Instr.dieFailure d ∈ u.inputs))
        ∧ ((dieRec s d).state = 3 → (dieRec u d).dref = decide (85 < t)))) ∧
  (∃ u, exec .currentLimit s = .next u ∧ u.kiln.limcur = true ∧ u.mem = s.mem ∧ ∀ d, (dieRec u d).clock = (dieRec s d).clock / 2) ∧
  (∃ u, exec .powerLoss s = .next u ∧ u.kiln.stage = 0 ∧ u.mem = State.reset.mem ∧ boxes u = boxes State.reset ∧ u.kiln.flashA = s.kiln.flashA
    ∧ u.kiln.flashB = s.kiln.flashB ∧ (s.kiln.fuseBusy = false → u.kiln.fwv = s.kiln.fwv ∧ u.kiln.objv = s.kiln.objv)
    ∧ (s.kiln.fuseBusy = true → s.kiln.fuseBlown ≤ s.kiln.fuseTarget → s.kiln.fuseWhich = false →
        u.kiln.objv = s.kiln.objv ∧ s.kiln.fuseBlown ≤ u.kiln.fwv ∧ u.kiln.fwv ≤ s.kiln.fuseTarget))

/-- The installer and the loader (R282 to R290, R408), in stage 3. A malformed container answers 16; a revoked version answers 22; an input met before, on
this revision and with this translator, answers its cached output; otherwise the certified object is answered and cached, or the code and offset
of the first failing word. The text of an object that passes the loader's checks stands in frames that were free and are tenant 0's now; one that
fails answers its code.
The model's choice or reading: where an object is placed, the order of the installer's checks, what certified text is, that a container ends at its
last section, and two of the checks that are not spelled out (log entries 18, 68, 91, 93, 119, 120). -/
def Obligations.InstallAndLoadEvents : Prop := ∀ s input, s.kiln.stage = 3 →
  let c := containerOf input
  let b := containerPart input
  let secver := (containerOf b).secver
  let mine (e : CacheEntry) : Bool := e.hin == sha3 b && e.revision == Config.revision && e.tver == translatorVersion s
  let hit := s.kiln.cache.find? mine
  let answers (u : State) (o : List HostOut) : Prop := u.host.out = s.host.out ++ o
  ((containerOk input = false ∨ c.kind = 3) → ∃ u, exec (.install input) s = .next u ∧ answers u [.value 3 16] ∧ u.kiln = s.kiln) ∧
  (containerOk input = true → c.kind ≠ 3 →
    (secver < s.kiln.objv → ∃ u, exec (.install input) s = .next u ∧ answers u [.value 3 22] ∧ ∀ e ∈ u.kiln.cache, mine e = false) ∧
    (s.kiln.objv ≤ secver →
      (∀ e, hit = some e → e.output ≠ [] → ∃ u, exec (.install input) s = .next u ∧ answers u [.value 3 0, .bytes 3 e.output] ∧ u.kiln = s.kiln) ∧
      (hit = none →
        (∀ out, certify (translatorVersion s) b = .ok out → out ≠ [] → ∃ u, exec (.install input) s = .next u ∧ answers u [.value 3 0, .bytes 3 out]
          ∧ ⟨sha3 b, Config.revision, translatorVersion s, secver, out⟩ ∈ u.kiln.cache) ∧
        (∀ code off, certify (translatorVersion s) b = .error (code, some off) → ∃ u, exec (.install input) s = .next u
          ∧ answers u [.value 3 (BitVec.ofNat 64 code), .value 4 (BitVec.ofNat 64 off)] ∧ u.kiln = s.kiln) ∧
        (∀ code, certify (translatorVersion s) b = .error (code, none) →
          ∃ u, exec (.install input) s = .next u ∧ answers u [.value 3 (BitVec.ofNat 64 code)] ∧ u.kiln = s.kiln)))) ∧
  (∀ code, loaderCode s input = code → code ≠ 0 → ∃ u, exec (.load input) s = .next u ∧ answers u [.value 5 (BitVec.ofNat 64 code)] ∧ u.mem = s.mem) ∧
  (loaderCode s input = 0 →
    let tframes := (c.tsize + 65535) / 65536
    let frames := tframes + (c.dsize + 65535) / 65536
    (∀ f, freeRun s frames = some f → (∀ j, j < frames → frameFree s (f + j) = true)
      ∧ ∃ u, exec (.load input) s = .next u ∧ answers u [.value 5 0, .bytes 5 (loadReply input (65536 * f) (65536 * (f + tframes)))]
        ∧ (∀ j, j < frames → ownerOf u (f + j) = 0)
        ∧ ∀ (i : Nat) v, i < 65536 * tframes → (bytesOf input c.toff c.tsize)[i]? = some v → u.mem.read (65536 * f + i) = v) ∧
    (freeRun s frames = none → exec (.load input) s = .next s))

/-! ## Reset, and what every step keeps -/

/-- The module at power-good (R23, R330, R342, R345, R382, R387, R394, R401): stage 0, no die joined, no hart, no byte of memory listed, and the registers of
the dies and of the kiln block at the values their maps give; the state is sound.
The model's choice or reading: that memory reads 0 and that unstated registers are 0 (log entries 5, 8). -/
def Obligations.ResetState : Prop :=
  Sound State.reset ∧ boxes State.reset = [] ∧ (∀ a, State.reset.mem.read a = 0) ∧ State.reset.kiln.stage = 0 ∧ State.reset.kiln.cap = 2800
    ∧ State.reset.kiln.failedDies = 0 ∧ State.reset.kiln.faults = 0 ∧ State.reset.kiln.cache = [] ∧ State.reset.sched.launches = []
    ∧ (∀ d, (dieRec State.reset d).state = 0 ∧ (dieRec State.reset d).sup.sbanks = 32 ∧ (dieRec State.reset d).sup.strapq = 0
      ∧ (dieRec State.reset d).sup.simg = 0 ∧ (dieRec State.reset d).sup.sshoot = 0 ∧ (dieRec State.reset d).sup.sroot = 0
      ∧ (dieRec State.reset d).grace = 20 ∧ (dieRec State.reset d).clock = 4000 ∧ (dieRec State.reset d).glaze.busy = false)
    ∧ (∀ fn slot, ringOf State.reset fn slot = Ring.fresh fn slot) ∧ (∀ fn i, windowOf State.reset fn i = 0)
    ∧ (∀ f, ownerOf State.reset f = 0x7F) ∧ (∀ d c, workingGroups (coreRec State.reset d c) = 8)

/-- Every step that goes on keeps the machine sound: memory stays in its canonical form, so that equal memories are equal data, and every pc, of a
strand, of the scalar instructions behind its convoy and of a handler's return, stays a multiple of 4 (R68). The form of memory is the model's
own (log entry 8). -/
def Obligations.StepKeepsSound : Prop := ∀ s t, Sound s → step s = .next t → Sound t
end

