-- ==== Sys2Proof/Laws/State.lean ====
section
/-! SUPPORT. What each update of the state leaves alone and what it changes: for every update one lemma per field of State, and for a
record that it changes one lemma with the whole of it; then how the register accessors read after the writes. -/

namespace Sys2Proof.Machine

/-! `setPc` -/

@[simp] theorem setPc_mate (s : State) (p : Word) : (setPc s p).mate = s.mate := rfl
@[simp] theorem setPc_role (s : State) (p : Word) : (setPc s p).role = s.role := rfl
@[simp] theorem setPc_hart (s : State) (p : Word) : (setPc s p).hart = s.hart := rfl
@[simp] theorem setPc_parked (s : State) (p : Word) : (setPc s p).parked = s.parked := rfl
@[simp] theorem setPc_inputs (s : State) (p : Word) : (setPc s p).inputs = s.inputs := rfl
@[simp] theorem setPc_mem (s : State) (p : Word) : (setPc s p).mem = s.mem := rfl
@[simp] theorem setPc_coh (s : State) (p : Word) : (setPc s p).coh = s.coh := rfl
@[simp] theorem setPc_sealed (s : State) (p : Word) : (setPc s p).sealed = s.sealed := rfl
@[simp] theorem setPc_cores (s : State) (p : Word) : (setPc s p).cores = s.cores := rfl
@[simp] theorem setPc_dies (s : State) (p : Word) : (setPc s p).dies = s.dies := rfl
@[simp] theorem setPc_sched (s : State) (p : Word) : (setPc s p).sched = s.sched := rfl
@[simp] theorem setPc_host (s : State) (p : Word) : (setPc s p).host = s.host := rfl
@[simp] theorem setPc_kiln (s : State) (p : Word) : (setPc s p).kiln = s.kiln := rfl
@[simp] theorem setPc_cycle (s : State) (p : Word) : (setPc s p).cycle = s.cycle := rfl
@[simp] theorem setPc_now (s : State) (p : Word) : (setPc s p).now = s.now := rfl
@[simp] theorem setPc_issues (s : State) (p : Word) : (setPc s p).issues = s.issues := rfl
@[simp] theorem setPc_fresh (s : State) (p : Word) : (setPc s p).fresh = s.fresh := rfl

/-! `countInstr` -/

@[simp] theorem countInstr_strand (s : State) (n : Nat) : (countInstr s n).strand = s.strand := rfl
@[simp] theorem countInstr_mate (s : State) (n : Nat) : (countInstr s n).mate = s.mate := rfl
@[simp] theorem countInstr_role (s : State) (n : Nat) : (countInstr s n).role = s.role := rfl
@[simp] theorem countInstr_parked (s : State) (n : Nat) : (countInstr s n).parked = s.parked := rfl
@[simp] theorem countInstr_inputs (s : State) (n : Nat) : (countInstr s n).inputs = s.inputs := rfl
@[simp] theorem countInstr_mem (s : State) (n : Nat) : (countInstr s n).mem = s.mem := rfl
@[simp] theorem countInstr_coh (s : State) (n : Nat) : (countInstr s n).coh = s.coh := rfl
@[simp] theorem countInstr_sealed (s : State) (n : Nat) : (countInstr s n).sealed = s.sealed := rfl
@[simp] theorem countInstr_cores (s : State) (n : Nat) : (countInstr s n).cores = s.cores := rfl
@[simp] theorem countInstr_dies (s : State) (n : Nat) : (countInstr s n).dies = s.dies := rfl
@[simp] theorem countInstr_sched (s : State) (n : Nat) : (countInstr s n).sched = s.sched := rfl
@[simp] theorem countInstr_host (s : State) (n : Nat) : (countInstr s n).host = s.host := rfl
@[simp] theorem countInstr_kiln (s : State) (n : Nat) : (countInstr s n).kiln = s.kiln := rfl
@[simp] theorem countInstr_cycle (s : State) (n : Nat) : (countInstr s n).cycle = s.cycle := rfl
@[simp] theorem countInstr_now (s : State) (n : Nat) : (countInstr s n).now = s.now := rfl
@[simp] theorem countInstr_issues (s : State) (n : Nat) : (countInstr s n).issues = s.issues := rfl
@[simp] theorem countInstr_fresh (s : State) (n : Nat) : (countInstr s n).fresh = s.fresh := rfl

/-! `countAs` -/

@[simp] theorem countAs_strand (s : State) (n : Nat) (u : Bool) : (countAs s n u).strand = s.strand := rfl
@[simp] theorem countAs_mate (s : State) (n : Nat) (u : Bool) : (countAs s n u).mate = s.mate := rfl
@[simp] theorem countAs_role (s : State) (n : Nat) (u : Bool) : (countAs s n u).role = s.role := rfl
@[simp] theorem countAs_parked (s : State) (n : Nat) (u : Bool) : (countAs s n u).parked = s.parked := rfl
@[simp] theorem countAs_inputs (s : State) (n : Nat) (u : Bool) : (countAs s n u).inputs = s.inputs := rfl
@[simp] theorem countAs_mem (s : State) (n : Nat) (u : Bool) : (countAs s n u).mem = s.mem := rfl
@[simp] theorem countAs_coh (s : State) (n : Nat) (u : Bool) : (countAs s n u).coh = s.coh := rfl
@[simp] theorem countAs_sealed (s : State) (n : Nat) (u : Bool) : (countAs s n u).sealed = s.sealed := rfl
@[simp] theorem countAs_cores (s : State) (n : Nat) (u : Bool) : (countAs s n u).cores = s.cores := rfl
@[simp] theorem countAs_dies (s : State) (n : Nat) (u : Bool) : (countAs s n u).dies = s.dies := rfl
@[simp] theorem countAs_sched (s : State) (n : Nat) (u : Bool) : (countAs s n u).sched = s.sched := rfl
@[simp] theorem countAs_host (s : State) (n : Nat) (u : Bool) : (countAs s n u).host = s.host := rfl
@[simp] theorem countAs_kiln (s : State) (n : Nat) (u : Bool) : (countAs s n u).kiln = s.kiln := rfl
@[simp] theorem countAs_cycle (s : State) (n : Nat) (u : Bool) : (countAs s n u).cycle = s.cycle := rfl
@[simp] theorem countAs_now (s : State) (n : Nat) (u : Bool) : (countAs s n u).now = s.now := rfl
@[simp] theorem countAs_issues (s : State) (n : Nat) (u : Bool) : (countAs s n u).issues = s.issues := rfl
@[simp] theorem countAs_fresh (s : State) (n : Nat) (u : Bool) : (countAs s n u).fresh = s.fresh := rfl

/-! `inText` -/

@[simp] theorem inText_hart (s : State) (p : Bool) : (inText s p).hart = s.hart := rfl
@[simp] theorem inText_mate (s : State) (p : Bool) : (inText s p).mate = s.mate := rfl
@[simp] theorem inText_role (s : State) (p : Bool) : (inText s p).role = s.role := rfl
@[simp] theorem inText_parked (s : State) (p : Bool) : (inText s p).parked = s.parked := rfl
@[simp] theorem inText_inputs (s : State) (p : Bool) : (inText s p).inputs = s.inputs := rfl
@[simp] theorem inText_mem (s : State) (p : Bool) : (inText s p).mem = s.mem := rfl
@[simp] theorem inText_coh (s : State) (p : Bool) : (inText s p).coh = s.coh := rfl
@[simp] theorem inText_sealed (s : State) (p : Bool) : (inText s p).sealed = s.sealed := rfl
@[simp] theorem inText_cores (s : State) (p : Bool) : (inText s p).cores = s.cores := rfl
@[simp] theorem inText_dies (s : State) (p : Bool) : (inText s p).dies = s.dies := rfl
@[simp] theorem inText_sched (s : State) (p : Bool) : (inText s p).sched = s.sched := rfl
@[simp] theorem inText_host (s : State) (p : Bool) : (inText s p).host = s.host := rfl
@[simp] theorem inText_kiln (s : State) (p : Bool) : (inText s p).kiln = s.kiln := rfl
@[simp] theorem inText_cycle (s : State) (p : Bool) : (inText s p).cycle = s.cycle := rfl
@[simp] theorem inText_now (s : State) (p : Bool) : (inText s p).now = s.now := rfl
@[simp] theorem inText_issues (s : State) (p : Bool) : (inText s p).issues = s.issues := rfl
@[simp] theorem inText_fresh (s : State) (p : Bool) : (inText s p).fresh = s.fresh := rfl

/-! `advance` -/

@[simp] theorem advance_mate (s : State) : (advance s).mate = s.mate := rfl
@[simp] theorem advance_role (s : State) : (advance s).role = s.role := rfl
@[simp] theorem advance_parked (s : State) : (advance s).parked = s.parked := rfl
@[simp] theorem advance_inputs (s : State) : (advance s).inputs = s.inputs := rfl
@[simp] theorem advance_mem (s : State) : (advance s).mem = s.mem := rfl
@[simp] theorem advance_coh (s : State) : (advance s).coh = s.coh := rfl
@[simp] theorem advance_sealed (s : State) : (advance s).sealed = s.sealed := rfl
@[simp] theorem advance_cores (s : State) : (advance s).cores = s.cores := rfl
@[simp] theorem advance_dies (s : State) : (advance s).dies = s.dies := rfl
@[simp] theorem advance_sched (s : State) : (advance s).sched = s.sched := rfl
@[simp] theorem advance_host (s : State) : (advance s).host = s.host := rfl
@[simp] theorem advance_kiln (s : State) : (advance s).kiln = s.kiln := rfl
@[simp] theorem advance_cycle (s : State) : (advance s).cycle = s.cycle := rfl
@[simp] theorem advance_now (s : State) : (advance s).now = s.now := rfl
@[simp] theorem advance_issues (s : State) : (advance s).issues = s.issues := rfl
@[simp] theorem advance_fresh (s : State) : (advance s).fresh = s.fresh := rfl

/-! `stallOn` -/

@[simp] theorem stallOn_mate (s : State) (r : Stall) : (stallOn s r).mate = s.mate := rfl
@[simp] theorem stallOn_role (s : State) (r : Stall) : (stallOn s r).role = s.role := rfl
@[simp] theorem stallOn_hart (s : State) (r : Stall) : (stallOn s r).hart = s.hart := rfl
@[simp] theorem stallOn_parked (s : State) (r : Stall) : (stallOn s r).parked = s.parked := rfl
@[simp] theorem stallOn_inputs (s : State) (r : Stall) : (stallOn s r).inputs = s.inputs := rfl
@[simp] theorem stallOn_mem (s : State) (r : Stall) : (stallOn s r).mem = s.mem := rfl
@[simp] theorem stallOn_coh (s : State) (r : Stall) : (stallOn s r).coh = s.coh := rfl
@[simp] theorem stallOn_sealed (s : State) (r : Stall) : (stallOn s r).sealed = s.sealed := rfl
@[simp] theorem stallOn_cores (s : State) (r : Stall) : (stallOn s r).cores = s.cores := rfl
@[simp] theorem stallOn_dies (s : State) (r : Stall) : (stallOn s r).dies = s.dies := rfl
@[simp] theorem stallOn_sched (s : State) (r : Stall) : (stallOn s r).sched = s.sched := rfl
@[simp] theorem stallOn_host (s : State) (r : Stall) : (stallOn s r).host = s.host := rfl
@[simp] theorem stallOn_kiln (s : State) (r : Stall) : (stallOn s r).kiln = s.kiln := rfl
@[simp] theorem stallOn_cycle (s : State) (r : Stall) : (stallOn s r).cycle = s.cycle := rfl
@[simp] theorem stallOn_now (s : State) (r : Stall) : (stallOn s r).now = s.now := rfl
@[simp] theorem stallOn_issues (s : State) (r : Stall) : (stallOn s r).issues = s.issues := rfl
@[simp] theorem stallOn_fresh (s : State) (r : Stall) : (stallOn s r).fresh = s.fresh := rfl

/-! `bump` -/

@[simp] theorem bump_strand (s : State) : (bump s).strand = s.strand := rfl
@[simp] theorem bump_mate (s : State) : (bump s).mate = s.mate := rfl
@[simp] theorem bump_role (s : State) : (bump s).role = s.role := rfl
@[simp] theorem bump_hart (s : State) : (bump s).hart = s.hart := rfl
@[simp] theorem bump_parked (s : State) : (bump s).parked = s.parked := rfl
@[simp] theorem bump_inputs (s : State) : (bump s).inputs = s.inputs := rfl
@[simp] theorem bump_mem (s : State) : (bump s).mem = s.mem := rfl
@[simp] theorem bump_coh (s : State) : (bump s).coh = s.coh := rfl
@[simp] theorem bump_sealed (s : State) : (bump s).sealed = s.sealed := rfl
@[simp] theorem bump_cores (s : State) : (bump s).cores = s.cores := rfl
@[simp] theorem bump_dies (s : State) : (bump s).dies = s.dies := rfl
@[simp] theorem bump_sched (s : State) : (bump s).sched = s.sched := rfl
@[simp] theorem bump_host (s : State) : (bump s).host = s.host := rfl
@[simp] theorem bump_kiln (s : State) : (bump s).kiln = s.kiln := rfl
@[simp] theorem bump_cycle (s : State) : (bump s).cycle = s.cycle := rfl
@[simp] theorem bump_now (s : State) : (bump s).now = s.now := rfl
@[simp] theorem bump_issues (s : State) : (bump s).issues = s.issues := rfl

/-! `setDie` -/

@[simp] theorem setDie_strand (s : State) (d : DieId) (x : Die) : (setDie s d x).strand = s.strand := rfl
@[simp] theorem setDie_mate (s : State) (d : DieId) (x : Die) : (setDie s d x).mate = s.mate := rfl
@[simp] theorem setDie_role (s : State) (d : DieId) (x : Die) : (setDie s d x).role = s.role := rfl
@[simp] theorem setDie_hart (s : State) (d : DieId) (x : Die) : (setDie s d x).hart = s.hart := rfl
@[simp] theorem setDie_parked (s : State) (d : DieId) (x : Die) : (setDie s d x).parked = s.parked := rfl
@[simp] theorem setDie_inputs (s : State) (d : DieId) (x : Die) : (setDie s d x).inputs = s.inputs := rfl
@[simp] theorem setDie_mem (s : State) (d : DieId) (x : Die) : (setDie s d x).mem = s.mem := rfl
@[simp] theorem setDie_coh (s : State) (d : DieId) (x : Die) : (setDie s d x).coh = s.coh := rfl
@[simp] theorem setDie_sealed (s : State) (d : DieId) (x : Die) : (setDie s d x).sealed = s.sealed := rfl
@[simp] theorem setDie_cores (s : State) (d : DieId) (x : Die) : (setDie s d x).cores = s.cores := rfl
@[simp] theorem setDie_sched (s : State) (d : DieId) (x : Die) : (setDie s d x).sched = s.sched := rfl
@[simp] theorem setDie_host (s : State) (d : DieId) (x : Die) : (setDie s d x).host = s.host := rfl
@[simp] theorem setDie_kiln (s : State) (d : DieId) (x : Die) : (setDie s d x).kiln = s.kiln := rfl
@[simp] theorem setDie_cycle (s : State) (d : DieId) (x : Die) : (setDie s d x).cycle = s.cycle := rfl
@[simp] theorem setDie_now (s : State) (d : DieId) (x : Die) : (setDie s d x).now = s.now := rfl
@[simp] theorem setDie_issues (s : State) (d : DieId) (x : Die) : (setDie s d x).issues = s.issues := rfl
@[simp] theorem setDie_fresh (s : State) (d : DieId) (x : Die) : (setDie s d x).fresh = s.fresh := rfl

/-! `setLaunch` -/

@[simp] theorem setLaunch_strand (s : State) (l : Launch) : (setLaunch s l).strand = s.strand := rfl
@[simp] theorem setLaunch_mate (s : State) (l : Launch) : (setLaunch s l).mate = s.mate := rfl
@[simp] theorem setLaunch_role (s : State) (l : Launch) : (setLaunch s l).role = s.role := rfl
@[simp] theorem setLaunch_hart (s : State) (l : Launch) : (setLaunch s l).hart = s.hart := rfl
@[simp] theorem setLaunch_parked (s : State) (l : Launch) : (setLaunch s l).parked = s.parked := rfl
@[simp] theorem setLaunch_inputs (s : State) (l : Launch) : (setLaunch s l).inputs = s.inputs := rfl
@[simp] theorem setLaunch_mem (s : State) (l : Launch) : (setLaunch s l).mem = s.mem := rfl
@[simp] theorem setLaunch_coh (s : State) (l : Launch) : (setLaunch s l).coh = s.coh := rfl
@[simp] theorem setLaunch_sealed (s : State) (l : Launch) : (setLaunch s l).sealed = s.sealed := rfl
@[simp] theorem setLaunch_cores (s : State) (l : Launch) : (setLaunch s l).cores = s.cores := rfl
@[simp] theorem setLaunch_dies (s : State) (l : Launch) : (setLaunch s l).dies = s.dies := rfl
@[simp] theorem setLaunch_host (s : State) (l : Launch) : (setLaunch s l).host = s.host := rfl
@[simp] theorem setLaunch_kiln (s : State) (l : Launch) : (setLaunch s l).kiln = s.kiln := rfl
@[simp] theorem setLaunch_cycle (s : State) (l : Launch) : (setLaunch s l).cycle = s.cycle := rfl
@[simp] theorem setLaunch_now (s : State) (l : Launch) : (setLaunch s l).now = s.now := rfl
@[simp] theorem setLaunch_issues (s : State) (l : Launch) : (setLaunch s l).issues = s.issues := rfl
@[simp] theorem setLaunch_fresh (s : State) (l : Launch) : (setLaunch s l).fresh = s.fresh := rfl

/-! `setMem` -/

@[simp] theorem setMem_strand (s : State) (m : Memory) : (setMem s m).strand = s.strand := rfl
@[simp] theorem setMem_mate (s : State) (m : Memory) : (setMem s m).mate = s.mate := rfl
@[simp] theorem setMem_role (s : State) (m : Memory) : (setMem s m).role = s.role := rfl
@[simp] theorem setMem_hart (s : State) (m : Memory) : (setMem s m).hart = s.hart := rfl
@[simp] theorem setMem_parked (s : State) (m : Memory) : (setMem s m).parked = s.parked := rfl
@[simp] theorem setMem_inputs (s : State) (m : Memory) : (setMem s m).inputs = s.inputs := rfl
@[simp] theorem setMem_coh (s : State) (m : Memory) : (setMem s m).coh = s.coh := rfl
@[simp] theorem setMem_sealed (s : State) (m : Memory) : (setMem s m).sealed = s.sealed := rfl
@[simp] theorem setMem_cores (s : State) (m : Memory) : (setMem s m).cores = s.cores := rfl
@[simp] theorem setMem_dies (s : State) (m : Memory) : (setMem s m).dies = s.dies := rfl
@[simp] theorem setMem_sched (s : State) (m : Memory) : (setMem s m).sched = s.sched := rfl
@[simp] theorem setMem_host (s : State) (m : Memory) : (setMem s m).host = s.host := rfl
@[simp] theorem setMem_kiln (s : State) (m : Memory) : (setMem s m).kiln = s.kiln := rfl
@[simp] theorem setMem_cycle (s : State) (m : Memory) : (setMem s m).cycle = s.cycle := rfl
@[simp] theorem setMem_now (s : State) (m : Memory) : (setMem s m).now = s.now := rfl
@[simp] theorem setMem_issues (s : State) (m : Memory) : (setMem s m).issues = s.issues := rfl
@[simp] theorem setMem_fresh (s : State) (m : Memory) : (setMem s m).fresh = s.fresh := rfl

/-! `setResv` -/

@[simp] theorem setResv_mate (s : State) (r : Option Reservation) : (setResv s r).mate = s.mate := rfl
@[simp] theorem setResv_role (s : State) (r : Option Reservation) : (setResv s r).role = s.role := rfl
@[simp] theorem setResv_hart (s : State) (r : Option Reservation) : (setResv s r).hart = s.hart := rfl
@[simp] theorem setResv_parked (s : State) (r : Option Reservation) : (setResv s r).parked = s.parked := rfl
@[simp] theorem setResv_inputs (s : State) (r : Option Reservation) : (setResv s r).inputs = s.inputs := rfl
@[simp] theorem setResv_mem (s : State) (r : Option Reservation) : (setResv s r).mem = s.mem := rfl
@[simp] theorem setResv_coh (s : State) (r : Option Reservation) : (setResv s r).coh = s.coh := rfl
@[simp] theorem setResv_sealed (s : State) (r : Option Reservation) : (setResv s r).sealed = s.sealed := rfl
@[simp] theorem setResv_cores (s : State) (r : Option Reservation) : (setResv s r).cores = s.cores := rfl
@[simp] theorem setResv_dies (s : State) (r : Option Reservation) : (setResv s r).dies = s.dies := rfl
@[simp] theorem setResv_sched (s : State) (r : Option Reservation) : (setResv s r).sched = s.sched := rfl
@[simp] theorem setResv_host (s : State) (r : Option Reservation) : (setResv s r).host = s.host := rfl
@[simp] theorem setResv_kiln (s : State) (r : Option Reservation) : (setResv s r).kiln = s.kiln := rfl
@[simp] theorem setResv_cycle (s : State) (r : Option Reservation) : (setResv s r).cycle = s.cycle := rfl
@[simp] theorem setResv_now (s : State) (r : Option Reservation) : (setResv s r).now = s.now := rfl
@[simp] theorem setResv_issues (s : State) (r : Option Reservation) : (setResv s r).issues = s.issues := rfl
@[simp] theorem setResv_fresh (s : State) (r : Option Reservation) : (setResv s r).fresh = s.fresh := rfl

/-! `setLinks` -/

@[simp] theorem setLinks_mate (s : State) (l : List Nat) : (setLinks s l).mate = s.mate := rfl
@[simp] theorem setLinks_role (s : State) (l : List Nat) : (setLinks s l).role = s.role := rfl
@[simp] theorem setLinks_hart (s : State) (l : List Nat) : (setLinks s l).hart = s.hart := rfl
@[simp] theorem setLinks_parked (s : State) (l : List Nat) : (setLinks s l).parked = s.parked := rfl
@[simp] theorem setLinks_inputs (s : State) (l : List Nat) : (setLinks s l).inputs = s.inputs := rfl
@[simp] theorem setLinks_mem (s : State) (l : List Nat) : (setLinks s l).mem = s.mem := rfl
@[simp] theorem setLinks_coh (s : State) (l : List Nat) : (setLinks s l).coh = s.coh := rfl
@[simp] theorem setLinks_sealed (s : State) (l : List Nat) : (setLinks s l).sealed = s.sealed := rfl
@[simp] theorem setLinks_cores (s : State) (l : List Nat) : (setLinks s l).cores = s.cores := rfl
@[simp] theorem setLinks_dies (s : State) (l : List Nat) : (setLinks s l).dies = s.dies := rfl
@[simp] theorem setLinks_sched (s : State) (l : List Nat) : (setLinks s l).sched = s.sched := rfl
@[simp] theorem setLinks_host (s : State) (l : List Nat) : (setLinks s l).host = s.host := rfl
@[simp] theorem setLinks_kiln (s : State) (l : List Nat) : (setLinks s l).kiln = s.kiln := rfl
@[simp] theorem setLinks_cycle (s : State) (l : List Nat) : (setLinks s l).cycle = s.cycle := rfl
@[simp] theorem setLinks_now (s : State) (l : List Nat) : (setLinks s l).now = s.now := rfl
@[simp] theorem setLinks_issues (s : State) (l : List Nat) : (setLinks s l).issues = s.issues := rfl
@[simp] theorem setLinks_fresh (s : State) (l : List Nat) : (setLinks s l).fresh = s.fresh := rfl

/-! `setV` -/

@[simp] theorem setV_strand (s : State) (v : VReg) (b : VBits) : (setV s v b).strand = s.strand := rfl
@[simp] theorem setV_mate (s : State) (v : VReg) (b : VBits) : (setV s v b).mate = s.mate := rfl
@[simp] theorem setV_role (s : State) (v : VReg) (b : VBits) : (setV s v b).role = s.role := rfl
@[simp] theorem setV_parked (s : State) (v : VReg) (b : VBits) : (setV s v b).parked = s.parked := rfl
@[simp] theorem setV_inputs (s : State) (v : VReg) (b : VBits) : (setV s v b).inputs = s.inputs := rfl
@[simp] theorem setV_mem (s : State) (v : VReg) (b : VBits) : (setV s v b).mem = s.mem := rfl
@[simp] theorem setV_coh (s : State) (v : VReg) (b : VBits) : (setV s v b).coh = s.coh := rfl
@[simp] theorem setV_sealed (s : State) (v : VReg) (b : VBits) : (setV s v b).sealed = s.sealed := rfl
@[simp] theorem setV_cores (s : State) (v : VReg) (b : VBits) : (setV s v b).cores = s.cores := rfl
@[simp] theorem setV_dies (s : State) (v : VReg) (b : VBits) : (setV s v b).dies = s.dies := rfl
@[simp] theorem setV_sched (s : State) (v : VReg) (b : VBits) : (setV s v b).sched = s.sched := rfl
@[simp] theorem setV_host (s : State) (v : VReg) (b : VBits) : (setV s v b).host = s.host := rfl
@[simp] theorem setV_kiln (s : State) (v : VReg) (b : VBits) : (setV s v b).kiln = s.kiln := rfl
@[simp] theorem setV_cycle (s : State) (v : VReg) (b : VBits) : (setV s v b).cycle = s.cycle := rfl
@[simp] theorem setV_now (s : State) (v : VReg) (b : VBits) : (setV s v b).now = s.now := rfl
@[simp] theorem setV_issues (s : State) (v : VReg) (b : VBits) : (setV s v b).issues = s.issues := rfl
@[simp] theorem setV_fresh (s : State) (v : VReg) (b : VBits) : (setV s v b).fresh = s.fresh := rfl

/-! `setM` -/

@[simp] theorem setM_strand (s : State) (m : MReg) (b : MBits) : (setM s m b).strand = s.strand := rfl
@[simp] theorem setM_mate (s : State) (m : MReg) (b : MBits) : (setM s m b).mate = s.mate := rfl
@[simp] theorem setM_role (s : State) (m : MReg) (b : MBits) : (setM s m b).role = s.role := rfl
@[simp] theorem setM_parked (s : State) (m : MReg) (b : MBits) : (setM s m b).parked = s.parked := rfl
@[simp] theorem setM_inputs (s : State) (m : MReg) (b : MBits) : (setM s m b).inputs = s.inputs := rfl
@[simp] theorem setM_mem (s : State) (m : MReg) (b : MBits) : (setM s m b).mem = s.mem := rfl
@[simp] theorem setM_coh (s : State) (m : MReg) (b : MBits) : (setM s m b).coh = s.coh := rfl
@[simp] theorem setM_sealed (s : State) (m : MReg) (b : MBits) : (setM s m b).sealed = s.sealed := rfl
@[simp] theorem setM_cores (s : State) (m : MReg) (b : MBits) : (setM s m b).cores = s.cores := rfl
@[simp] theorem setM_dies (s : State) (m : MReg) (b : MBits) : (setM s m b).dies = s.dies := rfl
@[simp] theorem setM_sched (s : State) (m : MReg) (b : MBits) : (setM s m b).sched = s.sched := rfl
@[simp] theorem setM_host (s : State) (m : MReg) (b : MBits) : (setM s m b).host = s.host := rfl
@[simp] theorem setM_kiln (s : State) (m : MReg) (b : MBits) : (setM s m b).kiln = s.kiln := rfl
@[simp] theorem setM_cycle (s : State) (m : MReg) (b : MBits) : (setM s m b).cycle = s.cycle := rfl
@[simp] theorem setM_now (s : State) (m : MReg) (b : MBits) : (setM s m b).now = s.now := rfl
@[simp] theorem setM_issues (s : State) (m : MReg) (b : MBits) : (setM s m b).issues = s.issues := rfl
@[simp] theorem setM_fresh (s : State) (m : MReg) (b : MBits) : (setM s m b).fresh = s.fresh := rfl

/-! `setQ` -/

@[simp] theorem setQ_strand (s : State) (q : VOpd) (es : List QEntry) : (setQ s q es).strand = s.strand := rfl
@[simp] theorem setQ_mate (s : State) (q : VOpd) (es : List QEntry) : (setQ s q es).mate = s.mate := rfl
@[simp] theorem setQ_role (s : State) (q : VOpd) (es : List QEntry) : (setQ s q es).role = s.role := rfl
@[simp] theorem setQ_parked (s : State) (q : VOpd) (es : List QEntry) : (setQ s q es).parked = s.parked := rfl
@[simp] theorem setQ_inputs (s : State) (q : VOpd) (es : List QEntry) : (setQ s q es).inputs = s.inputs := rfl
@[simp] theorem setQ_mem (s : State) (q : VOpd) (es : List QEntry) : (setQ s q es).mem = s.mem := rfl
@[simp] theorem setQ_coh (s : State) (q : VOpd) (es : List QEntry) : (setQ s q es).coh = s.coh := rfl
@[simp] theorem setQ_sealed (s : State) (q : VOpd) (es : List QEntry) : (setQ s q es).sealed = s.sealed := rfl
@[simp] theorem setQ_cores (s : State) (q : VOpd) (es : List QEntry) : (setQ s q es).cores = s.cores := rfl
@[simp] theorem setQ_dies (s : State) (q : VOpd) (es : List QEntry) : (setQ s q es).dies = s.dies := rfl
@[simp] theorem setQ_sched (s : State) (q : VOpd) (es : List QEntry) : (setQ s q es).sched = s.sched := rfl
@[simp] theorem setQ_host (s : State) (q : VOpd) (es : List QEntry) : (setQ s q es).host = s.host := rfl
@[simp] theorem setQ_kiln (s : State) (q : VOpd) (es : List QEntry) : (setQ s q es).kiln = s.kiln := rfl
@[simp] theorem setQ_cycle (s : State) (q : VOpd) (es : List QEntry) : (setQ s q es).cycle = s.cycle := rfl
@[simp] theorem setQ_now (s : State) (q : VOpd) (es : List QEntry) : (setQ s q es).now = s.now := rfl
@[simp] theorem setQ_issues (s : State) (q : VOpd) (es : List QEntry) : (setQ s q es).issues = s.issues := rfl
@[simp] theorem setQ_fresh (s : State) (q : VOpd) (es : List QEntry) : (setQ s q es).fresh = s.fresh := rfl

/-! `setQueues` -/

@[simp] theorem setQueues_strand (s : State) (q : Queues) : (setQueues s q).strand = s.strand := rfl
@[simp] theorem setQueues_mate (s : State) (q : Queues) : (setQueues s q).mate = s.mate := rfl
@[simp] theorem setQueues_role (s : State) (q : Queues) : (setQueues s q).role = s.role := rfl
@[simp] theorem setQueues_parked (s : State) (q : Queues) : (setQueues s q).parked = s.parked := rfl
@[simp] theorem setQueues_inputs (s : State) (q : Queues) : (setQueues s q).inputs = s.inputs := rfl
@[simp] theorem setQueues_mem (s : State) (q : Queues) : (setQueues s q).mem = s.mem := rfl
@[simp] theorem setQueues_coh (s : State) (q : Queues) : (setQueues s q).coh = s.coh := rfl
@[simp] theorem setQueues_sealed (s : State) (q : Queues) : (setQueues s q).sealed = s.sealed := rfl
@[simp] theorem setQueues_cores (s : State) (q : Queues) : (setQueues s q).cores = s.cores := rfl
@[simp] theorem setQueues_dies (s : State) (q : Queues) : (setQueues s q).dies = s.dies := rfl
@[simp] theorem setQueues_sched (s : State) (q : Queues) : (setQueues s q).sched = s.sched := rfl
@[simp] theorem setQueues_host (s : State) (q : Queues) : (setQueues s q).host = s.host := rfl
@[simp] theorem setQueues_kiln (s : State) (q : Queues) : (setQueues s q).kiln = s.kiln := rfl
@[simp] theorem setQueues_cycle (s : State) (q : Queues) : (setQueues s q).cycle = s.cycle := rfl
@[simp] theorem setQueues_now (s : State) (q : Queues) : (setQueues s q).now = s.now := rfl
@[simp] theorem setQueues_issues (s : State) (q : Queues) : (setQueues s q).issues = s.issues := rfl
@[simp] theorem setQueues_fresh (s : State) (q : Queues) : (setQueues s q).fresh = s.fresh := rfl

/-! `setCr` -/

@[simp] theorem setCr_strand (s : State) (c : CtrlRegs) : (setCr s c).strand = s.strand := rfl
@[simp] theorem setCr_mate (s : State) (c : CtrlRegs) : (setCr s c).mate = s.mate := rfl
@[simp] theorem setCr_role (s : State) (c : CtrlRegs) : (setCr s c).role = s.role := rfl
@[simp] theorem setCr_parked (s : State) (c : CtrlRegs) : (setCr s c).parked = s.parked := rfl
@[simp] theorem setCr_inputs (s : State) (c : CtrlRegs) : (setCr s c).inputs = s.inputs := rfl
@[simp] theorem setCr_mem (s : State) (c : CtrlRegs) : (setCr s c).mem = s.mem := rfl
@[simp] theorem setCr_coh (s : State) (c : CtrlRegs) : (setCr s c).coh = s.coh := rfl
@[simp] theorem setCr_sealed (s : State) (c : CtrlRegs) : (setCr s c).sealed = s.sealed := rfl
@[simp] theorem setCr_cores (s : State) (c : CtrlRegs) : (setCr s c).cores = s.cores := rfl
@[simp] theorem setCr_dies (s : State) (c : CtrlRegs) : (setCr s c).dies = s.dies := rfl
@[simp] theorem setCr_sched (s : State) (c : CtrlRegs) : (setCr s c).sched = s.sched := rfl
@[simp] theorem setCr_host (s : State) (c : CtrlRegs) : (setCr s c).host = s.host := rfl
@[simp] theorem setCr_kiln (s : State) (c : CtrlRegs) : (setCr s c).kiln = s.kiln := rfl
@[simp] theorem setCr_cycle (s : State) (c : CtrlRegs) : (setCr s c).cycle = s.cycle := rfl
@[simp] theorem setCr_now (s : State) (c : CtrlRegs) : (setCr s c).now = s.now := rfl
@[simp] theorem setCr_issues (s : State) (c : CtrlRegs) : (setCr s c).issues = s.issues := rfl
@[simp] theorem setCr_fresh (s : State) (c : CtrlRegs) : (setCr s c).fresh = s.fresh := rfl

/-! `setStash` -/

@[simp] theorem setStash_strand (s : State) (l : List StashUnit) : (setStash s l).strand = s.strand := rfl
@[simp] theorem setStash_mate (s : State) (l : List StashUnit) : (setStash s l).mate = s.mate := rfl
@[simp] theorem setStash_role (s : State) (l : List StashUnit) : (setStash s l).role = s.role := rfl
@[simp] theorem setStash_parked (s : State) (l : List StashUnit) : (setStash s l).parked = s.parked := rfl
@[simp] theorem setStash_inputs (s : State) (l : List StashUnit) : (setStash s l).inputs = s.inputs := rfl
@[simp] theorem setStash_mem (s : State) (l : List StashUnit) : (setStash s l).mem = s.mem := rfl
@[simp] theorem setStash_coh (s : State) (l : List StashUnit) : (setStash s l).coh = s.coh := rfl
@[simp] theorem setStash_sealed (s : State) (l : List StashUnit) : (setStash s l).sealed = s.sealed := rfl
@[simp] theorem setStash_cores (s : State) (l : List StashUnit) : (setStash s l).cores = s.cores := rfl
@[simp] theorem setStash_dies (s : State) (l : List StashUnit) : (setStash s l).dies = s.dies := rfl
@[simp] theorem setStash_sched (s : State) (l : List StashUnit) : (setStash s l).sched = s.sched := rfl
@[simp] theorem setStash_host (s : State) (l : List StashUnit) : (setStash s l).host = s.host := rfl
@[simp] theorem setStash_kiln (s : State) (l : List StashUnit) : (setStash s l).kiln = s.kiln := rfl
@[simp] theorem setStash_cycle (s : State) (l : List StashUnit) : (setStash s l).cycle = s.cycle := rfl
@[simp] theorem setStash_now (s : State) (l : List StashUnit) : (setStash s l).now = s.now := rfl
@[simp] theorem setStash_issues (s : State) (l : List StashUnit) : (setStash s l).issues = s.issues := rfl
@[simp] theorem setStash_fresh (s : State) (l : List StashUnit) : (setStash s l).fresh = s.fresh := rfl

/-! `setStreams` -/

@[simp] theorem setStreams_strand (s : State) (l : List Stream) : (setStreams s l).strand = s.strand := rfl
@[simp] theorem setStreams_mate (s : State) (l : List Stream) : (setStreams s l).mate = s.mate := rfl
@[simp] theorem setStreams_role (s : State) (l : List Stream) : (setStreams s l).role = s.role := rfl
@[simp] theorem setStreams_parked (s : State) (l : List Stream) : (setStreams s l).parked = s.parked := rfl
@[simp] theorem setStreams_inputs (s : State) (l : List Stream) : (setStreams s l).inputs = s.inputs := rfl
@[simp] theorem setStreams_mem (s : State) (l : List Stream) : (setStreams s l).mem = s.mem := rfl
@[simp] theorem setStreams_coh (s : State) (l : List Stream) : (setStreams s l).coh = s.coh := rfl
@[simp] theorem setStreams_sealed (s : State) (l : List Stream) : (setStreams s l).sealed = s.sealed := rfl
@[simp] theorem setStreams_cores (s : State) (l : List Stream) : (setStreams s l).cores = s.cores := rfl
@[simp] theorem setStreams_dies (s : State) (l : List Stream) : (setStreams s l).dies = s.dies := rfl
@[simp] theorem setStreams_sched (s : State) (l : List Stream) : (setStreams s l).sched = s.sched := rfl
@[simp] theorem setStreams_host (s : State) (l : List Stream) : (setStreams s l).host = s.host := rfl
@[simp] theorem setStreams_kiln (s : State) (l : List Stream) : (setStreams s l).kiln = s.kiln := rfl
@[simp] theorem setStreams_cycle (s : State) (l : List Stream) : (setStreams s l).cycle = s.cycle := rfl
@[simp] theorem setStreams_now (s : State) (l : List Stream) : (setStreams s l).now = s.now := rfl
@[simp] theorem setStreams_issues (s : State) (l : List Stream) : (setStreams s l).issues = s.issues := rfl
@[simp] theorem setStreams_fresh (s : State) (l : List Stream) : (setStreams s l).fresh = s.fresh := rfl

/-! `setLatch` -/

@[simp] theorem setLatch_strand (s : State) (w : Word) (v : Bool) : (setLatch s w v).strand = s.strand := rfl
@[simp] theorem setLatch_mate (s : State) (w : Word) (v : Bool) : (setLatch s w v).mate = s.mate := rfl
@[simp] theorem setLatch_role (s : State) (w : Word) (v : Bool) : (setLatch s w v).role = s.role := rfl
@[simp] theorem setLatch_parked (s : State) (w : Word) (v : Bool) : (setLatch s w v).parked = s.parked := rfl
@[simp] theorem setLatch_inputs (s : State) (w : Word) (v : Bool) : (setLatch s w v).inputs = s.inputs := rfl
@[simp] theorem setLatch_mem (s : State) (w : Word) (v : Bool) : (setLatch s w v).mem = s.mem := rfl
@[simp] theorem setLatch_coh (s : State) (w : Word) (v : Bool) : (setLatch s w v).coh = s.coh := rfl
@[simp] theorem setLatch_sealed (s : State) (w : Word) (v : Bool) : (setLatch s w v).sealed = s.sealed := rfl
@[simp] theorem setLatch_cores (s : State) (w : Word) (v : Bool) : (setLatch s w v).cores = s.cores := rfl
@[simp] theorem setLatch_dies (s : State) (w : Word) (v : Bool) : (setLatch s w v).dies = s.dies := rfl
@[simp] theorem setLatch_sched (s : State) (w : Word) (v : Bool) : (setLatch s w v).sched = s.sched := rfl
@[simp] theorem setLatch_host (s : State) (w : Word) (v : Bool) : (setLatch s w v).host = s.host := rfl
@[simp] theorem setLatch_kiln (s : State) (w : Word) (v : Bool) : (setLatch s w v).kiln = s.kiln := rfl
@[simp] theorem setLatch_cycle (s : State) (w : Word) (v : Bool) : (setLatch s w v).cycle = s.cycle := rfl
@[simp] theorem setLatch_now (s : State) (w : Word) (v : Bool) : (setLatch s w v).now = s.now := rfl
@[simp] theorem setLatch_issues (s : State) (w : Word) (v : Bool) : (setLatch s w v).issues = s.issues := rfl
@[simp] theorem setLatch_fresh (s : State) (w : Word) (v : Bool) : (setLatch s w v).fresh = s.fresh := rfl

/-! `setDg` -/

@[simp] theorem setDg_strand (s : State) (a : AccStore) : (setDg s a).strand = s.strand := rfl
@[simp] theorem setDg_mate (s : State) (a : AccStore) : (setDg s a).mate = s.mate := rfl
@[simp] theorem setDg_role (s : State) (a : AccStore) : (setDg s a).role = s.role := rfl
@[simp] theorem setDg_parked (s : State) (a : AccStore) : (setDg s a).parked = s.parked := rfl
@[simp] theorem setDg_inputs (s : State) (a : AccStore) : (setDg s a).inputs = s.inputs := rfl
@[simp] theorem setDg_mem (s : State) (a : AccStore) : (setDg s a).mem = s.mem := rfl
@[simp] theorem setDg_coh (s : State) (a : AccStore) : (setDg s a).coh = s.coh := rfl
@[simp] theorem setDg_sealed (s : State) (a : AccStore) : (setDg s a).sealed = s.sealed := rfl
@[simp] theorem setDg_cores (s : State) (a : AccStore) : (setDg s a).cores = s.cores := rfl
@[simp] theorem setDg_dies (s : State) (a : AccStore) : (setDg s a).dies = s.dies := rfl
@[simp] theorem setDg_sched (s : State) (a : AccStore) : (setDg s a).sched = s.sched := rfl
@[simp] theorem setDg_host (s : State) (a : AccStore) : (setDg s a).host = s.host := rfl
@[simp] theorem setDg_kiln (s : State) (a : AccStore) : (setDg s a).kiln = s.kiln := rfl
@[simp] theorem setDg_cycle (s : State) (a : AccStore) : (setDg s a).cycle = s.cycle := rfl
@[simp] theorem setDg_now (s : State) (a : AccStore) : (setDg s a).now = s.now := rfl
@[simp] theorem setDg_issues (s : State) (a : AccStore) : (setDg s a).issues = s.issues := rfl
@[simp] theorem setDg_fresh (s : State) (a : AccStore) : (setDg s a).fresh = s.fresh := rfl

/-! `setConvoy` -/

@[simp] theorem setConvoy_mate (s : State) (c : Option (List Slot)) : (setConvoy s c).mate = s.mate := rfl
@[simp] theorem setConvoy_role (s : State) (c : Option (List Slot)) : (setConvoy s c).role = s.role := rfl
@[simp] theorem setConvoy_hart (s : State) (c : Option (List Slot)) : (setConvoy s c).hart = s.hart := rfl
@[simp] theorem setConvoy_parked (s : State) (c : Option (List Slot)) : (setConvoy s c).parked = s.parked := rfl
@[simp] theorem setConvoy_inputs (s : State) (c : Option (List Slot)) : (setConvoy s c).inputs = s.inputs := rfl
@[simp] theorem setConvoy_mem (s : State) (c : Option (List Slot)) : (setConvoy s c).mem = s.mem := rfl
@[simp] theorem setConvoy_coh (s : State) (c : Option (List Slot)) : (setConvoy s c).coh = s.coh := rfl
@[simp] theorem setConvoy_sealed (s : State) (c : Option (List Slot)) : (setConvoy s c).sealed = s.sealed := rfl
@[simp] theorem setConvoy_cores (s : State) (c : Option (List Slot)) : (setConvoy s c).cores = s.cores := rfl
@[simp] theorem setConvoy_dies (s : State) (c : Option (List Slot)) : (setConvoy s c).dies = s.dies := rfl
@[simp] theorem setConvoy_sched (s : State) (c : Option (List Slot)) : (setConvoy s c).sched = s.sched := rfl
@[simp] theorem setConvoy_host (s : State) (c : Option (List Slot)) : (setConvoy s c).host = s.host := rfl
@[simp] theorem setConvoy_kiln (s : State) (c : Option (List Slot)) : (setConvoy s c).kiln = s.kiln := rfl
@[simp] theorem setConvoy_cycle (s : State) (c : Option (List Slot)) : (setConvoy s c).cycle = s.cycle := rfl
@[simp] theorem setConvoy_now (s : State) (c : Option (List Slot)) : (setConvoy s c).now = s.now := rfl
@[simp] theorem setConvoy_issues (s : State) (c : Option (List Slot)) : (setConvoy s c).issues = s.issues := rfl
@[simp] theorem setConvoy_fresh (s : State) (c : Option (List Slot)) : (setConvoy s c).fresh = s.fresh := rfl

/-! `setDprog` -/

@[simp] theorem setDprog_strand (s : State) (w : Word) : (setDprog s w).strand = s.strand := rfl
@[simp] theorem setDprog_mate (s : State) (w : Word) : (setDprog s w).mate = s.mate := rfl
@[simp] theorem setDprog_role (s : State) (w : Word) : (setDprog s w).role = s.role := rfl
@[simp] theorem setDprog_parked (s : State) (w : Word) : (setDprog s w).parked = s.parked := rfl
@[simp] theorem setDprog_inputs (s : State) (w : Word) : (setDprog s w).inputs = s.inputs := rfl
@[simp] theorem setDprog_mem (s : State) (w : Word) : (setDprog s w).mem = s.mem := rfl
@[simp] theorem setDprog_coh (s : State) (w : Word) : (setDprog s w).coh = s.coh := rfl
@[simp] theorem setDprog_sealed (s : State) (w : Word) : (setDprog s w).sealed = s.sealed := rfl
@[simp] theorem setDprog_cores (s : State) (w : Word) : (setDprog s w).cores = s.cores := rfl
@[simp] theorem setDprog_dies (s : State) (w : Word) : (setDprog s w).dies = s.dies := rfl
@[simp] theorem setDprog_sched (s : State) (w : Word) : (setDprog s w).sched = s.sched := rfl
@[simp] theorem setDprog_host (s : State) (w : Word) : (setDprog s w).host = s.host := rfl
@[simp] theorem setDprog_kiln (s : State) (w : Word) : (setDprog s w).kiln = s.kiln := rfl
@[simp] theorem setDprog_cycle (s : State) (w : Word) : (setDprog s w).cycle = s.cycle := rfl
@[simp] theorem setDprog_now (s : State) (w : Word) : (setDprog s w).now = s.now := rfl
@[simp] theorem setDprog_issues (s : State) (w : Word) : (setDprog s w).issues = s.issues := rfl
@[simp] theorem setDprog_fresh (s : State) (w : Word) : (setDprog s w).fresh = s.fresh := rfl

/-! `drain` -/

@[simp] theorem drain_mate (s : State) (c : Nat) : (drain s c).mate = s.mate := by unfold drain clearDprog; split <;> rfl
@[simp] theorem drain_role (s : State) (c : Nat) : (drain s c).role = s.role := by unfold drain clearDprog; split <;> rfl
@[simp] theorem drain_parked (s : State) (c : Nat) : (drain s c).parked = s.parked := by unfold drain clearDprog; split <;> rfl
@[simp] theorem drain_inputs (s : State) (c : Nat) : (drain s c).inputs = s.inputs := by unfold drain clearDprog; split <;> rfl
@[simp] theorem drain_mem (s : State) (c : Nat) : (drain s c).mem = s.mem := by unfold drain clearDprog; split <;> rfl
@[simp] theorem drain_coh (s : State) (c : Nat) : (drain s c).coh = s.coh := by unfold drain clearDprog; split <;> rfl
@[simp] theorem drain_sealed (s : State) (c : Nat) : (drain s c).sealed = s.sealed := by unfold drain clearDprog; split <;> rfl
@[simp] theorem drain_cores (s : State) (c : Nat) : (drain s c).cores = s.cores := by unfold drain clearDprog; split <;> rfl
@[simp] theorem drain_dies (s : State) (c : Nat) : (drain s c).dies = s.dies := by unfold drain clearDprog; split <;> rfl
@[simp] theorem drain_sched (s : State) (c : Nat) : (drain s c).sched = s.sched := by unfold drain clearDprog; split <;> rfl
@[simp] theorem drain_host (s : State) (c : Nat) : (drain s c).host = s.host := by unfold drain clearDprog; split <;> rfl
@[simp] theorem drain_kiln (s : State) (c : Nat) : (drain s c).kiln = s.kiln := by unfold drain clearDprog; split <;> rfl
@[simp] theorem drain_cycle (s : State) (c : Nat) : (drain s c).cycle = s.cycle := by unfold drain clearDprog; split <;> rfl
@[simp] theorem drain_now (s : State) (c : Nat) : (drain s c).now = s.now := by unfold drain clearDprog; split <;> rfl
@[simp] theorem drain_issues (s : State) (c : Nat) : (drain s c).issues = s.issues := by unfold drain clearDprog; split <;> rfl
@[simp] theorem drain_fresh (s : State) (c : Nat) : (drain s c).fresh = s.fresh := by unfold drain clearDprog; split <;> rfl

/-! `deliver` -/

@[simp] theorem deliver_mate (s : State) (p : Word) (k : Nat) (c : BitVec 6) (v : Word) : (deliver s p k c v).mate = s.mate := rfl
@[simp] theorem deliver_role (s : State) (p : Word) (k : Nat) (c : BitVec 6) (v : Word) : (deliver s p k c v).role = s.role := rfl
@[simp] theorem deliver_parked (s : State) (p : Word) (k : Nat) (c : BitVec 6) (v : Word) : (deliver s p k c v).parked = s.parked := rfl
@[simp] theorem deliver_inputs (s : State) (p : Word) (k : Nat) (c : BitVec 6) (v : Word) : (deliver s p k c v).inputs = s.inputs := rfl
@[simp] theorem deliver_mem (s : State) (p : Word) (k : Nat) (c : BitVec 6) (v : Word) : (deliver s p k c v).mem = s.mem := rfl
@[simp] theorem deliver_coh (s : State) (p : Word) (k : Nat) (c : BitVec 6) (v : Word) : (deliver s p k c v).coh = s.coh := rfl
@[simp] theorem deliver_sealed (s : State) (p : Word) (k : Nat) (c : BitVec 6) (v : Word) : (deliver s p k c v).sealed = s.sealed := rfl
@[simp] theorem deliver_cores (s : State) (p : Word) (k : Nat) (c : BitVec 6) (v : Word) : (deliver s p k c v).cores = s.cores := rfl
@[simp] theorem deliver_dies (s : State) (p : Word) (k : Nat) (c : BitVec 6) (v : Word) : (deliver s p k c v).dies = s.dies := rfl
@[simp] theorem deliver_sched (s : State) (p : Word) (k : Nat) (c : BitVec 6) (v : Word) : (deliver s p k c v).sched = s.sched := rfl
@[simp] theorem deliver_host (s : State) (p : Word) (k : Nat) (c : BitVec 6) (v : Word) : (deliver s p k c v).host = s.host := rfl
@[simp] theorem deliver_kiln (s : State) (p : Word) (k : Nat) (c : BitVec 6) (v : Word) : (deliver s p k c v).kiln = s.kiln := rfl
@[simp] theorem deliver_cycle (s : State) (p : Word) (k : Nat) (c : BitVec 6) (v : Word) : (deliver s p k c v).cycle = s.cycle := rfl
@[simp] theorem deliver_now (s : State) (p : Word) (k : Nat) (c : BitVec 6) (v : Word) : (deliver s p k c v).now = s.now := rfl
@[simp] theorem deliver_issues (s : State) (p : Word) (k : Nat) (c : BitVec 6) (v : Word) : (deliver s p k c v).issues = s.issues := rfl
@[simp] theorem deliver_fresh (s : State) (p : Word) (k : Nat) (c : BitVec 6) (v : Word) : (deliver s p k c v).fresh = s.fresh := rfl

/-! `userReturn` -/

@[simp] theorem userReturn_mate (s : State) : (userReturn s).mate = s.mate := rfl
@[simp] theorem userReturn_role (s : State) : (userReturn s).role = s.role := rfl
@[simp] theorem userReturn_parked (s : State) : (userReturn s).parked = s.parked := rfl
@[simp] theorem userReturn_inputs (s : State) : (userReturn s).inputs = s.inputs := rfl
@[simp] theorem userReturn_mem (s : State) : (userReturn s).mem = s.mem := rfl
@[simp] theorem userReturn_coh (s : State) : (userReturn s).coh = s.coh := rfl
@[simp] theorem userReturn_sealed (s : State) : (userReturn s).sealed = s.sealed := rfl
@[simp] theorem userReturn_cores (s : State) : (userReturn s).cores = s.cores := rfl
@[simp] theorem userReturn_dies (s : State) : (userReturn s).dies = s.dies := rfl
@[simp] theorem userReturn_sched (s : State) : (userReturn s).sched = s.sched := rfl
@[simp] theorem userReturn_host (s : State) : (userReturn s).host = s.host := rfl
@[simp] theorem userReturn_kiln (s : State) : (userReturn s).kiln = s.kiln := rfl
@[simp] theorem userReturn_cycle (s : State) : (userReturn s).cycle = s.cycle := rfl
@[simp] theorem userReturn_now (s : State) : (userReturn s).now = s.now := rfl
@[simp] theorem userReturn_issues (s : State) : (userReturn s).issues = s.issues := rfl
@[simp] theorem userReturn_fresh (s : State) : (userReturn s).fresh = s.fresh := rfl

/-! `setVl` -/

@[simp] theorem setVl_mate (s : State) (n : Nat) : (setVl s n).mate = s.mate := rfl
@[simp] theorem setVl_role (s : State) (n : Nat) : (setVl s n).role = s.role := rfl
@[simp] theorem setVl_hart (s : State) (n : Nat) : (setVl s n).hart = s.hart := rfl
@[simp] theorem setVl_parked (s : State) (n : Nat) : (setVl s n).parked = s.parked := rfl
@[simp] theorem setVl_inputs (s : State) (n : Nat) : (setVl s n).inputs = s.inputs := rfl
@[simp] theorem setVl_mem (s : State) (n : Nat) : (setVl s n).mem = s.mem := rfl
@[simp] theorem setVl_coh (s : State) (n : Nat) : (setVl s n).coh = s.coh := rfl
@[simp] theorem setVl_sealed (s : State) (n : Nat) : (setVl s n).sealed = s.sealed := rfl
@[simp] theorem setVl_cores (s : State) (n : Nat) : (setVl s n).cores = s.cores := rfl
@[simp] theorem setVl_dies (s : State) (n : Nat) : (setVl s n).dies = s.dies := rfl
@[simp] theorem setVl_sched (s : State) (n : Nat) : (setVl s n).sched = s.sched := rfl
@[simp] theorem setVl_host (s : State) (n : Nat) : (setVl s n).host = s.host := rfl
@[simp] theorem setVl_kiln (s : State) (n : Nat) : (setVl s n).kiln = s.kiln := rfl
@[simp] theorem setVl_cycle (s : State) (n : Nat) : (setVl s n).cycle = s.cycle := rfl
@[simp] theorem setVl_now (s : State) (n : Nat) : (setVl s n).now = s.now := rfl
@[simp] theorem setVl_issues (s : State) (n : Nat) : (setVl s n).issues = s.issues := rfl
@[simp] theorem setVl_fresh (s : State) (n : Nat) : (setVl s n).fresh = s.fresh := rfl

/-! `setStrip` -/

@[simp] theorem setStrip_mate (s : State) (n : Nat) (w : BitVec 2) : (setStrip s n w).mate = s.mate := rfl
@[simp] theorem setStrip_role (s : State) (n : Nat) (w : BitVec 2) : (setStrip s n w).role = s.role := rfl
@[simp] theorem setStrip_hart (s : State) (n : Nat) (w : BitVec 2) : (setStrip s n w).hart = s.hart := rfl
@[simp] theorem setStrip_parked (s : State) (n : Nat) (w : BitVec 2) : (setStrip s n w).parked = s.parked := rfl
@[simp] theorem setStrip_inputs (s : State) (n : Nat) (w : BitVec 2) : (setStrip s n w).inputs = s.inputs := rfl
@[simp] theorem setStrip_mem (s : State) (n : Nat) (w : BitVec 2) : (setStrip s n w).mem = s.mem := rfl
@[simp] theorem setStrip_coh (s : State) (n : Nat) (w : BitVec 2) : (setStrip s n w).coh = s.coh := rfl
@[simp] theorem setStrip_sealed (s : State) (n : Nat) (w : BitVec 2) : (setStrip s n w).sealed = s.sealed := rfl
@[simp] theorem setStrip_cores (s : State) (n : Nat) (w : BitVec 2) : (setStrip s n w).cores = s.cores := rfl
@[simp] theorem setStrip_dies (s : State) (n : Nat) (w : BitVec 2) : (setStrip s n w).dies = s.dies := rfl
@[simp] theorem setStrip_sched (s : State) (n : Nat) (w : BitVec 2) : (setStrip s n w).sched = s.sched := rfl
@[simp] theorem setStrip_host (s : State) (n : Nat) (w : BitVec 2) : (setStrip s n w).host = s.host := rfl
@[simp] theorem setStrip_kiln (s : State) (n : Nat) (w : BitVec 2) : (setStrip s n w).kiln = s.kiln := rfl
@[simp] theorem setStrip_cycle (s : State) (n : Nat) (w : BitVec 2) : (setStrip s n w).cycle = s.cycle := rfl
@[simp] theorem setStrip_now (s : State) (n : Nat) (w : BitVec 2) : (setStrip s n w).now = s.now := rfl
@[simp] theorem setStrip_issues (s : State) (n : Nat) (w : BitVec 2) : (setStrip s n w).issues = s.issues := rfl
@[simp] theorem setStrip_fresh (s : State) (n : Nat) (w : BitVec 2) : (setStrip s n w).fresh = s.fresh := rfl

/-! `setCore` -/

@[simp] theorem setCore_strand (s : State) (r : CoreRec) : (setCore s r).strand = s.strand := rfl
@[simp] theorem setCore_mate (s : State) (r : CoreRec) : (setCore s r).mate = s.mate := rfl
@[simp] theorem setCore_role (s : State) (r : CoreRec) : (setCore s r).role = s.role := rfl
@[simp] theorem setCore_hart (s : State) (r : CoreRec) : (setCore s r).hart = s.hart := rfl
@[simp] theorem setCore_parked (s : State) (r : CoreRec) : (setCore s r).parked = s.parked := rfl
@[simp] theorem setCore_inputs (s : State) (r : CoreRec) : (setCore s r).inputs = s.inputs := rfl
@[simp] theorem setCore_mem (s : State) (r : CoreRec) : (setCore s r).mem = s.mem := rfl
@[simp] theorem setCore_coh (s : State) (r : CoreRec) : (setCore s r).coh = s.coh := rfl
@[simp] theorem setCore_sealed (s : State) (r : CoreRec) : (setCore s r).sealed = s.sealed := rfl
@[simp] theorem setCore_dies (s : State) (r : CoreRec) : (setCore s r).dies = s.dies := rfl
@[simp] theorem setCore_sched (s : State) (r : CoreRec) : (setCore s r).sched = s.sched := rfl
@[simp] theorem setCore_host (s : State) (r : CoreRec) : (setCore s r).host = s.host := rfl
@[simp] theorem setCore_kiln (s : State) (r : CoreRec) : (setCore s r).kiln = s.kiln := rfl
@[simp] theorem setCore_cycle (s : State) (r : CoreRec) : (setCore s r).cycle = s.cycle := rfl
@[simp] theorem setCore_now (s : State) (r : CoreRec) : (setCore s r).now = s.now := rfl
@[simp] theorem setCore_issues (s : State) (r : CoreRec) : (setCore s r).issues = s.issues := rfl
@[simp] theorem setCore_fresh (s : State) (r : CoreRec) : (setCore s r).fresh = s.fresh := rfl

/-! `setArrival` -/

@[simp] theorem setArrival_strand (s : State) (a : Arrival) : (setArrival s a).strand = s.strand := rfl
@[simp] theorem setArrival_mate (s : State) (a : Arrival) : (setArrival s a).mate = s.mate := rfl
@[simp] theorem setArrival_role (s : State) (a : Arrival) : (setArrival s a).role = s.role := rfl
@[simp] theorem setArrival_hart (s : State) (a : Arrival) : (setArrival s a).hart = s.hart := rfl
@[simp] theorem setArrival_parked (s : State) (a : Arrival) : (setArrival s a).parked = s.parked := rfl
@[simp] theorem setArrival_inputs (s : State) (a : Arrival) : (setArrival s a).inputs = s.inputs := rfl
@[simp] theorem setArrival_mem (s : State) (a : Arrival) : (setArrival s a).mem = s.mem := rfl
@[simp] theorem setArrival_coh (s : State) (a : Arrival) : (setArrival s a).coh = s.coh := rfl
@[simp] theorem setArrival_sealed (s : State) (a : Arrival) : (setArrival s a).sealed = s.sealed := rfl
@[simp] theorem setArrival_cores (s : State) (a : Arrival) : (setArrival s a).cores = s.cores := rfl
@[simp] theorem setArrival_dies (s : State) (a : Arrival) : (setArrival s a).dies = s.dies := rfl
@[simp] theorem setArrival_host (s : State) (a : Arrival) : (setArrival s a).host = s.host := rfl
@[simp] theorem setArrival_kiln (s : State) (a : Arrival) : (setArrival s a).kiln = s.kiln := rfl
@[simp] theorem setArrival_cycle (s : State) (a : Arrival) : (setArrival s a).cycle = s.cycle := rfl
@[simp] theorem setArrival_now (s : State) (a : Arrival) : (setArrival s a).now = s.now := rfl
@[simp] theorem setArrival_issues (s : State) (a : Arrival) : (setArrival s a).issues = s.issues := rfl
@[simp] theorem setArrival_fresh (s : State) (a : Arrival) : (setArrival s a).fresh = s.fresh := rfl

/-! `setChannel` -/

@[simp] theorem setChannel_strand (s : State) (x : Channel) : (setChannel s x).strand = s.strand := rfl
@[simp] theorem setChannel_mate (s : State) (x : Channel) : (setChannel s x).mate = s.mate := rfl
@[simp] theorem setChannel_role (s : State) (x : Channel) : (setChannel s x).role = s.role := rfl
@[simp] theorem setChannel_hart (s : State) (x : Channel) : (setChannel s x).hart = s.hart := rfl
@[simp] theorem setChannel_parked (s : State) (x : Channel) : (setChannel s x).parked = s.parked := rfl
@[simp] theorem setChannel_inputs (s : State) (x : Channel) : (setChannel s x).inputs = s.inputs := rfl
@[simp] theorem setChannel_mem (s : State) (x : Channel) : (setChannel s x).mem = s.mem := rfl
@[simp] theorem setChannel_coh (s : State) (x : Channel) : (setChannel s x).coh = s.coh := rfl
@[simp] theorem setChannel_sealed (s : State) (x : Channel) : (setChannel s x).sealed = s.sealed := rfl
@[simp] theorem setChannel_cores (s : State) (x : Channel) : (setChannel s x).cores = s.cores := rfl
@[simp] theorem setChannel_dies (s : State) (x : Channel) : (setChannel s x).dies = s.dies := rfl
@[simp] theorem setChannel_host (s : State) (x : Channel) : (setChannel s x).host = s.host := rfl
@[simp] theorem setChannel_kiln (s : State) (x : Channel) : (setChannel s x).kiln = s.kiln := rfl
@[simp] theorem setChannel_cycle (s : State) (x : Channel) : (setChannel s x).cycle = s.cycle := rfl
@[simp] theorem setChannel_now (s : State) (x : Channel) : (setChannel s x).now = s.now := rfl
@[simp] theorem setChannel_issues (s : State) (x : Channel) : (setChannel s x).issues = s.issues := rfl
@[simp] theorem setChannel_fresh (s : State) (x : Channel) : (setChannel s x).fresh = s.fresh := rfl

/-! `setRing` -/

@[simp] theorem setRing_strand (s : State) (r : Ring) : (setRing s r).strand = s.strand := rfl
@[simp] theorem setRing_mate (s : State) (r : Ring) : (setRing s r).mate = s.mate := rfl
@[simp] theorem setRing_role (s : State) (r : Ring) : (setRing s r).role = s.role := rfl
@[simp] theorem setRing_hart (s : State) (r : Ring) : (setRing s r).hart = s.hart := rfl
@[simp] theorem setRing_parked (s : State) (r : Ring) : (setRing s r).parked = s.parked := rfl
@[simp] theorem setRing_inputs (s : State) (r : Ring) : (setRing s r).inputs = s.inputs := rfl
@[simp] theorem setRing_mem (s : State) (r : Ring) : (setRing s r).mem = s.mem := rfl
@[simp] theorem setRing_coh (s : State) (r : Ring) : (setRing s r).coh = s.coh := rfl
@[simp] theorem setRing_sealed (s : State) (r : Ring) : (setRing s r).sealed = s.sealed := rfl
@[simp] theorem setRing_cores (s : State) (r : Ring) : (setRing s r).cores = s.cores := rfl
@[simp] theorem setRing_dies (s : State) (r : Ring) : (setRing s r).dies = s.dies := rfl
@[simp] theorem setRing_sched (s : State) (r : Ring) : (setRing s r).sched = s.sched := rfl
@[simp] theorem setRing_kiln (s : State) (r : Ring) : (setRing s r).kiln = s.kiln := rfl
@[simp] theorem setRing_cycle (s : State) (r : Ring) : (setRing s r).cycle = s.cycle := rfl
@[simp] theorem setRing_now (s : State) (r : Ring) : (setRing s r).now = s.now := rfl
@[simp] theorem setRing_issues (s : State) (r : Ring) : (setRing s r).issues = s.issues := rfl
@[simp] theorem setRing_fresh (s : State) (r : Ring) : (setRing s r).fresh = s.fresh := rfl

/-! `logEvent` -/

@[simp] theorem logEvent_strand (s : State) (e : LogEvent) : (logEvent s e).strand = s.strand := rfl
@[simp] theorem logEvent_mate (s : State) (e : LogEvent) : (logEvent s e).mate = s.mate := rfl
@[simp] theorem logEvent_role (s : State) (e : LogEvent) : (logEvent s e).role = s.role := rfl
@[simp] theorem logEvent_hart (s : State) (e : LogEvent) : (logEvent s e).hart = s.hart := rfl
@[simp] theorem logEvent_parked (s : State) (e : LogEvent) : (logEvent s e).parked = s.parked := rfl
@[simp] theorem logEvent_inputs (s : State) (e : LogEvent) : (logEvent s e).inputs = s.inputs := rfl
@[simp] theorem logEvent_mem (s : State) (e : LogEvent) : (logEvent s e).mem = s.mem := rfl
@[simp] theorem logEvent_coh (s : State) (e : LogEvent) : (logEvent s e).coh = s.coh := rfl
@[simp] theorem logEvent_sealed (s : State) (e : LogEvent) : (logEvent s e).sealed = s.sealed := rfl
@[simp] theorem logEvent_cores (s : State) (e : LogEvent) : (logEvent s e).cores = s.cores := rfl
@[simp] theorem logEvent_dies (s : State) (e : LogEvent) : (logEvent s e).dies = s.dies := rfl
@[simp] theorem logEvent_sched (s : State) (e : LogEvent) : (logEvent s e).sched = s.sched := rfl
@[simp] theorem logEvent_host (s : State) (e : LogEvent) : (logEvent s e).host = s.host := rfl
@[simp] theorem logEvent_cycle (s : State) (e : LogEvent) : (logEvent s e).cycle = s.cycle := rfl
@[simp] theorem logEvent_now (s : State) (e : LogEvent) : (logEvent s e).now = s.now := rfl
@[simp] theorem logEvent_issues (s : State) (e : LogEvent) : (logEvent s e).issues = s.issues := rfl
@[simp] theorem logEvent_fresh (s : State) (e : LogEvent) : (logEvent s e).fresh = s.fresh := rfl

/-! `sendOut` -/

@[simp] theorem sendOut_strand (s : State) (o : HostOut) : (sendOut s o).strand = s.strand := rfl
@[simp] theorem sendOut_mate (s : State) (o : HostOut) : (sendOut s o).mate = s.mate := rfl
@[simp] theorem sendOut_role (s : State) (o : HostOut) : (sendOut s o).role = s.role := rfl
@[simp] theorem sendOut_hart (s : State) (o : HostOut) : (sendOut s o).hart = s.hart := rfl
@[simp] theorem sendOut_parked (s : State) (o : HostOut) : (sendOut s o).parked = s.parked := rfl
@[simp] theorem sendOut_inputs (s : State) (o : HostOut) : (sendOut s o).inputs = s.inputs := rfl
@[simp] theorem sendOut_mem (s : State) (o : HostOut) : (sendOut s o).mem = s.mem := rfl
@[simp] theorem sendOut_coh (s : State) (o : HostOut) : (sendOut s o).coh = s.coh := rfl
@[simp] theorem sendOut_sealed (s : State) (o : HostOut) : (sendOut s o).sealed = s.sealed := rfl
@[simp] theorem sendOut_cores (s : State) (o : HostOut) : (sendOut s o).cores = s.cores := rfl
@[simp] theorem sendOut_dies (s : State) (o : HostOut) : (sendOut s o).dies = s.dies := rfl
@[simp] theorem sendOut_sched (s : State) (o : HostOut) : (sendOut s o).sched = s.sched := rfl
@[simp] theorem sendOut_kiln (s : State) (o : HostOut) : (sendOut s o).kiln = s.kiln := rfl
@[simp] theorem sendOut_cycle (s : State) (o : HostOut) : (sendOut s o).cycle = s.cycle := rfl
@[simp] theorem sendOut_now (s : State) (o : HostOut) : (sendOut s o).now = s.now := rfl
@[simp] theorem sendOut_issues (s : State) (o : HostOut) : (sendOut s o).issues = s.issues := rfl
@[simp] theorem sendOut_fresh (s : State) (o : HostOut) : (sendOut s o).fresh = s.fresh := rfl

/-! `logError` -/

@[simp] theorem logError_strand (s : State) (f : Nat) (a : Word) : (logError s f a).strand = s.strand := rfl
@[simp] theorem logError_mate (s : State) (f : Nat) (a : Word) : (logError s f a).mate = s.mate := rfl
@[simp] theorem logError_role (s : State) (f : Nat) (a : Word) : (logError s f a).role = s.role := rfl
@[simp] theorem logError_hart (s : State) (f : Nat) (a : Word) : (logError s f a).hart = s.hart := rfl
@[simp] theorem logError_parked (s : State) (f : Nat) (a : Word) : (logError s f a).parked = s.parked := rfl
@[simp] theorem logError_inputs (s : State) (f : Nat) (a : Word) : (logError s f a).inputs = s.inputs := rfl
@[simp] theorem logError_mem (s : State) (f : Nat) (a : Word) : (logError s f a).mem = s.mem := rfl
@[simp] theorem logError_coh (s : State) (f : Nat) (a : Word) : (logError s f a).coh = s.coh := rfl
@[simp] theorem logError_sealed (s : State) (f : Nat) (a : Word) : (logError s f a).sealed = s.sealed := rfl
@[simp] theorem logError_cores (s : State) (f : Nat) (a : Word) : (logError s f a).cores = s.cores := rfl
@[simp] theorem logError_dies (s : State) (f : Nat) (a : Word) : (logError s f a).dies = s.dies := rfl
@[simp] theorem logError_sched (s : State) (f : Nat) (a : Word) : (logError s f a).sched = s.sched := rfl
@[simp] theorem logError_kiln (s : State) (f : Nat) (a : Word) : (logError s f a).kiln = s.kiln := rfl
@[simp] theorem logError_cycle (s : State) (f : Nat) (a : Word) : (logError s f a).cycle = s.cycle := rfl
@[simp] theorem logError_now (s : State) (f : Nat) (a : Word) : (logError s f a).now = s.now := rfl
@[simp] theorem logError_issues (s : State) (f : Nat) (a : Word) : (logError s f a).issues = s.issues := rfl
@[simp] theorem logError_fresh (s : State) (f : Nat) (a : Word) : (logError s f a).fresh = s.fresh := rfl

/-! `clearStall` -/

@[simp] theorem clearStall_mate (s : State) : (clearStall s).mate = s.mate := rfl
@[simp] theorem clearStall_role (s : State) : (clearStall s).role = s.role := rfl
@[simp] theorem clearStall_hart (s : State) : (clearStall s).hart = s.hart := rfl
@[simp] theorem clearStall_parked (s : State) : (clearStall s).parked = s.parked := rfl
@[simp] theorem clearStall_inputs (s : State) : (clearStall s).inputs = s.inputs := rfl
@[simp] theorem clearStall_mem (s : State) : (clearStall s).mem = s.mem := rfl
@[simp] theorem clearStall_coh (s : State) : (clearStall s).coh = s.coh := rfl
@[simp] theorem clearStall_sealed (s : State) : (clearStall s).sealed = s.sealed := rfl
@[simp] theorem clearStall_cores (s : State) : (clearStall s).cores = s.cores := rfl
@[simp] theorem clearStall_dies (s : State) : (clearStall s).dies = s.dies := rfl
@[simp] theorem clearStall_sched (s : State) : (clearStall s).sched = s.sched := rfl
@[simp] theorem clearStall_host (s : State) : (clearStall s).host = s.host := rfl
@[simp] theorem clearStall_kiln (s : State) : (clearStall s).kiln = s.kiln := rfl
@[simp] theorem clearStall_cycle (s : State) : (clearStall s).cycle = s.cycle := rfl
@[simp] theorem clearStall_now (s : State) : (clearStall s).now = s.now := rfl
@[simp] theorem clearStall_issues (s : State) : (clearStall s).issues = s.issues := rfl
@[simp] theorem clearStall_fresh (s : State) : (clearStall s).fresh = s.fresh := rfl

/-! The records that an update changes. -/

@[simp] theorem setPc_strand (s : State) (p : Word) : (setPc s p).strand = { s.strand with pc := p } := rfl
@[simp] theorem countInstr_hart (s : State) (n : Nat) : (countInstr s n).hart =
    { s.hart with cr := { s.hart.cr with instret := s.hart.cr.instret + BitVec.ofNat 64 n }, units := s.hart.units + (!inHandler s).toNat } := rfl
@[simp] theorem countAs_hart (s : State) (n : Nat) (u : Bool) : (countAs s n u).hart =
    { s.hart with cr := { s.hart.cr with instret := s.hart.cr.instret + BitVec.ofNat 64 n }, units := s.hart.units + u.toNat } := rfl
@[simp] theorem inText_strand (s : State) (p : Bool) : (inText s p).strand = { s.strand with portable := p } := rfl
@[simp] theorem advance_strand (s : State) : (advance s).strand = { s.strand with pc := s.strand.pc + 4 } := rfl
@[simp] theorem advance_hart (s : State) : (advance s).hart = (countInstr s 1).hart := rfl
@[simp] theorem stallOn_strand (s : State) (r : Stall) : (stallOn s r).strand = { s.strand with stall := some r } := rfl
@[simp] theorem bump_fresh (s : State) : (bump s).fresh = s.fresh + 1 := rfl
@[simp] theorem setDie_dies (s : State) (d : DieId) (x : Die) : (setDie s d x).dies = s.dies.set d.toNat x d.isLt := rfl
@[simp] theorem setMem_mem (s : State) (m : Memory) : (setMem s m).mem = m := rfl
@[simp] theorem setResv_strand (s : State) (r : Option Reservation) : (setResv s r).strand = { s.strand with resv := r } := rfl
@[simp] theorem setLinks_strand (s : State) (l : List Nat) : (setLinks s l).strand = { s.strand with links := l } := rfl
@[simp] theorem setV_hart (s : State) (v : VReg) (b : VBits) : (setV s v b).hart = { s.hart with regs := { s.hart.regs with v := s.hart.regs.v.set v.toNat b v.isLt } } := rfl
@[simp] theorem setM_hart (s : State) (m : MReg) (b : MBits) : (setM s m b).hart = { s.hart with regs := { s.hart.regs with m := s.hart.regs.m.set m.toNat b m.isLt } } := rfl
@[simp] theorem setQ_hart (s : State) (q : VOpd) (es : List QEntry) : (setQ s q es).hart = { s.hart with q := s.hart.q.put q es } := rfl
@[simp] theorem setQueues_hart (s : State) (q : Queues) : (setQueues s q).hart = { s.hart with q := q } := rfl
@[simp] theorem setCr_hart (s : State) (c : CtrlRegs) : (setCr s c).hart = { s.hart with cr := c } := rfl
@[simp] theorem setDg_hart (s : State) (a : AccStore) : (setDg s a).hart = { s.hart with dg := a } := rfl
@[simp] theorem setStash_hart (s : State) (l : List StashUnit) : (setStash s l).hart = { s.hart with stashMap := l } := rfl
@[simp] theorem setStreams_hart (s : State) (l : List Stream) : (setStreams s l).hart = { s.hart with streams := l } := rfl
@[simp] theorem setLatch_hart (s : State) (w : Word) (v : Bool) : (setLatch s w v).hart = { s.hart with latch := w, latchValid := v } := rfl
@[simp] theorem setConvoy_strand (s : State) (c : Option (List Slot)) : (setConvoy s c).strand = { s.strand with convoy := c } := rfl
@[simp] theorem setDprog_hart (s : State) (w : Word) : (setDprog s w).hart = { s.hart with cr := { s.hart.cr with dprog := w } } := rfl
@[simp] theorem drain_strand (s : State) (c : Nat) : (drain s c).strand =
    { s.strand.lastStrip with convoy := none, ahead := none, pc := (behind s c).1, stall := triedAgain (behind s c).2 } := by
  simp only [drain, clearDprog, countAs]; split <;> rfl
@[simp] theorem drain_hart (s : State) (c : Nat) : (drain s c).hart = (countAs (clearDprog s) c (convoyUnit s)).hart := rfl
@[simp] theorem userReturn_strand (s : State) : (userReturn s).strand = { s.strand with pc := s.hart.cr.upc, resv := none, links := [] } := rfl
@[simp] theorem setVl_strand (s : State) (n : Nat) : (setVl s n).strand = { s.strand with vl := BitVec.ofNat 14 n } := rfl
@[simp] theorem clearStall_strand (s : State) : (clearStall s).strand =
    { s.strand with stall := none, convoy := if s.strand.stall.isSome then s.strand.convoy.map (fun ks => ks.map (fun k => { k with held := none })) else s.strand.convoy } := rfl

/-! A strand's strip: `withStrip` and `lastStrip` change the strip alone. -/

@[simp] theorem withStrip_pc (x : Strand) (p : Strip) : (x.withStrip p).pc = x.pc := rfl
@[simp] theorem withStrip_x (x : Strand) (p : Strip) : (x.withStrip p).x = x.x := rfl
@[simp] theorem withStrip_shadow (x : Strand) (p : Strip) : (x.withStrip p).shadow = x.shadow := rfl
@[simp] theorem withStrip_hexited (x : Strand) (p : Strip) : (x.withStrip p).hexited = x.hexited := rfl
@[simp] theorem withStrip_convoy (x : Strand) (p : Strip) : (x.withStrip p).convoy = x.convoy := rfl
@[simp] theorem withStrip_aside (x : Strand) (p : Strip) : (x.withStrip p).aside = x.aside := rfl
@[simp] theorem withStrip_resumed (x : Strand) (p : Strip) : (x.withStrip p).resumed = x.resumed := rfl
@[simp] theorem withStrip_stall (x : Strand) (p : Strip) : (x.withStrip p).stall = x.stall := rfl
@[simp] theorem withStrip_ahead (x : Strand) (p : Strip) : (x.withStrip p).ahead = x.ahead := rfl
@[simp] theorem withStrip_unit (x : Strand) (p : Strip) : (x.withStrip p).unit = x.unit := rfl
@[simp] theorem withStrip_portable (x : Strand) (p : Strip) : (x.withStrip p).portable = x.portable := rfl
@[simp] theorem withStrip_lastIssue (x : Strand) (p : Strip) : (x.withStrip p).lastIssue = x.lastIssue := rfl
@[simp] theorem withStrip_resv (x : Strand) (p : Strip) : (x.withStrip p).resv = x.resv := rfl
@[simp] theorem withStrip_links (x : Strand) (p : Strip) : (x.withStrip p).links = x.links := rfl
@[simp] theorem withStrip_strips (x : Strand) (p : Strip) : (x.withStrip p).strips = x.strips := rfl
@[simp] theorem withStrip_later (x : Strand) (p : Strip) : (x.withStrip p).later = x.later := rfl
@[simp] theorem withStrip_strip (x : Strand) (p : Strip) : (x.withStrip p).strip = p := rfl
@[simp] theorem lastStrip_pc (x : Strand) : x.lastStrip.pc = x.pc := by unfold Strand.lastStrip; cases x.later <;> rfl
@[simp] theorem lastStrip_x (x : Strand) : x.lastStrip.x = x.x := by unfold Strand.lastStrip; cases x.later <;> rfl
@[simp] theorem lastStrip_shadow (x : Strand) : x.lastStrip.shadow = x.shadow := by unfold Strand.lastStrip; cases x.later <;> rfl
@[simp] theorem lastStrip_hexited (x : Strand) : x.lastStrip.hexited = x.hexited := by unfold Strand.lastStrip; cases x.later <;> rfl
@[simp] theorem lastStrip_convoy (x : Strand) : x.lastStrip.convoy = x.convoy := by unfold Strand.lastStrip; cases x.later <;> rfl
@[simp] theorem lastStrip_aside (x : Strand) : x.lastStrip.aside = x.aside := by unfold Strand.lastStrip; cases x.later <;> rfl
@[simp] theorem lastStrip_resumed (x : Strand) : x.lastStrip.resumed = x.resumed := by unfold Strand.lastStrip; cases x.later <;> rfl
@[simp] theorem lastStrip_stall (x : Strand) : x.lastStrip.stall = x.stall := by unfold Strand.lastStrip; cases x.later <;> rfl
@[simp] theorem lastStrip_ahead (x : Strand) : x.lastStrip.ahead = x.ahead := by unfold Strand.lastStrip; cases x.later <;> rfl
@[simp] theorem lastStrip_unit (x : Strand) : x.lastStrip.unit = x.unit := by unfold Strand.lastStrip; cases x.later <;> rfl
@[simp] theorem lastStrip_portable (x : Strand) : x.lastStrip.portable = x.portable := by unfold Strand.lastStrip; cases x.later <;> rfl
@[simp] theorem lastStrip_lastIssue (x : Strand) : x.lastStrip.lastIssue = x.lastIssue := by unfold Strand.lastStrip; cases x.later <;> rfl
@[simp] theorem lastStrip_resv (x : Strand) : x.lastStrip.resv = x.resv := by unfold Strand.lastStrip; cases x.later <;> rfl
@[simp] theorem lastStrip_links (x : Strand) : x.lastStrip.links = x.links := by unfold Strand.lastStrip; cases x.later <;> rfl
@[simp] theorem lastStrip_strips (x : Strand) : x.lastStrip.strips = x.strips := by unfold Strand.lastStrip; cases x.later <;> rfl
@[simp] theorem lastStrip_later (x : Strand) : x.lastStrip.later = none := rfl
theorem lastStrip_strip (x : Strand) : x.lastStrip.strip = x.later.getD x.strip := by unfold Strand.lastStrip; cases x.later <;> rfl

/-! `setX`: the strand alone changes, and of it one bank of scalar registers. -/

theorem setX_cases (s : State) (r : XReg) (v : Word) :
    (r = 0 ∧ setX s r v = s) ∨ (r ≠ 0 ∧ 24 ≤ r.toNat ∧ inHandler s ∧ ∃ b, setX s r v = { s with strand := { s.strand with shadow := b } })
      ∨ (r ≠ 0 ∧ ¬(24 ≤ r.toNat ∧ inHandler s) ∧ setX s r v = { s with strand := { s.strand with x := s.strand.x.set r.toNat v r.isLt } }) := by
  unfold setX bankX
  split
  · exact .inl ⟨‹_›, rfl⟩
  · split
    · exact .inr (.inl ⟨‹_›, (‹_ ∧ _› : _ ∧ _).1, (‹_ ∧ _› : _ ∧ _).2, _, rfl⟩)
    · exact .inr (.inr ⟨‹_›, ‹_›, rfl⟩)

@[simp] theorem setX_mate (s : State) (r : XReg) (v : Word) : (setX s r v).mate = s.mate := by
  obtain ⟨_, h⟩ | ⟨_, _, _, _, h⟩ | ⟨_, _, h⟩ := setX_cases s r v <;> rw [h]
@[simp] theorem setX_role (s : State) (r : XReg) (v : Word) : (setX s r v).role = s.role := by
  obtain ⟨_, h⟩ | ⟨_, _, _, _, h⟩ | ⟨_, _, h⟩ := setX_cases s r v <;> rw [h]
@[simp] theorem setX_hart (s : State) (r : XReg) (v : Word) : (setX s r v).hart = s.hart := by
  obtain ⟨_, h⟩ | ⟨_, _, _, _, h⟩ | ⟨_, _, h⟩ := setX_cases s r v <;> rw [h]
@[simp] theorem setX_parked (s : State) (r : XReg) (v : Word) : (setX s r v).parked = s.parked := by
  obtain ⟨_, h⟩ | ⟨_, _, _, _, h⟩ | ⟨_, _, h⟩ := setX_cases s r v <;> rw [h]
@[simp] theorem setX_inputs (s : State) (r : XReg) (v : Word) : (setX s r v).inputs = s.inputs := by
  obtain ⟨_, h⟩ | ⟨_, _, _, _, h⟩ | ⟨_, _, h⟩ := setX_cases s r v <;> rw [h]
@[simp] theorem setX_mem (s : State) (r : XReg) (v : Word) : (setX s r v).mem = s.mem := by
  obtain ⟨_, h⟩ | ⟨_, _, _, _, h⟩ | ⟨_, _, h⟩ := setX_cases s r v <;> rw [h]
@[simp] theorem setX_coh (s : State) (r : XReg) (v : Word) : (setX s r v).coh = s.coh := by
  obtain ⟨_, h⟩ | ⟨_, _, _, _, h⟩ | ⟨_, _, h⟩ := setX_cases s r v <;> rw [h]
@[simp] theorem setX_sealed (s : State) (r : XReg) (v : Word) : (setX s r v).sealed = s.sealed := by
  obtain ⟨_, h⟩ | ⟨_, _, _, _, h⟩ | ⟨_, _, h⟩ := setX_cases s r v <;> rw [h]
@[simp] theorem setX_cores (s : State) (r : XReg) (v : Word) : (setX s r v).cores = s.cores := by
  obtain ⟨_, h⟩ | ⟨_, _, _, _, h⟩ | ⟨_, _, h⟩ := setX_cases s r v <;> rw [h]
@[simp] theorem setX_dies (s : State) (r : XReg) (v : Word) : (setX s r v).dies = s.dies := by
  obtain ⟨_, h⟩ | ⟨_, _, _, _, h⟩ | ⟨_, _, h⟩ := setX_cases s r v <;> rw [h]
@[simp] theorem setX_sched (s : State) (r : XReg) (v : Word) : (setX s r v).sched = s.sched := by
  obtain ⟨_, h⟩ | ⟨_, _, _, _, h⟩ | ⟨_, _, h⟩ := setX_cases s r v <;> rw [h]
@[simp] theorem setX_host (s : State) (r : XReg) (v : Word) : (setX s r v).host = s.host := by
  obtain ⟨_, h⟩ | ⟨_, _, _, _, h⟩ | ⟨_, _, h⟩ := setX_cases s r v <;> rw [h]
@[simp] theorem setX_kiln (s : State) (r : XReg) (v : Word) : (setX s r v).kiln = s.kiln := by
  obtain ⟨_, h⟩ | ⟨_, _, _, _, h⟩ | ⟨_, _, h⟩ := setX_cases s r v <;> rw [h]
@[simp] theorem setX_cycle (s : State) (r : XReg) (v : Word) : (setX s r v).cycle = s.cycle := by
  obtain ⟨_, h⟩ | ⟨_, _, _, _, h⟩ | ⟨_, _, h⟩ := setX_cases s r v <;> rw [h]
@[simp] theorem setX_now (s : State) (r : XReg) (v : Word) : (setX s r v).now = s.now := by
  obtain ⟨_, h⟩ | ⟨_, _, _, _, h⟩ | ⟨_, _, h⟩ := setX_cases s r v <;> rw [h]
@[simp] theorem setX_issues (s : State) (r : XReg) (v : Word) : (setX s r v).issues = s.issues := by
  obtain ⟨_, h⟩ | ⟨_, _, _, _, h⟩ | ⟨_, _, h⟩ := setX_cases s r v <;> rw [h]
@[simp] theorem setX_fresh (s : State) (r : XReg) (v : Word) : (setX s r v).fresh = s.fresh := by
  obtain ⟨_, h⟩ | ⟨_, _, _, _, h⟩ | ⟨_, _, h⟩ := setX_cases s r v <;> rw [h]
@[simp] theorem setX_strand_pc (s : State) (r : XReg) (v : Word) : (setX s r v).strand.pc = s.strand.pc := by
  obtain ⟨_, h⟩ | ⟨_, _, _, _, h⟩ | ⟨_, _, h⟩ := setX_cases s r v <;> rw [h]
@[simp] theorem setX_strand_vl (s : State) (r : XReg) (v : Word) : (setX s r v).strand.vl = s.strand.vl := by
  obtain ⟨_, h⟩ | ⟨_, _, _, _, h⟩ | ⟨_, _, h⟩ := setX_cases s r v <;> rw [h]
@[simp] theorem setX_strand_ew (s : State) (r : XReg) (v : Word) : (setX s r v).strand.ew = s.strand.ew := by
  obtain ⟨_, h⟩ | ⟨_, _, _, _, h⟩ | ⟨_, _, h⟩ := setX_cases s r v <;> rw [h]
@[simp] theorem setX_strand_hexited (s : State) (r : XReg) (v : Word) : (setX s r v).strand.hexited = s.strand.hexited := by
  obtain ⟨_, h⟩ | ⟨_, _, _, _, h⟩ | ⟨_, _, h⟩ := setX_cases s r v <;> rw [h]
@[simp] theorem setX_strand_convoy (s : State) (r : XReg) (v : Word) : (setX s r v).strand.convoy = s.strand.convoy := by
  obtain ⟨_, h⟩ | ⟨_, _, _, _, h⟩ | ⟨_, _, h⟩ := setX_cases s r v <;> rw [h]
@[simp] theorem setX_strand_aside (s : State) (r : XReg) (v : Word) : (setX s r v).strand.aside = s.strand.aside := by
  obtain ⟨_, h⟩ | ⟨_, _, _, _, h⟩ | ⟨_, _, h⟩ := setX_cases s r v <;> rw [h]
@[simp] theorem setX_strand_resumed (s : State) (r : XReg) (v : Word) : (setX s r v).strand.resumed = s.strand.resumed := by
  obtain ⟨_, h⟩ | ⟨_, _, _, _, h⟩ | ⟨_, _, h⟩ := setX_cases s r v <;> rw [h]
@[simp] theorem setX_strand_stall (s : State) (r : XReg) (v : Word) : (setX s r v).strand.stall = s.strand.stall := by
  obtain ⟨_, h⟩ | ⟨_, _, _, _, h⟩ | ⟨_, _, h⟩ := setX_cases s r v <;> rw [h]
@[simp] theorem setX_strand_ahead (s : State) (r : XReg) (v : Word) : (setX s r v).strand.ahead = s.strand.ahead := by
  obtain ⟨_, h⟩ | ⟨_, _, _, _, h⟩ | ⟨_, _, h⟩ := setX_cases s r v <;> rw [h]
@[simp] theorem setX_strand_rows (s : State) (r : XReg) (v : Word) : (setX s r v).strand.rows = s.strand.rows := by
  obtain ⟨_, h⟩ | ⟨_, _, _, _, h⟩ | ⟨_, _, h⟩ := setX_cases s r v <;> rw [h]
@[simp] theorem setX_strand_rowLen (s : State) (r : XReg) (v : Word) : (setX s r v).strand.rowLen = s.strand.rowLen := by
  obtain ⟨_, h⟩ | ⟨_, _, _, _, h⟩ | ⟨_, _, h⟩ := setX_cases s r v <;> rw [h]
@[simp] theorem setX_strand_rowCap (s : State) (r : XReg) (v : Word) : (setX s r v).strand.rowCap = s.strand.rowCap := by
  obtain ⟨_, h⟩ | ⟨_, _, _, _, h⟩ | ⟨_, _, h⟩ := setX_cases s r v <;> rw [h]
@[simp] theorem setX_strand_lastIssue (s : State) (r : XReg) (v : Word) : (setX s r v).strand.lastIssue = s.strand.lastIssue := by
  obtain ⟨_, h⟩ | ⟨_, _, _, _, h⟩ | ⟨_, _, h⟩ := setX_cases s r v <;> rw [h]
@[simp] theorem setX_strand_resv (s : State) (r : XReg) (v : Word) : (setX s r v).strand.resv = s.strand.resv := by
  obtain ⟨_, h⟩ | ⟨_, _, _, _, h⟩ | ⟨_, _, h⟩ := setX_cases s r v <;> rw [h]
@[simp] theorem setX_strand_links (s : State) (r : XReg) (v : Word) : (setX s r v).strand.links = s.strand.links := by
  obtain ⟨_, h⟩ | ⟨_, _, _, _, h⟩ | ⟨_, _, h⟩ := setX_cases s r v <;> rw [h]
@[simp] theorem setX_strand_strips (s : State) (r : XReg) (v : Word) : (setX s r v).strand.strips = s.strand.strips := by
  obtain ⟨_, h⟩ | ⟨_, _, _, _, h⟩ | ⟨_, _, h⟩ := setX_cases s r v <;> rw [h]

@[simp] theorem setX_strand_later (s : State) (r : XReg) (v : Word) : (setX s r v).strand.later = s.strand.later := by
  obtain ⟨_, h⟩ | ⟨_, _, _, _, h⟩ | ⟨_, _, h⟩ := setX_cases s r v <;> rw [h]
@[simp] theorem setX_strand_unit (s : State) (r : XReg) (v : Word) : (setX s r v).strand.unit = s.strand.unit := by
  obtain ⟨_, h⟩ | ⟨_, _, _, _, h⟩ | ⟨_, _, h⟩ := setX_cases s r v <;> rw [h]
@[simp] theorem setX_strand_portable (s : State) (r : XReg) (v : Word) : (setX s r v).strand.portable = s.strand.portable := by
  obtain ⟨_, h⟩ | ⟨_, _, _, _, h⟩ | ⟨_, _, h⟩ := setX_cases s r v <;> rw [h]
/-- x0 discards what is written to it (R91). -/
@[simp] theorem setX_zero (s : State) (v : Word) : setX s 0 v = s := by simp [setX, bankX]

/-- x0 reads 0 (R91). -/
@[simp] theorem getX_zero (s : State) : getX s 0 = 0 := if_pos rfl

@[simp] theorem inHandler_setX (s : State) (r : XReg) (v : Word) : inHandler (setX s r v) = inHandler s := by simp [inHandler]

/-- A register written reads as what was written. -/
theorem getX_setX_self (s : State) (r : XReg) (v : Word) (h : r ≠ 0) : getX (setX s r v) r = v := by
  unfold getX
  rw [if_neg h, inHandler_setX]
  unfold setX bankX
  rw [if_neg h]
  split <;> simp [*]

/-- The other registers read as before. -/
theorem getX_setX_of_ne (s : State) {r d : XReg} (v : Word) (h : r ≠ d) : getX (setX s d v) r = getX s r := by
  unfold getX
  rw [inHandler_setX]
  have hn : d.toNat ≠ r.toNat := fun e => h (BitVec.eq_of_toNat_eq e.symm)
  unfold setX bankX
  split
  · rfl
  · rename_i hr
    by_cases hd : d = 0
    · simp [hd]
    · by_cases hs : 24 ≤ d.toNat ∧ inHandler s = true
      · simp only [hd, hs, and_self, if_true, if_false]
        split
        · rename_i hr'
          have hm : d.toNat % 8 ≠ r.toNat % 8 := by have := d.isLt; have := r.isLt; omega
          simp [hm]
        · rfl
      · simp only [hd, if_false, if_neg hs]
        split
        · rfl
        · simp [hn]

/-- What an instruction that ends by `advance` leaves of a register. -/
@[simp] theorem getX_advance (s : State) (r : XReg) : getX (advance s) r = getX s r := rfl
@[simp] theorem getV_setX (s : State) (r : XReg) (v : Word) (d : VReg) : getV (setX s r v) d = getV s d := by simp [getV]
@[simp] theorem getM_setX (s : State) (r : XReg) (v : Word) (d : MReg) : getM (setX s r v) d = getM s d := by simp [getM]
@[simp] theorem getV_advance (s : State) (d : VReg) : getV (advance s) d = getV s d := rfl
@[simp] theorem getM_advance (s : State) (d : MReg) : getM (advance s) d = getM s d := rfl

/-! Vector and mask registers, dies. -/

@[simp] theorem getV_setV_self (s : State) (d : VReg) (b : VBits) : getV (setV s d b) d = b := by simp [getV]
theorem getV_setV_of_ne (s : State) {d e : VReg} (b : VBits) (h : e ≠ d) : getV (setV s d b) e = getV s e := by
  have : d.toNat ≠ e.toNat := fun x => h (BitVec.eq_of_toNat_eq x.symm)
  simp [getV, this]
@[simp] theorem getM_setV (s : State) (d : VReg) (b : VBits) (m : MReg) : getM (setV s d b) m = getM s m := rfl
@[simp] theorem getM_setM_self (s : State) (d : MReg) (b : MBits) : getM (setM s d b) d = b := by simp [getM]
theorem getM_setM_of_ne (s : State) {d e : MReg} (b : MBits) (h : e ≠ d) : getM (setM s d b) e = getM s e := by
  have : d.toNat ≠ e.toNat := fun x => h (BitVec.eq_of_toNat_eq x.symm)
  simp [getM, this]
@[simp] theorem getV_setM (s : State) (d : MReg) (b : MBits) (v : VReg) : getV (setM s d b) v = getV s v := rfl
@[simp] theorem dieRec_setDie_self (s : State) (d : DieId) (x : Die) : dieRec (setDie s d x) d = x := by simp [dieRec]
theorem dieRec_setDie_of_ne (s : State) {d e : DieId} (x : Die) (h : e ≠ d) : dieRec (setDie s d x) e = dieRec s e := by
  have : d.toNat ≠ e.toNat := fun y => h (BitVec.eq_of_toNat_eq y.symm)
  simp [dieRec, this]

end Sys2Proof.Machine
end

