-- ==== Sys2Proof/Laws/Elements.lean ====
section
/-! SUPPORT. Elements of registers and bits of masks: how an element reads after elements are written (R119 to R121). -/

namespace Sys2Proof.Machine

/-- Bit k of an element is bit w*i + k of the register. -/
theorem testBit_elemOf (b : VBits) (w i k : Nat) : (elemOf b w i).testBit k = (decide (k < w) && b.getLsbD (w * i + k)) := by
  simp only [elemOf, Nat.testBit_mod_two_pow, BitVec.testBit_toNat, BitVec.getLsbD_ushiftRight]

theorem elemOf_lt (b : VBits) (w i : Nat) : elemOf b w i < 2 ^ w := Nat.mod_lt _ (Nat.two_pow_pos w)

/-- The bits of a register with one element replaced. -/
theorem getLsbD_setElem (b : VBits) (w i v n : Nat) (h : w * i + w ≤ 65536) :
    (setElem b w i v).getLsbD n = if w * i ≤ n ∧ n < w * i + w then v.testBit (n - w * i) else b.getLsbD n := by
  have hm : (BitVec.ofNat 65536 (2 ^ w - 1)).getLsbD (n - w * i) = (decide (n - w * i < 65536) && decide (n - w * i < w)) := by
    rw [BitVec.getLsbD_ofNat, Nat.testBit_two_pow_sub_one]
  have hv : (BitVec.ofNat 65536 (v % 2 ^ w)).getLsbD (n - w * i)
      = (decide (n - w * i < 65536) && (decide (n - w * i < w) && v.testBit (n - w * i))) := by
    rw [BitVec.getLsbD_ofNat, Nat.testBit_mod_two_pow]
  have hn : b.getLsbD n = true → n < 65536 := fun e => Decidable.byContradiction fun c => by
    rw [BitVec.getLsbD_of_ge _ _ (by omega)] at e; cases e
  simp only [setElem, BitVec.getLsbD_or, BitVec.getLsbD_and, BitVec.getLsbD_not, BitVec.getLsbD_shiftLeft, hm, hv]
  split
  · rename_i hr
    have h1 : ¬ n < w * i := by omega
    have h2 : n - w * i < w := by omega
    have h3 : n < 65536 := by omega
    have h4 : n - w * i < 65536 := by omega
    simp [h1, h2, h3, h4]
  · rename_i hr
    by_cases h1 : n < w * i
    · have h3 : n < 65536 := by omega
      simp [h1, h3]
    · have h2 : ¬ n - w * i < w := by omega
      by_cases h3 : n < 65536
      · simp [h1, h2, h3]
      · have : b.getLsbD n = false := by rw [BitVec.getLsbD_of_ge _ _ (by omega)]
        simp [h2, h3, this]

/-- The element written reads as its low w bits. -/
theorem elemOf_setElem_self (b : VBits) (w i v : Nat) (h : w * i + w ≤ 65536) : elemOf (setElem b w i v) w i = v % 2 ^ w := by
  apply Nat.eq_of_testBit_eq
  intro k
  rw [testBit_elemOf, getLsbD_setElem _ _ _ _ _ h, Nat.testBit_mod_two_pow]
  by_cases hk : k < w
  · simp [hk]
  · simp [hk]

/-- Another element of the width reads as before. -/
theorem elemOf_setElem_of_ne (b : VBits) (w : Nat) {i j : Nat} (v : Nat) (h : w * i + w ≤ 65536) (hij : j ≠ i) :
    elemOf (setElem b w i v) w j = elemOf b w j := by
  apply Nat.eq_of_testBit_eq
  intro k
  rw [testBit_elemOf, testBit_elemOf, getLsbD_setElem _ _ _ _ _ h]
  by_cases hk : k < w
  · have : ¬ (w * i ≤ w * j + k ∧ w * j + k < w * i + w) := by
      intro ⟨h1, h2⟩
      rcases Nat.lt_or_gt_of_ne hij with hlt | hlt
      · have := Nat.mul_le_mul_left w (Nat.succ_le_of_lt hlt)
        rw [Nat.mul_succ] at this
        omega
      · have := Nat.mul_le_mul_left w (Nat.succ_le_of_lt hlt)
        rw [Nat.mul_succ] at this
        omega
    rw [if_neg this]
  · simp [hk]

/-- An element that no pair of the list names reads as before. -/
theorem elemOf_setElems_of_not_mem (w j : Nat) (l : List (Nat × Nat)) :
    ∀ b : VBits, (∀ p ∈ l, w * p.1 + w ≤ 65536) → (∀ p ∈ l, p.1 ≠ j) → elemOf (setElems b w l) w j = elemOf b w j := by
  induction l with
  | nil => intros; rfl
  | cons p r ih =>
    intro b hw hj
    show elemOf (setElems (setElem b w p.1 p.2) w r) w j = _
    rw [ih _ (fun q hq => hw q (List.mem_cons_of_mem _ hq)) fun q hq => hj q (List.mem_cons_of_mem _ hq),
      elemOf_setElem_of_ne _ _ _ (hw p (List.mem_cons_self ..)) (Ne.symm (hj p (List.mem_cons_self ..)))]

/-- An element that one pair names reads as that pair's value. -/
theorem elemOf_setElems_of_mem (w : Nat) (l : List (Nat × Nat)) :
    ∀ b : VBits, (∀ p ∈ l, w * p.1 + w ≤ 65536) → (l.map (·.1)).Nodup → ∀ p ∈ l, elemOf (setElems b w l) w p.1 = p.2 % 2 ^ w := by
  induction l with
  | nil => intro _ _ _ p hp; cases hp
  | cons q r ih =>
    intro b hw hn p hp
    rw [List.map_cons, List.nodup_cons] at hn
    show elemOf (setElems (setElem b w q.1 q.2) w r) w p.1 = _
    have hw' : ∀ p ∈ r, w * p.1 + w ≤ 65536 := fun p hp => hw p (List.mem_cons_of_mem _ hp)
    rcases List.mem_cons.mp hp with rfl | hp
    · rw [elemOf_setElems_of_not_mem w p.1 r _ hw' fun q hq e => hn.1 (List.mem_map.mpr ⟨q, hq, e⟩),
        elemOf_setElem_self _ _ _ _ (hw p (List.mem_cons_self ..))]
    · exact ih _ hw' hn.2 p hp

/-- The bit of a mask after one bit is replaced. -/
theorem getLsbD_setBits_of_not_mem (j : Nat) (l : List (Nat × Bool)) :
    ∀ b : MBits, (∀ p ∈ l, p.1 ≠ j) → (setBits b l).getLsbD j = b.getLsbD j := by
  induction l with
  | nil => intros; rfl
  | cons p r ih =>
    intro b hj
    have hp : ¬ p.1 = j := hj p (List.mem_cons_self ..)
    show (setBits _ r).getLsbD j = _
    rw [ih _ fun q hq => hj q (List.mem_cons_of_mem _ hq)]
    by_cases hb : j < 8192
    · dsimp only
      split <;> simp [hb] <;> intros <;> omega
    · simp only [BitVec.getLsbD_of_ge _ _ (Nat.le_of_not_lt hb)]

theorem getLsbD_setBits_of_mem (l : List (Nat × Bool)) :
    ∀ b : MBits, (∀ p ∈ l, p.1 < 8192) → (l.map (·.1)).Nodup → ∀ p ∈ l, (setBits b l).getLsbD p.1 = p.2 := by
  induction l with
  | nil => intro _ _ _ p hp; cases hp
  | cons q r ih =>
    intro b hw hn p hp
    rw [List.map_cons, List.nodup_cons] at hn
    rcases List.mem_cons.mp hp with rfl | hp
    · show (setBits _ r).getLsbD p.1 = _
      rw [getLsbD_setBits_of_not_mem _ r _ fun q hq e => hn.1 (List.mem_map.mpr ⟨q, hq, e⟩)]
      have := hw p (List.mem_cons_self ..)
      dsimp only
      split <;> simp_all
    · exact ih _ (fun q hq => hw q (List.mem_cons_of_mem _ hq)) hn.2 p hp

/-! ## Positions -/

theorem positions_native (s : State) (h : s.strand.portable = false) : positions s = List.range s.strand.vl.toNat := by
  simp only [positions, rowsOf, h, Bool.false_eq_true, if_false]
  split
  · rename_i hv; simp [eq_of_beq hv]
  · simp

theorem openAt_free {s : State} {k : Slot} (e : Nat) (h : k.stop = none) : openAt s k e = !passed s k e := by
  simp [openAt, within, h]

theorem beyond_free {s : State} {k : Slot} (h : k.stop = none) : beyond s k = [] := by simp [beyond, within, h]

theorem mem_activeOf {s : State} {k : Slot} {g : Gov} {e : Nat} :
    e ∈ activeOf s k g ↔ e ∈ positions s ∧ govTest s g e = true ∧ openAt s k e = true := by
  simp [activeOf, List.mem_filter]

end Sys2Proof.Machine
end

