-- ==== Sys2Proof/Laws/Memory.lean ====
section
/-! SUPPORT. Memory: how a byte reads after each operation, and that every operation keeps the canonical form. -/

namespace Sys2Proof.Machine

/-! ## One byte -/

theorem Memory.wf_nil : Memory.wf [] := ⟨List.Pairwise.nil, fun _ h => by cases h⟩

theorem Memory.wf_cons {c : Host.Cell} {r : Memory} :
    Memory.wf (c :: r) ↔ (∀ d ∈ r, c.1 < d.1) ∧ c.2 ≠ 0 ∧ Memory.wf r := by
  simp only [Memory.wf, List.pairwise_cons, List.mem_cons, forall_eq_or_imp]
  tauto

/-- An address that no cell has reads as 0. -/
theorem Memory.read_absent (m : Memory) (a : Nat) (h : ∀ c ∈ m, c.1 ≠ a) : m.read a = 0 := by
  induction m with
  | nil => rfl
  | cons c r ih =>
    have hc := h c (List.mem_cons_self ..)
    simp [Memory.read, hc, ih fun d hd => h d (List.mem_cons_of_mem _ hd)]

theorem Memory.read_above (m : Memory) (a : Nat) (h : ∀ c ∈ m, a < c.1) : m.read a = 0 :=
  m.read_absent a fun c hc => Nat.ne_of_gt (h c hc)

/-- A byte written reads as what was written. -/
theorem Memory.read_write_self (m : Memory) (a : Nat) (v : Byte) (hm : m.wf) : (m.write a v).read a = v := by
  induction m with
  | nil =>
    unfold Memory.write
    split
    · rename_i h; simp [Memory.read, eq_of_beq h]
    · simp [Memory.read]
  | cons c r ih =>
    obtain ⟨hc, hv, hr⟩ := Memory.wf_cons.mp hm
    unfold Memory.write
    by_cases h1 : c.1 < a
    · simp only [h1, if_true, Memory.read]
      rw [if_neg (by simp; omega)]
      exact ih hr
    · rw [if_neg h1]
      by_cases h2 : c.1 = a
      · rw [if_pos (by simp [h2])]
        by_cases h3 : (v == 0) = true
        · rw [if_pos h3, eq_of_beq h3]
          exact Memory.read_above r a fun d hd => h2 ▸ hc d hd
        · rw [if_neg h3]
          simp [Memory.read]
      · rw [if_neg (by simp [h2])]
        by_cases h3 : (v == 0) = true
        · have hab : ∀ d ∈ c :: r, a < d.1 := by
            intro d hd
            rcases List.mem_cons.mp hd with rfl | hd
            · omega
            · have := hc d hd; omega
          rw [if_pos h3, eq_of_beq h3]
          exact Memory.read_above (c :: r) a hab
        · rw [if_neg h3]
          simp [Memory.read]

/-- Another byte reads as before. -/
theorem Memory.read_write_of_ne (m : Memory) {a b : Nat} (v : Byte) (h : b ≠ a) : (m.write a v).read b = m.read b := by
  induction m with
  | nil =>
    unfold Memory.write
    split
    · rfl
    · simp [Memory.read, Ne.symm h]
  | cons c r ih =>
    unfold Memory.write
    by_cases h1 : c.1 < a
    · simp only [h1, if_true, Memory.read, ih]
    · rw [if_neg h1]
      by_cases h2 : c.1 = a
      · have h4 : c.1 ≠ b := by omega
        rw [if_pos (by simp [h2])]
        by_cases h3 : (v == 0) = true
        · rw [if_pos h3]
          simp [Memory.read, h4]
        · rw [if_neg h3]
          simp [Memory.read, h4, Ne.symm h]
      · rw [if_neg (by simp [h2])]
        by_cases h3 : (v == 0) = true
        · rw [if_pos h3]
        · rw [if_neg h3]
          simp [Memory.read, Ne.symm h]

theorem Memory.read_write (m : Memory) (a b : Nat) (v : Byte) (hm : m.wf) : (m.write a v).read b = if b = a then v else m.read b := by
  split
  · rename_i h; rw [h, Memory.read_write_self m a v hm]
  · exact Memory.read_write_of_ne m v ‹_›

/-- The cells of a written memory are old ones, or the one written. -/
theorem Memory.mem_write {m : Memory} {a : Nat} {v : Byte} {c : Host.Cell} (h : c ∈ m.write a v) : c ∈ m ∨ (c = (a, v) ∧ v ≠ 0) := by
  induction m with
  | nil =>
    unfold Memory.write at h
    split at h
    · cases h
    · rename_i hv; exact .inr ⟨by simpa using h, by simpa using hv⟩
  | cons d r ih =>
    unfold Memory.write at h
    split at h
    · rcases List.mem_cons.mp h with rfl | h
      · exact .inl (List.mem_cons_self ..)
      · exact (ih h).imp_left (List.mem_cons_of_mem _)
    · split at h <;> split at h
      · exact .inl (List.mem_cons_of_mem _ h)
      · rename_i hv
        rcases List.mem_cons.mp h with rfl | h
        · exact .inr ⟨rfl, by simpa using hv⟩
        · exact .inl (List.mem_cons_of_mem _ h)
      · exact .inl h
      · rename_i hv
        rcases List.mem_cons.mp h with rfl | h
        · exact .inr ⟨rfl, by simpa using hv⟩
        · exact .inl h

/-- A write keeps the canonical form. -/
theorem Memory.write_wf {m : Memory} (a : Nat) (v : Byte) (hm : m.wf) : (m.write a v).wf := by
  induction m with
  | nil =>
    unfold Memory.write
    split
    · exact Memory.wf_nil
    · rename_i hv; exact Memory.wf_cons.mpr ⟨by simp, by simpa using hv, Memory.wf_nil⟩
  | cons c r ih =>
    obtain ⟨hc, hcv, hr⟩ := Memory.wf_cons.mp hm
    unfold Memory.write
    by_cases h1 : c.1 < a
    · rw [if_pos h1]
      refine Memory.wf_cons.mpr ⟨fun d hd => ?_, hcv, ih hr⟩
      rcases Memory.mem_write hd with h | ⟨rfl, _⟩
      · exact hc d h
      · exact h1
    · rw [if_neg h1]
      by_cases h2 : c.1 = a
      · rw [if_pos (by simp [h2])]
        split
        · exact hr
        · rename_i hv
          exact Memory.wf_cons.mpr ⟨fun d hd => h2 ▸ hc d hd, by simpa using hv, hr⟩
      · rw [if_neg (by simp [h2])]
        split
        · exact hm
        · rename_i hv
          refine Memory.wf_cons.mpr ⟨fun d hd => ?_, by simpa using hv, hm⟩
          show a < d.1
          rcases List.mem_cons.mp hd with rfl | hd
          · omega
          · have := hc d hd; omega

/-! ## Ranges of bytes -/

theorem Memory.writeNat_wf (n : Nat) : ∀ {m : Memory} (a v : Nat), m.wf → (m.writeNat a n v).wf := by
  induction n with
  | zero => intro m a v h; exact h
  | succ n ih => intro m a v h; exact ih _ _ (Memory.write_wf _ _ h)

/-- A byte outside the written range reads as before. -/
theorem Memory.read_writeNat_of_out (n : Nat) : ∀ (m : Memory) (a v b : Nat), (b < a ∨ a + n ≤ b) → (m.writeNat a n v).read b = m.read b := by
  induction n with
  | zero => intros; rfl
  | succ n ih =>
    intro m a v b h
    show ((m.write a (BitVec.ofNat 8 v)).writeNat (a + 1) n (v / 256)).read b = _
    rw [ih _ _ _ _ (by omega), Memory.read_write_of_ne _ _ (by omega)]

/-- Byte i of a written range reads as byte i of the value. -/
theorem Memory.read_writeNat (n : Nat) :
    ∀ (m : Memory) (a v i : Nat), m.wf → i < n → (m.writeNat a n v).read (a + i) = BitVec.ofNat 8 (v / 256 ^ i) := by
  induction n with
  | zero => intros; omega
  | succ n ih =>
    intro m a v i hm hi
    show ((m.write a (BitVec.ofNat 8 v)).writeNat (a + 1) n (v / 256)).read (a + i) = _
    cases i with
    | zero =>
      rw [Memory.read_writeNat_of_out n _ _ _ _ (by omega), Nat.add_zero, Memory.read_write_self _ _ _ hm]
      simp
    | succ i =>
      have := ih (m.write a (BitVec.ofNat 8 v)) (a + 1) (v / 256) i (Memory.write_wf _ _ hm) (by omega)
      rw [show a + (i + 1) = a + 1 + i by omega, this, Nat.div_div_eq_div_mul, Nat.pow_succ, Nat.mul_comm]

/-- What was written in n bytes is read back in n bytes. -/
theorem Memory.readNat_writeNat (n : Nat) : ∀ (m : Memory) (a v : Nat), m.wf → (m.writeNat a n v).readNat a n = v % 256 ^ n := by
  induction n with
  | zero => intro m a v _; simp [Memory.readNat, Nat.mod_one]
  | succ n ih =>
    intro m a v hm
    show ((m.writeNat a (n + 1) v).read a).toNat + 256 * (m.writeNat a (n + 1) v).readNat (a + 1) n = _
    have h0 := Memory.read_writeNat (n + 1) m a v 0 hm (by omega)
    rw [show a + 0 = a from rfl] at h0
    rw [h0]
    show _ + 256 * ((m.write a (BitVec.ofNat 8 v)).writeNat (a + 1) n (v / 256)).readNat (a + 1) n = _
    rw [ih _ _ _ (Memory.write_wf _ _ hm), Nat.pow_succ', Nat.mod_mul]
    simp

theorem Memory.filter_wf {m : Memory} (p : Host.Cell → Bool) (hm : m.wf) : Memory.wf (m.filter p) :=
  ⟨hm.1.filter p, fun c hc => hm.2 c (List.mem_of_mem_filter hc)⟩

theorem Memory.zero_wf {m : Memory} (a n : Nat) (hm : m.wf) : (m.zero a n).wf := Memory.filter_wf _ hm

theorem Memory.read_filter (m : Memory) (p : Host.Cell → Bool) (a : Nat) (h : ∀ c ∈ m, c.1 = a → p c) : Memory.read (m.filter p) a = m.read a := by
  induction m with
  | nil => rfl
  | cons c r ih =>
    have ih := ih fun d hd => h d (List.mem_cons_of_mem _ hd)
    by_cases hp : p c
    · rw [List.filter_cons_of_pos hp]; simp [Memory.read, ih]
    · have : c.1 ≠ a := fun e => hp (h c (List.mem_cons_self ..) e)
      rw [List.filter_cons_of_neg hp]; simp [Memory.read, ih, this]

/-- A cleared byte reads 0. -/
theorem Memory.read_zero_in (m : Memory) (a n b : Nat) (h : a ≤ b ∧ b < a + n) : (m.zero a n).read b = 0 := by
  apply Memory.read_absent
  intro c hc e
  have := (List.mem_filter.mp hc).2
  subst e
  simp at this
  omega

/-- A byte outside the cleared range reads as before. -/
theorem Memory.read_zero_out (m : Memory) (a n b : Nat) (h : b < a ∨ a + n ≤ b) : (m.zero a n).read b = m.read b := by
  apply Memory.read_filter
  intro c _ e
  subst e
  simp
  omega

/-- Three parts at rising addresses are canonical when each is. -/
theorem Memory.append_wf {a b : Memory} (ha : a.wf) (hb : b.wf) (h : ∀ c ∈ a, ∀ d ∈ b, c.1 < d.1) : Memory.wf (a ++ b) :=
  ⟨List.pairwise_append.mpr ⟨ha.1, hb.1, h⟩, fun c hc => (List.mem_append.mp hc).elim (ha.2 c) (hb.2 c)⟩

/-- A middle part replaced within its bounds. -/
theorem Memory.replace_wf {m b : Memory} (lo hi : Nat) (hm : m.wf) (hb : b.wf) (h : ∀ c ∈ b, lo ≤ c.1 ∧ c.1 < hi) (hle : lo ≤ hi) :
    Memory.wf (m.filter (fun c => c.1 < lo) ++ b ++ m.filter (fun c => hi ≤ c.1)) := by
  refine Memory.append_wf (Memory.append_wf (Memory.filter_wf _ hm) hb fun c hc d hd => ?_) (Memory.filter_wf _ hm) fun c hc d hd => ?_
  · have h1 := (List.mem_filter.mp hc).2
    have h2 := h d hd
    simp at h1
    omega
  · have h2 := (List.mem_filter.mp hd).2
    simp at h2
    rcases List.mem_append.mp hc with hc | hc
    · have h1 := (List.mem_filter.mp hc).2
      simp at h1
      omega
    · have := h c hc
      omega

theorem cellsOf_wf (k : Nat) : ∀ base v, Memory.wf (cellsOf k base v) ∧ ∀ c ∈ cellsOf k base v, base ≤ c.1 ∧ c.1 < base + 2 ^ k := by
  induction k with
  | zero =>
    intro base v
    unfold cellsOf
    split
    · exact ⟨Memory.wf_nil, fun c h => by cases h⟩
    · exact ⟨Memory.wf_cons.mpr ⟨by simp, ‹_›, Memory.wf_nil⟩, fun c h => by
        rw [List.mem_singleton.mp h]; simp⟩
  | succ k ih =>
    intro base v
    have hp : 2 ^ (k + 1) = 2 ^ k + 2 ^ k := by rw [Nat.pow_succ]; omega
    unfold cellsOf
    split
    · exact ⟨Memory.wf_nil, fun c h => by cases h⟩
    · obtain ⟨w1, b1⟩ := ih base (v % 2 ^ (8 * 2 ^ k))
      obtain ⟨w2, b2⟩ := ih (base + 2 ^ k) (v / 2 ^ (8 * 2 ^ k))
      refine ⟨Memory.append_wf w1 w2 fun c hc d hd => ?_, fun c hc => ?_⟩
      · have := b1 c hc; have := b2 d hd; omega
      · rcases List.mem_append.mp hc with hc | hc
        · have := b1 c hc; omega
        · have := b2 c hc; omega

theorem Memory.put_wf {m : Memory} (k base v : Nat) (hm : m.wf) : (m.put k base v).wf :=
  Memory.replace_wf base (base + 2 ^ k) hm (cellsOf_wf k base v).1 (cellsOf_wf k base v).2 (Nat.le_add_right ..)

theorem cellsFrom_wf (b : List Byte) : ∀ base, Memory.wf (cellsFrom base b) ∧ ∀ c ∈ cellsFrom base b, base ≤ c.1 ∧ c.1 < base + b.length := by
  induction b with
  | nil => intro base; exact ⟨Memory.wf_nil, fun c h => by cases h⟩
  | cons v r ih =>
    intro base
    obtain ⟨w, h⟩ := ih (base + 1)
    unfold cellsFrom
    split
    · exact ⟨w, fun c hc => by have := h c hc; simp; omega⟩
    · refine ⟨Memory.wf_cons.mpr ⟨fun d hd => ?_, ‹_›, w⟩, fun c hc => ?_⟩
      · have := h d hd; show base < d.1; omega
      · rcases List.mem_cons.mp hc with rfl | hc
        · simp
        · have := h c hc; simp; omega

theorem Memory.putBytes_wf {m : Memory} (base : Nat) (b : List Byte) (hm : m.wf) : (m.putBytes base b).wf :=
  Memory.replace_wf base (base + b.length) hm (cellsFrom_wf b base).1 (cellsFrom_wf b base).2 (Nat.le_add_right ..)

/-! ## Bytes at a list of addresses -/

theorem writePas_wf (l : List Nat) : ∀ {m : Memory} (v : Nat), m.wf → (writePas m v l).wf := by
  induction l with
  | nil => intro m v h; exact h
  | cons a r ih => intro m v h; exact ih _ (Memory.write_wf _ _ h)

/-- A byte that is not among the addresses reads as before. -/
theorem read_writePas_of_not_mem (l : List Nat) : ∀ (m : Memory) (v b : Nat), b ∉ l → (writePas m v l).read b = m.read b := by
  induction l with
  | nil => intros; rfl
  | cons a r ih =>
    intro m v b h
    rw [List.mem_cons, not_or] at h
    show (writePas (m.write a (BitVec.ofNat 8 v)) (v / 256) r).read b = _
    rw [ih _ _ _ h.2, Memory.read_write_of_ne _ _ h.1]

theorem storedAt_wf {m : Memory} (d : Done) (v : Nat) (hm : m.wf) : (storedAt m d v).wf := by
  unfold storedAt
  split
  · exact writePas_wf _ _ hm
  · exact writePas_wf _ _ hm

theorem read_storedAt_of_not_mem (m : Memory) (d : Done) (v b : Nat) (h : b ∉ d.pas) : (storedAt m d v).read b = m.read b := by
  unfold storedAt
  split
  · exact read_writePas_of_not_mem _ _ _ _ h
  · exact read_writePas_of_not_mem _ _ _ _ h

/-- A fold of stores keeps the canonical form. -/
theorem foldl_wf {α : Type} (f : Memory → α → Memory) (hf : ∀ m x, m.wf → (f m x).wf) (l : List α) :
    ∀ {m : Memory}, m.wf → (l.foldl f m).wf := by
  induction l with
  | nil => intro m h; exact h
  | cons x r ih => intro m h; exact ih (hf m x h)

/-- A byte that none of a fold's stores reaches reads as before. -/
theorem read_foldl_of_not_mem {α : Type} (f : Memory → α → Memory) (pas : α → List Nat)
    (hf : ∀ m x b, b ∉ pas x → (f m x).read b = m.read b) (l : List α) (b : Nat) (h : ∀ x ∈ l, b ∉ pas x) :
    ∀ m, (l.foldl f m).read b = m.read b := by
  induction l with
  | nil => intro m; rfl
  | cons x r ih =>
    intro m
    rw [List.foldl_cons, ih fun y hy => h y (List.mem_cons_of_mem _ hy), hf _ _ _ (h x (List.mem_cons_self ..))]

end Sys2Proof.Machine
end

