-- ==== Sys2Proof/Laws/Lines.lean ====
section
/-! SUPPORT. What an access does to lines and tiles leaves the rest of the state alone: each operation on directories and seals keeps `bare`. -/

namespace Sys2Proof.Machine

/-! ## What equal `bare` states share -/

theorem mem_of_bare {s t : State} (h : bare t = bare s) : t.mem = s.mem := by have e := congrArg State.mem h; exact e
theorem hart_of_bare {s t : State} (h : bare t = bare s) : t.hart = s.hart := by have e := congrArg State.hart h; exact e
theorem x_of_bare {s t : State} (h : bare t = bare s) : t.strand.x = s.strand.x := by
  have e := congrArg (fun u => u.strand.x) h; exact e
theorem pc_of_bare {s t : State} (h : bare t = bare s) : t.strand.pc = s.strand.pc := by
  have e := congrArg (fun u => u.strand.pc) h; exact e
theorem shadow_of_bare {s t : State} (h : bare t = bare s) : t.strand.shadow = s.strand.shadow := by
  have e := congrArg (fun u => u.strand.shadow) h; exact e
theorem convoy_of_bare {s t : State} (h : bare t = bare s) : t.strand.convoy = s.strand.convoy := by
  have e := congrArg (fun u => u.strand.convoy) h; exact e
theorem role_of_bare {s t : State} (h : bare t = bare s) : t.role = s.role := by have e := congrArg State.role h; exact e
theorem inputs_of_bare {s t : State} (h : bare t = bare s) : t.inputs = s.inputs := by have e := congrArg State.inputs h; exact e
theorem sched_of_bare {s t : State} (h : bare t = bare s) : t.sched = s.sched := by have e := congrArg State.sched h; exact e
theorem host_of_bare {s t : State} (h : bare t = bare s) : t.host = s.host := by have e := congrArg State.host h; exact e
theorem kiln_of_bare {s t : State} (h : bare t = bare s) : t.kiln = s.kiln := by have e := congrArg State.kiln h; exact e

theorem getX_of_bare {s t : State} (h : bare t = bare s) (r : XReg) : getX t r = getX s r := by
  have hi : inHandler t = inHandler s := by simp only [inHandler, hart_of_bare h, role_of_bare h]
  unfold getX
  rw [hi]
  simp only [x_of_bare h, shadow_of_bare h]

/-! ## Folds and strands -/

/-- A fold of steps that keep a function of the state keeps it. -/
theorem foldl_keeps {α β : Type} (g : State → β) (f : State → α → State) (hf : ∀ s x, g (f s x) = g s) (l : List α) :
    ∀ s, g (l.foldl f s) = g s := by
  induction l with
  | nil => intro s; rfl
  | cons x r ih => intro s; rw [List.foldl_cons, ih, hf]

@[simp] theorem unlinked_loseLine (x : Strand) (l : Nat) : (x.loseLine l).unlinked = x.unlinked := rfl

/-- A change of strands that `unlinked` does not see. -/
theorem bare_onStrands (s : State) (p : Hart → Bool) (f : Strand → Strand) (hf : ∀ x, (f x).unlinked = x.unlinked) :
    bare (onStrands s p f) = bare s := by
  have hm : ∀ o : Option Strand, (o.map f).map Strand.unlinked = o.map Strand.unlinked := by
    intro o; cases o <;> simp [hf]
  simp only [bare, onStrands]
  congr 1
  · split <;> [exact hf _; rfl]
  · split <;> [exact hm _; rfl]
  · rw [List.map_map]
    apply List.map_congr_left
    intro b _
    simp only [Function.comp]
    split
    · simp only [HartBox.mapStrands, hf, hm]
    · rfl

theorem bare_loseElsewhere (s : State) (l : Nat) : bare (loseElsewhere s l) = bare s := by
  simp only [bare, loseElsewhere, HartBox.mapStrands, List.map_map, Option.map_map]
  congr 2
  funext b
  simp only [Function.comp, Option.map_map]
  rfl

/-! ## Directories -/

@[simp] theorem bare_loseOnCore (s : State) (d : DieId) (c : CoreId) (l : Nat) : bare (loseOnCore s d c l) = bare s :=
  bare_onStrands s _ _ fun _ => rfl
theorem bare_withSealed (s : State) (x : Sealed) : bare { s with sealed := x } = bare s := rfl
@[simp] theorem bare_putL1 (s : State) (d : DieId) (c : CoreId) (l : Nat) (st : Option L1State) (h : Option HartId) : bare (putL1 s d c l st h) = bare s := rfl
@[simp] theorem bare_setL1 (s : State) (d : DieId) (c : CoreId) (l : Nat) (st : Option L1State) : bare (setL1 s d c l st) = bare s := rfl
@[simp] theorem bare_setHome (s : State) (l : Nat) (h : Option HomeState) (q : List Waiting) : bare (setHome s l h q) = bare s := rfl
@[simp] theorem bare_enqueue (s : State) (l : Nat) (w : Waiting) : bare (enqueue s l w) = bare s := rfl
@[simp] theorem bare_setProxy (s : State) (d : DieId) (l : Nat) (p : Option ProxyState) : bare (setProxy s d l p) = bare s := rfl
@[simp] theorem bare_setWindow (s : State) (w : Window) : bare (setWindow s w) = bare s := rfl
@[simp] theorem bare_exchange (s : State) (d : DieId) (a : BitVec 5) (e : DieId) (r : Reply) : bare (exchange s d a e r) = bare s := by
  unfold exchange; split <;> rfl
@[simp] theorem bare_unanswered (s : State) (d : DieId) (a : BitVec 5) (e : DieId) (n : BitVec 16) (i : Option Instr) (c : Option (Nat × Nat)) :
    bare (unanswered s d a e n i c) = bare s := rfl
@[simp] theorem bare_answered (s : State) (d : DieId) (a : BitVec 5) (e : DieId) (n : BitVec 16) : bare (answered s d a e n) = bare s := rfl
@[simp] theorem bare_putCopy (s : State) (d : DieId) (c : CoreId) (l : Nat) (b : BitVec 1024) : bare (putCopy s d c l b) = bare s := rfl
@[simp] theorem bare_setCopy (s : State) (l : Nat) (b : BitVec 1024) : bare (setCopy s l b) = bare s := rfl
@[simp] theorem bare_dropCopies (s : State) (d : DieId) (c : CoreId) (p : Nat → Bool) : bare (dropCopies s d c p) = bare s := rfl
@[simp] theorem bare_acquire (s : State) : bare (acquire s) = bare s := rfl
@[simp] theorem bare_keepUpper (s : State) (d : DieId) (n l : Nat) (va e : Word) : bare (keepUpper s d n l va e) = bare s := rfl
@[simp] theorem bare_keepLeaf (s : State) (d : DieId) (c : CoreId) (n : Nat) (va : Word) (l : Leaf) : bare (keepLeaf s d c n va l) = bare s := rfl
@[simp] theorem bare_markDirty (s : State) (l : Nat) : bare (markDirty s l) = bare s := by unfold markDirty; split <;> rfl
@[simp] theorem bare_setTile (s : State) (r : TileRec) : bare (setTile s r) = bare s := rfl
@[simp] theorem bare_putCipher (s : State) (t : Nat) (b : Bool) (c : BitVec 32) : bare (putCipher s t b c) = bare s := by
  unfold putCipher; split <;> rfl

/-- A die whose record differs in its glaze unit's registers alone. -/
theorem bare_setDie (s : State) (d : DieId) (x : Die) (h : x.unglazed = (dieRec s d).unglazed) : bare (setDie s d x) = bare s := by
  simp only [bare, setDie]
  congr 1
  apply Vector.ext
  intro _ _
  simp only [Vector.getElem_map, Vector.getElem_set]
  split
  · rename_i e; subst e; exact h
  · rfl

@[simp] theorem bare_poisonTile (s : State) (t : Nat) (k : Poison) : bare (poisonTile s t k) = bare s :=
  foldl_keeps bare _ (fun s _ => bare_setHome s _ _ _) _ s

@[simp] theorem bare_failTile (s : State) (t : Nat) : bare (failTile s t) = bare s := by
  unfold failTile
  dsimp only
  rw [bare_poisonTile]
  exact bare_setDie s _ _ rfl

@[simp] theorem bare_fillTile (s : State) (t : Nat) : bare (fillTile s t) = bare s := by
  unfold fillTile
  split
  · rfl
  · dsimp only
    split
    · rfl
    · split
      · split
        · exact (bare_withSealed _ _).trans (bare_putCipher ..)
        · exact (bare_failTile ..).trans (bare_putCipher ..)
      · rw [bare_poisonTile]; rfl

@[simp] theorem bare_writeOut (s : State) (d : DieId) (c : CoreId) (l : Nat) : bare (writeOut s d c l) = bare s := by
  unfold writeOut; split <;> simp

@[simp] theorem bare_ownerAgain (s : State) (l : Nat) (r : Requester) : bare (ownerAgain s l r) = bare s := by cases r <;> simp [ownerAgain]

@[simp] theorem bare_dropL1 (s : State) (d : DieId) (c : CoreId) (l : Nat) : bare (dropL1 s d c l) = bare s := by
  simp [dropL1]

@[simp] theorem bare_shareL1 (s : State) (d : DieId) (c : CoreId) (l : Nat) : bare (shareL1 s d c l) = bare s := by
  unfold shareL1; split <;> simp

@[simp] theorem bare_dropProxy (s : State) (d : DieId) (l : Nat) : bare (dropProxy s d l) = bare s := by
  simp only [dropProxy, bare_setProxy]
  split
  · exact foldl_keeps bare _ (fun s c => bare_dropL1 s d c l) _ s
  · simp
  · rfl

@[simp] theorem bare_shareProxy (s : State) (d : DieId) (l : Nat) : bare (shareProxy s d l) = bare s := by
  unfold shareProxy; split <;> simp

@[simp] theorem bare_dropHolder (s : State) (l : Nat) (r : Requester) : bare (dropHolder s l r) = bare s := by cases r <;> simp [dropHolder]
@[simp] theorem bare_shareHolder (s : State) (l : Nat) (r : Requester) : bare (shareHolder s l r) = bare s := by cases r <;> simp [shareHolder]

@[simp] theorem bare_recallAll (s : State) (l : Nat) : bare (recallAll s l) = bare s := by
  unfold recallAll
  split
  · rfl
  · rfl
  · rw [bare_setHome]; exact foldl_keeps bare _ (fun s r => bare_dropHolder s l r) _ s
  · rfl

@[simp] theorem bare_homeGetS (s : State) (l : Nat) (r : Requester) : bare (homeGetS s l r).1 = bare s := by
  unfold homeGetS
  split
  · exact bare_setHome ..
  · exact bare_setHome ..
  · split
    · exact bare_ownerAgain ..
    · exact (bare_setHome ..).trans (bare_shareHolder ..)
  · rfl

@[simp] theorem bare_dropOthers (s : State) (l : Nat) (r : Requester) : bare (dropOthers s l r) = bare s := by
  unfold dropOthers
  split
  · exact foldl_keeps bare _ (fun s o => bare_dropHolder s l o) _ s
  · rfl

@[simp] theorem bare_homeGetM (s : State) (l : Nat) (r : Requester) : bare (homeGetM s l r) = bare s := by
  unfold homeGetM
  split
  · rfl
  · rfl
  · exact (bare_setHome ..).trans (bare_dropOthers ..)

@[simp] theorem bare_waitAtHome (s : State) (d : DieId) (c : CoreId) (l : Nat) (w st : Bool) : bare (waitAtHome s d c l w st) = bare s := by
  unfold waitAtHome; split <;> rfl

@[simp] theorem bare_notGranted (s : State) (d : DieId) (c : CoreId) (l : Nat) (w : Bool) : bare (notGranted s d c l w) = bare s := by
  unfold notGranted
  split
  · exact bare_waitAtHome ..
  · exact (bare_setL1 ..).trans (bare_exchange ..)
  · rfl

@[simp] theorem bare_askS (s : State) (d : DieId) (c : CoreId) (l : Nat) : bare (askS s d c l) = bare s := by
  unfold askS
  split
  · exact (bare_setL1 ..).trans (bare_homeGetS ..)
  · exact ((bare_setL1 ..).trans (bare_setProxy ..)).trans ((bare_homeGetS ..).trans (bare_exchange ..))

@[simp] theorem bare_coreGetS (s : State) (d : DieId) (c : CoreId) (l : Nat) : bare (coreGetS s d c l) = bare s := by
  unfold coreGetS
  split
  · exact (bare_setL1 ..).trans (bare_setProxy ..)
  · split
    · exact (bare_setL1 ..).trans (bare_writeOut ..)
    · exact ((bare_setL1 ..).trans (bare_setProxy ..)).trans ((bare_setHome ..).trans
        ((bare_markDirty ..).trans ((bare_shareL1 ..).trans (bare_exchange ..))))
  · split <;> [exact bare_askS ..; exact bare_notGranted ..]

@[simp] theorem bare_coreGetM (s : State) (d : DieId) (c : CoreId) (l : Nat) : bare (coreGetM s d c l) = bare s := by
  unfold coreGetM
  split
  · split <;> [exact (bare_setL1 ..).trans (bare_homeGetM ..); exact bare_notGranted ..]
  · split
    · refine (bare_setL1 ..).trans ?_
      split <;> [rfl; exact (bare_setProxy ..).trans (bare_dropL1 ..)]
    · split
      · refine ((bare_setL1 ..).trans (bare_setProxy ..)).trans ?_
        exact (foldl_keeps bare _ (fun s c => bare_dropL1 s d c l) _ _).trans ((bare_homeGetM ..).trans (bare_exchange ..))
      · exact bare_notGranted ..

@[simp] theorem bare_ownerGone (s : State) (l : Nat) (r : Requester) : bare (ownerGone s l r) = bare s := by unfold ownerGone; split <;> rfl

@[simp] theorem bare_corePut (s : State) (d : DieId) (c : CoreId) (l : Nat) : bare (corePut s d c l) = bare s := by
  unfold corePut
  dsimp only
  split
  · exact (bare_ownerGone ..).trans (bare_dropL1 ..)
  · split
    · split
      · exact (bare_ownerGone ..).trans ((bare_exchange ..).trans ((bare_setProxy ..).trans (bare_dropL1 ..)))
      · exact bare_dropL1 ..
    · exact (bare_setProxy ..).trans (bare_dropL1 ..)
    · exact bare_dropL1 ..

@[simp] theorem bare_agentAt (s : State) (l : Nat) (w : Bool) : bare (agentAt s l w) = bare s := by
  unfold agentAt
  split
  · rfl
  · split <;> simp
  · split <;> simp
  · split <;> simp

@[simp] theorem bare_delay (s : State) (l : Nat) (w : Waiting) : bare (delay s l w) = bare s := by unfold delay; split <;> rfl

@[simp] theorem bare_touchAgent (s : State) (d : DieId) (a : BitVec 5) (l : Nat) (w : Bool) : bare (touchAgent s d a l w) = bare s := by
  simp [touchAgent]

@[simp] theorem bare_touchCore (s : State) (d : DieId) (c : CoreId) (l : Nat) (w : Bool) : bare (touchCore s d c l w) = bare s := by
  unfold touchCore
  split
  · rfl
  · split <;> simp
  · split <;> simp
  · split <;> simp

@[simp] theorem bare_touchTracked (s : State) (l : Nat) (w : Bool) : bare (touchTracked s l w) = bare s := by
  have key : ∀ u : State, bare (if stashed u l then putL1 u (dieOf s.hart.id) (coreOf s.hart.id) l (l1State u (dieOf s.hart.id) (coreOf s.hart.id) l)
      (some u.hart.id) else u) = bare u := by intro u; split <;> rfl
  unfold touchTracked
  dsimp only
  rw [key, bare_touchCore]
  split <;> simp

/-- One access of a hart changes lines and tiles alone. -/
@[simp] theorem bare_touch (s : State) (l : Nat) (w st : Bool) : bare (touch s l w st) = bare s := by
  have key : ∀ u : State, bare u = bare s → bare (if w then loseElsewhere u l else u) = bare s := by
    intro u hu
    split
    · rw [bare_loseElsewhere, hu]
    · exact hu
  unfold touch
  dsimp only
  apply key
  split
  · split <;> simp
  · split <;> simp

@[simp] theorem bare_touchStoreBy (s : State) (d : DieId) (a : BitVec 5) (l : Nat) : bare (touchStoreBy s d a l) = bare s :=
  (bare_onStrands _ _ (·.loseLine l) fun _ => rfl).trans (bare_touchAgent s d a l true)

@[simp] theorem bare_touchStoreAll (s : State) (l : Nat) : bare (touchStoreAll s l) = bare s := bare_touchStoreBy ..

@[simp] theorem bare_touchAll (s : State) (pas : List Nat) (w st : Bool) : bare (touchAll s pas w st) = bare s :=
  foldl_keeps bare _ (fun s l => bare_touch s l w st) _ s

@[simp] theorem bare_storeCopies (s : State) (m : Memory) (pas : List Nat) (st : Bool) : bare (storeCopies s m pas st) = bare s := by
  have key : ∀ (l : List Nat) (u : State), bare (l.foldl (fun t l =>
      match copyIn { s with mem := m } l with
      | some b => setCopy t l (BitVec.ofNat 1024 ((writePas (Memory.writeNat [] (128 * l) 128 b.toNat) (readPas s.mem (pas.filter (lineOf · == l)))
          (pas.filter (lineOf · == l))).readNat (128 * l) 128))
      | none => dropCopies t (dieOf s.hart.id) (coreOf s.hart.id) (· == l)) u) = bare u := fun l u => foldl_keeps bare _ (fun _ _ => by split <;> rfl) l u
  unfold storeCopies
  split <;> [exact key _ _; rfl]

/-! ## Translations -/

@[simp] theorem bare_walked (s : State) (p : Party) (n : Nat) (va : Word) : bare (walked s p n va) = bare s := by
  have h1 := foldl_keeps bare (fun s a => touchAgent s p.die proxyAgent (lineOf a) false) (fun s a => bare_touchAgent s _ _ _ _)
    ((walkReads s p.die n va).filter (frameThere s)) s
  unfold walked
  dsimp only
  generalize List.foldl _ _ _ = u at h1 ⊢
  split
  · exact h1
  · split
    · refine Eq.trans ?_ h1
      (repeat' split) <;> rfl
    · exact h1

@[simp] theorem bare_translated (s : State) (p : Party) (n : Nat) (va : Word) : bare (translated s p n va) = bare s := by
  unfold translated
  split
  · split <;> simp
  · simp

@[simp] theorem bare_pagesReached (s : State) (p : Party) (n : Nat) (va : Word) (k : Nat) : bare (pagesReached s p n va k) = bare s := by
  unfold pagesReached
  dsimp only
  split <;> simp

@[simp] theorem bare_poisoned (s : State) (pa : Nat) : bare (poisoned s pa) = bare s := by
  unfold poisoned
  dsimp only
  split <;> simp

@[simp] theorem bare_failAccess (s : State) (f : Fail) (va : Word) (away : Nat → Bool) : bare (failAccess s f va away) = bare s := by
  unfold failAccess
  dsimp only
  split
  · rfl
  · split
    · split
      · split
        · simp
        · split <;> simp
      · simp
    · simp

@[simp] theorem bare_failState (s : State) (f : Fail) (va : Word) : bare (failState s f va) = bare s := bare_failAccess ..

@[simp] theorem bare_touchPages (ps : List (List Nat × Leaf)) (w : Bool) (s : State) : bare (touchPages s ps w) = bare s :=
  foldl_keeps bare _ (fun _ _ => bare_touchAll ..) ps s

@[simp] theorem bare_storePages (m : Memory) (ps : List (List Nat × Leaf)) (s : State) : bare (storePages s m ps) = bare s :=
  foldl_keeps bare _ (fun _ _ => bare_storeCopies ..) ps s

@[simp] theorem bare_unitReads (s : State) (d : DieId) (n : Nat) (va : Word) (k : Nat) (a : BitVec 5) : bare (unitReads s d n va k a) = bare s := by
  unfold unitReads
  dsimp only
  split
  · simp
  · exact (foldl_keeps bare _ (fun s l => bare_touchAgent s d a l false) _ _).trans (bare_pagesReached ..)

theorem bare_inText (s : State) (p : Bool) : bare (inText s p) = inText (bare s) p := rfl

/-- Beside lines and tiles a fetch says which kind of text the strand executes (R283). -/
theorem bare_fetched (s : State) (pas : List Nat) (n : Nat) :
    bare (fetched s pas n) = bare (inText s ((pas.head?.map (portableAt s)).getD false)) := by
  simp only [fetched, bare_inText]
  congr 1
  exact (foldl_keeps bare _ (fun s l => bare_touchAgent s (fetcher s).die proxyAgent l false) _ _).trans (bare_pagesReached ..)

@[simp] theorem bare_touchPast (s : State) (a : BitVec 5) (l : Nat) (w : Bool) : bare (touchPast s a l w) = bare s := by
  unfold touchPast
  dsimp only
  split
  · rw [bare_loseElsewhere, bare_touchAgent]; rfl
  · rw [bare_touchAgent]; rfl

@[simp] theorem bare_touchElem (s : State) (d : Done) (w g : Bool) : bare (touchElem s d w g) = bare s := by
  refine (foldl_keeps bare _ (fun s l => ?_) _ _).trans (bare_pagesReached ..)
  split <;> simp

@[simp] theorem bare_touchDone (s : State) (ds : List Done) (w g : Bool) : bare (touchDone s ds w g) = bare s :=
  foldl_keeps bare _ (fun s d => bare_touchElem s d w g) _ s

/-! ## Engines -/

@[simp] theorem bare_claimSent (s : State) (l e : Nat) : bare (claimSent s l e) = bare s := by
  unfold claimSent
  split
  · rfl
  · dsimp only; split <;> rfl

@[simp] theorem bare_claimAnswered (s : State) (l e : Nat) (r : Reply) : bare (claimAnswered s l e r) = bare s := by
  unfold claimAnswered
  split
  · dsimp only; split <;> rfl
  · split <;> simp

@[simp] theorem bare_takeLine (s : State) (l e : Nat) : bare (takeLine s l e) = bare s := by
  unfold takeLine
  split
  · split <;> simp
  · simp
  · dsimp only
    rw [bare_onStrands _ _ (·.loseLine l) fun _ => rfl, bare_setHome, bare_recallAll, bare_claimAnswered]

@[simp] theorem bare_claimLine (s : State) (l e : Nat) : bare (claimLine s l e) = bare s := by
  unfold claimLine
  split <;> simp

@[simp] theorem bare_answerAsk (s : State) (l : Nat) (a : Ask) : bare (answerAsk s l a) = bare s := by
  unfold answerAsk
  split
  · dsimp only; split <;> rfl
  · rfl

@[simp] theorem bare_serveAsk (s : State) (l : Nat) (a : Ask) : bare (serveAsk s l a) = bare s := by
  unfold serveAsk
  dsimp only
  split
  · split <;> [exact (bare_agentAt ..).trans (bare_answerAsk ..); exact (bare_agentAt ..).trans (bare_answerAsk ..);
      exact (bare_agentAt ..).trans (bare_answerAsk ..)]
  · split <;> split <;> simp

@[simp] theorem bare_serveQueue (l : Nat) (ws : List Waiting) : ∀ s, bare (serveQueue s l ws) = bare s := by
  induction ws with
  | nil => intro s; rfl
  | cons w r ih =>
    intro s
    cases w with
    | ask a =>
      simp only [serveQueue, ih]
      split <;> simp
    | claim e =>
      have h : bare (if homeFull s l = true then delay s l (.claim e) else takeLine s l e) = bare s := by split <;> simp
      simp only [serveQueue]
      generalize (if homeFull s l = true then delay s l (.claim e) else takeLine s l e) = u at h ⊢
      split
      · rw [bare_setHome, h]
      · rw [ih, h]

@[simp] theorem bare_releaseLine (s : State) (l e : Nat) : bare (releaseLine s l e) = bare s := by
  unfold releaseLine; split <;> simp

@[simp] theorem bare_withdrawClaim (s : State) (l e : Nat) : bare (withdrawClaim s l e) = bare s := by
  unfold withdrawClaim; split <;> [simp; rfl]

@[simp] theorem bare_sealTile (s : State) (t : Nat) (b : Bool) (c : BitVec 32) : bare (sealTile s t b c) = bare s := by
  unfold sealTile
  dsimp only
  refine (bare_withSealed _ _).trans ?_
  have key : ∀ u v : State, bare v = bare u →
      bare (if tileCached v t = true then putCipher v t b c else
        { v with sealed := { v.sealed with inL2 := v.sealed.inL2.filter (· != t), dram := v.sealed.dram.filter (·.1 != t) } }) = bare u := by
    intro u v h; split <;> [exact (bare_putCipher ..).trans h; exact h]
  refine key s _ ((bare_setTile ..).trans ?_)
  split
  · exact bare_setDie s _ _ rfl
  · rfl

@[simp] theorem bare_resealTile (s : State) (t : Nat) : bare (resealTile s t) = bare s := by
  unfold resealTile
  split
  · rfl
  · split
    · rfl
    · dsimp only
      split
      · simp
      · exact bare_setDie s _ _ rfl

@[simp] theorem bare_collectTile (s : State) (t : Nat) : bare (collectTile s t) = bare s :=
  foldl_keeps bare _ (fun s i => bare_agentAt s (16 * t + i) false) _ s

@[simp] theorem bare_reseal (s : State) (t : Nat) : bare (reseal s t) = bare s := by unfold reseal; split <;> simp

@[simp] theorem bare_readFailed (ks : List Slot) : ∀ (s : State) (b : List Slot), bare (readFailed s b ks) = bare s := by
  have hf : ∀ s b k, bare (readFault s b k) = bare s := fun s b k => by
    unfold readFault
    (repeat' split) <;> simp
  induction ks with
  | nil => intro s b; rfl
  | cons k r ih => intro s b; simp only [readFailed]; split <;> [exact ih ..; (split <;> [exact hf ..; exact ih ..])]

/-- A dispatch that traps changes lines and tiles alone, and those only by a failing read (R264). -/
@[simp] theorem bare_dispatchFailed (s : State) (is : List Instr) : bare (dispatchFailed s is) = bare s := by
  unfold dispatchFailed; split <;> simp

theorem dispatchFailed_checks {s : State} {is : List Instr} (h : checkSlots s (is.map (capture s)) ≠ none) : dispatchFailed s is = s := by
  simp [dispatchFailed, Option.isSome_iff_ne_none.mpr h]

@[simp] theorem bare_setResv (s : State) (r : Option Reservation) : bare (setResv s r) = bare s := rfl
@[simp] theorem bare_setLinks (s : State) (l : List Nat) : bare (setLinks s l) = bare s := rfl

@[simp] theorem bare_unitReach (s : State) (d : DieId) (n : Nat) (a : Word) (k : Nat) : bare (unitReach s d n a k) = bare s :=
  foldl_keeps bare _ (fun s va => by
    dsimp only
    split
    · split <;> simp
    · simp) _ s

/-! ## `bare` through the ends of instructions -/

theorem bare_advance (s : State) : bare (advance s) = advance (bare s) := rfl
theorem bare_setMem (s : State) (m : Memory) : bare (setMem s m) = setMem (bare s) m := rfl

theorem bare_setX (s : State) (r : XReg) (v : Word) : bare (setX s r v) = setX (bare s) r v := by
  have hi : inHandler (bare s) = inHandler s := rfl
  unfold setX bankX
  rw [hi]
  split
  · rfl
  · split <;> rfl

/-- An access, then an end that `bare` commutes with. -/
theorem bare_setX_congr {s t : State} (h : bare t = bare s) (r : XReg) (v : Word) : bare (setX t r v) = bare (setX s r v) := by
  rw [bare_setX, bare_setX, h]
theorem bare_advance_congr {s t : State} (h : bare t = bare s) : bare (advance t) = bare (advance s) := by
  rw [bare_advance, bare_advance, h]
theorem bare_setMem_congr {s t : State} (h : bare t = bare s) (m : Memory) : bare (setMem t m) = bare (setMem s m) := by
  rw [bare_setMem, bare_setMem, h]

end Sys2Proof.Machine
end

