-- ==== Sys2Proof/Laws/Ops.lean ====
section
/-! SUPPORT. One lemma for each shared operation that says everything it can answer: the step itself, role and legality checks, a scalar
access, a branch, a control register access, dispatch and the run of a slot, taking a trap, delivery and return, and an event of a
strand. -/

namespace Sys2Proof.Machine

/-! ## The step -/

/-- An input comes first. -/
theorem step_input {s : State} {i : Instr} {rest : List Instr} (h : s.inputs = i :: rest) : step s = exec i { s with inputs := rest } := by
  simp only [step, h]

/-- With no input, the step is what `nextWork` says. -/
theorem step_cases {s : State} (h : s.inputs = []) :
    (∃ i, nextWork s = .event i ∧ step s = exec i s) ∨ (∃ t, nextWork s = .settled t ∧ step s = .next t)
      ∨ (∃ t n, nextWork s = .issue t n ∧ step s = keepTurn n (runFetched t (fetchAt t)))
      ∨ (∃ t, nextWork s = .slot t ∧ step s = runFetched t (fetchSlot t)) ∨ ∃ t n, nextWork s = .ahead t n ∧ step s = runAhead t n := by
  simp only [step, h]
  cases nextWork s with
  | event i => exact .inl ⟨i, rfl, rfl⟩
  | settled t => exact .inr (.inl ⟨t, rfl, rfl⟩)
  | issue t n => exact .inr (.inr (.inl ⟨t, n, rfl, rfl⟩))
  | slot t => exact .inr (.inr (.inr (.inl ⟨t, rfl, rfl⟩)))
  | ahead t n => exact .inr (.inr (.inr (.inr ⟨t, n, rfl, rfl⟩)))

/-- What a strand that issues does: it executes what it fetched, drains a finished convoy, traps, or waits. -/
theorem runFetched_cases (s : State) (f : Fetched) :
    (∃ i t, f = .run i t ∧ runFetched s f = exec i t) ∨ (∃ t, (f = .drained t ∨ f = .trapped t) ∧ runFetched s f = .next t)
      ∨ ∃ r, f = .wait r ∧ runFetched s f = .next (stallOn s r) := by
  cases f with
  | run i t => exact .inl ⟨i, t, rfl, rfl⟩
  | drained t => exact .inr (.inl ⟨t, .inl rfl, rfl⟩)
  | trapped t => exact .inr (.inl ⟨t, .inr rfl, rfl⟩)
  | wait r => exact .inr (.inr ⟨r, rfl, rfl⟩)

/-- A result that stalls gets back when the strand last issued; any other stays. -/
theorem keepTurn_cases (n : Nat) (r : Host.Outcome State Fault Refusal) :
    keepTurn n r = r ∨ ∃ u, r = .next u ∧ u.strand.stall ≠ none ∧ keepTurn n r = .next { u with strand := { u.strand with lastIssue := n } } := by
  cases r with
  | next u =>
    by_cases h : u.strand.stall.isSome = true
    · exact .inr ⟨u, rfl, by intro e; simp [e] at h, by simp [keepTurn, h]⟩
    · exact .inl (by simp [keepTurn, h])
  | fault f => exact .inl rfl
  | refused r => exact .inl rfl

/-! ## Checks before an effect -/

theorem ifLegal_of {i : Instr} (s : State) (r : Result) (h : i.wf = true) : ifLegal i s r = r := by simp [ifLegal, h]

/-- On the access or the single strand a legal instruction has its effect; on the compute strand it is illegal. -/
theorem accessOnly_of {i : Instr} {s : State} (r : Result) (h : s.role ≠ .compute) (hw : i.wf = true) : accessOnly i s r = r := by
  simp [accessOnly, h, ifLegal_of _ _ hw]

theorem accessOnly_compute {i : Instr} {s : State} (r : Result) (h : s.role = .compute) : accessOnly i s r = .next (illegal i s) := by
  simp [accessOnly, h]

/-! ## Scalar accesses -/

/-- A failing access traps, or waits where its walk must wait for a line (class 0). -/
theorem failNext_trap (s : State) {f : Fail} (va : Word) (h : f.cls ≠ 0) : failNext s f va = raise (failTrap s f va) (failState s f va) := if_neg h
theorem failNext_wait (s : State) {f : Fail} (va : Word) (h : f.cls = 0) : failNext s f va = stallOn s (.engine f.sub) := if_pos h

/-- A scalar access has its effect, waits for its line, or ends with the first check that fails. -/
theorem scalarAccess_cases (ea : Word) (n : Nat) (k : Access) (strict : Bool) (s : State) (f : State → Nat → Leaf → State) :
    (∃ pa l, checkAligned s (me s) s.hart.tenant ea n k strict = .ok (pa, l) ∧ engineLine s (lineOf pa) = false
        ∧ scalarAccess ea n k strict s f = .next (f (translated s (me s) s.hart.tenant ea) pa l))
      ∨ (∃ pa l, checkAligned s (me s) s.hart.tenant ea n k strict = .ok (pa, l) ∧ engineLine s (lineOf pa) = true
        ∧ scalarAccess ea n k strict s f = .next (stallOn s (.engine (lineOf pa))))
      ∨ ∃ e, checkAligned s (me s) s.hart.tenant ea n k strict = .error e
        ∧ scalarAccess ea n k strict s f = .next (failNext s e ea) := by
  simp only [scalarAccess]
  cases h : checkAligned s (me s) s.hart.tenant ea n k strict with
  | error e => exact .inr (.inr ⟨e, rfl, rfl⟩)
  | ok p =>
    cases he : engineLine s (lineOf p.1) with
    | false => exact .inl ⟨p.1, p.2, rfl, he, by simp [he]⟩
    | true => exact .inr (.inl ⟨p.1, p.2, rfl, he, by simp [he]⟩)

theorem scalarAccess_ok {ea : Word} {n : Nat} {k : Access} {strict : Bool} {s : State} {pa : Nat} {l : Leaf} (f : State → Nat → Leaf → State)
    (h : checkAligned s (me s) s.hart.tenant ea n k strict = .ok (pa, l)) (he : engineLine s (lineOf pa) = false) :
    scalarAccess ea n k strict s f = .next (f (translated s (me s) s.hart.tenant ea) pa l) := by simp [scalarAccess, h, he]

theorem scalarAccess_error {ea : Word} {n : Nat} {k : Access} {strict : Bool} {s : State} {e : Fail} (f : State → Nat → Leaf → State)
    (h : checkAligned s (me s) s.hart.tenant ea n k strict = .error e) :
    scalarAccess ea n k strict s f = .next (failNext s e ea) := by simp [scalarAccess, h]

/-- A store puts its bytes where it says and changes nothing else but lines. -/
theorem storeBytes_stored (s : State) (pa n : Nat) (v : Word) (stream : Bool) (h : Canonical s) :
    StoredAt s (storeBytes s pa n v stream) pa n v.toNat := by
  have hm : (storeBytes s pa n v stream).mem = s.mem.writeNat pa n v.toNat := mem_of_bare (bare_storeCopies (setMem (touch s (lineOf pa) true stream) _) ..)
  refine ⟨?_, fun i hi => ?_, fun a ha => ?_⟩
  · rw [hm]
    exact (bare_storeCopies ..).trans (bare_setMem_congr (bare_touch ..) _)
  · rw [hm]; exact Memory.read_writeNat n s.mem pa v.toNat i h hi
  · rw [hm]; exact Memory.read_writeNat_of_out n _ _ _ _ ha

/-! ## Branches -/

theorem leadDiffers_alone {s : State} (w : Word) (h : underArmature s s.hart.key.launch = false) : leadDiffers s w = none := by
  unfold leadDiffers underArmature at *
  split
  · rfl
  · rename_i l hl; simp [hl] at h; simp [h]

theorem recordOutcome_alone {s : State} (w : Word) (h : underArmature s s.hart.key.launch = false) : recordOutcome s w = s := by
  unfold recordOutcome underArmature at *
  split
  · rfl
  · rename_i l hl; simp [hl] at h; simp [h]

/-- Outside the armature a branch is its outcome. -/
theorem takeBranch_alone {s : State} (taken : Bool) (target : Word) (f : State → State) (h : underArmature s s.hart.key.launch = false) :
    takeBranch taken target s f = .next (countInstr (setPc (f s) target) 1) := by
  simp [takeBranch, leadDiffers_alone _ h, recordOutcome_alone _ h]

/-- A branch goes on, or traps with the lead's outcome. -/
theorem takeBranch_cases (taken : Bool) (target : Word) (s : State) (f : State → State) :
    (leadDiffers s (outcomeWord taken target) = none
        ∧ takeBranch taken target s f = .next (countInstr (setPc (f (recordOutcome s (outcomeWord taken target))) target) 1))
      ∨ ∃ w, leadDiffers s (outcomeWord taken target) = some w ∧ takeBranch taken target s f = .next (raise (trapAt s 8 0 (w &&& ~~~3#64)) s) := by
  simp only [takeBranch]
  cases leadDiffers s (outcomeWord taken target) with
  | none => exact .inl ⟨rfl, rfl⟩
  | some w => exact .inr ⟨w, rfl, rfl⟩

/-! ## Control registers -/

/-- `crs` and `crc` read a register that is there; they write it unless a is 0 or the write must wait. -/
theorem readModify_cases (i : Instr) (d a : XReg) (n : BitVec 12) (f : Word → Word → Word) (s : State) :
    (readReg s n = none ∧ readModify i d a n f s = .next (illegal i s))
      ∨ ∃ old, readReg s n = some old
        ∧ ((a = 0 ∧ readModify i d a n f s = .next (advance (setX (readDone s n) d old)))
          ∨ (a ≠ 0 ∧ writeWaits s n = true ∧ readModify i d a n f s = .next (stallOn s .shootdown))
          ∨ (a ≠ 0 ∧ writeWaits s n = false
            ∧ readModify i d a n f s = .next (advance (setX (readDone (writeReg s n (f old (getX s a))) n) d old)))) := by
  simp only [readModify]
  cases readReg s n with
  | none => exact .inl ⟨rfl, rfl⟩
  | some old =>
    refine .inr ⟨old, rfl, ?_⟩
    by_cases ha : a = 0
    · exact .inl ⟨ha, by simp [ha]⟩
    · cases hw : writeWaits s n with
      | true => exact .inr (.inl ⟨ha, rfl, (if_neg ha).trans rfl⟩)
      | false => exact .inr (.inr ⟨ha, rfl, (if_neg ha).trans rfl⟩)

/-! ## Convoys -/

/-- A dispatch that succeeds sets a convoy of as many slots in flight. -/
theorem dispatch_convoy {s t : State} {is : List Instr} (h : dispatch s is = .ok t) : ∃ ks, t.strand.convoy = some ks := by
  unfold dispatch at h; dsimp only at h
  split at h
  · cases h
  · split at h
    · cases h
    · injection h with h; exact ⟨_, by rw [← h]⟩

/-- A dispatch that no engine's line holds up is followed by what comes next, or traps. -/
theorem dispatched_ok {s t : State} {is : List Instr} (f : State → Result) (hw : dispatchWait s is = none) (hd : dispatch s is = .ok t) :
    dispatched s is f = f t := by simp [dispatched, hw, hd]
theorem dispatched_error {s : State} {is : List Instr} {x : Trap} (f : State → Result) (hw : dispatchWait s is = none)
    (hd : dispatch s is = .error x) : dispatched s is f = .next (raise x (dispatchFailed s is)) := by simp [dispatched, hw, hd]
theorem dispatched_wait {s : State} {is : List Instr} {l : Nat} (f : State → Result) (hw : dispatchWait s is = some l) :
    dispatched s is f = .next (stallOn s (.engine l)) := by simp [dispatched, hw]

/-- A vector instruction with no convoy in flight is dispatched as a convoy of one, or traps. -/
theorem vectorStep_dispatch {s t : State} {i : Instr} (b : Slot → State → SlotOut) (h : s.strand.convoy = none) (hw : dispatchWait s [i] = none)
    (hd : dispatch s [i] = .ok t) : vectorStep i b s = vectorStep i b t := by
  obtain ⟨ks, hk⟩ := dispatch_convoy hd
  simp [vectorStep, h, dispatched_ok _ hw hd, hk]

theorem vectorStep_error {s : State} {i : Instr} {x : Trap} (b : Slot → State → SlotOut) (h : s.strand.convoy = none)
    (hw : dispatchWait s [i] = none) (hd : dispatch s [i] = .error x) : vectorStep i b s = .next (raise x (dispatchFailed s [i])) := by
  simp [vectorStep, h, dispatched_error _ hw hd]

/-- A slot that waits lets a later slot that does not depend on it go on, and otherwise the strand waits. -/
theorem stallSlot_cases (s : State) (ks : List Slot) (n : Nat) (k : Slot) (r : Stall) :
    stallSlot s ks n k r = setConvoy s (some (ks.set n { k with held := some r })) ∨ stallSlot s ks n k r = stallOn s r := by
  unfold stallSlot; dsimp only; split
  · exact .inl rfl
  · exact .inr rfl

/-- The next slot in flight completes, waits with nothing done, waits with part done, stops in part, or traps with its number. -/
theorem runNext_cases (body : Slot → State → SlotOut) (ks : List Slot) (s : State) {n : Nat} {k : Slot} (h : nextSlot ks 0 = some (n, k)) :
    (∃ t, body k s = .done t ∧ runNext body ks s = .next (completeSlot t ks n k)) ∨ (∃ r, body k s = .stall r ∧ runNext body ks s = .next (stallSlot s ks n k r))
      ∨ (∃ t k' r, body k s = .wait t k' r ∧ runNext body ks s = .next (stallSlot (setConvoy t (some (ks.set n k'))) ks n k' r))
      ∨ (∃ t k', body k s = .part t k' ∧ runNext body ks s = .next (setConvoy t (some (ks.set n k'))))
      ∨ ∃ t x k', body k s = .trap t x k' ∧ runNext body ks s = .next (raise { x with slot := n } (setConvoy t (some (ks.set n k')))) := by
  simp only [runNext, h, runSlot]
  cases body k s with
  | done t => exact .inl ⟨t, rfl, rfl⟩
  | stall r => exact .inr (.inl ⟨r, rfl, rfl⟩)
  | wait t k' r => exact .inr (.inr (.inl ⟨t, k', r, rfl, rfl⟩))
  | part t k' => exact .inr (.inr (.inr (.inl ⟨t, k', rfl, rfl⟩)))
  | trap t x k' => exact .inr (.inr (.inr (.inr ⟨t, x, k', rfl, rfl⟩)))

/-- With every slot complete the convoy drains. -/
theorem runNext_drain (body : Slot → State → SlotOut) {ks : List Slot} (s : State) (h : nextSlot ks 0 = none) :
    runNext body ks s = .next (drain s ks.length) := by simp only [runNext, h]

/-- Completing a slot changes the convoy, the pc, and the counts and progress of the control registers, no other register and no memory. -/
theorem completeSlot_keeps (s : State) (ks : List Slot) (n : Nat) (k : Slot) :
    (completeSlot s ks n k).mem = s.mem ∧ (completeSlot s ks n k).hart.regs = s.hart.regs ∧ (completeSlot s ks n k).hart.q = s.hart.q
      ∧ (completeSlot s ks n k).hart.dg = s.hart.dg ∧ (completeSlot s ks n k).strand.x = s.strand.x ∧ (s.strand.later = none → (completeSlot s ks n k).strand.vl = s.strand.vl)
      ∧ (completeSlot s ks n k).sched = s.sched ∧ (completeSlot s ks n k).inputs = s.inputs := by
  have hv : ∀ x : Strand, x.later = none → x.lastStrip.vl = x.vl := fun x h => by simp [Strand.lastStrip, h]
  unfold completeSlot drain clearDprog
  dsimp only
  split
  · split <;> exact ⟨rfl, rfl, rfl, rfl, by simp, hv s.strand, rfl, rfl⟩
  · split <;> exact ⟨rfl, rfl, rfl, rfl, rfl, fun _ => rfl, rfl, rfl⟩

/-! ## Traps and the handler -/

/-- Taking a trap: the record is kept, the hart is stopping for it, its strand's reservation and links are gone; pc, registers and memory stay. -/
theorem raise_spec (t : Trap) (s : State) :
    (raise t s).hart = { s.hart with trap := some t, trapAccess := s.role == Role.access, status := .stopping 1 }
      ∧ (raise t s).strand = { s.strand with resv := none, links := [] } ∧ (raise t s).mem = s.mem ∧ (raise t s).mate = s.mate
      ∧ (raise t s).coh = s.coh ∧ (raise t s).sealed = s.sealed ∧ (raise t s).sched = s.sched ∧ (raise t s).dies = s.dies := by
  simp only [raise]
  split
  · exact ⟨rfl, rfl, rfl, rfl, rfl, rfl, rfl, rfl⟩
  · unfold armatureStop
    split <;> exact ⟨rfl, rfl, rfl, rfl, rfl, rfl, rfl, rfl⟩

/-- Delivery: the handler's address in the pc, the return address, cause and value in their registers. -/
theorem deliver_spec (s : State) (ret : Word) (kind : Nat) (code : BitVec 6) (tval : Word) :
    (deliver s ret kind code tval).strand.pc = s.hart.cr.uivec &&& 0x000FFFFFFFFFFFFC
      ∧ (deliver s ret kind code tval).hart.cr.upc = ret &&& 0x000FFFFFFFFFFFFC
      ∧ (deliver s ret kind code tval).hart.cr.ucause = ucauseWord (s.role == .access) kind code
      ∧ (deliver s ret kind code tval).hart.cr.utval = tval ∧ (deliver s ret kind code tval).strand.resv = none
      ∧ (deliver s ret kind code tval).strand.links = [] ∧ (deliver s ret kind code tval).mem = s.mem := ⟨rfl, rfl, rfl, rfl, rfl, rfl, rfl⟩

/-- The return takes the pc from `cr.upc` and clears inh. -/
theorem userReturn_spec (s : State) :
    (userReturn s).strand.pc = s.hart.cr.upc ∧ (userReturn s).hart.cr.ucause = s.hart.cr.ucause &&& 0x7FFFFFFFFFFFFFFF
      ∧ (userReturn s).strand.x = s.strand.x ∧ (userReturn s).strand.shadow = s.strand.shadow ∧ (userReturn s).mem = s.mem := ⟨rfl, rfl, rfl, rfl, rfl⟩

/-! ## Events of strands and rendezvous -/

/-- An event of a strand acts on it when its hart is there and runs, and changes nothing otherwise. -/
theorem onStrand_cases (s : State) (h : HartId) (r : Role) (f : State → Result) :
    (∃ t, focusOf s h r = some t ∧ t.hart.status = .running ∧ onStrand s h r f = f t) ∨ onStrand s h r f = .next s := by
  unfold onStrand
  cases hf : focusOf s h r with
  | none => exact .inr rfl
  | some t =>
    by_cases hr : t.hart.status = .running
    · exact .inl ⟨t, rfl, hr, by simp [hr]⟩
    · exact .inr (by simp [hr])

theorem onStrand_running {s t : State} {h : HartId} {r : Role} (f : State → Result) (hf : focusOf s h r = some t) (hr : t.hart.status = .running) :
    onStrand s h r f = f t := by simp [onStrand, hf, hr]

/-- A rendezvous changes the hart's launch and the inputs alone. -/
theorem meet_spec (s : State) :
    (meet s).1 = { s with sched := (meet s).1.sched, inputs := (meet s).1.inputs } ∧ (launchOf s s.hart.key.launch = none → meet s = (s, true)) := by
  refine ⟨?_, fun h => by simp [meet, h]⟩
  unfold meet
  dsimp only
  (repeat' split) <;> rfl

end Sys2Proof.Machine
end

