-- ==== Sys2Proof/Laws/Vector.lean ====
section
/-! SUPPORT. What the shared operations of vector slots can do: a slot next to run, element-wise results, results at ew, queue entries. -/

namespace Sys2Proof.Machine

/-! ## Elements -/

/-- An element beyond the register has no bits. -/
theorem setElem_out (b : VBits) (w i v : Nat) (h : 65536 ≤ w * i) : setElem b w i v = b := by
  apply BitVec.eq_of_getLsbD_eq
  intro n hn
  simp only [setElem, BitVec.getLsbD_or, BitVec.getLsbD_and, BitVec.getLsbD_not, BitVec.getLsbD_shiftLeft]
  have h1 : n < w * i := by omega
  simp [h1, hn]

/-- How an element reads after the elements of a list have each been given their value. -/
theorem elemOf_setElems_map (w : Nat) (hw : w ∣ 65536) (F : Nat → Nat) (l : List Nat) :
    ∀ (b : VBits) j, w * j + w ≤ 65536 →
      elemOf (setElems b w (l.map (fun e => (e, F e)))) w j = if j ∈ l then F j % 2 ^ w else elemOf b w j := by
  induction l with
  | nil => intro b j _; rfl
  | cons e r ih =>
    intro b j hj
    show elemOf (setElems (setElem b w e (F e)) w (r.map (fun e => (e, F e)))) w j = _
    rw [ih _ j hj]
    by_cases hr : j ∈ r
    · simp [hr]
    · by_cases he : j = e
      · subst he; simp [hr, elemOf_setElem_self _ _ _ _ hj]
      · simp only [hr, List.mem_cons, he, or_self, if_false]
        by_cases hb : w * e + w ≤ 65536
        · exact elemOf_setElem_of_ne _ _ _ hb he
        · rw [setElem_out]
          obtain ⟨c, hc⟩ := hw
          have : c < e + 1 := by
            apply Nat.lt_of_mul_lt_mul_left (a := w)
            rw [Nat.mul_succ]; omega
          calc 65536 = w * c := hc
            _ ≤ w * e := Nat.mul_le_mul_left _ (by omega)

/-- How a bit reads after the bits of a list have each been given their value. -/
theorem getLsbD_setBits_map (F : Nat → Bool) (l : List Nat) :
    ∀ (b : MBits) j, j < 8192 → (setBits b (l.map (fun e => (e, F e)))).getLsbD j = if j ∈ l then F j else b.getLsbD j := by
  induction l with
  | nil => intro b j _; rfl
  | cons e r ih =>
    intro b j hj
    have : setBits b ((e :: r).map (fun e => (e, F e))) = setBits (setBits b [(e, F e)]) (r.map (fun e => (e, F e))) := rfl
    rw [this, ih _ j hj]
    by_cases hr : j ∈ r
    · simp [hr]
    · by_cases he : j = e
      · subst he
        simp only [hr, List.mem_cons, or_false, if_true, if_false]
        exact getLsbD_setBits_of_mem [(j, F j)] b (by simpa using hj) (by simp) (j, F j) (by simp)
      · simp only [hr, List.mem_cons, he, or_self, if_false]
        exact getLsbD_setBits_of_not_mem j [(e, F e)] b (by simpa using fun h => he h.symm)

theorem fmtWidth_dvd (c : Nat) : fmtWidth c ∣ 65536 := by
  unfold fmtWidth; split
  · exact ⟨8192, rfl⟩
  · split
    · exact ⟨4096, rfl⟩
    · split
      · exact ⟨2048, rfl⟩
      · exact ⟨1024, rfl⟩

theorem ewBits_dvd (s : State) : ewBits s ∣ 65536 := by
  unfold ewBits
  have : s.strand.ew.toNat = 0 ∨ s.strand.ew.toNat = 1 ∨ s.strand.ew.toNat = 2 ∨ s.strand.ew.toNat = 3 := by
    have := s.strand.ew.isLt; omega
  rcases this with h | h | h | h <;> rw [h]
  · exact ⟨8192, rfl⟩
  · exact ⟨4096, rfl⟩
  · exact ⟨2048, rfl⟩
  · exact ⟨1024, rfl⟩

/-- An operand below 32 is the register that it names. -/
theorem ofV_vregOf {d : VOpd} (h : d.toNat < 32) : ofV (vregOf d) = d := by
  revert d; unfold VOpd; decide

/-! ## Queues -/

theorem getQ_setQ_self (s : State) (q : VOpd) (es : List QEntry) : getQ (setQ s q es) q = es := by
  simp only [getQ, setQ, Queues.put]
  split <;> simp

/-- Queues by their numbers: two of them share no place. -/
theorem getQ_setQ_of_ne (s : State) {q r : VOpd} (es : List QEntry) (hq : vOk q = true) (hr : vOk r = true) (iq : isQueue q = true)
    (ir : isQueue r = true) (h : r ≠ q) : getQ (setQ s q es) r = getQ s r := by
  have hn : r.toNat ≠ q.toNat := fun e => h (BitVec.eq_of_toNat_eq e)
  simp only [vOk, isQueue, decide_eq_true_eq] at hq hr iq ir
  by_cases lq : isLq q = true <;> by_cases lr : isLq r = true <;>
    simp only [getQ, setQ, Queues.put, lq, lr, if_true, if_false, Bool.false_eq_true] <;>
    simp only [isLq, Bool.and_eq_true, decide_eq_true_eq, not_and] at lq lr
  · rw [Vector.getElem_set_ne]; omega
  · rw [Vector.getElem_set_ne]; omega

/-- Removing the heads of queues touches nothing else. -/
theorem popQs_eq (vs : List VOpd) : ∀ s : State, popQs s vs = { s with hart := { s.hart with q := (popQs s vs).hart.q } } := by
  induction vs with
  | nil => intro s; rfl
  | cons v r ih =>
    intro s
    by_cases hq : isQueue v = true
    · have e : popQs s (v :: r) = popQs (setQ s v ((getQ s v).drop 1)) r := by simp [popQs, hq]
      rw [e]; exact ih _
    · have e : popQs s (v :: r) = popQs s r := by simp [popQs, hq]
      rw [e]; exact ih _

@[simp] theorem popQs_strand (s : State) (vs : List VOpd) : (popQs s vs).strand = s.strand := by rw [popQs_eq]
@[simp] theorem getV_popQs (s : State) (vs : List VOpd) (d : VReg) : getV (popQs s vs) d = getV s d := by rw [popQs_eq]; rfl
@[simp] theorem getM_popQs (s : State) (vs : List VOpd) (d : MReg) : getM (popQs s vs) d = getM s d := by rw [popQs_eq]; rfl
@[simp] theorem getQ_setV (s : State) (d : VReg) (b : VBits) (q : VOpd) : getQ (setV s d b) q = getQ s q := rfl
@[simp] theorem getQ_setM (s : State) (d : MReg) (b : MBits) (q : VOpd) : getQ (setM s d b) q = getQ s q := rfl
@[simp] theorem getV_setQ (s : State) (q : VOpd) (es : List QEntry) (d : VReg) : getV (setQ s q es) d = getV s d := rfl
@[simp] theorem getM_setQ (s : State) (q : VOpd) (es : List QEntry) (d : MReg) : getM (setQ s q es) d = getM s d := rfl

/-! ## Destinations -/

/-- What writing elements of a slot's destination does, for elements that each have one value. -/
theorem delivered_putAll (u : State) (k : Slot) (d : VOpd) (w : Nat) (hw : w ∣ 65536) (F : Nat → Nat) (l : List Nat) :
    Delivered u (putAll u k d w (l.map (fun e => (e, F e)))) k d w (fun e => if e ∈ l then some (F e) else none) := by
  have h0 : ∀ e, elemOf 0 w e = 0 := fun e => by
    apply Nat.eq_of_testBit_eq; intro k
    rw [testBit_elemOf, show (0 : VBits) = 0#65536 from rfl, BitVec.getLsbD_zero, Bool.and_false, Nat.zero_testBit]
  unfold Delivered putAll putOut
  by_cases hq : isQueue d = true
  · by_cases hp : k.pushed = true
    · simp only [hq, hp, if_true]
      intro q x hx
      simp only [hx, List.getLast?_append, List.getLast?_singleton, Option.some_or, List.dropLast_concat]
      refine ⟨_, getQ_setQ_self _ _ _, fun e he => ?_⟩
      rw [elemOf_setElems_map w hw F l _ e he]
      by_cases hm : e ∈ l <;> simp [hm]
    · simp only [hq, hp, if_true, Bool.false_eq_true, if_false]
      refine ⟨_, getQ_setQ_self _ _ _, fun e he => ?_⟩
      rw [elemOf_setElems_map w hw F l 0 e he, h0]
      by_cases hm : e ∈ l <;> simp [hm]
  · simp only [hq, Bool.false_eq_true, if_false]
    intro e he
    rw [getV_setV_self, elemOf_setElems_map w hw F l _ e he]
    by_cases hm : e ∈ l <;> simp [hm]

/-- A destination's elements are written to one queue or to one vector register. -/
theorem putAll_eq (s : State) (k : Slot) (d : VOpd) (w : Nat) (l : List (Nat × Nat)) :
    (isQueue d = true ∧ ∃ es, putAll s k d w l = setQ s d es) ∨ (isQueue d = true ∧ putAll s k d w l = s)
      ∨ (isQueue d = false ∧ ∃ b, putAll s k d w l = setV s (vregOf d) b) := by
  unfold putAll putOut
  split
  · split
    · dsimp only; split
      · exact .inl ⟨‹_›, _, rfl⟩
      · exact .inr (.inl ⟨‹_›, rfl⟩)
    · exact .inl ⟨‹_›, _, rfl⟩
  · rename_i h; exact .inr (.inr ⟨by simpa using h, _, rfl⟩)

@[simp] theorem getM_putAll (s : State) (k : Slot) (d : VOpd) (w : Nat) (l : List (Nat × Nat)) (m : MReg) : getM (putAll s k d w l) m = getM s m := by
  obtain ⟨-, es, h⟩ | ⟨-, h⟩ | ⟨-, b, h⟩ := putAll_eq s k d w l <;> rw [h] <;> simp

/-- A destination written after sources are popped changes only operands. -/
theorem only_putAll (s : State) (i : Instr) (k : Slot) (d : VOpd) (w : Nat) (l : List (Nat × Nat)) (hd : destOf i = some d) (ok : vOk d = true) :
    OnlyOperands s (putAll (popQs s (sourcesOf i)) k d w l) i [] := by
  have hp := popQs_eq (sourcesOf i) s
  obtain ⟨hq, es, h⟩ | ⟨hq, h⟩ | ⟨hq, b, h⟩ := putAll_eq (popQs s (sourcesOf i)) k d w l
  · rw [h]
    refine ⟨?_, fun r _ => by simp, fun m _ => by simp, fun q oq iq hne => ?_⟩
    · generalize popQs s (sourcesOf i) = u at hp ⊢
      generalize u.hart.q = q at hp
      subst hp; rfl
    · exact getQ_setQ_of_ne _ _ ok oq hq iq (fun e => hne (by rw [hd, e]))
  · rw [h]
    refine ⟨?_, fun r _ => by simp, fun m _ => by simp, fun q _ _ _ => rfl⟩
    generalize popQs s (sourcesOf i) = u at hp ⊢
    generalize u.hart.q = q at hp
    subst hp; rfl
  · rw [h]
    refine ⟨?_, fun r hr => ?_, fun m _ => by simp, fun q _ _ _ => by simp⟩
    · generalize popQs s (sourcesOf i) = u at hp ⊢
      generalize u.hart.q = q at hp
      subst hp; rfl
    · rw [getV_setV_of_ne, getV_popQs]
      intro e
      apply hr
      rw [hd, e]
      congr 1
      simp only [isQueue, decide_eq_false_iff_not] at hq
      exact (ofV_vregOf (by omega)).symm

/-- The overflow mask after the elements out of range are recorded. -/
theorem getM_setOverflow (s : State) (ov : BitVec 3) (es : List Nat) (m : MReg) (e : Nat) (he : e < 8192) :
    (getM (setOverflow s ov es) m).getLsbD e = ((getM s m).getLsbD e || (ov != 0 && m == ov && es.contains e)) := by
  unfold setOverflow
  by_cases h0 : ov = 0
  · simp [h0]
  · have hb : (ov == 0) = false := by simpa using h0
    have hb' : (ov != 0) = true := by simpa using h0
    simp only [hb, Bool.false_eq_true, if_false, putMask, hb', Bool.true_and]
    by_cases hm : m = ov
    · subst hm
      rw [getM_setM_self, getLsbD_setBits_map (fun _ => true) es _ e he]
      by_cases hc : e ∈ es <;> simp [hc]
    · rw [getM_setM_of_ne _ _ hm]
      simp [hm]

theorem setOverflow_eq (s : State) (ov : BitVec 3) (es : List Nat) :
    setOverflow s ov es = { s with hart := { s.hart with regs := { s.hart.regs with m := (setOverflow s ov es).hart.regs.m } } } := by
  unfold setOverflow; split <;> rfl

@[simp] theorem getQ_setOverflow (s : State) (ov : BitVec 3) (es : List Nat) (q : VOpd) : getQ (setOverflow s ov es) q = getQ s q := by
  unfold setOverflow; split <;> rfl

/-! ## Slots -/

/-- A slot next to run is run by its body. -/
theorem vectorStep_next {s : State} {i : Instr} {ks : List Slot} {n : Nat} {k : Slot} (h : RunsSlot s i ks n k) (body : Slot → State → SlotOut)
    {t : State} (hb : body k s = .done t) : vectorStep i body s = .next (completeSlot t ks n k) := by
  simp [vectorStep, h.1, runNext, h.2.1, runSlot, hb]

/-- Ready queues let a body run. -/
theorem withQueues_ready {s : State} {i : Instr} {k : Slot} {v : VInfo} (hv : infoOf i = some v) (h : OperandsReady s i k)
    (run : State → SlotOut) : withQueues v k s run = run s := by
  obtain ⟨h1, h2⟩ := h
  have hs : sourcesOf i = v.srcs := by simp [sourcesOf, hv]
  have hd : destOf i = v.dst := by simp [destOf, hv]
  have e1 : (v.srcs.filterMap (popStall s)).head? = none := by
    have : v.srcs.filterMap (popStall s) = [] := List.filterMap_eq_nil_iff.mpr (fun q hq => h1 q (hs ▸ hq))
    rw [this]; rfl
  have e2 : (if k.pushed then none else v.dst.bind (pushStall s)) = none := by
    by_cases hp : k.pushed = true
    · simp [hp]
    · have hp : k.pushed = false := by simpa using hp
      simp only [hp, Bool.false_eq_true, if_false]
      cases hv' : v.dst with
      | none => rfl
      | some q => exact h2 hp q (by rw [hd, hv'])
  simp [withQueues, e1, e2]

/-- Everything that an element-wise instruction does; `F` is its result as the body computes it. -/
theorem elementwise_result (i : Instr) (d : VOpd) (g : Gov) (w : State → Slot → Nat) (ov : State → Slot → BitVec 3)
    (f : State → Slot → Nat → Conv) (v : VInfo) (hv : infoOf i = some v) (hd : v.dst = some d) (ok : i.wf = true → vOk d = true)
    (hw : ∀ s k, w s k ∣ 65536)
    (F : Slot → State → State → Slot → Nat → Conv) (hF : ∀ s k e, F k s s k e = f s k e)
    (he : ∀ s, exec i s = vectorStep i (fun k s => elementwise i d (w s k) g (ov s k) (F k s) k s) s) : ElementResult i d g w ov f := by
  intro s ks n k hwf hr hp hq
  have hst := hr.2.2.2
  have hs : sourcesOf i = v.srcs := by simp [sourcesOf, hv]
  have hds : destOf i = some d := by simp [destOf, hv, hd]
  let outs := (activeOf s k g).map (fun e => (e, f s k e))
  let t := setOverflow (putAll (popQs s v.srcs) k d (w s k) (outs.map (fun p => (p.1, p.2.bits)))) (ov s k)
    ((outs.filter (fun p => p.2.out)).map (fun p => p.1))
  have hb : elementwise i d (w s k) g (ov s k) (F k s) k s = .done t := by
    have hpos : (positions s).isEmpty = false := by simpa using hp
    simp only [elementwise, hv, Option.getD_some, hpos, Bool.false_eq_true, if_false]
    rw [withQueues_ready hv hq]
    simp only [hF, hst, List.isEmpty_nil, popRead, endElems, if_true]; rfl
  have hl : outs.map (fun p => (p.1, p.2.bits)) = (activeOf s k g).map (fun e => (e, (f s k e).bits)) := by
    simp [outs, List.map_map, Function.comp_def]
  refine ⟨t, ?_, ?_, ?_, ?_⟩
  · rw [he]; exact vectorStep_next hr _ hb
  · have := delivered_putAll (popQs s v.srcs) k d (w s k) (hw s k) (fun e => (f s k e).bits) (activeOf s k g)
    rw [← hl] at this
    rw [hs]
    unfold Delivered at this ⊢
    by_cases hqq : isQueue d = true
    · by_cases hpp : k.pushed = true
      · simp only [hqq, hpp, if_true] at this ⊢
        intro q x hx
        obtain ⟨b, hb1, hb2⟩ := this q x hx
        exact ⟨b, by rw [← hb1]; show getQ (setOverflow _ _ _) d = _; rw [setOverflow_eq]; rfl, hb2⟩
      · simp only [hqq, hpp, if_true, Bool.false_eq_true, if_false] at this ⊢
        obtain ⟨b, hb1, hb2⟩ := this
        exact ⟨b, by rw [← hb1]; show getQ (setOverflow _ _ _) d = _; rw [setOverflow_eq]; rfl, hb2⟩
    · simp only [hqq, Bool.false_eq_true, if_false] at this ⊢
      intro e h
      rw [← this e h]
      show elemOf (getV (setOverflow _ _ _) _) _ _ = _
      rw [setOverflow_eq]; rfl
  · intro m e h
    show (getM (setOverflow _ _ _) m).getLsbD e = _
    rw [getM_setOverflow _ _ _ _ _ h]
    have hm : getM (putAll (popQs s v.srcs) k d (w s k) (outs.map (fun p => (p.1, p.2.bits)))) m = getM s m := by simp
    rw [hm, Bool.and_assoc ((ov s k != 0) && (m == ov s k))]
    congr 2
    simp only [outs]
    rw [Bool.eq_iff_iff]
    simp
  · have hbase := only_putAll s i k d (w s k) (outs.map (fun p => (p.1, p.2.bits))) hds (ok hwf)
    rw [hs] at hbase
    obtain ⟨b1, b2, b3, b4⟩ := hbase
    refine ⟨?_, fun r hr' => ?_, fun m hm => ?_, fun q h1 h2 h3 => ?_⟩
    · show t = _
      have ht : t = setOverflow (putAll (popQs s v.srcs) k d (w s k) (outs.map (fun p => (p.1, p.2.bits)))) (ov s k)
        ((outs.filter (fun p => p.2.out)).map (fun p => p.1)) := rfl
      have he := setOverflow_eq (putAll (popQs s v.srcs) k d (w s k) (outs.map (fun p => (p.1, p.2.bits)))) (ov s k)
        ((outs.filter (fun p => p.2.out)).map (fun p => p.1))
      rw [← ht] at he
      generalize putAll (popQs s v.srcs) k d (w s k) (outs.map (fun p => (p.1, p.2.bits))) = u at b1 he
      generalize t = t' at he
      generalize t'.hart.regs.m = m' at he
      generalize u.hart.regs = r' at b1
      generalize u.hart.q = q' at b1
      subst b1; subst he; rfl
    · show getV (setOverflow _ _ _) r = _
      rw [setOverflow_eq]; exact b2 r hr'
    · show getM (setOverflow _ _ _) m = _
      by_cases h0 : ov s k = 0
      · simp only [setOverflow, h0]; exact b3 m (by simp)
      · have h0' : (ov s k == 0) = false := by simpa using h0
        have hne : m ≠ ov s k := by simpa using (by simpa using hm : ¬ov s k = 0#3 → ¬m = ov s k) h0
        simp only [setOverflow, h0', Bool.false_eq_true, if_false, putMask]
        rw [getM_setM_of_ne _ _ hne]; exact b3 m (by simp)
    · show getQ (setOverflow _ _ _) q = _
      rw [getQ_setOverflow]; exact b4 q h1 h2 h3

/-! ## The shapes of element-wise meanings -/

/-- One operand (R127). -/
theorem arith1_result (i : Instr) (d a : VOpd) (g : Gov) (f : XReg) (op : FmtWord → Val → Exact) (v : VInfo) (hv : infoOf i = some v)
    (hd : v.dst = some d) (ok : i.wf = true → vOk d = true) (he : ∀ s, exec i s = vectorStep i (arith1 i d a g f op) s) :
    ElementResult i d g (fun s k => fmtWidth (fmtOf s k f).d) (fun s k => (fmtOf s k f).ovmask) (fun s k e =>
      (fmtOf s k f).convert (plainZero (anyFloat [(fmtOf s k f).a])
        (op (fmtOf s k f) (valOf s a (fmtOf s k f).a (fmtOf s k f).flush e)))) :=
  elementwise_result i d g _ _ _ v hv hd ok (fun _ _ => fmtWidth_dvd _)
    (fun k0 s0 s k e => let _ := k; (fmtOf s0 k0 f).convert (plainZero (anyFloat [(fmtOf s0 k0 f).a])
      (op (fmtOf s0 k0 f) (valOf s a (fmtOf s0 k0 f).a (fmtOf s0 k0 f).flush e)))) (fun _ _ _ => rfl) he

/-- Two operands (R127). -/
theorem arith2_result (i : Instr) (d a : VOpd) (b : BSrc) (g : Gov) (f : XReg) (op : FmtWord → Val → Val → Exact) (v : VInfo)
    (hv : infoOf i = some v) (hd : v.dst = some d) (ok : i.wf = true → vOk d = true)
    (he : ∀ s, exec i s = vectorStep i (arith2 i d a b g f op) s) :
    ElementResult i d g (fun s k => fmtWidth (fmtOf s k f).d) (fun s k => (fmtOf s k f).ovmask) (fun s k e =>
      (fmtOf s k f).convert (plainZero (anyFloat [(fmtOf s k f).a, (fmtOf s k f).b])
        (op (fmtOf s k f) (valOf s a (fmtOf s k f).a (fmtOf s k f).flush e) (bVal s k b (fmtOf s k f).b (fmtOf s k f).flush e)))) :=
  elementwise_result i d g _ _ _ v hv hd ok (fun _ _ => fmtWidth_dvd _)
    (fun k0 s0 s k e => (fmtOf s0 k0 f).convert (plainZero (anyFloat [(fmtOf s0 k0 f).a, (fmtOf s0 k0 f).b])
      (op (fmtOf s0 k0 f) (valOf s a (fmtOf s0 k0 f).a (fmtOf s0 k0 f).flush e)
        (bVal s k b (fmtOf s0 k0 f).b (fmtOf s0 k0 f).flush e)))) (fun _ _ _ => rfl) he

/-- Two operands whose result is given as a conversion (R129). -/
theorem arith2c_result (i : Instr) (d a : VOpd) (b : BSrc) (g : Gov) (f : XReg) (op : FmtWord → Val → Val → Conv) (v : VInfo)
    (hv : infoOf i = some v) (hd : v.dst = some d) (ok : i.wf = true → vOk d = true)
    (he : ∀ s, exec i s = vectorStep i (arith2c i d a b g f op) s) :
    ElementResult i d g (fun s k => fmtWidth (fmtOf s k f).d) (fun s k => (fmtOf s k f).ovmask) (fun s k e =>
      op (fmtOf s k f) (valOf s a (fmtOf s k f).a (fmtOf s k f).flush e) (bVal s k b (fmtOf s k f).b (fmtOf s k f).flush e)) :=
  elementwise_result i d g _ _ _ v hv hd ok (fun _ _ => fmtWidth_dvd _)
    (fun k0 s0 s k e => op (fmtOf s0 k0 f) (valOf s a (fmtOf s0 k0 f).a (fmtOf s0 k0 f).flush e)
      (bVal s k b (fmtOf s0 k0 f).b (fmtOf s0 k0 f).flush e)) (fun _ _ _ => rfl) he

/-- Three operands (R127). -/
theorem arith3_result (i : Instr) (d a : VOpd) (b : BSrc) (c : VOpd) (g : Gov) (f : XReg) (op : FmtWord → Val → Val → Val → Exact)
    (v : VInfo) (hv : infoOf i = some v) (hd : v.dst = some d) (ok : i.wf = true → vOk d = true)
    (he : ∀ s, exec i s = vectorStep i (arith3 i d a b c g f op) s) :
    ElementResult i d g (fun s k => fmtWidth (fmtOf s k f).d) (fun s k => (fmtOf s k f).ovmask) (fun s k e =>
      (fmtOf s k f).convert (plainZero (anyFloat [(fmtOf s k f).a, (fmtOf s k f).b, (fmtOf s k f).c])
        (op (fmtOf s k f) (valOf s a (fmtOf s k f).a (fmtOf s k f).flush e) (bVal s k b (fmtOf s k f).b (fmtOf s k f).flush e)
          (valOf s c (fmtOf s k f).c (fmtOf s k f).flush e)))) :=
  elementwise_result i d g _ _ _ v hv hd ok (fun _ _ => fmtWidth_dvd _)
    (fun k0 s0 s k e => (fmtOf s0 k0 f).convert (plainZero (anyFloat [(fmtOf s0 k0 f).a, (fmtOf s0 k0 f).b, (fmtOf s0 k0 f).c])
      (op (fmtOf s0 k0 f) (valOf s a (fmtOf s0 k0 f).a (fmtOf s0 k0 f).flush e) (bVal s k b (fmtOf s0 k0 f).b (fmtOf s0 k0 f).flush e)
        (valOf s c (fmtOf s0 k0 f).c (fmtOf s0 k0 f).flush e)))) (fun _ _ _ => rfl) he

/-- Bits of one width (R132). -/
theorem bitwise2_result (i : Instr) (d a : VOpd) (b : BSrc) (g : Gov) (f : XReg) (op : Nat → Nat → Nat → Nat) (v : VInfo)
    (hv : infoOf i = some v) (hd : v.dst = some d) (ok : i.wf = true → vOk d = true)
    (he : ∀ s, exec i s = vectorStep i (bitwise2 i d a b g f op) s) :
    ElementResult i d g (fun s k => fmtWidth (fmtOf s k f).a) (fun _ _ => 0) (fun s k e =>
      ⟨op (fmtWidth (fmtOf s k f).a) (elemOf (srcBits s a) (fmtWidth (fmtOf s k f).a) e) (bBits s k b (fmtWidth (fmtOf s k f).a) e), false⟩) :=
  elementwise_result i d g _ _ _ v hv hd ok (fun _ _ => fmtWidth_dvd _)
    (fun k0 s0 s k e => exactly (op (fmtWidth (fmtOf s0 k0 f).a) (elemOf (srcBits s a) (fmtWidth (fmtOf s0 k0 f).a) e)
      (bBits s k b (fmtWidth (fmtOf s0 k0 f).a) e))) (fun _ _ _ => rfl) he

theorem bitwise1_result (i : Instr) (d a : VOpd) (g : Gov) (f : XReg) (op : Nat → Nat → Nat) (v : VInfo)
    (hv : infoOf i = some v) (hd : v.dst = some d) (ok : i.wf = true → vOk d = true)
    (he : ∀ s, exec i s = vectorStep i (bitwise1 i d a g f op) s) :
    ElementResult i d g (fun s k => fmtWidth (fmtOf s k f).a) (fun _ _ => 0) (fun s k e =>
      ⟨op (fmtWidth (fmtOf s k f).a) (elemOf (srcBits s a) (fmtWidth (fmtOf s k f).a) e), false⟩) :=
  elementwise_result i d g _ _ _ v hv hd ok (fun _ _ => fmtWidth_dvd _)
    (fun k0 s0 s k e => let _ := k; exactly (op (fmtWidth (fmtOf s0 k0 f).a) (elemOf (srcBits s a) (fmtWidth (fmtOf s0 k0 f).a) e)))
    (fun _ _ _ => rfl) he

/-! ## Results at ew -/

/-- Everything that an instruction does which gives each element of a list its value at ew. -/
theorem atEw_result (i : Instr) (d : VOpd) (val : State → Slot → Nat → Option Nat) (v : VInfo) (hv : infoOf i = some v)
    (hd : v.dst = some d) (ok : i.wf = true → vOk d = true) (F : State → Slot → Nat → Nat) (l : State → Slot → List Nat)
    (body : Slot → State → SlotOut)
    (hl : ∀ s k, s.strand.portable = false → val s k = fun e => if e ∈ l s k then some (F s k e) else none)
    (hb : ∀ s k, s.strand.portable = false → positions s ≠ [] → OperandsReady s i k →
      body k s = .done (putAll (popQs s v.srcs) k d (ewBits s) ((l s k).map (fun e => (e, F s k e)))))
    (he : ∀ s, exec i s = vectorStep i body s) : ElementsAtEw i d val := by
  intro s ks n k hwf hp hr hpos hq
  refine ⟨_, by rw [he]; exact vectorStep_next hr _ (hb s k hp hpos hq), ?_, ?_⟩
  · rw [hl s k hp, show sourcesOf i = v.srcs by simp [sourcesOf, hv]]
    exact delivered_putAll _ _ _ _ (ewBits_dvd s) _ _
  · have := only_putAll s i k d (ewBits s) ((l s k).map (fun e => (e, F s k e))) (by simp [destOf, hv, hd]) (ok hwf)
    rwa [show sourcesOf i = v.srcs by simp [sourcesOf, hv]] at this

/-- Values that agree in native text give one statement. -/
theorem elementsAtEw_congr {i : Instr} {d : VOpd} {v v' : State → Slot → Nat → Option Nat} (h : ElementsAtEw i d v')
    (e : ∀ s k, s.strand.portable = false → v s k = v' s k) : ElementsAtEw i d v := by
  intro s ks n k h1 h2 h3 h4 h5
  rw [e s k h2]
  exact h s ks n k h1 h2 h3 h4 h5

/-- The one row of native text. -/
theorem rows_native (s : State) (h : s.strand.portable = false) (hp : positions s ≠ []) : rowsOf s = [List.range s.strand.vl.toNat] := by
  unfold rowsOf; simp only [h, Bool.false_eq_true, if_false]
  split
  · rename_i hv; exfalso; apply hp; rw [positions_native s h, eq_of_beq hv]; rfl
  · rfl

/-- An element of native text stands at its own place. -/
theorem mem_zipIdx_range (n : Nat) (p : Nat × Nat) : p ∈ (List.range n).zipIdx ↔ p.1 < n ∧ p.2 = p.1 := by
  obtain ⟨x, i⟩ := p
  rw [List.mem_zipIdx_iff_getElem?]; simp
  constructor
  · rintro h; have := List.getElem?_eq_some_iff.mp h; obtain ⟨h1, h2⟩ := this; simp at h1 h2; omega
  · rintro ⟨h, rfl⟩; rw [List.getElem?_range h]

/-- Everything that a row-wise instruction does in native text. -/
theorem rowwise_result (i : Instr) (d : VOpd) (act : State → Slot → Nat → Bool) (f : State → Slot → List Nat → Nat → Nat → Nat) (v : VInfo)
    (hv : infoOf i = some v) (hd : v.dst = some d) (ok : i.wf = true → vOk d = true) (he : ∀ s, exec i s = vectorStep i (rowwise i d act f) s) :
    ElementsAtEw i d (fun s k e => if e < s.strand.vl.toNat ∧ act s k e = true then some (f s k (List.range s.strand.vl.toNat) e e) else none) := by
  refine atEw_result i d _ v hv hd ok (fun s k e => f s k (List.range s.strand.vl.toNat) e e) (fun s k => (List.range s.strand.vl.toNat).filter (fun e => act s k e)) _ ?_ ?_ he
  · intro s k hp; funext e; simp [List.mem_filter]
  · intro s k hp hpos hq
    have hpos' : (positions s).isEmpty = false := by simpa using hpos
    simp only [rowwise, hv, Option.getD_some, hpos', Bool.false_eq_true, if_false]
    rw [withQueues_ready hv hq, rows_native s hp hpos]
    congr 2
    simp only [List.flatMap_cons, List.flatMap_nil, List.append_nil]
    have : ∀ l : List (Nat × Nat), (∀ p ∈ l, p.2 = p.1) → (l.filter (fun p => act s k p.1)).map (fun p => (p.1, f s k (List.range s.strand.vl.toNat) p.1 p.2))
        = ((l.map (·.1)).filter (fun e => act s k e)).map (fun e => (e, f s k (List.range s.strand.vl.toNat) e e)) := by
      intro l; induction l with
      | nil => intro _; rfl
      | cons p r ih =>
        intro h
        have := ih (fun p hp => h p (List.mem_cons_of_mem _ hp))
        have hp := h p (List.mem_cons_self ..)
        by_cases ha : act s k p.1 = true <;> simp [ha, this, hp]
    rw [this _ (fun p hp => ((mem_zipIdx_range _ p).mp hp).2)]
    simp

/-- Active elements of native text. -/
theorem mem_activeOf_native (s k g e) (h : s.strand.portable = false) : (e ∈ activeOf s k g) = (e < s.strand.vl.toNat ∧ isActive g s k e = true) := by
  rw [mem_activeOf, positions_native s h]; simp [isActive]

end Sys2Proof.Machine
end

