-- ==== Sys2Proof/Tests/Slice0.lean ====
section
/-! SUPPORT. The model's own tests: encodings written out from the tables of the manual, ill-formed terms, one step of each kind on a small
machine, with results from the manual's tables and worked examples or computed from them by hand, and for each statement with
hypotheses a machine and operands that meet them (`witness_…`). -/

namespace Sys2Proof.Machine.Tests
set_option Elab.async false

set_option maxRecDepth 100000

/-! ## Encodings -/

/-- Each scalar word decodes to the instruction beside it. -/
def readsWord (l : List (Word32 × Instr)) : Bool := l.all (fun p => (decodeWord p.1).toOption == some p.2)

/-- Each vector instruction's 64 bits decode to the instruction beside them. -/
def readsVec (l : List (BitVec 64 × Instr)) : Bool := l.all (fun p => (decodeVec p.1).toOption == some p.2)

/-- Words written out from R72, R74. -/
theorem test_decode_integer : readsWord [
    (0b000001_00001_00010_00011_000000_00000, .add 1 2 3),
    (0b000001_00001_00010_00011_000001_00000, .sub 1 2 3),
    (0b000001_00001_00010_00011_000010_00000, .and 1 2 3),
    (0b000001_00001_00010_00011_000011_00000, .or 1 2 3),
    (0b000001_00001_00010_00011_000100_00000, .xor 1 2 3),
    (0b000001_00001_00010_00011_000101_00000, .andn 1 2 3),
    (0b000001_00001_00010_00011_000110_00000, .orn 1 2 3),
    (0b000001_00001_00010_00011_001000_00000, .sll 1 2 3),
    (0b000001_00001_00010_00011_001001_00000, .srl 1 2 3),
    (0b000001_00001_00010_00011_001010_00000, .sra 1 2 3),
    (0b000001_00001_00010_00011_001011_00000, .rol 1 2 3),
    (0b000001_00001_00010_00011_010000_00000, .mul 1 2 3),
    (0b000001_00001_00010_00011_010001_00000, .mulh 1 2 3),
    (0b000001_00001_00010_00011_010010_00000, .mulhu 1 2 3),
    (0b000001_00001_00010_00011_010100_00000, .div 1 2 3),
    (0b000001_00001_00010_00011_010101_00000, .divu 1 2 3),
    (0b000001_00001_00010_00011_010110_00000, .rem 1 2 3),
    (0b000001_00001_00010_00011_010111_00000, .remu 1 2 3),
    (0b000001_00001_00010_00011_011000_00000, .min 1 2 3),
    (0b000001_00001_00010_00011_011001_00000, .max 1 2 3),
    (0b000001_00001_00010_00011_011010_00000, .minu 1 2 3),
    (0b000001_00001_00010_00011_011011_00000, .maxu 1 2 3),
    (0b000001_00001_00010_00011_011100_00000, .slt 1 2 3),
    (0b000001_00001_00010_00011_011101_00000, .sltu 1 2 3),
    (0b000001_11111_10000_00000_100000_00000, .clz 31 16),
    (0b000001_11111_10000_00000_100001_00000, .ctz 31 16),
    (0b000001_11111_10000_00000_100010_00000, .popc 31 16),
    (0b000001_11111_10000_00000_100011_00000, .bswap 31 16),
    (0b000001_00001_00010_00000_100100_00001, .sext 1 2 1),
    (0b000001_00001_00010_00000_100101_00010, .zext 1 2 2)] = true := by decide +kernel

/-- Words written out from R72, R75. -/
theorem test_decode_float : readsWord [
    (0b000010_00001_00010_00011_000000_01001, .fadd 1 2 3 9),
    (0b000010_00001_00010_00011_000001_01001, .fsub 1 2 3 9),
    (0b000010_00001_00010_00011_000010_01001, .fmul 1 2 3 9),
    (0b000010_00001_00010_00011_000011_01001, .fdiv 1 2 3 9),
    (0b000010_00001_00010_00011_000101_01001, .fma 1 2 3 9),
    (0b000010_00001_00010_00011_000110_01001, .fmin 1 2 3 9),
    (0b000010_00001_00010_00011_000111_01001, .fmax 1 2 3 9),
    (0b000010_00001_00010_00011_001001_01001, .fcmpEq 1 2 3 9),
    (0b000010_00001_00010_00011_001010_01001, .fcmpLt 1 2 3 9),
    (0b000010_00001_00010_00011_001011_01001, .fcmpLe 1 2 3 9),
    (0b000010_00001_00010_00000_000100_01100, .fsqrt 1 2 12),
    (0b000010_00001_00010_00101_001000_01011, .fcvt 1 2 5 11),
    (0b000010_00001_00010_00000_001100_01010, .fmv 1 2 10)] = true := by decide +kernel

/-- Words written out from R73, R76; `lui x5, 0x8000` is 0x28A08000 by R95. -/
theorem test_decode_immediate : readsWord [
    (0b000011_00001_00010_1000000000000001, .addi 1 2 0x8001),
    (0b000100_00001_00010_1000000000000001, .andi 1 2 0x8001),
    (0b000101_00001_00010_1000000000000001, .ori 1 2 0x8001),
    (0b000110_00001_00010_1000000000000001, .xori 1 2 0x8001),
    (0b001000_00001_00010_1000000000000001, .slti 1 2 0x8001),
    (0b001001_00001_00010_1000000000000001, .sltiu 1 2 0x8001),
    (0b001011_00001_00010_1000000000000001, .addhi 1 2 0x8001),
    (0b000111_00001_00010_0000000000100001, .slli 1 2 33),
    (0b000111_00001_00010_0000000100100001, .srli 1 2 33),
    (0b000111_00001_00010_0000001000100001, .srai 1 2 33),
    (0b000111_00001_00010_0000001100100001, .roli 1 2 33),
    (0b001010_00101_00000_1000000000000000, .lui 5 0x8000)] = true := by decide +kernel

/-- Words written out from R77, R78. -/
theorem test_decode_memory_and_branches : readsWord [
    (0b010000_00001_00010_110_1111111111000, .ld 1 2 6 0x1FF8),
    (0b010001_00001_00010_110_1111111111000, .st 1 2 6 0x1FF8),
    (0b010010_00001_00010_110_1111111111000, .lda 1 2 6 0x1FF8),
    (0b010011_00001_00010_110_1111111111000, .stl 1 2 6 0x1FF8),
    (0b010100_00001_00010_110_1111111111000, .ll 1 2 6 0x1FF8),
    (0b010101_00001_00010_110_1111111111000, .sc 1 2 6 0x1FF8),
    (0b011000_00001_00010_0100_111111111110, .b 4 1 2 0xFFE),
    (0b011001_00001_111111111111111111110, .jal 1 0x1FFFFE),
    (0b011010_00001_00010_1111111111111100, .jalr 1 2 0xFFFC),
    (0b011011_00111_00000_0010_000000000011, .bm 2 7 3),
    (0b011100_00000_00000_0001_000000000011, .bq 1 3)] = true := by decide +kernel

/-- Words written out from R79; `crd x5, cr.vl` is 0x84A00000 and the `vsetvli` 0x8CE69480 by R109 and R126, the `setshape` 0x8CE648B8 by R278. -/
theorem test_decode_system : readsWord [
    (0b100000_00000_00101_0000000000000000, .qpush 5),
    (0b100000_00101_00000_0000000000000001, .qpop 5),
    (0b100000_00000_00101_0000000000000010, .bqpush 5),
    (0b100001_00101_00000_0000000000000000, .crd 5 0),
    (0b100001_00000_00110_0001000000100000, .cwr 6 0x020),
    (0b100001_00101_00110_0010000000100000, .crs 5 6 0x020),
    (0b100001_00101_00110_0011000000100000, .crc 5 6 0x020),
    (0b100010_00000_00000_0000000000111111, .trap 63),
    (0b100010_00000_00000_0001111111111111, .svc 0xFFF),
    (0b100010_00000_00000_0010000000000000, .uiret),
    (0b100011_00111_00110_0000000000011111, .vsetvl 7 6 31),
    (0b100011_00111_00110_1001010010000000, .vsetvli 7 6 2 4 2),
    (0b100011_00111_00110_0100100010111000, .setshape 7 6 2 2 7),
    (0b100100_00000_00000_0000000000000100, .fence 4),
    (0b100100_00000_00000_0001000011110001, .barArrive 15 1),
    (0b100100_00000_00000_0010000000010011, .barWait 1 3),
    (0b100100_00000_00101_0011000111110000, .ipost 5 31),
    (0b100100_00000_00101_0100000000010000, .iwait 5 1),
    (0b100100_00101_00110_0101000011110000, .contend 5 6 15),
    (0b100100_00000_00000_0110000000000000, .dsync),
    (0b100101_00101_00110_0000000000000000, .launch 5 6),
    (0b100101_00101_00110_0001000000000000, .lwait 5 6),
    (0b100101_00000_00000_0010000000000000, .hexit)] = true := by decide +kernel

/-- Words written out from R85 to R87, vmajor 0x01; the last in its S form. -/
theorem test_decode_va : readsVec [
    (0b000001_000001_000010_000011_000000_101_1_00111_00000_000000_00000000000000, .vadd 1 2 (.vec 3) ⟨5, true⟩ 7),
    (0b000001_000001_000010_000011_000000_101_1_00111_00000_000001_00000000000000, .vsub 1 2 (.vec 3) ⟨5, true⟩ 7),
    (0b000001_000001_000010_000011_000000_101_1_00111_00000_000010_00000000000000, .vmul 1 2 (.vec 3) ⟨5, true⟩ 7),
    (0b000001_000001_000010_000011_000000_101_1_00111_00000_000011_00000000000000, .vmulh 1 2 (.vec 3) ⟨5, true⟩ 7),
    (0b000001_000001_000010_000011_000000_101_1_00111_00000_000100_00000000000000, .vdiv 1 2 (.vec 3) ⟨5, true⟩ 7),
    (0b000001_000001_000010_000011_000000_101_1_00111_00000_000101_00000000000000, .vrem 1 2 (.vec 3) ⟨5, true⟩ 7),
    (0b000001_000001_000010_000011_000000_101_1_00111_00000_010000_00000000000000, .vmin 1 2 (.vec 3) ⟨5, true⟩ 7),
    (0b000001_000001_000010_000011_000000_101_1_00111_00000_010001_00000000000000, .vmax 1 2 (.vec 3) ⟨5, true⟩ 7),
    (0b000001_000001_000010_000000_000000_101_1_00111_00000_000110_00000000000000, .vsqrt 1 2 ⟨5, true⟩ 7),
    (0b000001_000001_000010_000000_000000_101_1_00111_00000_000111_00000000000000, .vrcp 1 2 ⟨5, true⟩ 7),
    (0b000001_000001_000010_000000_000000_101_1_00111_00000_001000_00000000000000, .vrsqrt 1 2 ⟨5, true⟩ 7),
    (0b000001_000001_000010_000000_000000_101_1_00111_00000_001001_00000000000000, .vexp2 1 2 ⟨5, true⟩ 7),
    (0b000001_000001_000010_000000_000000_101_1_00111_00000_001010_00000000000000, .vlog2 1 2 ⟨5, true⟩ 7),
    (0b000001_000001_000010_000000_000000_101_1_00111_00000_010010_00000000000000, .vabs 1 2 ⟨5, true⟩ 7),
    (0b000001_000001_000010_000000_000000_101_1_00111_00000_010011_00000000000000, .vneg 1 2 ⟨5, true⟩ 7),
    (0b000001_000001_000010_000011_000100_101_1_00111_00000_001100_00000000000000, .vfma 1 2 (.vec 3) 4 ⟨5, true⟩ 7),
    (0b000001_000001_000010_000011_000100_101_1_00111_00000_001101_00000000000000, .vfms 1 2 (.vec 3) 4 ⟨5, true⟩ 7),
    (0b000001_000001_000010_000011_000100_101_1_00111_00000_001110_00000000000000, .vfnma 1 2 (.vec 3) 4 ⟨5, true⟩ 7),
    (0b000001_101011_100000_000000_000000_000_0_00000_01001_100000_00000000000000, .vadd 43 32 (.scl 9) ⟨0, false⟩ 0)] = true := by decide +kernel

/-- Words written out from R87, vmajors 0x02 and 0x03. -/
theorem test_decode_vb_and_vm : readsVec [
    (0b000010_000001_000010_000011_000000_101_1_00111_00000_000001_00000000000000, .vand 1 2 (.vec 3) ⟨5, true⟩ 7),
    (0b000010_000001_000010_000011_000000_101_1_00111_00000_000010_00000000000000, .vor 1 2 (.vec 3) ⟨5, true⟩ 7),
    (0b000010_000001_000010_000011_000000_101_1_00111_00000_000011_00000000000000, .vxor 1 2 (.vec 3) ⟨5, true⟩ 7),
    (0b000010_000001_000010_000011_000000_101_1_00111_00000_000100_00000000000000, .vsll 1 2 (.vec 3) ⟨5, true⟩ 7),
    (0b000010_000001_000010_000011_000000_101_1_00111_00000_000101_00000000000000, .vsrl 1 2 (.vec 3) ⟨5, true⟩ 7),
    (0b000010_000001_000010_000011_000000_101_1_00111_00000_000110_00000000000000, .vsra 1 2 (.vec 3) ⟨5, true⟩ 7),
    (0b000010_000001_000010_000000_000000_101_1_00111_00000_000000_00000000000000, .vcvt 1 2 ⟨5, true⟩ 7),
    (0b000010_000001_000010_000000_000000_101_1_00111_00000_000111_00000000000000, .vclz 1 2 ⟨5, true⟩ 7),
    (0b000010_000001_000010_000000_000000_101_1_00111_00000_001000_00000000000000, .vpopc 1 2 ⟨5, true⟩ 7),
    (0b000010_000001_000010_000000_000000_101_1_00111_00000_001010_00000000000000, .vclass 1 2 ⟨5, true⟩ 7),
    (0b000010_000111_000010_000011_000000_101_1_00111_00000_001001_00000000000101, .vcmp 7 2 (.vec 3) 5 ⟨5, true⟩ 7),
    (0b000011_000111_000110_000101_000000_000_0_00000_00000_000000_00000000000000, .mand 7 6 5),
    (0b000011_000111_000110_000101_000000_000_0_00000_00000_000001_00000000000000, .mor 7 6 5),
    (0b000011_000111_000110_000101_000000_000_0_00000_00000_000010_00000000000000, .mxor 7 6 5),
    (0b000011_000111_000110_000101_000000_000_0_00000_00000_000011_00000000000000, .mandn 7 6 5),
    (0b000011_000111_000110_000000_000000_000_0_00000_00000_000100_00000000000000, .mnot 7 6),
    (0b000011_000111_000110_000000_000000_000_0_00000_00000_000101_00000000000000, .mmov 7 6),
    (0b000011_000111_000110_000000_000000_000_0_00000_00000_001001_00000000000000, .mbefore 7 6),
    (0b000011_000111_000000_000000_000000_000_0_00000_00000_000110_00000000000001, .mset 7 true),
    (0b000011_011111_000110_000000_000000_000_0_00000_00000_000111_00000000000000, .mpopc 31 6),
    (0b000011_011111_000110_000000_000000_000_0_00000_00000_001000_00000000000000, .mfirst 31 6)] = true := by decide +kernel

/-- Words written out from R87, vmajors 0x04 to 0x06. -/
theorem test_decode_vx_and_special : readsVec [
    (0b000100_000001_000010_000000_000000_101_1_00000_00000_000000_00000000000000, .vmv 1 2 ⟨5, true⟩),
    (0b000100_000001_000000_000000_000000_101_1_00000_01001_000001_00000000000000, .vbcast 1 9 ⟨5, true⟩),
    (0b000100_000011_000010_000000_000000_000_0_00000_01001_000010_00000000000000, .vext 3 2 9),
    (0b000100_000011_000000_000000_000000_000_0_00000_01001_000011_11111111111111, .vins 3 9 0x3FFF),
    (0b000100_000001_000010_000000_000000_101_1_00000_01001_000100_00000000000011, .vslideup 1 2 9 3 ⟨5, true⟩),
    (0b000100_000001_000010_000000_000000_101_1_00000_01001_000101_00000000000011, .vslidedn 1 2 9 3 ⟨5, true⟩),
    (0b000100_000001_000010_000011_000000_101_1_00000_00000_000110_00000000000000, .vperm 1 2 3 ⟨5, true⟩),
    (0b000100_000001_000010_000011_000000_101_1_00000_00000_000111_00000000000000, .vmerge 1 2 3 ⟨5, true⟩),
    (0b000100_000001_000000_000000_000000_101_1_00000_00000_001000_00000000000000, .viota 1 ⟨5, true⟩),
    (0b000101_000001_000010_000000_000000_101_1_00000_00000_000000_00000000000000, .vcompress 1 2 ⟨5, true⟩),
    (0b000101_000001_000010_000000_000000_101_1_00000_00000_000001_00000000000000, .vexpand 1 2 ⟨5, true⟩),
    (0b000101_000001_000110_000000_000000_101_1_00000_00000_000010_00000000000000, .vprefixpop 1 6 ⟨5, true⟩),
    (0b000101_000001_000010_000000_000000_101_1_00000_00000_000011_00000000000000, .vconflict 1 2 ⟨5, true⟩),
    (0b000101_000001_000010_000000_000110_101_1_00111_00000_000100_00000000001101, .vscan 1 2 6 true 5 ⟨5, true⟩ 7),
    (0b000101_000001_000010_000000_000000_101_1_00111_00000_000101_00000000000010, .vscanf 1 2 0 false 2 ⟨5, true⟩ 7),
    (0b000101_011111_000010_000000_000000_101_1_00111_01001_000110_00000000000001, .vred 31 2 9 1 ⟨5, true⟩ 7),
    (0b000101_011111_000010_000000_000000_101_1_00111_01001_000111_00000000000000, .vredf 31 2 9 0 ⟨5, true⟩ 7),
    (0b000110_000111_000010_000000_000011_101_1_00111_01001_000000_00000000000001, .vprune 7 2 3 true 9 ⟨5, true⟩ 7),
    (0b000110_000001_000000_000000_000000_101_1_00111_00000_000001_00000000000000, .vrand 1 ⟨5, true⟩ 7),
    (0b000110_000001_000010_000011_000000_101_1_00111_00000_000010_00000000000000, .vsmfin 1 2 3 ⟨5, true⟩ 7)] = true := by decide +kernel

/-- Words written out from R87, vmajors 0x08 to 0x0F. -/
theorem test_decode_ls : readsVec [
    (0b001000_000001_000000_000000_000000_101_1_00000_01001_100000_01111111111111, .vld 1 9 4 0x1FFF ⟨5, true⟩),
    (0b001000_000001_000000_000110_000000_101_1_00000_01001_011001_00000000001000, .vlds 1 9 6 3 8 ⟨5, true⟩),
    (0b001000_000001_000000_000110_000000_101_1_00000_01001_011010_10000000001000, .vldx 1 9 6 3 true 8 ⟨5, true⟩),
    (0b001000_000001_000000_000110_000000_101_1_00000_01001_010011_00000000001000, .vldxo 1 9 6 2 false 8 ⟨5, true⟩),
    (0b001000_000001_000000_000000_000000_101_1_00000_01001_000100_00000000001000, .vldff 1 9 0 8 ⟨5, true⟩),
    (0b001000_000111_000000_000000_000000_000_0_00000_01001_000101_00000000001000, .vldm 7 9 8),
    (0b001000_011111_000000_000000_000000_000_0_00000_01001_000110_00000000000000, .vfill 31 9),
    (0b001001_000000_000001_000000_000000_101_1_00000_01001_100000_01111111111111, .vst 1 9 4 0x1FFF ⟨5, true⟩),
    (0b001001_000000_000001_000110_000000_101_1_00000_01001_011001_00000000001000, .vsts 1 9 6 3 8 ⟨5, true⟩),
    (0b001001_000000_000001_000110_000000_101_1_00000_01001_011010_10000000001000, .vstx 1 9 6 3 true 8 ⟨5, true⟩),
    (0b001001_000000_000001_000110_000000_101_1_00000_01001_010011_00000000001000, .vstxo 1 9 6 2 false 8 ⟨5, true⟩),
    (0b001001_000000_000111_000000_000000_000_0_00000_01001_000101_00000000001000, .vstm 7 9 8),
    (0b001001_000000_011111_000000_000000_000_0_00000_01001_000110_00000000000000, .vspill 31 9),
    (0b001010_000001_000000_000110_000000_101_1_00000_01001_010000_00000000000000, .vgl 1 9 6 1 ⟨5, true⟩),
    (0b001010_000111_000010_000110_000000_101_1_00000_01001_000001_00000000000000, .vsc 7 2 9 6 0 ⟨5, true⟩),
    (0b001010_000111_000010_000110_000000_101_1_00111_01001_011010_00000000000101, .vscc 7 2 9 6 1 true 5 ⟨5, true⟩ 7),
    (0b001011_000001_000110_000000_000000_101_1_00000_01001_000000_00000000000000, .vxlate 1 6 9 ⟨5, true⟩),
    (0b001011_000001_000110_000000_000000_101_1_00000_01001_000001_00000000000000, .vxlateff 1 6 9 ⟨5, true⟩),
    (0b001100_000111_000110_000101_000000_101_1_00000_01001_010000_00000000000100, .vwait 7 6 5 9 1 4 ⟨5, true⟩),
    (0b001101_000000_000000_000110_000000_000_0_00000_01001_000000_00000010000000, .smap 9 6 128),
    (0b001101_000000_000000_000000_000000_000_0_00000_01001_000001_00000000000001, .sunmap 9 1),
    (0b001101_000000_000000_000000_000000_000_0_00000_01001_000010_00000000000001, .sflush 9 1),
    (0b001110_101011_000000_000000_000000_000_0_00000_01001_000000_00000000000111, .strm 43 9 7),
    (0b001110_000000_000000_000000_000000_000_0_00000_00000_000001_00000000000111, .strmend 7),
    (0b001111_000000_000000_000000_000000_000_0_00000_01001_000000_00000000000000, .cpy 9),
    (0b001111_000000_000000_000000_000000_000_0_00000_01001_000001_00000000000000, .cpy2d 9),
    (0b001111_011111_000000_000000_000000_000_0_00000_01001_000010_00000000000000, .cpywait 31 9),
    (0b001111_000000_000000_000000_000000_000_0_00000_01001_000011_00000000000000, .trim 9),
    (0b001111_000000_000000_000110_000000_101_1_00000_01001_000100_00000000000000, .vpf 9 6 ⟨5, true⟩)] = true := by decide +kernel

/-- Words written out from R87, vmajors 0x10 to 0x12. -/
theorem test_decode_dg : readsVec [
    (0b010000_000000_000000_000000_000000_000_0_00000_01001_000000_00000000000000, .mshape 9),
    (0b010000_000000_000000_000000_000000_000_0_00000_01001_000001_00000000000000, .maccwin 9),
    (0b010000_011111_000010_000011_000000_101_1_00111_01001_000010_00000000000001, .dmac 31 2 3 9 true ⟨5, true⟩ 7),
    (0b010000_011111_000010_000011_000000_101_1_00111_01001_000011_00000000000000, .dmacf 31 2 3 9 false ⟨5, true⟩ 7),
    (0b010000_000000_000010_000011_000000_000_0_00111_01001_000100_00000000000001, .dsweep 2 3 9 true 7),
    (0b010000_000000_000010_000011_000000_000_0_00111_01001_000101_00000000000000, .dsweepf 2 3 9 false 7),
    (0b010001_000000_000010_000011_000000_000_0_00111_01001_000000_00000000000000, .spsweep 2 3 9 7),
    (0b010001_000000_000010_000011_000000_000_0_00111_01001_000001_00000000000000, .spsweepf 2 3 9 7),
    (0b010001_000001_000010_000000_000000_000_0_00111_00000_000010_00000000000000, .sppack 1 2 7),
    (0b010001_000001_000010_000000_000000_000_0_00111_00000_000011_00000000000000, .spunpack 1 2 7),
    (0b010010_000000_000010_000000_000000_000_0_00000_01001_000000_00000000000000, .acld 2 9),
    (0b010010_000001_000000_000000_000000_000_0_00111_01001_000001_00000000000000, .acst 1 9 7),
    (0b010010_000000_000000_000000_000000_000_0_00000_01001_000010_00000000000000, .aczero 9),
    (0b010010_000111_000000_000000_000000_000_0_00000_01001_000011_00000000000000, .acmap 7 9)] = true := by decide +kernel

/-- What the tables refuse (R74 to R79, R88): values not listed, and fields that must be 0. -/
theorem test_decode_refuses : ([
    0,
    0b010111_00000_00000_0000000000000000,
    0b000001_00001_00010_00011_001100_00000,
    0b000001_00001_00010_00011_000000_00001,
    0b000001_00001_00010_00001_100000_00000,
    0b000001_00001_00010_00000_100100_00011,
    0b000010_00001_00010_00011_000000_01000,
    0b000010_00001_00010_00001_000100_01001,
    0b000010_00001_00010_00000_001000_01001,
    0b000010_00001_00010_00011_001101_01001,
    0b000111_00001_00010_0000010000000000,
    0b000111_00001_00010_0000000001000000,
    0b001010_00001_00001_0000000000000000,
    0b010000_00001_00010_111_0000000000000,
    0b010001_00001_00010_001_0000000000000,
    0b010100_00001_00010_000_0000000000000,
    0b010101_00001_00010_101_0000000000000,
    0b011000_00001_00010_0110_000000000000,
    0b011011_01000_00000_0000_000000000000,
    0b011011_00001_00001_0000_000000000000,
    0b011011_00001_00000_0011_000000000000,
    0b011100_00000_00000_0010_000000000000,
    0b011100_00001_00000_0000_000000000000,
    0b100000_00000_00000_0000000000000011,
    0b100000_00001_00001_0000000000000000,
    0b100001_00000_00000_0100000000000000,
    0b100001_00001_00001_0000000000000000,
    0b100010_00000_00000_0000000001000000,
    0b100010_00000_00000_0010000000000001,
    0b100011_00001_00010_0000000000100000,
    0b100011_00001_00010_1100100000000000,
    0b100011_00001_00010_1000000000000001,
    0b100100_00000_00000_0000000000000101,
    0b100100_00000_00000_0001000000000000,
    0b100100_00000_00000_0010000000000100,
    0b100100_00000_00000_0001000000001001,
    0b100100_00000_00001_0011001000000000,
    0b100100_00000_00000_0110000000000001,
    0b100100_00000_00000_0111000000000000,
    0b100101_00001_00010_0000000000000001,
    0b100101_00001_00000_0010000000000000,
    0b100110_00000_00000_0000000000000000] : List Word32).all (fun w => (decodeWord w).toOption == none) = true := by decide +kernel

/-- Body words that the tables refuse (R86 to R88): vmajors and funcs not named, unused fields that are not 0, operands outside their class. -/
theorem test_decode_refuses_vec : ([
    0,
    0b000111_000000_000000_000000_000000_000_0_00000_00000_000000_00000000000000,
    0b010011_000000_000000_000000_000000_000_0_00000_00000_000000_00000000000000,
    0b111111_000000_000000_000000_000000_000_0_00000_00000_000000_00000000000000,
    0b000001_000001_000010_000011_000000_000_0_00000_00000_001011_00000000000000,
    0b000001_000001_000010_000011_000100_000_0_00000_00000_000000_00000000000000,
    0b000001_000001_000010_000011_000000_000_0_00000_00000_000000_00000000000001,
    0b000001_000001_000010_000011_000000_000_0_00000_00001_100000_00000000000000,
    0b000001_000001_000010_000011_000000_000_0_00000_00001_000000_00000000000000,
    0b000001_000001_000010_000000_000000_000_0_00000_00000_100110_00000000000000,
    0b000001_101100_000010_000011_000000_000_0_00000_00000_000000_00000000000000,
    0b000001_000001_000010_000011_000000_000_1_00000_00000_000000_00000000000000,
    0b000010_001000_000010_000011_000000_000_0_00000_00000_001001_00000000000000,
    0b000010_000001_000010_000011_000000_000_0_00000_00000_001001_00000000000110,
    0b000011_000001_000010_000011_000000_001_0_00000_00000_000000_00000000000000,
    0b000011_000001_000010_001000_000000_000_0_00000_00000_000000_00000000000000,
    0b000011_000001_000000_000000_000000_000_0_00000_00000_000110_00000000000010,
    0b000100_000001_000000_000000_000000_000_0_00000_00000_001000_00000000000000,
    0b000100_100000_000000_000000_000000_000_0_00000_00000_000011_00000000000000,
    0b000100_000001_000010_100000_000000_000_0_00000_00000_000110_00000000000000,
    0b000101_000001_000001_000000_000000_001_0_00000_00000_000000_00000000000000,
    0b000101_000001_000010_000000_000001_000_0_00000_00000_000100_00000000000000,
    0b000101_000001_000010_000000_000000_000_0_00000_00000_000100_00000000000110,
    0b000110_000001_000010_000000_000001_000_0_00000_00000_000000_00000000000000,
    0b001000_000001_000001_000000_000000_000_0_00000_00000_000000_00000000000000,
    0b001000_000001_000000_000000_000000_000_0_00000_00000_101000_00000000000000,
    0b001000_000001_000000_000000_000000_000_0_00000_00000_000111_00000000000000,
    0b001000_000001_000000_000000_000000_000_0_00000_00000_000000_10000000000000,
    0b001000_000001_000000_000001_000000_000_0_00000_00000_100010_00000000000000,
    0b001001_000000_000001_000000_000000_000_0_00000_00000_000100_00000000000000,
    0b001001_000001_000001_000000_000000_000_0_00000_00000_000000_00000000000000,
    0b001010_000001_000000_000010_000000_000_0_00000_00000_100000_00000000000000,
    0b001010_000001_000000_000010_000000_000_0_00000_00000_001000_00000000000000,
    0b001010_000001_000010_000011_000000_000_0_00000_00000_000011_00000000000000,
    0b001100_000001_000010_000011_000000_000_0_00000_00000_000001_00000000000000,
    0b001101_000000_000000_000000_000000_000_0_00000_00000_000000_00000000000000,
    0b001101_000000_000000_000000_000000_000_0_00000_00000_000001_00000010000001,
    0b001110_011111_000000_000000_000000_000_0_00000_00000_000000_00000000000000,
    0b001111_000000_000000_000000_000000_000_0_00000_00000_000101_00000000000000,
    0b010000_000000_000000_000000_000000_000_0_00000_00000_000110_00000000000000,
    0b010001_000001_000010_000000_000000_000_0_00000_00000_000100_00000000000000,
    0b010010_000000_000000_000000_000000_000_0_00000_00000_000100_00000000000000,
    0b010000_000000_000000_000000_000000_000_0_00001_00001_000000_00000000000000,
    0b010000_000001_000010_000011_000000_000_0_00000_00000_000010_00000000000010] : List (BitVec 64)).all (fun w => (decodeVec w).toOption == none) = true := by decide +kernel

/-- A convoy (R80): the header 0xFDB40000 of R126 with three slots, VM, VX and VA, takes 28 bytes and leaves the rest. -/
theorem test_decode_convoy :
    (decode (leBytes 4 0xFDB40000 ++ (List.replicate 24 1) ++ [7])).toOption.map (fun p => (p.1, p.2.length))
      = some (.convoy 3 0b011_010_000_000_000_000 (List.replicate 3 0x0101010101010101), 1) := by decide +kernel

/-! ## Ill-formed terms -/

/-- Each check of `Instr.wf` refuses a term: widths and codes, sizes, conditions, selectors, headers, operand classes, masks, element sizes. -/
theorem test_wf_refuses :
    ([.sext 1 2 3, .fadd 1 2 3 8, .fsqrt 1 2 13, .fcvt 1 2 0 9, .fcvt 1 2 9 14, .ld 1 2 7 0, .ll 1 2 0 0, .st 1 2 1 0, .sc 1 2 5 0, .b 6 1 2 0, .bm 3 0 0,
      .bm 0 8 0, .bq 2 0, .vsetvli 1 2 9 0 0, .setshape 1 2 9 0 0, .fence 5, .barArrive 0 0, .barWait 0 4, .convoy 0 0 [], .convoy 7 0 [],
      .convoy 1 0 [], .convoy 1 0b110_000_000_000_000_000 [0], .convoy 2 0b001_001_000_000_000_000 [0, 0],
      .convoy 1 0b000_001_000_000_000_000 [0], .vadd 44 1 (.vec 2) ⟨0, false⟩ 0, .vadd 1 44 (.vec 2) ⟨0, false⟩ 0, .vadd 1 2 (.vec 63) ⟨0, false⟩ 0,
      .vadd 1 2 (.vec 3) ⟨0, true⟩ 0, .vfma 1 2 (.vec 3) 44 ⟨0, false⟩ 0, .vcmp 1 2 (.vec 3) 6 ⟨0, false⟩ 0, .vmerge 1 2 3 ⟨0, false⟩, .viota 1 ⟨0, false⟩,
      .vcompress 1 1 ⟨1, false⟩, .vscan 1 2 1 false 0 ⟨0, false⟩ 0, .vred 1 2 3 6 ⟨0, false⟩ 0, .vprune 1 2 3 false 4 ⟨0, false⟩ 0,
      .vld 1 2 5 0 ⟨0, false⟩, .vldx 1 2 3 4 false 0 ⟨0, false⟩, .vgl 1 2 3 2 ⟨0, false⟩, .vscc 1 2 3 4 0 false 7 ⟨0, false⟩ 0,
      .vwait 1 2 3 4 0 6 ⟨0, false⟩, .smap 1 2 0, .sunmap 1 129, .strm 31 1 0, .strm 44 1 0, .vpf 1 2 ⟨0, true⟩, .dmac 1 44 2 3 false ⟨0, false⟩ 0,
      .dsweep 1 44 2 false 0, .sppack 44 1 0, .acld 44 1, .acst 44 1 0] : List Instr).all (fun i => !i.wf) = true := by decide +kernel

/-! ## A small machine -/

/-- The state that a step leads to. -/
def after (r : Result) : State :=
  match r with
  | .next t => t
  | _ => State.reset

/-- Whether a step goes on. -/
def goes (r : Result) : Bool :=
  match r with
  | .next _ => true
  | _ => false

/-- One coupled user hart of tenant 0 on die 0, its text at virtual page 0 readable and executable (`textTables`), and virtual page 1 readable and
writable at frame 5. -/
def desk : State :=
  let s := State.reset.withFetchWord 32 0
  { s with mem := word64 s.mem 0x30008 0x5000F, sealed := { s.sealed with owners := [⟨4, 0⟩, ⟨5, 0⟩] } }

/-- The machine with two scalar registers set. -/
def with2 (s : State) (a : XReg) (v : Word) (b : XReg) (w : Word) : State := setX (setX s a v) b w

/-- A strip of n elements at width code ew under a grant of 512 bits. -/
def strip (s : State) (n : Nat) (ew : BitVec 2) : State :=
  { s with
    hart := { s.hart with grant := { share := 1, cls := 9, groups := 1, banks := 1, vlen := 512, short := false } }
    strand := { s.strand with vl := BitVec.ofNat 14 n, ew := ew } }

/-- The access or the compute strand of a decoupled hart. -/
def half (s : State) (r : Role) : State :=
  { s with role := r, mate := some (Strand.start 0x100), hart := { s.hart with cr := { s.hart.cr with ahead := 16 } } }

/-- A vector register that holds a list at width w. -/
def vec (s : State) (v : VReg) (w : Nat) (l : List Nat) : State := setV s v (setElems 0 w ((List.range l.length).zip l))

/-- Elements 0 to n - 1 of a register. -/
def elems (s : State) (v : VReg) (w n : Nat) : List Nat := (List.range n).map (elemOf (getV s v) w)

/-- The data doubleword at virtual address 0x10000 + i holds v. -/
def put8 (s : State) (i v : Nat) : State := setMem s (s.mem.writeNat (0x50000 + i) 8 v)

/-! ## Scalar instructions -/

theorem test_add_wraps : getX (after (exec (.add 1 2 3) (with2 desk 2 (BitVec.allOnes 64) 3 2))) 1 = 1 := by decide +kernel
/-- R94's example: -7 / 2 gives -3, the remainder -1; `sra` of -7 by 1 gives -4. -/
theorem test_div_example :
    let s := with2 desk 6 (-7) 7 2
    getX (after (exec (.div 5 6 7) s)) 5 = -3 ∧ getX (after (exec (.rem 5 6 7) s)) 5 = -1 ∧ getX (after (exec (.srai 5 6 1) s)) 5 = -4 := by
  decide +kernel
theorem test_mulh : getX (after (exec (.mulh 1 2 3) (with2 desk 2 (-1) 3 2))) 1 = -1 ∧ getX (after (exec (.mulhu 1 2 3) (with2 desk 2 (-1) 3 2))) 1 = 1 := by
  decide +kernel
theorem test_counts :
    let s := with2 desk 2 0x0000000000F00000 3 0
    getX (after (exec (.clz 1 2) s)) 1 = 40 ∧ getX (after (exec (.ctz 1 2) s)) 1 = 20 ∧ getX (after (exec (.popc 1 2) s)) 1 = 4
      ∧ getX (after (exec (.clz 1 3) s)) 1 = 64 ∧ getX (after (exec (.bswap 1 2) s)) 1 = 0x0000F00000000000 := by decide +kernel
/-- R95: `lui` sign-extends from bit 31, `addhi` adds above bit 32. -/
theorem test_constants :
    getX (after (exec (.lui 5 0x8000) desk)) 5 = 0xFFFFFFFF80000000
      ∧ getX (after (exec (.addhi 5 6 1) (with2 desk 6 0xFFFFFFFF80000000 7 0))) 5 = 0x80000000 := by decide +kernel
/-- FP32 (R101): 1.0 + 1.0 = 2.0; an infinite overflow; bits 63:32 of the result are 0. -/
theorem test_fadd : getX (after (exec (.fadd 1 2 3 11) (with2 desk 2 0x3F800000 3 0xFFFFFFFF3F800000))) 1 = 0x40000000 := by decide +kernel
theorem test_fmul_overflows : getX (after (exec (.fmul 1 2 3 11) (with2 desk 2 0x7F7FFFFF 3 0xC0000000))) 1 = 0xFF800000 := by decide +kernel
/-- A fetch, a decoding and one step (R68, R112): `addi x1, x1, 1` is 0x0C210001. -/
theorem test_step_addi :
    let t := after (step (State.reset.withFetchWord 32 0x0C210001))
    getX t 1 = 1 ∧ t.strand.pc = 4 ∧ t.hart.cr.instret = 1 := by decide +kernel
/-- The all-zero word traps as illegal (R88). -/
theorem test_step_zero_word :
    (after (step (State.reset.withFetchWord 32 0))).hart.trap.map (fun t => (t.cls, t.sub, t.pc)) = some (1, 0, 0) := by decide +kernel
/-- A signed byte, and an address off its alignment (R97, class 7). -/
theorem test_load :
    let s := with2 (put8 desk 8 0x80) 2 0x10008 3 0
    getX (after (exec (.ld 1 2 0 0) s)) 1 = 0xFFFFFFFFFFFFFF80 ∧ getX (after (exec (.ld 1 2 1 0) s)) 1 = 0x80
      ∧ (after (exec (.ld 1 2 6 4) s)).hart.trap.map (fun t => (t.cls, t.value)) = some (7, 0x1000C) := by decide +kernel
theorem test_store : ((after (exec (.st 1 2 2 0x1FFE) (with2 desk 1 0xABCDEF 2 0x10008))).mem.readNat 0x50000 16) = 0xCDEF000000000000 := by decide +kernel
/-- `ll` then `sc` to the same address succeeds, and a second `sc` fails (R99). -/
theorem test_ll_sc :
    let s := with2 desk 1 5 2 0x10000
    let t := after (exec (.ll 3 2 6 0) s)
    let u := after (exec (.sc 1 2 6 0) t)
    getX u 1 = 1 ∧ u.mem.readNat 0x50000 8 = 5 ∧ getX (after (exec (.sc 1 2 6 0) u)) 1 = 0 := by decide +kernel
theorem test_branch :
    (after (exec (.b 2 1 2 0xFFE) (with2 desk 1 (-1) 2 1))).strand.pc = -8 ∧ (after (exec (.b 4 1 2 0xFFE) (with2 desk 1 (-1) 2 1))).strand.pc = 4 := by
  decide +kernel
theorem test_jalr_same_register :
    let t := after (exec (.jalr 1 1 4) (with2 desk 1 0x100 2 0))
    getX t 1 = 4 ∧ t.strand.pc = 0x104 := by decide +kernel
/-- A `trap` with the handler on, and its return (R112, R114, R115). -/
theorem test_trap_and_uiret :
    let s := { desk with hart := { desk.hart with cr := { desk.hart.cr with uivec := 0x201 } } }
    let t := after (exec (.trap 9) s)
    t.strand.pc = 0x200 ∧ t.hart.cr.upc = 4 ∧ t.hart.cr.ucause = 0x8000000000000009
      ∧ (after (exec .uiret t)).strand.pc = 4 ∧ (after (exec .uiret t)).hart.cr.ucause = 9 := by decide +kernel
/-- The queues of a decoupled hart are read in the order of their words (R108). -/
theorem test_queue_order :
    let s := with2 (half desk .access) 1 7 2 8
    (after (exec (.qpush 2) (after (exec (.qpush 1) s)))).hart.q.xqAC = [7, 8] := by decide +kernel

/-! ## Vector instructions -/

/-- R126: a share of 2, class 13 and ew = 32 on an idle core give VLEN 8,192 in one bank and `vl` = min(1000, 256). -/
theorem test_vsetvli :
    let t := after (exec (.vsetvli 7 6 2 4 2) (with2 desk 6 1000 7 0))
    getX t 7 = 256 ∧ t.hart.grant.vlen = 8192 ∧ t.hart.grant.groups = 2 ∧ t.hart.grant.banks = 1 := by decide +kernel
/-- R135's example: m1 = 0b10010110 and `vl` = 8 give 4, 1, and `mbefore` 0b00000001. -/
theorem test_masks :
    let s := setM (strip desk 8 2) 1 0b10010110
    getX (after (exec (.mpopc 3 1) s)) 3 = 4 ∧ getX (after (exec (.mfirst 3 1) s)) 3 = 1 ∧ getM (after (exec (.mbefore 2 1) s)) 2 = 1 := by
  decide +kernel
/-- The worked irregular results of R143. -/
theorem test_irregular :
    let s := setM (strip desk 8 2) 1 0b10010110
    elems (after (exec (.vcompress 2 1 ⟨1, false⟩) (vec s 1 32 [10, 11, 12, 13, 14, 15, 16, 17]))) 2 32 8 = [11, 12, 14, 17, 0, 0, 0, 0]
      ∧ elems (after (exec (.viota 3 ⟨1, false⟩) s)) 3 32 8 = [0, 0, 1, 2, 2, 3, 3, 3]
      ∧ elems (after (exec (.vexpand 4 2 ⟨1, false⟩) (vec s 2 32 [11, 12, 14, 17, 0, 0, 0, 0]))) 4 32 8 = [0, 11, 12, 0, 14, 0, 0, 17]
      ∧ elems (after (exec (.vprefixpop 5 1 ⟨0, false⟩) s)) 5 32 8 = [0, 1, 2, 2, 3, 3, 3, 4]
      ∧ elems (after (exec (.vconflict 6 7 ⟨0, false⟩) (vec s 7 32 [5, 3, 5, 5, 3, 7, 5, 3]))) 6 32 8 = [0, 0, 1, 2, 1, 0, 3, 2] := by
  decide +kernel
/-- Elements at `vl` and above stay (R121), and INT32 wraps under the default word (R42). -/
theorem test_vadd :
    let s := vec (vec (vec (strip desk 2 2) 1 32 [9, 9, 9]) 2 32 [0xFFFFFFFF, 4]) 3 32 [2, 5]
    elems (after (exec (.vadd 1 2 (.vec 3) ⟨0, false⟩ 0) s)) 1 32 3 = [1, 9, 9] := by decide +kernel
theorem test_vred : getX (after (exec (.vred 3 1 4 0 ⟨0, false⟩ 0) (with2 (vec (strip desk 4 2) 1 32 [1, 2, 3, 4]) 4 100 5 0))) 3 = 110 := by decide +kernel
/-- Slides fill with the low bits of x[xs] (R138), and a gather beyond `vl` gives 0 (R139). -/
theorem test_permutes :
    let s := with2 (vec (vec (strip desk 4 2) 1 32 [10, 11, 12, 13]) 2 32 [3, 0, 4, 1]) 5 77 6 0
    elems (after (exec (.vslideup 3 1 5 1 ⟨0, false⟩) s)) 3 32 4 = [77, 10, 11, 12]
      ∧ elems (after (exec (.vslidedn 3 1 5 1 ⟨0, false⟩) s)) 3 32 4 = [11, 12, 13, 77]
      ∧ elems (after (exec (.vperm 3 1 2 ⟨0, false⟩) s)) 3 32 4 = [13, 10, 0, 11] := by decide +kernel
/-- A unit-stride load and store, and a load that faults at its second element with the first committed (R154, R165). -/
theorem test_vector_memory :
    let s := with2 (put8 (put8 (strip desk 2 3) 0 5) 8 6) 2 0x10000 3 0x1FFF8
    elems (after (exec (.vld 1 2 3 0 ⟨0, false⟩) s)) 1 64 2 = [5, 6]
      ∧ (after (exec (.vst 4 2 3 16 ⟨0, false⟩) (vec s 4 64 [7, 8]))).mem.readNat 0x50010 16 = 7 + 8 * 2 ^ 64
      ∧ (after (exec (.vst 4 3 3 0 ⟨0, false⟩) (vec s 4 64 [7, 8]))).hart.trap.map (fun t => (t.cls, t.value, t.elem, t.slot)) = some (3, 0x20000, 1, 0)
      ∧ (after (exec (.vst 4 3 3 0 ⟨0, false⟩) (vec s 4 64 [7, 8]))).mem.readNat 0x5FFF8 8 = 7 := by decide +kernel
/-- The histogram step of R171: offsets 12, 20, 12, 12 with counts 7 and 5 and ones to add. -/
theorem test_histogram :
    let s := with2 (vec (vec (strip desk 4 2) 3 32 [12, 20, 12, 12]) 4 32 [1, 1, 1, 1]) 5 0x10000 6 0
    let s := setMem s ((s.mem.writeNat 0x5000C 4 7).writeNat 0x50014 4 5)
    let t := after (exec (.vgl 1 5 3 0 ⟨0, false⟩) s)
    let u := after (exec (.vscc 2 4 5 3 0 false 0 ⟨0, false⟩ 0) t)
    elems t 1 32 4 = [7, 5, 7, 7] ∧ getM u 2 = 0b1111 ∧ u.mem.readNat 0x5000C 4 = 10 ∧ u.mem.readNat 0x50014 4 = 6
      ∧ getM (after (exec (.vscc 2 4 5 3 0 false 0 ⟨0, false⟩ 0) s)) 2 = 0 := by decide +kernel
/-- Three slots in flight: `mset`, `viota` and `vadd` with x9 = 100. -/
def threeSlots : State :=
  match dispatch (with2 (strip desk 4 2) 9 100 10 0) [.mset 1 true, .viota 1 ⟨1, false⟩, .vadd 2 1 (.scl 9) ⟨0, false⟩ 0] with
  | .ok t => t
  | .error _ => desk

/-- A convoy's slots run in the steps after its dispatch, and it counts them when it drains (R80, R82, R110). -/
theorem test_convoy :
    let u := after (exec (.vadd 2 1 (.scl 9) ⟨0, false⟩ 0) (after (exec (.viota 1 ⟨1, false⟩) (after (exec (.mset 1 true) threeSlots)))))
    elems u 2 32 4 = [100, 101, 102, 103] ∧ u.strand.pc = 28 ∧ u.hart.cr.instret = 3 ∧ u.strand.convoy.isNone = true := by decide +kernel

/-! ## Machines and operands that meet the hypotheses of the statements

Each `witness_<Name>` is about the statement `Obligations.<Name>`; its clauses follow the statement's. -/

theorem ok_of {ε α : Type} {x : Except ε α} {a : α} (h : x.toOption = some a) : x = .ok a := by
  cases x <;> simp_all [Except.toOption]

/-- What an answer refuses with. -/
def errOf {ε α : Type} (x : Except ε α) : Option ε :=
  match x with
  | .ok _ => none
  | .error e => some e

theorem error_of {ε α : Type} {x : Except ε α} {e : ε} (h : errOf x = some e) : x = .error e := by
  cases x <;> simp_all [errOf]

/-- Whether an answer is a result. -/
def okB {ε α : Type} (x : Except ε α) : Bool := x.toOption.isSome

/-- The strand that a step issues. -/
def issued (s : State) : State :=
  match nextWork s with
  | .issue t _ => t
  | .slot t => t
  | .ahead t _ => t
  | _ => s

/-- When the strand that a step issues last issued. -/
def lastOf (s : State) : Nat :=
  match nextWork s with
  | .issue _ n => n
  | .ahead _ n => n
  | _ => 0

/-- Whether a step issues at the pc (0), runs a slot (1), or issues behind the convoy (2). -/
def kindOf (s : State) : Nat :=
  match nextWork s with
  | .issue .. => 0
  | .slot _ => 1
  | .ahead .. => 2
  | _ => 3

theorem issued_of {s : State} (h : kindOf s = 0) : nextWork s = .issue (issued s) (lastOf s) := by
  unfold kindOf at h; unfold issued lastOf; split at h <;> simp_all
theorem slot_of {s : State} (h : kindOf s = 1) : nextWork s = .slot (issued s) := by
  unfold kindOf at h; unfold issued; split at h <;> simp_all
theorem ahead_of {s : State} (h : kindOf s = 2) : nextWork s = .ahead (issued s) (lastOf s) := by
  unfold kindOf at h; unfold issued lastOf; split at h <;> simp_all

theorem none_of {α : Type} {x : Option α} (h : x.isNone = true) : x = none := by simpa using h

/-- The text of the worked step: `addi x1, x1, 1`, and the all-zero word. -/
def addiText : State := State.reset.withFetchWord 32 0x0C210001
def zeroText : State := State.reset.withFetchWord 32 0

/-- A launch under the armature of two dies, of whose harts the focused one is the rank-0 hart of die 0 or of die 1. -/
def joint (h : HartKey) (l : Launch) : State :=
  { desk with hart := { desk.hart with key := h }, sched := { desk.sched with launches := [l] } }
def jointLaunch : Launch :=
  { id := 1, tenant := 0, addr := 0, record := 0, issuer := .hart ⟨0, 0, 0⟩, dies := [0, 1], seq := some 0, placed := [], retired := [], failed := none
    started := true, outcomes := [(0, 5)], text := [], sent := [], credits := [], branches := [], told := [], arrived := [], passed := [], joining := [] }
def leadHart : State := joint ⟨1, 0, 0⟩ jointLaunch
def otherHart : State := joint ⟨1, 1, 0⟩ jointLaunch

/-- The bytes of `addi x1, x1, 1`. -/
def addiBytes : List Byte := [0x01, 0x00, 0x21, 0x0C]

/-- A hart that follows, and to which the lead die has sent the unit `addi x1, x1, 1`. -/
def followHart : State := joint ⟨1, 1, 0⟩ { jointLaunch with record := BitVec.ofNat 2048 (2 ^ 461 + 2 ^ 464), text := [(0, 0, addiBytes)], sent := [(0, 1), (1, 1)] }

/-- A convoy of one slot in flight behind whose scalar instructions the strand waits, and one whose slot waits for an engine. -/
def slotText : State := { threeSlots with strand := { threeSlots.strand with ahead := some (28, some .convoy) } }
def aheadText : State :=
  let s := { threeSlots with
    mem := threeSlots.mem.writeNat 0x4001C 4 0x0C210001, strand := { threeSlots.strand with stall := some (.engine 0xA00) }
    coh := { threeSlots.coh with home := [⟨0xA00, .G 1, []⟩] } }
  { s with strand := { s.strand with convoy := s.strand.convoy.map (fun ks => ks.drop 1) , ahead := some (28, none) } }

/-- What a fetch delivers. -/
def runsB (x : Fetched) : Bool :=
  match x with
  | .run .. => true
  | _ => false
def runInstr (x : Fetched) : Instr :=
  match x with
  | .run i _ => i
  | _ => .dsync
def runState (x : Fetched) : State :=
  match x with
  | .run _ t => t
  | _ => desk
theorem run_of {x : Fetched} (h : runsB x = true) : x = .run (runInstr x) (runState x) := by
  cases x <;> simp_all [runsB, runInstr, runState]
theorem next_of {r : Result} (h : goes r = true) : r = .next (after r) := by
  cases r <;> simp_all [goes, after]

theorem witness_StepRunsTheInstruction :
    ({ State.reset with inputs := [.powerGood] }.inputs = .powerGood :: []) ∧
    (addiText.inputs = [] ∧ nextWork addiText = .issue (issued addiText) (lastOf addiText) ∧ (issued addiText).strand.ahead = none
      ∧ broadcast (issued addiText) = none ∧ (issued addiText).strand.resumed = none ∧ fetchBytes (issued addiText) 4 = .ok [0x40000, 0x40001, 0x40002, 0x40003]
      ∧ fetchBytes (issued addiText) (textLength (readPas (issued addiText).mem [0x40000, 0x40001, 0x40002, 0x40003])) = .ok [0x40000, 0x40001, 0x40002, 0x40003]
      ∧ (linesOf [0x40000, 0x40001, 0x40002, 0x40003]).find? (engineLine (issued addiText)) = none
      ∧ decode (([0x40000, 0x40001, 0x40002, 0x40003] : List Nat).map (issued addiText).mem.read) = .ok (.addi 1 1 1, [])) ∧
    (zeroText.inputs = [] ∧ nextWork zeroText = .issue (issued zeroText) (lastOf zeroText) ∧ broadcast (issued zeroText) = none
      ∧ (linesOf [0x40000, 0x40001, 0x40002, 0x40003]).find? (engineLine (issued zeroText)) = none
      ∧ fetchBytes (issued zeroText) 4 = .ok [0x40000, 0x40001, 0x40002, 0x40003]
      ∧ decode (([0x40000, 0x40001, 0x40002, 0x40003] : List Nat).map (issued zeroText).mem.read) = .error .reserved) ∧
    (followHart.inputs = [] ∧ nextWork followHart = .issue (issued followHart) (lastOf followHart) ∧ (issued followHart).strand.resumed = none
      ∧ (issued followHart).strand.ahead = none ∧ broadcast (issued followHart) = some addiBytes ∧ decode addiBytes = .ok (.addi 1 1 1, [])) ∧
    (slotText.inputs = [] ∧ nextWork slotText = .slot (issued slotText) ∧ (issued slotText).strand.convoy.isSome = true) ∧
    (aheadText.inputs = [] ∧ nextWork aheadText = .ahead (issued aheadText) (lastOf aheadText)
      ∧ ∃ i u, fetchAt (pastConvoy (issued aheadText)) = .run i u ∧ mayPass (issued aheadText) i = true
        ∧ exec i u = .next (after (exec i u)) ∧ (after (exec i u)).hart.trap = none ∧ (after (exec i u)).strand.stall = none) := by
  refine ⟨rfl, ⟨by decide +kernel, issued_of (by decide +kernel), none_of (by decide +kernel), none_of (by decide +kernel), none_of (by decide +kernel),
    ok_of (by decide +kernel), ok_of (by decide +kernel), by decide +kernel, ok_of (by decide +kernel)⟩,
    ⟨by decide +kernel, issued_of (by decide +kernel), none_of (by decide +kernel), by decide +kernel, ok_of (by decide +kernel), error_of (by decide +kernel)⟩,
    ⟨by decide +kernel, issued_of (by decide +kernel), none_of (by decide +kernel), none_of (by decide +kernel), by decide +kernel, ok_of (by decide +kernel)⟩,
    ⟨by decide +kernel, slot_of (by decide +kernel), by decide +kernel⟩,
    by decide +kernel, ahead_of (by decide +kernel), runInstr (fetchAt (pastConvoy (issued aheadText))),
    runState (fetchAt (pastConvoy (issued aheadText))), run_of (by decide +kernel), by decide +kernel, next_of (by decide +kernel),
    none_of (by decide +kernel), none_of (by decide +kernel)⟩

/-- A well-formed scalar and vector instruction at the ends of their fields, and a header of six units. -/
theorem witness_ScalarWordsReadAsWritten :
    (Instr.addi 31 31 0xFFFF).wf = true ∧ encodeWord (.addi 31 31 0xFFFF) = some 0x0FFFFFFF ∧ decodeWord 0x0FFFFFFF = .ok (.addi 31 31 0xFFFF) := by
  refine ⟨by decide, by decide +kernel, ok_of (by decide +kernel)⟩
theorem witness_VectorWordsRoundTrip :
    (Instr.vadd 43 43 (.scl 31) ⟨7, true⟩ 31).wf = true ∧ (encodeVec (.vadd 43 43 (.scl 31) ⟨7, true⟩ 31)).isSome = true
      ∧ headerOk 6 0b000_001_010_011_100_101 = true ∧ (List.replicate 6 (0 : BitVec 64)).length = (6 : BitVec 3).toNat := by decide +kernel

theorem witness_IntegerInstructionResults : getX (with2 desk 2 1 3 (-1)) 3 ≠ 0 := by decide +kernel
theorem witness_DivisionEdges :
    getX desk 3 = 0 ∧ getX (with2 desk 2 0x8000000000000000 3 0xFFFFFFFFFFFFFFFF) 2 = 0x8000000000000000
      ∧ getX (with2 desk 2 0x8000000000000000 3 0xFFFFFFFFFFFFFFFF) 3 = 0xFFFFFFFFFFFFFFFF := by decide +kernel
theorem witness_ScalarFloatResults :
    floatCodeOk 9 = true ∧ floatCodeOk 12 = true ∧ (1 ≤ (1 : BitVec 6).toNat ∧ (13 : BitVec 6).toNat ≤ 13) ∧ (8 : BitVec 6).toNat < 9
      ∧ 12 < (13 : BitVec 6).toNat ∧ 13 < (14 : BitVec 6).toNat := by decide
/-- The strand in its handler, and outside it. -/
def handling : State := { desk with hart := { desk.hart with cr := { desk.hart.cr with ucause := 0x8000000000000000 } } }
theorem witness_ScalarResultFrame : inHandler desk = false ∧ inHandler handling = true ∧ (24 : Fin 32).val ≠ (1 : XReg).toNat := by decide +kernel

/-- The desk with the leaf of page 1 replaced, its frame poisoned, or given to another tenant. -/
def deskPte (e : Word) : State := { desk with mem := word64 desk.mem 0x30008 e.toNat }
/-- The desk with the table of page 1 on a poisoned line, or out of memory. -/
def deskWalk (k : Poison) : State := { desk with coh := { desk.coh with home := [⟨0x600, .P k, []⟩] } }
def deskFar : State := { desk with mem := word64 desk.mem 0x20000 0xFFFFFFFF00001 }
def deskPoison (k : Poison) : State := { desk with coh := { desk.coh with home := [⟨0xA00, .P k, []⟩] } }

theorem witness_AccessChecksInOrder :
    (0x10001 : Word).toNat % 2 ≠ 0 ∧ (0x10000 : Word).toNat % 8 = 0 ∧
    leafOf desk (me desk) 0 0x20000 = .error 2 ∧ leafOf deskFar (me desk) 0 0x10000 = .error 4 ∧ leafOf (deskWalk .seal) (me desk) 0 0x10000 = .error 5 ∧
    leafOf (deskWalk .lost) (me desk) 0 0x10000 = .error 6 ∧
    (leafOf (deskPte 0xFFFFFFFF0000F) (me desk) 0 0x10000 = .ok ⟨0xFFFFFFFF0000F, false⟩
      ∧ frameThere (deskPte 0xFFFFFFFF0000F) (physOf ⟨0xFFFFFFFF0000F, false⟩ 0x10000) = false) ∧
    (leafOf desk (me desk) 0 0x10000 = .ok ⟨0x5000F, false⟩ ∧ frameThere desk (physOf ⟨0x5000F, false⟩ 0x10000) = true
      ∧ (ownerOf desk (frameOf (physOf ⟨0x5000F, false⟩ 0x10000))).toNat = 0 ∧ permitted ⟨0x5000F, false⟩ .fetch = false
      ∧ permitted ⟨0x5000F, false⟩ .write = true ∧ linePoison desk 0x50000 = none) ∧
    (leafOf (deskPte 0x5002F) (me desk) 0 0x10000 = .ok ⟨0x5002F, false⟩ ∧ permitted ⟨0x5002F, false⟩ .read = true
      ∧ Leaf.stream ⟨0x5002F, false⟩ = true) ∧
    linePoison (deskPoison .seal) 0x50000 = some .seal ∧ linePoison (deskPoison .lost) 0x50000 = some .lost := by
  refine ⟨by decide, by decide, error_of (by decide +kernel), error_of (by decide +kernel), error_of (by decide +kernel), error_of (by decide +kernel),
    ⟨ok_of (by decide +kernel), by decide +kernel⟩,
    ⟨ok_of (by decide +kernel), by decide +kernel, by decide +kernel, by decide +kernel, by decide +kernel, by decide +kernel⟩,
    ⟨ok_of (by decide +kernel), by decide +kernel, by decide +kernel⟩, by decide +kernel, by decide +kernel⟩

/-- The last aligned doubleword of the page, by an offset at the end of its range. -/
def farLoad : State := with2 desk 2 0x20FF8 1 7
theorem witness_ScalarLoads :
    farLoad.role ≠ .compute ∧ engineLine farLoad (lineOf 0x5FFF8) = false
      ∧ checkAligned farLoad (me farLoad) farLoad.hart.tenant (effAddr farLoad 2 0x1000) (sizeBytes 6) .read false = .ok (0x5FFF8, ⟨0x5000F, false⟩)
      ∧ checkAligned farLoad (me farLoad) farLoad.hart.tenant (effAddr farLoad 2 0x1000) (sizeBytes 6) .read true = .ok (0x5FFF8, ⟨0x5000F, false⟩)
      ∧ (Instr.ld 1 2 6 0x1000).wf = true ∧ (Instr.lda 1 2 6 0x1000).wf = true ∧ (Instr.ll 1 2 6 0x1000).wf = true := by
  refine ⟨by decide +kernel, by decide +kernel, ok_of (by decide +kernel), ok_of (by decide +kernel), by decide, by decide, by decide⟩

/-- The machine holds a reservation of the doubleword, or of another one. -/
def reserved (a : Word) : State := setResv farLoad (some ⟨a, 8, lineOf 0x5FFF8⟩)
theorem witness_ScalarStoresAndConditional :
    farLoad.role ≠ .compute ∧ Canonical farLoad ∧ engineLine farLoad (lineOf 0x5FFF8) = false
      ∧ checkAligned farLoad (me farLoad) farLoad.hart.tenant (effAddr farLoad 2 0x1000) (sizeBytes 6) .write false = .ok (0x5FFF8, ⟨0x5000F, false⟩)
      ∧ checkAligned (reserved 0x1FFF8) (me farLoad) 0 (effAddr (reserved 0x1FFF8) 2 0x1000) (sizeBytes 6) .write true = .ok (0x5FFF8, ⟨0x5000F, false⟩)
      ∧ (Instr.st 1 2 6 0x1000).wf = true ∧ (Instr.stl 1 2 6 0x1000).wf = true ∧ (Instr.sc 1 2 6 0x1000).wf = true
      ∧ ((reserved 0x1FFF8).strand.resv = some ⟨0x1FFF8, 8, lineOf 0x5FFF8⟩ ∧ effAddr (reserved 0x1FFF8) 2 0x1000 = 0x1FFF8 ∧ sizeBytes 6 = 8)
      ∧ farLoad.strand.resv = none ∧ (reserved 0x1FFF0).strand.resv = some ⟨0x1FFF0, 8, lineOf 0x5FFF8⟩ := by
  refine ⟨by decide +kernel, by unfold Canonical; decide +kernel, by decide +kernel, ok_of (by decide +kernel), ok_of (by decide +kernel), by decide, by decide, by decide,
    by decide +kernel, by decide +kernel, by decide +kernel⟩

/-- An engine owns the line of the access. -/
def deskEngine : State := { farLoad with coh := { farLoad.coh with home := [⟨lineOf 0x5FFF8, .G 1, []⟩] } }
theorem witness_ScalarAccessTrapsAndRoles :
    checkAligned farLoad (me farLoad) farLoad.hart.tenant (effAddr farLoad 2 0x1001) (sizeBytes 6) .read false = .error ⟨7, 0⟩
      ∧ checkAligned deskEngine (me deskEngine) deskEngine.hart.tenant (effAddr deskEngine 2 0x1000) (sizeBytes 6) .read false = .ok (0x5FFF8, ⟨0x5000F, false⟩)
      ∧ engineLine deskEngine (lineOf 0x5FFF8) = true ∧ (half desk .compute).role = .compute := by
  refine ⟨error_of (by decide +kernel), ok_of (by decide +kernel), by decide +kernel, by decide +kernel⟩

theorem witness_BranchesAndDivergence :
    underArmature desk desk.hart.key.launch = false ∧ (getX desk 1 + (0x8000 : BitVec 16).signExtend 64).toNat % 4 = 0
      ∧ (getX desk 1 + (0x7FFF : BitVec 16).signExtend 64).toNat % 4 ≠ 0
      ∧ ((7 : BitVec 5).toNat ≤ 7 ∧ ownsM desk.role ((7 : BitVec 5).setWidth 3) = true)
      ∧ (∃ s : State, s.role = .access ∧ s.hart.q.bqCA = [true]) ∧ (∃ s : State, s.role = .compute ∧ s.hart.q.bqAC = [false])
      ∧ ((Instr.b 5 1 2 0x800).wf = true ∧ launchOf leadHart leadHart.hart.key.launch = some jointLaunch ∧ jointLaunch.seq.isSome = true
        ∧ isLead leadHart leadHart.hart = true)
      ∧ (launchOf otherHart otherHart.hart.key.launch = some jointLaunch ∧ isLead otherHart otherHart.hart = false
        ∧ ({ jointLaunch with outcomes := [] } : Launch).outcomes.find? (fun p => p.1 == otherHart.hart.units) = none
        ∧ jointLaunch.outcomes.find? (fun p => p.1 == otherHart.hart.units) = some (0, 5) ∧ outcomeWord true 4 = 5 ∧ outcomeWord false 4 ≠ 5) := by
  refine ⟨by decide +kernel, by decide +kernel, by decide +kernel, by decide +kernel,
    ⟨{ half desk .access with hart := { desk.hart with q := { desk.hart.q with bqCA := [true] } } }, rfl, rfl⟩,
    ⟨{ half desk .compute with hart := { desk.hart with q := { desk.hart.q with bqAC := [false] } } }, rfl, rfl⟩,
    ⟨by decide, rfl, rfl, by decide +kernel⟩, rfl, by decide +kernel, rfl, by decide +kernel, by decide +kernel, by decide +kernel⟩

/-- The scalar queues filled to their bounds, or with one entry. -/
def queued (r : Role) (n m : Nat) : State :=
  { half desk r with hart := { desk.hart with q := { desk.hart.q with
      xqAC := List.replicate n 1, xqCA := List.replicate n 2, bqAC := List.replicate m true, bqCA := List.replicate m false } } }
theorem witness_ScalarQueueOrder :
    (queued .access 15 31).role = .access ∧ (queued .access 15 31).hart.q.xqAC.length < 16 ∧ (queued .access 1 1).hart.q.xqCA = 2 :: []
      ∧ (queued .access 15 31).hart.q.bqAC.length < 32 ∧ (queued .compute 15 31).role = .compute ∧ (queued .compute 15 31).hart.q.xqCA.length < 16
      ∧ (queued .compute 1 1).hart.q.xqAC = 1 :: [] ∧ (queued .compute 15 31).hart.q.bqCA.length < 32
      ∧ (queued .access 16 32).hart.q.xqAC.length = 16 ∧ (queued .compute 16 32).hart.q.xqCA.length = 16 ∧ (queued .access 0 0).hart.q.xqCA = []
      ∧ (queued .compute 0 0).hart.q.xqAC = [] ∧ (queued .access 16 32).hart.q.bqAC.length = 32 ∧ (queued .compute 16 32).hart.q.bqCA.length = 32
      ∧ (queued .access 0 0).hart.q.bqCA = [] ∧ (queued .compute 0 0).hart.q.bqAC = [] ∧ desk.role = .single := by decide +kernel

/-- A supervisor hart on the desk, with no shootdown running and with one. -/
def chief (shoot : Word) : State :=
  let s := { desk with hart := { desk.hart with supervisor := true } }
  setDie s 0 { dieRec s 0 with sup := { (dieRec s 0).sup with sshoot := shoot } }
theorem witness_ControlRegisters :
    readReg desk 0x020 = some 0 ∧ readReg desk 0x0FF = none ∧ (desk.hart.supervisor = false ∧ 0x800 ≤ (0x800 : BitVec 12).toNat) ∧ (5 : XReg) ≠ 0
      ∧ ((readReg (chief 0) 0x804).isSome = true ∧ (dieRec (chief 0) (myDie (chief 0))).sup.sshoot.getLsbD 55 = false)
      ∧ ((readReg (chief 0x80000000000000) 0x804).isSome = true ∧ (dieRec (chief 0x80000000000000) (myDie (chief 0))).sup.sshoot.getLsbD 55 = true)
      ∧ (half desk .access).role ≠ .single ∧ desk.role = .single ∧ (chief 0).hart.supervisor = true := by decide +kernel

/-- The handler on, off, entered by the other strand, and entered by this one with a convoy set aside or not. -/
def handlerAt (uivec ucause : Word) : State := { desk with hart := { desk.hart with cr := { desk.hart.cr with uivec := uivec, ucause := ucause } } }
theorem witness_TrapsAndReturn :
    (chief 0).hart.supervisor = true ∧ (desk.hart.supervisor = false ∧ underArmature desk desk.hart.key.launch = false)
      ∧ (leadHart.hart.supervisor = false ∧ underArmature leadHart leadHart.hart.key.launch = true)
      ∧ ((handlerAt 1 0).hart.cr.ucause.getLsbD 63 = false ∧ (handlerAt 1 0).hart.cr.uivec.getLsbD 0 = true) ∧ (handlerAt 0 0).hart.cr.uivec.getLsbD 0 = false
      ∧ inHandler (handlerAt 1 0x8000000000000000) = true
      ∧ ((handlerAt 1 0xC000000000000000).hart.cr.ucause.getLsbD 63 = true ∧ inHandler (handlerAt 1 0xC000000000000000) = false)
      ∧ desk.role ≠ .compute ∧ (handlerAt 1 0x8000000000000000).strand.aside.isNone = true ∧ inHandler desk = false := by decide +kernel

/-- A vector instruction alone in flight, its slot as dispatch captures it. -/
def running (s : State) (i : Instr) : State := setConvoy s (some [capture s i])

theorem runs_of (s : State) (i : Instr) : RunsSlot (running s i) i [capture s i] 0 (capture s i) :=
  ⟨rfl, rfl, rfl, by simp [beyond, within, capture]⟩

/-- Whether no queue operand makes the strand wait. -/
def readyB (s : State) (i : Instr) (_k : Slot) : Bool :=
  (sourcesOf i).all (fun q => (popStall s q).isNone) && (match destOf i with | none => true | some q => (pushStall s q).isNone)

theorem ready_of {s : State} {i : Instr} {k : Slot} (h : readyB s i k = true) : OperandsReady s i k := by
  simp only [readyB, Bool.and_eq_true, List.all_eq_true] at h
  refine ⟨fun q hq => by simpa using h.1 q hq, fun _ q hq => ?_⟩
  have := h.2
  rw [hq] at this
  simpa using this

/-- Whether an instruction in flight on a machine meets what the element-wise statements ask of it. -/
def readyFor (s : State) (i : Instr) : Bool :=
  i.wf && !(positions (running s i)).isEmpty && readyB (running s i) i (capture s i)

/-- What `readyFor` says in the statements' words. -/
theorem readyFor_iff {s : State} {i : Instr} (h : readyFor s i = true) :
    i.wf = true ∧ RunsSlot (running s i) i [capture s i] 0 (capture s i) ∧ positions (running s i) ≠ []
      ∧ OperandsReady (running s i) i (capture s i) := by
  simp only [readyFor, Bool.and_eq_true] at h
  exact ⟨h.1.1, runs_of s i, by simpa using h.1.2, ready_of h.2⟩

/-- Whether an element reaches the listed bytes. -/
def reachB (s : State) (site : Site) (a : Access) (strict : Bool) (pas : List Nat) : Bool :=
  (match checkSite s site a strict with | .ok p => p.1 == pas | .error _ => false) && (linesOf pas).all (fun x => !engineLine s x)

/-- The leaf of an element's page. -/
def leafAt (s : State) (site : Site) (a : Access) (strict : Bool) : Leaf :=
  match checkSite s site a strict with
  | .ok p => p.2
  | .error _ => ⟨0, false⟩

theorem reach_of {s : State} {site : Site} {a : Access} {strict : Bool} {pas : List Nat} (h : reachB s site a strict pas = true) :
    Reaches s site a strict pas (leafAt s site a strict) := by
  simp only [reachB, Bool.and_eq_true, List.all_eq_true] at h
  obtain ⟨h1, h2⟩ := h
  split at h1
  · rename_i p hp
    refine ⟨?_, fun x hx => by simpa using h2 x hx⟩
    rw [leafAt, hp]; simp only [beq_iff_eq] at h1; rw [← h1]
  · simp at h1

/-! ### Strips and grants -/

/-- The access strand with the compute strand at its own `vsetvl`, or elsewhere. -/
def coupledAccess (st : Option Stall) : State :=
  { half desk .access with mate := some { Strand.start 0x100 with stall := st } }
/-- The compute strand with the access strand n strips ahead. -/
def mateAt (n : Nat) : State := { half desk .compute with mate := some { Strand.start 0x100 with strips := n } }

theorem witness_VsetvlOpensAdoptsTrapsAndWaits :
    (desk.strand.portable = false ∧ desk.role ≠ .compute ∧ (8 : BitVec 4).toNat ≤ 8 ∧ mayRelay desk = true) ∧
    (getX (with2 desk 2 5 3 0x2480) 3 = (0 : BitVec 49) ++ (4 : BitVec 4) ++ (4 : BitVec 3) ++ (2 : BitVec 2) ++ (0 : BitVec 6)
      ∧ (4 : BitVec 4).toNat ≤ 8) ∧
    ((mateAt 1).strand.portable = false ∧ (mateAt 1).role = .compute ∧ (mateAt 1).strand.strips < 1 ∧ (0 : Nat) ≤ (mateAt 0).strand.strips) ∧
    (8 < (9 : BitVec 4).toNat ∧ (getX (with2 desk 3 0x8000 2 0) 3).extractLsb' 15 49 ≠ 0 ∧ (getX (with2 desk 3 1 2 0) 3).extractLsb' 0 6 ≠ 0
      ∧ 8 < ((getX (with2 desk 3 0x4800 2 0) 3).extractLsb' 11 4).toNat) ∧
    ((coupledAccess none).role = .access ∧ (coupledAccess none).hart.streams.isEmpty = true
      ∧ grantDiffers (negotiate (coupledAccess none) 8 16) (coupledAccess none).hart.grant = true ∧ mayRelay (coupledAccess none) = false
      ∧ mayRelay (coupledAccess (some .mateVsetvl)) = true) := by decide +kernel

def mygar : State := { desk with strand := { desk.strand with portable := true } }
theorem witness_SetshapeOpensAStrip :
    (Instr.setshape 7 6 8 3 7).wf = true ∧ desk.strand.portable = false ∧ mygar.strand.portable = true ∧ mygar.role ≠ .compute ∧ mayRelay mygar = true := by
  decide +kernel

/-- A core of two harts, the other one holding seven groups, short or not. -/
def shared (short : Bool) : State :=
  { desk with parked := [⟨{ desk.hart with id := 1, key := ⟨0, 0, 1⟩, grant := ⟨8, 16, 7, 8, 16384, short⟩ }, Strand.start 0, none⟩] }
theorem witness_GrantWithinCore :
    (8 ≤ 8 ∧ 9 ≤ 16 ∧ 16 ≤ 16) ∧ (negotiate desk 8 16).vlen = 32768 * 2 ∧ (negotiate (shared false) 8 9).vlen = 512 ∧ (negotiate desk 0 9).vlen = 0
      ∧ (((coreHarts (shared true) 0 0).filter (fun h => h.id != 0)).map (·.grant)).any (·.short) = true := by decide +kernel

/-! ### Synchronisation and launches -/

/-- The hart's launch with a barrier arrival, and a claimed channel with frontier F. -/
def members (count : Nat) (out : Bool) (front : Int) (posted : List Int) : State :=
  let k : HartKey := desk.hart.key
  { with2 desk 1 64 2 0 with sched := { desk.sched with
      arrivals := [⟨⟨0, 2, 0, 0, 5⟩, k, count, out⟩], channels := [⟨0, 0, 31, front, posted⟩] } }
/-- Both harts of a joint launch have arrived, and the focused one has been let go. -/
def metLaunch : Launch := { jointLaunch with passed := [(⟨1, 0, 0⟩, 0)] }
theorem witness_SynchronisationAndFrontier :
    desk.role ≠ .compute ∧ (Instr.fence 4).wf = true ∧ (Instr.barArrive 5 2).wf = true ∧ (2 : BitVec 3) ≠ 3
      ∧ (arrivalOf (members 0 false 0 []) (barrierKey (members 0 false 0 []) 5 2) desk.hart.key).outstanding = false
      ∧ ((arrivalOf (members 0 true 0 []) (barrierKey (members 0 true 0 []) 5 2) desk.hart.key).outstanding = true ∧ 0 ≤ phaseOf (members 0 true 0 []) (barrierKey desk 5 2))
      ∧ (underArmature (joint ⟨1, 0, 0⟩ metLaunch) 1 = true ∧ (meet (joint ⟨1, 0, 0⟩ metLaunch)).2 = true)
      ∧ (channelOf (members 0 true 0 []) 31 = some ⟨0, 0, 31, 0, []⟩ ∧ (getX (members 0 true 0 []) 1).toInt ≤ 0 + 64 ∧ (getX (members 0 true 0 []) 2).toInt ≤ 0)
      ∧ ((getX desk 2).extractLsb' 44 20 = 0 ∧ { desk with hart := { desk.hart with latchValid := true } }.hart.latchValid = true)
      ∧ (∀ k ∈ ([2, 64] : List Int), (0 : Int) < k) := by decide +kernel
theorem witness_SynchronisationWaitsAndTraps :
    desk.role ≠ .compute ∧ underArmature desk desk.hart.key.launch = false
      ∧ (arrivalOf (members 1 true (-1) []) (barrierKey (members 1 true (-1) []) 5 2) desk.hart.key).outstanding = true
      ∧ (arrivalOf desk (barrierKey desk 5 2) desk.hart.key).outstanding = false
      ∧ phaseOf (members 1 true (-1) []) (barrierKey desk 5 2) < 1
      ∧ channelOf desk 31 = none ∧ (channelOf (members 1 true (-1) []) 31 = some ⟨0, 0, 31, -1, []⟩ ∧ (-1 : Int) + 64 < (getX (members 1 true (-1) []) 1).toInt
        ∧ (-1 : Int) < (getX (members 1 true (-1) []) 2).toInt)
      ∧ ((getX (with2 desk 2 0x100000000000 3 0) 2).extractLsb' 44 20 ≠ 0) ∧ ((getX desk 2).extractLsb' 44 20 = 0 ∧ desk.hart.latchValid = false) := by
  decide +kernel

/-- A launch record: coupled, one crew of one hart, one level of kind 0, on the dies of a mask. -/
def record (crew nlev dies cword pc1 kind : Nat) : BitVec 2048 :=
  BitVec.ofNat 2048 (64 * 0 + pc1 * 2 ^ 64 + cword * 2 ^ 128 + dies * 2 ^ 448 + crew * 2 ^ 461 + 1 * 2 ^ 464 + nlev * 2 ^ 487 + 1 * 2 ^ 576 + kind * 2 ^ 624)
/-- The machine with n incomplete launches of its hart, each on the completion word 0x10000, and the record's bytes at 0x10000. -/
def issuer (n : Nat) (r : BitVec 2048) : State :=
  let l : Launch := { jointLaunch with id := 9, seq := none, issuer := .hart desk.hart.key, record := record 1 1 1 0x10000 0 0 }
  setMem { with2 desk 2 0x10000 3 0 with sched := { desk.sched with launches := List.replicate n l } } (desk.mem.writeNat 0x50000 256 r.toNat)
theorem witness_LaunchAndRefusal :
    desk.role ≠ .compute ∧ (underArmature (issuer 31 (record 1 1 1 0x10000 0 0)) 0 = false ∧ (myLaunches (issuer 31 (record 1 1 1 0x10000 0 0))).length < 32
      ∧ (getX (issuer 31 0) 2).toNat % 256 = 0
      ∧ (match checkRange (issuer 0 0) (me desk) 0 0x10000 256 .read false with
          | .ok p => p.1 == (List.range 256).map (0x50000 + ·) && (linesOf p.1).all (fun x => !engineLine (issuer 0 0) x)
          | .error _ => false) = true)
      ∧ refusalCode desk (record 1 1 1 0x10000 0 0) = 0 ∧ refusalCode desk (record 5 1 1 0x10000 0 0) = 1
      ∧ underArmature (leadHart) leadHart.hart.key.launch = true ∧ 32 ≤ (myLaunches (issuer 32 0)).length
      ∧ okB (checkAligned (issuer 0 0) (me desk) 0 0x10000 8 .read false) = true
      ∧ ((issuer 1 0).sched.launches.any (fun l => (headerOf l.record).cword == 0x10000)) = true
      ∧ (rangeBad (record 1 1 1 0x10001 0 0) = false ∧ (headerOf (record 1 1 1 0x10001 0 0)).cword.toNat % 8 ≠ 0)
      ∧ (addressBad (record 1 1 1 0x10000 4 0) = false ∧ (headerOf (record 1 1 1 0x10000 4 0)).pc1 ≠ 0)
      ∧ (modeBad (record 1 1 1 0x10000 0 3) = false ∧ loopBad (record 1 1 1 0x10000 0 3) = true)
      ∧ (loopBad (record 1 1 0 0x10000 0 0) = false ∧ (headerOf (record 1 1 0 0x10000 0 0)).dies = 0) := by decide +kernel
theorem witness_HartExit :
    desk.mate.isNone = true ∧ ({ Strand.start 0 with hexited := true }.hexited = true) ∧ (half desk .access).mate.map (·.hexited) = some false := by
  decide +kernel

/-! ### Convoys -/

/-- The words of `mset m1, 1`, with a header of one VM slot. -/
def msetWord : BitVec 64 := 0b000011_000001_000000_000000_000000_000_0_00000_00000_000110_00000000000001
/-- A copy whose descriptor stands on a line that an engine owns. -/
def waitsDesk : State := { with2 desk 2 0x10000 3 0 with coh := { desk.coh with home := [⟨0xA00, .G 1, []⟩] } }
theorem witness_ConvoysDispatch :
    (decodeSlots 0b100_000_000_000_000_000 [(encodeVec (.cpy 2)).getD 0] 0 = .ok [.cpy 2] ∧ dispatchWait waitsDesk [.cpy 2] = some 0xA00
      ∧ dispatchWait desk [.mset 1 true] = none) ∧
    (errOf (decodeSlots 0b011_001_000_000_000_000 [msetWord, msetWord] 0)).map (·.1) = some 1 ∧
    desk.strand.convoy.isNone = true ∧ headerOk 1 0b011_000_000_000_000_000 = true ∧ ([msetWord] : List (BitVec 64)).length = (1 : BitVec 3).toNat
      ∧ decodeSlots 0b011_000_000_000_000_000 [msetWord] 0 = .ok [.mset 1 true] ∧ okB (dispatch desk [.mset 1 true]) = true
      ∧ (errOf (dispatch (half desk .access) [.mset 1 true])).isSome = true ∧ headerOk 0 0 = false ∧ headerOk 7 0 = false
      ∧ (infoOf (.mset 1 true)).isSome = true := by
  refine ⟨⟨ok_of (by decide +kernel), by decide +kernel, by decide +kernel⟩, by decide +kernel, by decide +kernel, by decide, by decide, ok_of (by decide +kernel), by decide +kernel, by decide +kernel, by decide, by decide, by decide⟩

/-- A strip of two 64-bit elements with x9 = 2 in the format word's place (an illegal word), and x2 at a descriptor off its alignment. -/
def badFmt : State := with2 (strip desk 2 3) 9 0xFFFFFFFFFFFFFFFF 2 1
theorem witness_DispatchChecksAndCaptures :
    okB (dispatch (strip desk 2 3) [.vrand 1 ⟨0, false⟩ 0, .mset 1 true]) = false ∧ okB (dispatch (strip desk 2 3) [.mset 1 true, .vmv 1 2 ⟨0, false⟩]) = true
      ∧ slotIllegal (half desk .access) (capture (half desk .access) (.mset 6 true)) = none
      ∧ slotIllegal (half desk .access) (capture (half desk .access) (.mset 1 true)) = some 0
      ∧ slotIllegal badFmt (capture badFmt (.vadd 1 2 (.vec 3) ⟨0, false⟩ 9)) = none
      ∧ (slotFmt badFmt (capture badFmt (.vadd 1 2 (.vec 3) ⟨0, false⟩ 9))).isSome = true
      ∧ slotFmt badFmt (capture badFmt (.cpy 2)) = none ∧ (errOf (dispatchRead badFmt [] (capture badFmt (.cpy 2)))).isSome = true := by decide +kernel

theorem witness_SlotCompletion :
    let k := capture desk (.mset 1 true)
    0 < [k].length ∧ (∃ (m : Nat) (j : Slot), [k, k][m]? = some j ∧ m ≠ 0 ∧ j.done = false) := by
  refine ⟨by decide, 1, _, rfl, by decide, rfl⟩

/-- A slot that is asked to stop, in flight on a strip of eight elements; where the free stop point is 0 all of them stay for later. -/
def stopping (i : Instr) : Slot := { capture (strip desk 8 3) i with stop := some 0 }
theorem witness_StopsInPart (i : Instr) (h : Config.stopPoint 0 0 = 0) : beyond (running (strip desk 8 3) i) (stopping i) ≠ [] := by
  have hp : 0 ∈ positions (running (strip desk 8 3) i) := by
    have : positions (running (strip desk 8 3) i) = positions (strip desk 8 3) := rfl
    rw [this]; decide +kernel
  have hw : within (running (strip desk 8 3) i) (stopping i) 0 = false := by
    have hb : ∀ j : Fin 8, begunIn (running (strip desk 8 3) i) (stopping i) j = 0 := fun j => by
      simp [begunIn, stopping, capture]
    have hk : (stopping i).stop = some 0 := rfl
    have hm : (List.finRange 8).map (begunIn (running (strip desk 8 3) i) (stopping i)) = List.replicate 8 0 := by
      rw [show begunIn (running (strip desk 8 3) i) (stopping i) = fun _ => 0 from funext hb]; rfl
    have hg : groupOf (lanesOf (running (strip desk 8 3) i)) 0 = 0 := by simp [groupOf]
    generalize running (strip desk 8 3) i = u at hb hm hg ⊢
    simp [within, hk, hm, hb, hg, h]
  exact List.ne_nil_of_mem (List.mem_filter.mpr ⟨hp, by rw [hw]; rfl⟩)
theorem witness_stop_operands :
    ([.vadd 1 2 (.vec 3) ⟨0, false⟩ 0, .vcvt 1 2 ⟨0, false⟩ 0, .vcmp 7 2 (.vec 3) 5 ⟨0, false⟩ 0] : List Instr).all (readyFor (strip desk 8 3)) = true
      ∧ (strip desk 8 3).hart.grant.groups ≤ 8 ∧ ∀ e ∈ positions (strip desk 8 3), e < 8192 := by decide +kernel

/-! ### Vector instructions -/

/-- Eight 64-bit elements, every one at its bound: a strip of the whole VLEN. -/
def lane : State := strip desk 8 3
/-- FP32 in every field of the format word in x7. -/
def laneF : State := with2 (strip desk 8 3) 7 0x0000000000B5AD6B 9 3

theorem witness_VectorArithmetic : ([.vadd 1 2 (.vec 3) ⟨0, false⟩ 0, .vsub 1 2 (.scl 3) ⟨1, true⟩ 0, .vmul 1 2 (.vec 3) ⟨7, false⟩ 0, .vmulh 1 2 (.vec 3) ⟨0, false⟩ 0,
    .vdiv 1 2 (.vec 3) ⟨0, false⟩ 0, .vrem 1 2 (.vec 3) ⟨0, false⟩ 0, .vsqrt 31 2 ⟨0, false⟩ 7, .vrcp 1 2 ⟨0, false⟩ 7, .vrsqrt 1 2 ⟨0, false⟩ 7, .vexp2 1 2 ⟨0, false⟩ 7,
    .vlog2 1 2 ⟨0, false⟩ 7, .vfma 1 2 (.vec 3) 4 ⟨0, false⟩ 0, .vfms 1 2 (.vec 3) 4 ⟨0, false⟩ 0, .vfnma 1 2 (.vec 3) 4 ⟨0, false⟩ 0, .vmin 1 2 (.vec 3) ⟨0, false⟩ 0,
    .vmax 1 2 (.vec 3) ⟨0, false⟩ 0, .vabs 1 2 ⟨0, false⟩ 0, .vneg 1 2 ⟨0, false⟩ 0] : List Instr).all (readyFor laneF) = true := by decide +kernel
theorem witness_VectorLogicAndSpecial : ([.vcvt 1 2 ⟨0, false⟩ 0, .vand 1 2 (.vec 3) ⟨0, false⟩ 0, .vor 1 2 (.vec 3) ⟨0, false⟩ 0, .vxor 1 2 (.vec 3) ⟨0, false⟩ 0,
    .vsll 1 2 (.scl 3) ⟨0, false⟩ 0, .vsrl 1 2 (.vec 3) ⟨0, false⟩ 0, .vsra 1 2 (.vec 3) ⟨0, false⟩ 0, .vclz 1 2 ⟨0, false⟩ 0, .vpopc 1 2 ⟨0, false⟩ 0, .vclass 1 2 ⟨0, false⟩ 7,
    .vrand 1 ⟨0, false⟩ 7, .vsmfin 1 2 3 ⟨0, false⟩ 7] : List Instr).all (readyFor laneF) = true := by decide +kernel
theorem witness_CompareAndPrune :
    ([.vcmp 7 2 (.vec 3) 5 ⟨0, false⟩ 0, .vprune 7 2 3 true 9 ⟨0, false⟩ 7, .vprune 7 2 0 false 9 ⟨0, false⟩ 7] : List Instr).all (readyFor laneF) = true
      ∧ 64 * 7 + 64 ≤ 65536 := by decide +kernel
theorem witness_MaskInstructions :
    desk.strand.portable = false ∧ ((8 : Nat) < 8192 ∧ RunsSlot (running lane (.mfirst 1 7)) (.mfirst 1 7) [capture lane (.mfirst 1 7)] 0 (capture lane (.mfirst 1 7)))
      ∧ (∀ e, e < 8 → (getM lane 7).getLsbD e = false) ∧ (getM (setM lane 7 0x80) 7).getLsbD 7 = true ∧ (∀ j, j < 7 → (getM (setM lane 7 0x80) 7).getLsbD j = false) := by
  refine ⟨by decide +kernel, ⟨by decide, runs_of _ _⟩, by decide +kernel, by decide +kernel, by decide +kernel⟩
theorem witness_CopiesAndCounts : lane.strand.portable = false ∧ ([.vmv 1 2 ⟨0, false⟩, .vbcast 1 9 ⟨7, true⟩, .vprefixpop 1 7 ⟨0, false⟩, .vconflict 1 2 ⟨0, false⟩] : List Instr).all
    (readyFor lane) = true := by decide +kernel
theorem witness_Permutes : lane.strand.portable = false ∧ ([.vslideup 1 2 9 0x3FFF ⟨0, false⟩, .vslidedn 1 2 9 0 ⟨0, false⟩, .vperm 1 2 3 ⟨0, false⟩, .vmerge 1 2 3 ⟨1, false⟩,
    .viota 1 ⟨1, true⟩, .vcompress 1 2 ⟨1, false⟩, .vexpand 1 2 ⟨1, false⟩] : List Instr).all (readyFor lane) = true
      ∧ ewBits lane * 1023 + ewBits lane ≤ 65536 := by decide +kernel
theorem witness_ScansAndReductions : lane.strand.portable = false ∧ ([.vscan 1 2 7 true 5 ⟨0, false⟩ 0, .vscanf 1 2 0 false 0 ⟨0, false⟩ 7, .vred 1 2 9 0 ⟨0, false⟩ 0,
    .vredf 1 2 9 0 ⟨0, false⟩ 7] : List Instr).all (readyFor laneF) = true
      ∧ (activeOf (running lane (.vred 1 2 9 0 ⟨0, false⟩ 0)) (capture lane (.vred 1 2 9 0 ⟨0, false⟩ 0)) ⟨0, false⟩).isEmpty = false
      ∧ (activeOf (running lane (.vred 1 2 9 0 ⟨1, false⟩ 0)) (capture lane (.vred 1 2 9 0 ⟨1, false⟩ 0)) ⟨1, false⟩).isEmpty = true := by decide +kernel
theorem witness_ZeroLength : desk.strand.vl = 0 ∧ desk.strand.portable = false
      ∧ ([.vadd 1 2 (.vec 3) ⟨0, false⟩ 0, .vcmp 1 2 (.vec 3) 0 ⟨0, false⟩ 0, .vmv 1 2 ⟨0, false⟩, .vld 1 2 3 0 ⟨0, false⟩, .vwait 1 2 3 4 0 0 ⟨0, false⟩] : List Instr).all
        (fun i => i.wf && (infoOf i).any (fun v => (v.unit ≤ 3 && v.xd.isNone) || (v.unit == 4 && (!v.srcs.isEmpty || v.dst.isSome)))) = true := by decide +kernel

/-! ### Vector memory -/

/-- A strip of eight 64-bit elements with x2 = a at its slots, and x3 = v. -/
def memLane (a v : Word) : State := with2 lane 2 a 3 v
/-- The slot of an instruction in flight. -/
def slotOf (s : State) (i : Instr) : Slot := capture s i
/-- Whether every active element reaches the bytes that a function gives. -/
def allReach (s : State) (i : Instr) (g : Gov) (site : State → Slot → Nat → Site) (a : Access) (strict : Bool) (pas : Nat → List Nat) : Bool :=
  (activeOf (running s i) (slotOf s i) g).all (fun e => reachB (running s i) (site (running s i) (slotOf s i) e) a strict (pas e))
/-- n bytes from a on. -/
def span (a n : Nat) : List Nat := (List.range n).map (a + ·)
/-- The index vector 0, 8, 16 … scaled by `step` in v4. -/
def indexed (s : State) (step : Nat) : State := vec s 4 64 ((List.range 8).map (step * ·))
/-- A die base table at 0x10000 whose entry 0 is 0x18000, and indices 8e with table entry 0. -/
def tabled (v : Nat) : State := indexed (put8 (memLane 0x10000 8) 0 v) 8

theorem witness_VectorLoadsAtTheirAddresses :
    (lane.strand.portable = false ∧ (0 : BitVec 3) ≠ 4)
      ∧ (let i := Instr.vld 1 2 3 0 ⟨0, false⟩; readyFor (memLane 0x1FFC0 0) i = true
        ∧ allReach (memLane 0x1FFC0 0) i ⟨0, false⟩ (fun s k => unitSite s k 3 0) .read false (fun e => span (0x5FFC0 + 8 * e) 8) = true)
      ∧ (let i := Instr.vld 1 2 4 1 ⟨0, false⟩; readyFor { memLane 0x10000 0 with strand := { (memLane 0x10000 0).strand with ew := 0 } } i = true)
      ∧ (let i := Instr.vldff 1 2 3 8 ⟨0, false⟩; readyFor (memLane 0x10000 0) i = true
        ∧ allReach (memLane 0x10000 0) i ⟨0, false⟩ (fun s k => unitSite s k 3 8) .read false (fun e => span (0x50008 + 8 * e) 8) = true)
      ∧ (let i := Instr.vlds 1 2 3 3 0 ⟨0, false⟩; readyFor (memLane 0x1FFF8 (-16)) i = true
        ∧ allReach (memLane 0x1FFF8 (-16)) i ⟨0, false⟩ (fun s k => strideSite s k 3 0) .read false (fun e => span (0x5FFF8 - 16 * e) 8) = true)
      ∧ ([Instr.vldx 1 2 4 3 false 0 ⟨0, false⟩, .vldxo 1 2 4 3 false 0 ⟨0, false⟩].all (fun i => readyFor (indexed (memLane 0x10000 0) 16) i
        && allReach (indexed (memLane 0x10000 0) 16) i ⟨0, false⟩ (fun s k => gatherSite s k 4 false 0) .read false
          (fun e => span (0x50000 + 16 * e) 8))) = true := by decide +kernel

/-- A gather by the die base table that the convoy has read (R164). -/
def gathering (v : Nat) : State × Slot :=
  let i := Instr.vldx 1 2 4 3 true 0 ⟨0, false⟩
  match dispatch (tabled v) [i] with
  | .ok t => (t, ((t.strand.convoy.getD []).headD (capture t i)))
  | .error _ => (desk, capture desk i)
theorem witness_gather_by_table :
    let p := gathering 0x18000
    remoteLoad p.1 p.2 4 true ⟨0, false⟩ = false ∧ (positions p.1).isEmpty = false ∧ p.2.pushed = false
      ∧ (activeOf p.1 p.2 ⟨0, false⟩).all (fun e => reachB p.1 (gatherSite p.1 p.2 4 true 0 e) .read false (span (0x58000 + 8 * e) 8)) = true
      ∧ (gatherSite (gathering 0).1 (gathering 0).2 4 true 0 0).void = true := by decide +kernel

theorem witness_VectorStores : ([.vst 1 2 3 0 ⟨0, false⟩, .vst 1 2 4 0 ⟨0, false⟩, .vsts 1 2 3 3 0 ⟨0, false⟩, .vstx 1 2 4 3 false 0 ⟨0, false⟩, .vstxo 1 2 4 3 false 0 ⟨0, false⟩]
      : List Instr).all (readyFor (indexed (memLane 0x10000 24) 0)) = true
    ∧ allReach (memLane 0x1FFC0 0) (.vst 1 2 3 0 ⟨0, false⟩) ⟨0, false⟩ (fun s k => unitSite s k 3 0) .write false (fun e => span (0x5FFC0 + 8 * e) 8) = true
    ∧ allReach (memLane 0x10000 0) (.vsts 1 2 3 3 0 ⟨0, false⟩) ⟨0, false⟩ (fun s k => strideSite s k 3 0) .write false (fun _ => span 0x50000 8) = true
    ∧ ([Instr.vstx 1 2 4 3 false 0 ⟨0, false⟩, .vstxo 1 2 4 3 false 0 ⟨0, false⟩].all (fun i =>
        allReach (indexed (memLane 0x10000 0) 0) i ⟨0, false⟩ (fun s k => gatherSite s k 4 false 0) .write false (fun _ => span 0x50000 8))) = true
    ∧ (memLane 0x10000 0).mem.wf = true := by decide +kernel

/-- Whether a range is accessible at the listed bytes, no engine owning a line of them. -/
def canB (s : State) (a : Word) (n : Nat) (acc : Access) (pas : List Nat) : Bool :=
  (match checkRange s (me s) s.hart.tenant a n acc false with | .ok p => p.1 == pas | .error _ => false) && (linesOf pas).all (fun y => !engineLine s y)
theorem witness_WholeMoves : lane.strand.portable = false ∧ lane.strand.vl ≠ 0 ∧ lane.mem.wf = true
    ∧ (let s := memLane 0x1FFFF 0
       canB (running s (.vldm 7 2 0)) 0x1FFFF 1 .read (span 0x5FFFF 1) = true ∧ canB (running s (.vstm 7 2 0)) 0x1FFFF 1 .write (span 0x5FFFF 1) = true
         ∧ errOf (checkRange (running s (.vldm 7 2 1)) (me s) 0 (0x1FFFF + 1) 1 .read false) = some (⟨3, 2⟩, 0x20000))
    ∧ (let s := memLane 0x1FFC0 0
       canB (running s (.vfill 31 2)) 0x1FFC0 64 .read (span 0x5FFC0 64) = true ∧ canB (running s (.vspill 31 2)) 0x1FFC0 64 .write (span 0x5FFC0 64) = true
         ∧ (slotOf s (.vfill 31 2)).xsv.toNat % 64 = 0)
    ∧ (slotOf (memLane 0x10020 0) (.vspill 0 2)).xsv.toNat % 64 ≠ 0 ∧ (span 0x5FFC0 64).Nodup := by decide +kernel
theorem witness_VectorFaults :
    let i := Instr.vld 1 2 3 0 ⟨0, false⟩
    let s := memLane 0x1FFE0 0
    let site := unitSite (running s i) (slotOf s i) 3 0
    readyFor s i = true ∧ errOf (checkSite (running s i) (site 4) .read false) = some ⟨3, 2⟩
      ∧ ((List.range 4).all (fun j => okB (checkSite (running s i) (site j) .read false)) = true)
      ∧ (engineIn (running s i) (planOf (running s i) false site .read false (activeOf (running s i) (slotOf s i) ⟨0, false⟩)).commit).isNone = true
      ∧ (activeOf (running s i) (slotOf s i) ⟨0, false⟩).contains 4 = true := by decide +kernel
theorem witness_LinkedAccesses :
    let s := indexed (memLane 0x10000 0) 8
    ([.vgl 1 2 4 0 ⟨0, false⟩, .vsc 1 5 2 4 0 ⟨0, false⟩, .vscc 1 5 2 4 0 false 0 ⟨0, false⟩ 0] : List Instr).all (readyFor s) = true
      ∧ allReach s (.vgl 1 2 4 0 ⟨0, false⟩) ⟨0, false⟩ (fun s k => indexSite s k.xsv 4) .read true (fun e => span (0x50000 + 8 * e) 8) = true
      ∧ allReach s (.vsc 1 5 2 4 0 ⟨0, false⟩) ⟨0, false⟩ (fun s k => indexSite s k.xsv 4) .write true (fun e => span (0x50000 + 8 * e) 8) = true
      ∧ allReach s (.vscc 1 5 2 4 0 false 0 ⟨0, false⟩ 0) ⟨0, false⟩ (fun s k => indexSite s k.xsv 4) .write true (fun e => span (0x50000 + 8 * e) 8) = true := by
  decide +kernel

/-- A sequence block table at 0x10000 of eight positions in blocks of four, a stride of 8 and n blocks, its entries 0x18000 and 0x19000, and the
positions 0, step, 2 step and so on. -/
def tableLane (n step : Nat) : State :=
  indexed (put8 (put8 (put8 (put8 (memLane 0x10000 0) 0 8) 8 (n + 2 ^ 32 * 2 + 2 ^ 40 * 8)) 64 0x18000) 72 0x19000) step
/-- The look-up of an element's position. -/
def lookOf (s : State) (i : Instr) (e : Nat) : Except (Fail × Word) (List Nat × Option Word) :=
  let t := running s i
  lookUp t (me t) t.hart.tenant (slotOf s i).xsv (elemOf (getV t 4) 64 e) true
/-- Whether an element is translated and its loads reach no line of an engine. -/
def mapped (s : State) (i : Instr) (e : Nat) : Bool :=
  match lookOf s i e with
  | .ok (p, some _) => (linesOf p).all (fun y => !engineLine (running s i) y)
  | _ => false
/-- Whether its position is out of range. -/
def beyond (s : State) (i : Instr) (e : Nat) : Bool :=
  match lookOf s i e with
  | .ok (_, none) => true
  | _ => false
/-- Eight doublewords to wait for at 0x10000 + 8e, equal to those of v6 but for element 7, and the timeout in x2. -/
def waiter (limit : Word) : State := vec (vec (with2 (put8 lane 56 1) 2 limit 3 0) 4 64 ((List.range 8).map (fun e => 0x10000 + 8 * e))) 6 64 []
theorem witness_TranslateAndWait :
    (([.vxlate 1 4 2 ⟨0, false⟩, .vxlateff 1 4 2 ⟨0, false⟩] : List Instr).all (fun i =>
        readyFor (tableLane 2 1) i && (List.range 8).all (mapped (tableLane 2 1) i))) = true
      ∧ (let i := Instr.vxlateff 1 4 2 ⟨0, false⟩
         readyFor (tableLane 2 2) i = true ∧ beyond (tableLane 2 2) i 4 = true ∧ (List.range 4).all (mapped (tableLane 2 2) i) = true)
      ∧ (([0, 5, 0xFFFFFFFFFFFFFFFF] : List Word).all (fun l => readyFor (waiter l) (.vwait 1 4 6 2 1 0 ⟨0, false⟩)
        && (let t := running (waiter l) (.vwait 1 4 6 2 1 0 ⟨0, false⟩)
          (List.range 8).all (fun e => match checkSite t (plainSite (BitVec.ofNat 64 (elemOf (getV t 4) 64 e)) 8) .read false with
            | .ok p => p.1 == span (0x50000 + 8 * e) 8 && waitHolds 0 64 (readPas t.mem p.1) (elemOf (getV t 6) 64 e) == decide (e ≠ 7)
            | .error _ => false)))) = true := by decide +kernel

/-! ### Commands -/

/-- The hart with n incomplete engine commands on completion word 0. -/
def busyWith (n : Nat) : State :=
  { memLane 0x10000 0 with sched := { lane.sched with
      commands := List.replicate n { id := 0, hart := lane.hart.key, access := false, kind := 0, desc := 0, tenant := 0, die := 0, lines := [], word := none } } }
theorem witness_CommandSlots :
    (let s := memLane 0x10000 0x1000
     let i := Instr.smap 2 3 16
     RunsSlot (running s i) i [capture s i] 0 (capture s i)
       ∧ (List.range 16).all (fun j => okB (checkPage (running s i) (me s) 0 ((capture s i).xsv + BitVec.ofNat 64 (4096 * j)) .read true)) = true)
      ∧ (let s := memLane 0x1F000 0
         let i := Instr.smap 2 3 2
         okB (checkPage (running s i) (me s) 0 (capture s i).xsv .read true) = true
           ∧ errOf (checkPage (running s i) (me s) 0 ((capture s i).xsv + BitVec.ofNat 64 4096) .read true) = some ⟨3, 2⟩)
      ∧ lane.strand.vl ≠ 0
      ∧ ((busyWith 31).sched.commands.filter (fun c => c.hart == (busyWith 31).hart.key)).length < 32
      ∧ 32 ≤ ((busyWith 32).sched.commands.filter (fun c => c.hart == (busyWith 32).hart.key)).length
      ∧ ((busyWith 1).sched.commands.any (fun c => c.hart == lane.hart.key && c.desc.extractLsb' 0 64 == (capture (busyWith 1) (.cpywait 1 0)).xsv)) = true
      ∧ ((busyWith 1).sched.commands.all (fun c => c.desc.extractLsb' 0 64 != (capture (busyWith 1) (.cpywait 1 2)).xsv)) = true
      ∧ (match checkAligned (busyWith 1) (me lane) 0 0x10000 8 .read false with | .ok p => !engineLine (busyWith 1) (lineOf p.1) | .error _ => false) = true
      ∧ errOf (checkAligned (busyWith 1) (me lane) 0 0x10004 8 .read false) = some ⟨7, 0⟩ := by
  refine ⟨⟨runs_of _ _, by decide +kernel⟩, by decide +kernel, by decide +kernel, by decide +kernel, by decide +kernel, by decide +kernel, by decide +kernel,
    by decide +kernel, by decide +kernel⟩

/-! ### Diagonals -/

/-- A share of 8 KiB for 2 × 2 × 2 matrices of FP32 accumulators, a window of all three diagonals, x3 = v, and FP32 everywhere in x7. -/
def diag (v : Word) : State :=
  let s := with2 (with2 lane 2 0x10000 3 v) 7 0x5AD6B 9 3
  { s with hart := { s.hart with
      cr := { s.hart.cr with mshape := 0x000B000200020002, accwin := 0x800000000001FFFF }, dg := { s.hart.dg with accs := 1 } } }
theorem witness_DiagonalWindow :
    (([.mshape 3, .maccwin 3, .aczero 3, .acmap 7 3] : List Instr).all (fun i => (nextSlot [capture (diag 0x10000) i] 0).isSome)) = true
      ∧ ((capture (diag 0x30000) (.aczero 3)).xsv.extractLsb' 16 16).toNat ≠ 0 ∧ ((capture (diag 0) (.aczero 3)).xsv.extractLsb' 16 16).toNat = 0 := by
  decide +kernel
theorem witness_DiagonalPrimitive :
    (([.dmac 1 2 4 3 false ⟨0, false⟩ 7, .dmacf 1 2 4 3 true ⟨0, false⟩ 7] : List Instr).all (readyFor (diag 0x10000))) = true
      ∧ vlOf (diag 0) ≠ 0 ∧ (overlap (shapeOf (diag 0)) 0 0).n = 2 ∧ (overlap (shapeOf (diag 0)) 1 (-1)).n = 1 ∧ fmtWidth 11 * 1 + fmtWidth 11 ≤ 65536 := by
  decide +kernel

/-- How staging ends: 0 ready, 1 short, 2 bad; and the state and slot after it. -/
def stageEnd {α : Type} (r : Staging α) : Nat :=
  match r with
  | .ready .. => 0
  | .short .. => 1
  | .bad .. => 2
def staged {α : Type} (r : Staging α) : State × Slot :=
  match r with
  | .ready s k _ => (s, k)
  | .short s k => (s, k)
  | .bad s k => (s, k)
/-- How both stagings of a sweep end, given when a stream is enough. -/
def stages (s : State) (i : Instr) (a b : VOpd) (n : Nat) (enA enB : BitVec 524288 → Nat → Except Unit (Option (List Diag))) : Nat × Nat :=
  let r := stageUntil false a n enA entriesAtOnce (capture s i) (running s i)
  let p := staged r
  (stageEnd r, stageEnd (stageUntil true b n enB entriesAtOnce p.2 p.1))
/-- The main diagonals of both operands, dense and compressed. -/
def denseMain (buf : BitVec 524288) (used : Nat) : Except Unit (Option (List Diag)) := denseEnough 32 (fun p => (diagLen 2 2 p).toNat) 0 1 buf used
def sparseMain (buf : BitVec 524288) (used : Nat) : Except Unit (Option (List Diag)) := sparseDiags buf used 2 2 11 1 0 none
/-- The bytes of a compressed main diagonal of two FP32 elements, at offset o. -/
def mainDiag (o : Nat) : VBits := BitVec.ofNat 65536 (o + 2 ^ 16 * 2 + 2 ^ 32 * 2 + 2 ^ 64 * 11 + 2 ^ 128 * 3)
/-- The compute strand at that shape, with a load queue and with a compressed stream at offset o in v1 and v2 of 16 elements of 64 bits. -/
def compressed (o : Nat) (q : List QEntry) : State :=
  let s := diag 0x10001
  { s with
    role := .compute, mate := some (Strand.start 0), strand := { s.strand with vl := 16 }
    hart := { s.hart with
      grant := { s.hart.grant with vlen := 1024 }, q := { s.hart.q with lq := s.hart.q.lq.set 0 q }
      regs := { s.hart.regs with v := (s.hart.regs.v.set 1 (mainDiag o)).set 2 (mainDiag o) } } }
theorem witness_SweepSumsAndStaging :
    let s := diag 0x0001000100000000
    stages s (.dsweep 1 2 3 true 7) 1 2 32 denseMain denseMain = (0, 0)
      ∧ stages (compressed 0 []) (.spsweep 1 2 3 7) 1 2 128 sparseMain sparseMain = (0, 0)
      ∧ stages (compressed 5 []) (.spsweepf 1 2 3 7) 1 2 128 sparseMain sparseMain = (2, 2)
      ∧ stages (compressed 0 []) (.spsweepf 1 32 3 7) 1 32 128 sparseMain sparseMain = (0, 1)
      ∧ stages (compressed 0 []) (.spsweepf 32 1 3 7) 32 1 128 sparseMain sparseMain = (1, 0)
      ∧ maccwinOk s (s.hart.cr.accwin &&& 0x7FFFFFFFFFFFFFFF) = true ∧ s.hart.dg.accs ≤ 32 ∧ s.hart.cr.dprog = 0 ∧ vlOf s ≠ 0
      ∧ (winOf s).held (-1) 0 = true ∧ (winOf s).held 1 0 = true ∧ (shapeOf s).lenC 1 = 1 := by decide +kernel
theorem witness_DiagonalPacking :
    ([.spunpack 3 1 7, .sppack 3 1 7] : List Instr).all (readyFor (compressed 0 [])) = true
      ∧ okB (packRun true (fmtOf (compressed 0 []) (capture (compressed 0 []) (.spunpack 3 1 7)) 7) (mainDiag 0).toNat 128 128) = true
      ∧ errOf (packRun true (fmtOf (compressed 0 []) (capture (compressed 0 []) (.spunpack 3 1 7)) 7) 0 128 128) = some false
      ∧ errOf (packRun true (fmtOf (compressed 0 []) (capture (compressed 0 []) (.spunpack 3 1 0)) 0) (mainDiag 0).toNat 128 128) = some true
      ∧ okB (packRun false (fmtOf (compressed 0 []) (capture (compressed 0 []) (.sppack 3 1 7)) 7) (mainDiag 0).toNat 128 128) = true := by decide +kernel
theorem witness_AccumulatorAccess :
    let s := { diag 0 with strand := { (diag 0).strand with ew := 2 } }
    (([.acld 1 3, .acst 1 3 7] : List Instr).all (readyFor s)) = true
      ∧ maccwinOk s (s.hart.cr.accwin &&& 0x7FFFFFFFFFFFFFFF) = true ∧ vlOf s ≠ 0 ∧ s.hart.dg.accs ≤ 32
      ∧ selOk s (capture s (.acld 1 3)).xsv true false = true ∧ (shapeOf s).akind ≠ 13 ∧ 8 * accWidth (shapeOf s).akind = ewBits s := by decide +kernel
/-! ### Events of strands and harts -/

/-- A strand of the hart that runs, in the focus. -/
def onIt (s : State) : State := focusOn s s.hart.id .access
theorem focus_of {s : State} (h : (boxOf s s.hart.id).isSome = true) : focusOf s s.hart.id .access = some (onIt s) := by
  obtain ⟨b, hb⟩ := Option.isSome_iff_exists.mp h
  simp [focusOf, hb, onIt]
/-- Whether the hart is there and runs. -/
def runs (s : State) : Bool := (boxOf s s.hart.id).isSome && (onIt s).hart.status == .running
def waiting (s : State) (r : Stall) : State := { s with strand := { s.strand with stall := some r } }
/-- Both strands of the hart held by an empty queue. -/
def locked : State := { waiting (half desk .access) (.xqEmpty false) with mate := some { Strand.start 0x100 with stall := some (.xqEmpty true) } }
/-- A hart with a handler and a pending interrupt of code 5. -/
def called : State := { handlerAt 0x101 0 with hart := { (handlerAt 0x101 0).hart with pending := [⟨false, 5, 0x10000⟩] } }
/-- A `vwait` in flight that waits, its timeout in x2. -/
def vwaiting (limit : Word) : State := waiting (running (waiter limit) (.vwait 1 4 6 2 1 0 ⟨0, false⟩)) .vwait

theorem witness_StrandEvents :
    (runs desk = true ∧ canStep (onIt desk) = true) ∧ (runs (waiting desk .mateHexit) = true ∧ canStep (onIt (waiting desk .mateHexit)) = false)
      ∧ (runs locked = true ∧ deadlocked (onIt locked) = true) ∧ deadlocked (onIt desk) = false
      ∧ (runs (waiting desk (.regrant 5 8 0 9 3)) = true ∧ mayRelay (onIt (waiting desk (.regrant 5 8 0 9 3))) = true)
      ∧ (let s := waiting (coupledAccess none) (.regrant 5 8 0 16 3); runs s = true ∧ mayRelay (onIt s) = false)
      ∧ (runs called = true ∧ interruptDue (onIt called) = true ∧ nextInterrupt (onIt called) = some ⟨false, 5, 0x10000⟩) := by decide +kernel
theorem witness_vwait_expires : ([3, 0xFFFFFFFFFFFFFFFF] : List Word).all (fun l =>
    let t := onIt (vwaiting l)
    runs (vwaiting l) && t.strand.stall == some .vwait && !(positions t).isEmpty
      && (match t.strand.convoy.bind (fun ks => nextSlot ks 0) with
        | some (0, k) => k.instr == .vwait 1 4 6 2 1 0 ⟨0, false⟩ && k.xsv == l && (activeOf t k ⟨0, false⟩).all (fun e =>
            match checkSite t (plainSite (BitVec.ofNat 64 (elemOf (getV t 4) 64 e)) 8) .read false with
            | .ok p => p.1 == span (0x50000 + 8 * e) 8
            | .error _ => false)
        | _ => false)) = true := by decide +kernel

/-- A stream of entries of two doublewords each, n of them, at its entry e. -/
def threadOf (q : VOpd) (n e : Nat) (f : Option Trap) : Stream :=
  { num := 3, queue := q, spec := BitVec.ofNat 512 (0x10000 + 2 ^ 64 * 8 + 2 ^ 192 * n + 2 ^ 320 + 2 ^ 352 * 3), entry := e, left := [], vl := 2, fault := f }
/-- The access strand of a hart with a stream, and an entry in its first store queue. -/
def streaming (x : Stream) : State :=
  { half desk .access with hart := { (half desk .access).hart with
      streams := [x], q := { desk.hart.q with sq := desk.hart.q.sq.set 0 [⟨7, true, 2⟩] } } }
theorem witness_StreamEvents :
    ([threadOf 32 1 0 none, threadOf 40 1 0 none, threadOf 32 1 1 none, threadOf 32 1 0 (some (trapAt desk 3 2 0))].all (fun x =>
        runs (streaming x) && streamOf (onIt (streaming x)) 3 == some x)) = true
      ∧ ([(32, Access.read), (40, .write)].all (fun p =>
        let x := threadOf p.1 1 0 none
        streamReady (onIt (streaming x)) x && (List.range 2).all (fun e =>
          reachB (onIt (streaming x)) (streamSite x.spec 0 e) p.2 false (span (0x50000 + 8 * e) 8)))) = true
      ∧ isLq 32 = true ∧ (isQueue 40 = true ∧ isLq 40 = false) ∧ (onIt (streaming (threadOf 40 1 0 none))).mem.wf
      ∧ atBoundary (onIt (streaming (threadOf 32 1 0 none))).strand = true
      ∧ streamCount (threadOf 32 1 1 none).spec ≤ 1 ∧ 0 < streamCount (threadOf 32 1 0 none).spec := by decide +kernel

/-- An engine command with a descriptor of seven doublewords. -/
def order (kind c v src dst len : Nat) (extra : Nat) : Command :=
  { id := 4, hart := desk.hart.key, access := false, kind := kind
    desc := BitVec.ofNat 512 (c + 2 ^ 64 * v + 2 ^ 128 * src + 2 ^ 192 * dst + 2 ^ 256 * len + extra), tenant := 0, die := 0, lines := [], word := none }
/-- Another command owns line 0xA02, the third of page 1. -/
def engineOwned : State := { desk with coh := { desk.coh with home := [⟨0xA02, .G 3, []⟩] } }
/-- How a copy ends. -/
def copyEnd (c : Command) (s : State) : Option Failure := (copyAll (c.kind == 1) c.die c.tenant c.desc (engineAgent c) s).2
/-- A table of one block with a stride of 8 at 0x10000. -/
def shelf : State := put8 desk 8 (1 + 2 ^ 40 * 8)
/-- A launch of one hart, on the desk, with its harts that have retired, and how it failed. -/
def soleLaunch (gone : List HartKey) (f : Option (Nat × Nat)) : Launch :=
  { jointLaunch with id := 0, dies := [0], seq := none, issuer := .ring 1 0 true 3, record := record 1 1 1 0x10000 0 0, retired := gone, failed := f }
def withLaunch (s : State) (l : Launch) : State := { s with sched := { s.sched with launches := [l] } }
theorem witness_CommandAndRetirementEvents :
    ((desk.mem.wf ∧ okB (copyPiece desk 0 0 0x10000 0x10080 128 2) = true) ∧ commandReady desk (order 0 0x10000 7 0x10000 0x10100 200 0) = true
        ∧ dfield (order 0 0x10000 7 0x10000 0x10100 200 0).desc 256 64 ≤ 2 ^ 40
        ∧ commandReady engineOwned (order 0 0x10000 7 0x10000 0x10100 200 0) = true
        ∧ commandReady engineOwned { order 0 0x10000 7 0x10000 0x10100 200 0 with lines := [0xA02] } = false)
      ∧ (copyEnd (order 0 0x10000 7 0x10000 0x10100 200 0) desk = none
        ∧ okB (unitStore (copyAll false 0 0 (order 0 0x10000 7 0x10000 0x10100 200 0).desc 6 desk).1 0 0 0x10000 8 7) = true)
      ∧ (trimAll 0 0 (order 3 0x10100 0 0x10000 0x10000 0x10080 0).desc shelf).2 = (0, none)
      ∧ (copyEnd (order 0 0x10000 7 0x20000 0x10100 200 0) desk = some (1, 0x20000) ∧ okB (unitStore desk 0 0 0x10000 8 0) = true)
      ∧ (order 0 0x10000 7 0 0 0 (2 ^ 480)).desc.getLsbD 480 = true ∧ (order 0 0x10000 7 0 0 0 0).desc.getLsbD 480 = false
      ∧ (desk.hart.live = true ∧ desk.hart.status = .running) ∧ (4 : Nat) ≠ 5
      ∧ (let s := { desk with hart := { desk.hart with status := .retiring } }; (boxOf s 0).map (·.hart.status) = some .retiring ∧ s.sched.commands.isEmpty = true)
      ∧ ([soleLaunch [⟨0, 0, 0⟩] none, soleLaunch [] none].map (launchDone desk) = [true, false])
      ∧ launchDone { desk with hart := { desk.hart with key := ⟨1, 0, 0⟩ } } (soleLaunch [] (some (7, 0))) = true
      ∧ (launchOf (withLaunch desk (soleLaunch [] none)) 0).isSome = true ∧ leadDie (soleLaunch [] none) = 0 ∧ desk.kiln.placed.isEmpty = true
      ∧ ((1, vectorLink desk 1, 3) ∉ desk.host.masked ∧ 3 < 16 ∧ desk.kiln.unloaded.isEmpty = true) := by decide +kernel

/-! ### Barriers, rounds, the armature -/

/-- Two contenders of slot 3 with one tag, and one with another. -/
def contest : State :=
  { desk with sched := { desk.sched with contenders := [⟨3, 9, 5, ⟨0, 0, 0⟩⟩, ⟨3, 9, 8, ⟨0, 0, 1⟩⟩, ⟨3, 1, 99, ⟨0, 0, 2⟩⟩] } }
/-- Both harts of the joint launch at its rendezvous, or one; the lead has issued a unit. -/
def gathered (n : Nat) : Launch := { jointLaunch with record := record 1 1 1 0 0 0, arrived := [(⟨1, 0, 0⟩, 1), (⟨1, 1, 0⟩, 1)].take n }
def leading (l : Launch) : State :=
  let s := joint ⟨1, 0, 0⟩ l
  { s with
    hart := { s.hart with units := 1 }
    parked := [{ hart := { s.hart with key := ⟨1, 1, 0⟩, id := 0x100, units := 1 }, s0 := Strand.start 0, s1 := none }] }
theorem witness_BarrierAndArmatureEvents :
    (let k := barrierKey desk 5 2
     phaseDone (members 1 true 0 []) k = true ∧ phaseDone (members 0 false 0 []) k = false)
      ∧ ((contest.sched.contenders.find? (fun c => c.slot == 3)).isSome = true ∧ contest.hart.live = true
        ∧ ((contest.sched.contenders.filter (fun c => c.slot == 3 && c.tag == 9)).find? (fun c => c.hart == contest.hart.key)).isSome = true)
      ∧ (contest.sched.contenders.all (fun c => c.slot != 2) = true)
      ∧ ((launchOf (leading (gathered 2)) 1).isSome = true ∧ meetingUnit (leading (gathered 2)) (gathered 2) = some 1)
      ∧ (gathered 1).arrived.all (fun p => reachedCount (leading (gathered 1)) (gathered 1) p.2 < launchHarts (gathered 1)) = true
      ∧ (({ gathered 1 with branches := [(⟨1, 0, 0⟩, 0, 5)] } : Launch).branches.find? (fun o => o.1 == (⟨1, 0, 0⟩ : HartKey))).isSome = true
      ∧ ((launchOf (leading (gathered 1)) 1).isSome = true ∧ (gathered 1).seq.isSome = true ∧ (gathered 1).dies.contains 1 = true
        ∧ sentTo (gathered 1) 1 < leadIssued (leading (gathered 1)) (gathered 1))
      ∧ (boxOf (leading (gathered 1)) 0).map (·.hart.key.launch) = some 1 := by decide +kernel

/-! ### Dispatch -/

/-- A launch of level 5 with n wait conditions: the first reads 0x10000 (or `a`) and compares for equality with v. -/
def asked (n a v : Nat) : Launch :=
  { soleLaunch [] none with id := 6, record := record 1 1 1 0x10000 0 0 ||| BitVec.ofNat 2048 (2 ^ 456 * 5 + 2 ^ 490 * n + 2 ^ 1024 * a + 2 ^ 1088 * v + 2 ^ 1155) }
/-- It stands in die 0's wait pool, ready or not, or in its queue. -/
def pool (l : Launch) (pooled ready : Bool) : State :=
  { desk with sched := { desk.sched with launches := [l], queued := [⟨0, 6, 5, pooled, ready, 2, none⟩] } }
/-- A ready launch whose queue is full. -/
def fullQueue : State :=
  let qs : List Queued := ⟨0, 6, 5, true, true, 2, none⟩ :: List.replicate 256 ⟨0, 7, 5, false, false, 0, none⟩
  { desk with sched := { desk.sched with launches := [{ soleLaunch [] none with id := 7 }], queued := qs } }
/-- What its condition gives. -/
def condOf (a v : Nat) : List (Option Bool) := (waitsOf (asked 1 a v).record).map (condHolds (pool (asked 1 a v) true false) (leadDie (asked 1 a v)) 0)
/-- Every core but core 0 retired, and core 0 full with crews of a launch of level 1. -/
def crowded : State :=
  let s := pool (asked 0 0 0) false false
  let box (i : BitVec 2) : HartBox := ⟨{ desk.hart with id := (0 : BitVec 9) ++ i, key := ⟨3, 0, i.toNat⟩ }, Strand.start 0, none⟩
  { s with
    hart := { s.hart with key := ⟨3, 0, 0⟩ }, parked := [box 1, box 2, box 3]
    dies := s.dies.set 0 { s.dies[0] with sup := { (s.dies[0]).sup with simg := 0x00400000001 <<< 20 } }
    cores := (List.range 63).map (fun i => { core := BitVec.ofNat 6 (i + 1), lgmask := 0xFF, die := 0, draining := false, due := 0, overdue := false, ues := 0, l1Banks := 48 })
    sched := { s.sched with
      launches := s.sched.launches ++ [{ soleLaunch [] none with id := 3 }], queued := s.sched.queued ++ [⟨0, 3, 1, false, false, 0, none⟩]
      crews := [⟨0, 0, 3, 0, 2, 0, false, false⟩, ⟨0, 0, 3, 2, 2, 1, false, false⟩] } }
theorem witness_DispatchEvents :
    (waits (pool (asked 1 0x10000 0) true false) 6 = true ∧ condOf 0x10000 0 = [some true]) ∧ condOf 0x20000 0 = [none] ∧ condOf 0x10000 1 = [some false]
      ∧ (waitsOf (asked 1 0x10000 0).record).all (fun w => !unitWaits (pool (asked 1 0x10000 0) true false) 0 0 w.addr w.size .read) = true
      ∧ (queueCount (pool (asked 1 0 0) true true) 0 5 < 256 ∧ 256 ≤ queueCount fullQueue 0 5)
      ∧ (let s := pool (asked 0 0 0) false false
         let l := asked 0 0 0
         dieFull s 0 = true ∧ served s 0 = some ⟨0, 6, 5, false, false, 2, none⟩ ∧ (launchOf s 6).isSome = true ∧ (waitingCrews s 0 6).isEmpty = true
          ∧ channelsFree s l 0 = true ∧ lineFree s l = true ∧ pickCore s 0 (needNew l) = some 1 ∧ (freeHartSlots s 0 1)[0]? = some 4
          ∧ (placement s 0).isSome = true)
      ∧ (placement desk 0).isNone = true
      ∧ (boxes crowded).length = 4 ∧ ⟨0, 0, 3, 0, 2, 0, false, false⟩ ∈ crowded.sched.crews
      ∧ (Crew.holds ⟨0, 0, 3, 0, 2, 0, false, false⟩ crowded.hart.key = true ∧ (boxOf crowded 0).map (·.hart.status) = some .running)
      ∧ (asked 0 0 0).failed = none := by decide +kernel
theorem witness_victims :
    (served crowded 0).map (·.level) = some 5 ∧ (placement crowded 0).isNone = true ∧ channelsFree crowded (asked 0 0 0) 0 = true
      ∧ (victimsFor crowded 0 5 (needOf crowded 0 (asked 0 0 0))).map (fun p => (p.1.length, p.2, poolsHold crowded p.1)) = some (1, 0, true) := by decide +kernel
/-! ### Stopping and resuming -/

/-- With no tile's record and no line in a directory nothing of an image is poisoned. -/
theorem readable_of {s : State} (ht : s.sealed.tiles = []) (hh : s.coh.home = []) (d : DieId) (n : Nat) : imageReadable s d n = true := by
  have key (l : List Nat) (b : Nat) : ∀ u : State, u.sealed.tiles = [] → u.coh.home = [] →
      (l.foldl (fun s i => fillTile s (tileOf b + i)) u).coh.home = [] := by
    induction l with
    | nil => intro u _ h; exact h
    | cons i l ih =>
      intro u h1 h2
      apply ih <;> unfold fillTile <;> simp only [tileRec, h1, List.find?_nil, Option.getD_none] <;> split <;> simp_all
  simp [imageReadable, badLines, slotLines, fillTiles, key _ _ s ht hh]

/-- The hart asked to stop for a reason, its die's pool of n image slots at `base` MiB. -/
def halting (reason n base : Nat) : State :=
  let s := { desk with hart := { desk.hart with status := .stopping reason } }
  setDie s 0 { dieRec s 0 with sup := { (dieRec s 0).sup with simg := BitVec.ofNat 64 (base * 2 ^ 20 + n * 2 ^ 52), strapq := 0x10000 } }
theorem witness_hart_stops :
    ([halting 0 0 1, halting 0 1 0xC000, halting 1 1 1].map (fun s => ((focusOf s 0 .access).isSome, freeSlot (onIt s) 0, slotExists (onIt s) 0 0)))
        = [(true, none, true), (true, some 0, false), (true, some 0, true)]
      ∧ (onIt (halting 0 1 1)).mem.wf ∧ (onIt (halting 2 1 1)).hart.status = .stopping 2
      ∧ (slotToStop (halting 0 1 1) 0 0).isNone = true ∧ imageReadable (haltHart (onIt (halting 0 1 1))) 0 0 = true :=
  ⟨by decide +kernel, by decide +kernel, by decide +kernel, by decide +kernel, readable_of rfl rfl ..⟩
/-- The hart asked to stop with the `mset` of its convoy under way. -/
def haltingSlot : State := { threeSlots with hart := { threeSlots.hart with status := .stopping 0 } }
theorem witness_slot_to_stop :
    (focusOf haltingSlot 0 .access).isSome = true ∧ (onIt haltingSlot).hart.status = .stopping 0
      ∧ (slotToStop haltingSlot 0 0).map (·.2) = some (.mset 1 true) := by decide +kernel
/-- A hart with a grant of 512 bits that an image can hold. -/
def fitting : State := strip desk 8 2
theorem witness_image_fits : ImageFits fitting 1 ∧ fitting.role ≠ .compute ∧ fitting.hart.live = true ∧ fitting.hart.grant.vlen ≠ 0 := by
  refine ⟨⟨?_, ?_, ?_, ?_, ?_, ?_, ?_, ?_, ?_, ⟨64, ?_, ?_⟩, ?_, ?_, ?_, ?_⟩, ?_, ?_, ?_⟩ <;> decide +kernel
/-- A stopped hart with a trap, n of its die's records unanswered. -/
def trapped (n : Nat) : State :=
  let s := halting 1 1 1
  let s := { s with hart := { s.hart with status := .stopped 1 0, trap := some (trapAt s 3 2 0x20000) } }
  setDie s 0 { dieRec s 0 with unanswered := List.range n }
theorem witness_trap_record :
    ((boxOf (trapped 15) 0).map (·.hart.trap)).isSome = true ∧ (dieRec (trapped 15) 0).unanswered.length < queueLimit (trapped 15) 0
      ∧ queueLimit (trapped 16) 0 ≤ (dieRec (trapped 16) 0).unanswered.length
      ∧ okB (unitStore (trapped 15) 0 0 (recordAddress (trapped 15) 0) 64 5) = true := by decide +kernel
/-- An image of the hart's launch in slot 0 of die 0, stopped by its trap, its record not answered; `v` is its header's first doubleword. -/
def imaged (inPlace : Bool) (v : Nat) : State :=
  let s := withLaunch desk (soleLaunch [] none)
  let i : Image := { slot := 0, key := ⟨0, 0, 0⟩, reason := 1, inPlace := inPlace, answered := false, owner := 0, streams := [], later := [], staged := (0, 0)
                     aside0 := none, aside1 := none, ahead0 := none, ahead1 := none, later0 := none, later1 := none, kept0 := [], kept1 := [], flight := none, held := none, units := 0
                     strips := (0, 0), short := false, portable := (false, false), shapes := ((0, 0, 1), (0, 0, 1)) }
  setMem (setDie s 0 { dieRec s 0 with images := [i], unanswered := [0], sup := { (dieRec s 0).sup with simg := 0x0010000000100000 } })
    (s.mem.writeNat 0x100000 8 v)
theorem witness_resume :
    ((dieRec (imaged true 0) 0).images.any (fun i => i.slot == 0 && i.reason == 1 && (dieRec (imaged true 0) 0).unanswered.contains i.slot)) = true
      ∧ (launchOf (imaged true 0) 0).isSome = true ∧ (∀ b, imageGood (imaged b 0x1494D4731) 0 0 = true) ∧ imageGood (imaged false 0) 0 0 = false
      ∧ (soleLaunch [] none).failed.isNone = true ∧ (soleLaunch [] (some (7, 0))).failed.isSome = true := by
  have h (b : Bool) : imageOk (imageBits (imaged b 0x1494D4731) 0 0) = true := by revert b; decide +kernel
  have h' : imageOk (imageBits (imaged false 0) 0 0) = false := by decide +kernel
  refine ⟨by decide +kernel, by decide +kernel, fun b => ?_, ?_, by decide +kernel, by decide +kernel⟩
  · simp only [imageGood, h, readable_of (s := imaged b 0x1494D4731) rfl rfl, Bool.and_self]
  · simp only [imageGood, h', Bool.and_false]

/-! ### Translation and the host -/

/-- A machine with die 0 full, window 0 of function 0 onto page 1, and ring 2 of function 0 on page 1, w its wcount and h the rest of its header. -/
def served0 (wr en reset run : Bool) (w h : Nat) : State :=
  let s := put8 (put8 desk 0 w) 8 h
  { s with
    kiln := { s.kiln with stage := 3 }
    host := { s.host with
      windows := [⟨0, 0, BitVec.ofNat 128 (0x10000 + 2 ^ 88 + 2 ^ 112 + wr.toNat * 2 ^ 113)⟩]
      rings := [{ fn := 0, slot := 2, base := 0x10000, en := en, die := 0, hdrerr := false, reset := reset, run := run, rcount := 0, slog := 4, vec := 1, busy := none }] } }
def open1 : State := served0 true false false false 0 4
/-- A physical function on link 0, without IDE. -/
def pf : HostFn := ⟨0, 0, false⟩
/-- Function 0 asks for IDE. -/
def guarded : State := { open1 with host := { open1.host with ideReq := [0] } }
/-- An engine owns line 0xA02, the third of page 1. -/
def openOwned : State := { open1 with coh := { open1.coh with home := [⟨0xA02, .G 3, []⟩] } }
theorem witness_translation :
    (namedOf 0x8000000000000000).every = true ∧ (namedOf 0x10002).page = 1 ∧ (namedOf 0x10002).every = false
      ∧ (tlbFind desk 0 0 0 0).isNone = true ∧ (tlbFind desk 0 0 0 0x20000).isNone = true
      ∧ (match walk desk 0 0 0 with | .ok l => frameOk desk 0 (physOf l 0) | .error _ => false) = true
      ∧ errOf (walk desk 0 0 0x20000) = some 2 := by decide +kernel
theorem bar_of {s f off n} (h : (present s f && s.kiln.stage == 3 && off + n ≤ 2 ^ 30 && f.fn == 0) = true) : barTakes s f off n = true := by
  simp only [Bool.and_eq_true, decide_eq_true_eq, beq_iff_eq] at h
  obtain ⟨⟨⟨hp, hs⟩, hn⟩, hf⟩ := h
  have : off + n ≤ 2 ^ (30 + Config.barLog.val) := hn.trans (Nat.pow_le_pow_right (by decide) (Nat.le_add_right ..))
  simp [barTakes, hp, hs, hf, this]
theorem witness_host_access :
    (ideMissing open1 pf = false ∧ ideMissing guarded pf = true ∧ hostDie open1 = some 0 ∧ open1.host.waiting = []
        ∧ (windowFor open1 0 0x100).map (fun w => windowAddress w 0x100) = some 0x10100)
      ∧ barTakes open1 pf 0x100 16 = true
      ∧ (okB (checkRange open1 (.unit 0) 0 0x10100 16 .read false) = true ∧ unitWaits open1 0 0 0x10100 16 .read = false
        ∧ unitWaits openOwned 0 0 0x10100 16 .read = true)
      ∧ (okB (unitStore open1 0 0 0x10100 16 5) = true ∧ unitWaits open1 0 0 0x10100 16 .write = false ∧ unitWaits openOwned 0 0 0x10100 16 .write = true)
      ∧ ((windowFor open1 0 0x100).map (·.wr) = some true ∧ (windowFor (served0 false false false false 0 4) 0 0x100).map (·.wr) = some false)
      ∧ windowFor open1 0 0x10000 = none
      ∧ (servedNow open1 pf 0 = true ∧ servedNow open1 pf 0x100 = true ∧ servedNow open1 pf 0x200000 = true ∧ servedNow open1 pf 0x100020 = true
        ∧ servedNow open1 pf configBase = true ∧ servedNow State.reset pf 0 = false ∧ (ringOf open1 0 0).en = false) :=
  ⟨by decide +kernel, bar_of (by decide +kernel), by decide +kernel⟩
/-- An entry of a kind at index 0. -/
def entryOf (kind a v : Nat) : Nat := 2 ^ 96 * kind + 2 ^ 128 * a + 2 ^ 192 * v
theorem witness_rings :
    (let s := served0 true true true false 9 4
     let r := ringOf s 0 2
     r.busy.isNone = true ∧ r.reset = true ∧ dispatcherOn s r = true ∧ unitLoad s 0 0 r.base 128 = .ok (9 + 2 ^ 64 * 4))
      ∧ (let s := served0 true false false true 0 4
         (ringOf s 0 2).busy.isNone = true ∧ (ringOf s 0 2).en = false ∧ (ringOf s 0 2).run = true ∧ okB (writeLine1 s (ringOf s 0 2) 8 8 0) = true)
      ∧ (let s := served0 true true false true 1 4
         let r := ringOf s 0 2
         ringServed s r = true ∧ unitLoad s 0 0 r.base 8 = .ok (r.rcount.toNat + 1) ∧ unitLoad s 0 0 (r.base + 256) 128 = .ok 0
          ∧ okB (unitStore s 0 0 0x10200 8 77) = true)
      ∧ (ringServed (served0 true true false true 0 4) (ringOf (served0 true true false true 0 4) 0 2) = true
        ∧ unitLoad (served0 true true false true 0 4) 0 0 0x10000 8 = .ok 0) := by
  refine ⟨⟨by decide +kernel, by decide +kernel, by decide +kernel, ok_of (by decide +kernel)⟩, by decide +kernel,
    ⟨by decide +kernel, ok_of (by decide +kernel), ok_of (by decide +kernel), by decide +kernel⟩, by decide +kernel, ok_of (by decide +kernel)⟩
theorem witness_entries : ([entryOf 0 0 0, entryOf 2 0x10200 77].all (fun e => e / 2 ^ 64 % 2 ^ 32 == 0 && e / 2 ^ 100 % 16 == 0 && e / 2 ^ 112 % 2 ^ 16 == 0
    && e / 2 ^ 256 == 0 && e / 2 ^ 128 % 8 == 0) && entryOf 2 0x10200 77 / 2 ^ 96 % 8 == 2 && open1.kiln.stage != 0
    && !unitWaits open1 0 0 0x10200 8 .write && okB (unitStore open1 0 0 0x10200 8 77)) = true := by decide +kernel
/-- An entry whose seq is not the ring's next, and one that launches when its launch's queue is full, so that it is tried again. -/
def ownedEntry : State := { served0 true true false true 1 4 with coh := { desk.coh with home := [⟨0xA04, .G 3, []⟩] } }
theorem witness_entry_again :
    (match handleEntry ownedEntry (ringOf ownedEntry 0 2) (entryOf 2 0x10200 77) with | .again => true | _ => false) = true := by decide +kernel

/-! ### Seals and coherence -/

/-- Tile 160 (of page 1) with a record, and the key slots that are full. -/
def sealing (r : TileRec) (ks : List KeySlot) (inL2 dirty : List Nat) : State :=
  { desk with sealed := { desk.sealed with tiles := [r], keys := ks, inL2 := inL2, dirty := dirty } }
/-- The older and the newer key of tenant 0 on die 0. -/
def oldKey : KeySlot := ⟨0, 0, false, 1, 0⟩
def newKey : KeySlot := ⟨0, 0, true, 2, 1⟩
theorem witness_GlazeEvents :
    (sealedCount desk 0 0 true = 0) ∧ sealedCount (sealing ⟨160, false, 1, 3, 0⟩ [] [] []) 0 0 false ≠ 0
      ∧ (newerSlot (sealing ⟨160, false, 1, 3, 0⟩ [oldKey, newKey] [] []) 0 0 = some (!false)) ∧ newerSlot desk 0 0 ≠ some (!false)
      ∧ (rangeOk 160 1 2048 = true ∧ rangeOk 160 0 2048 = false ∧ rangeOk 5 1 65536 = true ∧ rangeOk 0 0 65536 = false)
      ∧ (framesClear desk (stackFrame 0 + 5) 1 = true ∧ framesClear (sealing ⟨160, false, 1, 3, 0⟩ [] [] []) (stackFrame 0 + 5) 1 = false)
      ∧ isTile 160 = true ∧ (sealing ⟨160, false, 1, 3, 0⟩ [] [160] []).sealed.inL2.contains 160 = true
      ∧ ((tileRec (sealing ⟨160, false, 1, 3, 0⟩ [] [] []) 160).state = 1 ∧ tagNow (sealing ⟨160, false, 1, 3, 0⟩ [] [] []) 160 false 3 ≠ some 0)
      ∧ (let f := fillTile (sealing ⟨160, false, 0, 3, 0⟩ [oldKey] [] [2560]) 160
         f.sealed.dirty.any (fun l => l / 16 == 160) = true ∧ nextSeal (tileRec f 160) (newerSlot f 0 (tileOwner f 160)) = some (false, 4)
          ∧ (keySlot f 0 (tileOwner f 160) false).isSome = true)
      ∧ ([0, 2].all (fun x => (tileRec (sealing ⟨160, false, x, 3, 0⟩ [] [] []) 160).state == x
        && !(sealing ⟨160, false, x, 3, 0⟩ [] [] []).sealed.inL2.contains 160) = true)
      ∧ (let f := fillTile (sealing ⟨160, false, 0, 3, 0⟩ [] [] [2560]) 160; nextSeal (tileRec f 160) (newerSlot f 0 (tileOwner f 160)) = none) := by
  decide +kernel
/-- Some tag verifies: the one of the tile's bytes under slot 0 and counter 3. -/
theorem witness_good_tag : ∃ g,
    let s := sealing ⟨160, false, 1, 3, g⟩ [oldKey] [] []
    tagNow s 160 (tileRec s 160).slot (tileRec s 160).counter = some (tileRec s 160).tag ∧ s.sealed.inL2.contains 160 = false := by
  have h (g : BitVec 64) : tileRec (sealing ⟨160, false, 1, 3, g⟩ [oldKey] [] []) 160 = ⟨160, false, 1, 3, g⟩ := rfl
  have k (g : BitVec 64) : keySlot (sealing ⟨160, false, 1, 3, g⟩ [oldKey] [] []) (homeDieOf (2048 * 160))
      (tileOwner (sealing ⟨160, false, 1, 3, g⟩ [oldKey] [] []) 160) false = some oldKey := rfl
  refine ⟨gcmTag oldKey.key (ivOf 160 false 3) (desk.mem.bytes (2048 * 160) 2048), ?_, rfl⟩
  simp only [h, tagNow, k, Option.map_some]
  rfl

/-- Line 2560 (of page 1, homed on die 0) in a state at its home, and a copy in core 1 of die 0. -/
def lined (h : Option HomeState) (c : Option L1State) : State := setL1 (setHome desk 2560 h) 0 1 2560 c
theorem witness_CoherenceEvents :
    (lineHome 2560 = 0 ∧ ([none, some (.S [1] []), some (.X (.core 1)), some (.P .lost)] : List (Option HomeState)).all (fun h =>
        homeLine (fillTile (lined h (some .M)) 160) 2560 == h) = true)
      ∧ (l1State (fillTile (lined (some (.X (.core 1))) (some .M)) 160) 0 1 2560 = some .M ∧ (1 : CoreId) ≠ 2)
      ∧ proxyLine (fillTile (lined none none) 160) 3 2560 = none ∧ homeLine (lined (some (.S [1] [])) none) 2560 = some (.S [1] [])
      ∧ l1State (lined none none) 0 1 2560 = none ∧ l1State (lined none (some .E)) 0 1 2560 = some .E
      ∧ homeLine (lined (some (.X (.die 3))) none) 2560 = some (.X (.die 3))
      ∧ homeLine (lined (some (.G 7)) none) 2560 = some (.G 7) ∧ homeQueue (lined (some (.G 7)) none) 2560 = []
      ∧ (judge none 3 0 0 9 = .handle ⟨3, 0, 0, 9, [(9, none)]⟩ ∧ judge (some ⟨3, 0, 0, 9, [(9, some .ack)]⟩) 3 0 0 9 = .done .ack
        ∧ judge (some ⟨3, 0, 0, 9, [(9, none)]⟩) 3 0 0 9 = .inProgress ∧ judge (some ⟨3, 0, 0, 100, [(100, none)]⟩) 3 0 0 9 = .stale)
      ∧ (let q (ws : List Waiting) : State := setHome desk 2560 (some (.G 7)) ws
         (homeQueue (q [.ask ⟨.core 1, true, some 1, none, false⟩]) 2560 = [.ask ⟨.core 1, true, some 1, none, false⟩])
          ∧ homeQueue (q [.claim 8]) 2560 = [.claim 8] ∧ (7 : Nat) ≠ 8)
      ∧ proxyLine { desk with coh := { desk.coh with proxy := [⟨3, 2560, .X 1⟩] } } 3 2560 = some (.X 1)
      ∧ ([6, 7].all (fun n => ({ desk with coh := { desk.coh with sent := [⟨0, proxyAgent, 3, 9, n, none, none⟩] } }).coh.sent.any (fun m => m.timeouts == n)) = true) := by
  decide +kernel

/-! ### Dies and the kiln controller -/

/-- The machine in a stage with die d in a state. -/
def diesAt (stage : Nat) (d : DieId) (x : Nat) : State :=
  let s := setDie desk d { dieRec desk d with state := x }
  { s with kiln := { s.kiln with stage := stage } }
/-- Core 9 of die 0 draining with lane group 2 due. -/
def drained : State := setCore desk { coreRec desk 0 9 with draining := true, due := 4 }
/-- The supervisor hart of die 0, which has faulted at microsecond t. -/
def faulted (t : Option Nat) : State := setDie (chief 0) 0 { dieRec (chief 0) 0 with superFault := t }
theorem witness_DieAndErrorEvents :
    ((diesAt 2 3 1).kiln.stage = 2 ∧ (dieRec (diesAt 2 3 1) 3).state = 1 ∧ (dieRec (diesAt 2 3 1) 3).plinth = true ∧ (supervisorSlot (diesAt 2 3 1) 3).isSome = true)
      ∧ (dieFull desk 0 = true ∧ dieFull desk 3 = false ∧ (launchOf (withLaunch desk (soleLaunch [] none)) 0).map (·.dies.contains 0) = some true)
      ∧ ((dieRec (diesAt 3 3 3) 3).state = 3 ∧ ownedFrames (diesAt 3 3 3) 3 = [])
      ∧ (let s := diesAt 3 0 3
         homeDieOf (65536 * 5) = 0 ∧ (ownerOf s 5).toNat ≤ 64 ∧ frameThere s (65536 * 5) = true ∧ s.mem.wf
          ∧ (let s := setDie s 3 { dieRec s 3 with state := 2 }; homeDieOf (65536 * (3 * 2 ^ 20 + 7)) = 3 ∧ frameFree s (3 * 2 ^ 20 + 7) = true))
      ∧ ((coreRec drained 0 9).draining = true ∧ coreEmpty drained 0 9 = true ∧ (coreRec desk 0 9).draining = false)
      ∧ (((boxes (faulted none)).find? (fun b => b.hart.supervisor && dieOf b.hart.id == 0)).isSome = true ∧ (dieRec (faulted none) 0).superFault = none
        ∧ (dieRec (faulted (some 7)) 0).superFault = some 7)
      ∧ (siteDie (.line 2560) = 0 ∧ siteDie (.tile 160) = 0 ∧ siteDie (.hartState 0 1) = 0 ∧ siteDie (.laneGroup 0 9 2) = 0)
      ∧ 16 ≤ ((List.replicate 16 ((ErrorSite.laneGroup 0 9 2, 5) : ErrorSite × Nat)).filter (fun r => 6 < r.2 + 86400000000)).length := by
  decide +kernel
/-- Two empty flash banks, and a raise in progress or not. -/
def blank (busy which : Bool) : State :=
  { State.reset with kiln := { State.reset.kiln with
      flashA := [], flashB := [], secver := 9, fwv := 3, objv := 3, fuseBusy := busy, fuseWhich := which, fuseTarget := 5, fuseBlown := 4 } }
/-- That some bank boots depends on the digests and signatures, which are free functions here: the clauses on `some b` have no witness. -/
theorem witness_KilnEvents :
    ((blank false false).kiln.stage = 0 ∧ (dieRec (blank false false) 0).plinth = true ∧ bootBank (blank false false) = none)
      ∧ ((diesAt 3 0 2).kiln.stage ≠ 0 ∧ (blank false false).kiln.fuseBusy = false)
      ∧ (64 < (65 : BitVec 8).toNat ∧ (blank false false).kiln.secver < (10 : BitVec 8).toNat)
      ∧ ((9 : BitVec 8).toNat ≤ 64 ∧ (9 : BitVec 8).toNat ≤ (blank false false).kiln.secver ∧ (3 : BitVec 8).toNat ≤ (blank false false).kiln.fwv
        ∧ (blank false false).kiln.fwv < (9 : BitVec 8).toNat)
      ∧ ((blank true true).kiln.fuseBusy = true ∧ (blank true false).kiln.fuseBlown ≤ (blank true false).kiln.fuseTarget ∧ (blank true false).kiln.fuseWhich = false) := by
  decide +kernel
theorem witness_InstallAndLoadEvents :
    (diesAt 3 0 2).kiln.stage = 3 ∧ containerOk [] = false ∧ loaderCode (diesAt 3 0 2) [] ≠ 0 := by decide +kernel

/-- The machine with `addi x1, x1, 1` before it is sound and goes on. -/
theorem witness_StepKeepsSound :
    Sound (State.reset.withFetchWord 32 0x0C210001) ∧ goes (step (State.reset.withFetchWord 32 0x0C210001)) = true :=
  ⟨⟨show Memory.wf _ by decide +kernel, by decide +kernel, (by intro x hx; cases hx), by decide +kernel, (by intro b hb; cases hb)⟩, by decide +kernel⟩

/-! ### Boundary cases of the statements' clauses -/

/-- A machine whose hart has a handler and a pending interrupt of code 5. -/
def calling (s : State) : State :=
  { s with hart := { s.hart with pending := [⟨false, 5, 0x10000⟩], cr := { s.hart.cr with uivec := 0x101 } } }
/-- An interrupt is due beside a convoy that waits at a `vwait`, and beside one whose slots run (R114). -/
theorem witness_interrupt_in_convoy : ([(vwaiting 3, true), (threeSlots, false)] : List (State × Bool)).all (fun p =>
    let t := onIt (calling p.1)
    interruptDue t && nextInterrupt t == some ⟨false, 5, 0x10000⟩ && t.strand.convoy.isSome && (t.strand.stall == some .vwait) == p.2) = true := by
  decide +kernel

/-- A stream within its first entry. -/
def begun : Stream := { threadOf 40 1 0 none with left := [1] }
/-- What opens strips, ends streams and ends a hart waits for it (R183, R184). -/
theorem witness_unsettled :
    (let s := { desk with hart := { desk.hart with streams := [begun] } }
     unsettled s = some 3 ∧ s.mate.isNone = true ∧ s.strand.portable = false ∧ s.role ≠ .compute)
      ∧ ((streamOf (running (streaming begun) (.strmend 3)) 3).map (·.left.isEmpty)) = some false
      ∧ unsettled desk = none ∧ ((streamOf (running (streaming (threadOf 40 1 0 none)) (.strmend 3)) 3).map Stream.settled) = some true := by
  decide +kernel

/-- A `vwait` whose first element lies on an engine's line. -/
def vwaitOwned : State :=
  let s := running (waiter 5) (.vwait 1 4 6 2 1 0 ⟨0, false⟩)
  { s with coh := { s.coh with home := [⟨0xA00, .G 3, []⟩] } }
theorem witness_vwait_engine :
    engineLine vwaitOwned 0xA00 = true ∧ linesOf (span 0x50000 8) = [0xA00]
      ∧ (match checkSite vwaitOwned (plainSite (BitVec.ofNat 64 (elemOf (getV vwaitOwned 4) 64 0)) 8) .read false with
        | .ok p => p.1 == span 0x50000 8
        | .error _ => false) = true := by decide +kernel

/-- A sweep that is to stop: where the free stop point is 0 it stops before its first unit. -/
theorem witness_sweep_stops (h : Config.stopPoint 0 0 = 0) (p : Diag × Diag) :
    ∃ q, (some 0).bind (sweepStop false (shapeOf (diag 0)) [[p]] 0 0) = some (0, q) ∧ ufield (diag 0).hart.cr.dprog 0 16 % 64 = 0 :=
  ⟨_, by simp [sweepStop, h]; rfl, by decide +kernel⟩

/-- Harts of the launch of level 1 on core 0, which drains and is overdue. -/
def drainingCrowd : State :=
  let s := setDie crowded 0 { dieRec crowded 0 with sup := { (dieRec crowded 0).sup with simg := 0x0040000000100000 } }
  setCore s { coreRec s 0 0 with draining := true, overdue := true }
/-- The supervisor's core drains. -/
def drainingChief : State :=
  let c := coreOf (chief 0).hart.id
  setCore (chief 0) { coreRec (chief 0) 0 c with draining := true, overdue := true }
theorem witness_draining :
    (drainVictims drainingCrowd 0 0).isEmpty = false ∧ coreEmpty drainingCrowd 0 0 = false
      ∧ (let c := coreOf (chief 0).hart.id
         (drainVictims drainingChief 0 c).isEmpty = true ∧ (supervisorSlot drainingChief 0).isSome = true
          ∧ ((boxes drainingChief).find? (fun b => b.hart.supervisor && dieOf b.hart.id == 0 && coreOf b.hart.id == c)).isSome = true) := by
  decide +kernel
theorem witness_errors :
    (boxOf desk 0).map (fun b => (b.hart.live, b.hart.status)) = some (true, .running)
      ∧ (boxOf (trapped 15) 0).map (·.hart.status) = some (.stopped 1 0)
      ∧ (let s := setCore desk { coreRec desk 0 0 with ues := 1 }; 1 ≤ (coreRec s 0 0).ues ∧ (boxOf s 0).isSome = true)
      ∧ (dieFull (diesAt 3 3 3) 3 = false ∧ (dieRec (diesAt 3 3 3) 3).state = 3 ∧ (dieRec desk 3).state ≠ 3)
      ∧ (let s := setDie (diesAt 3 0 3) 3 { dieRec desk 3 with state := 2 }
         frameMovable s 5 (3 * 2 ^ 20 + 7) = true ∧ homeDieOf (65536 * (3 * 2 ^ 20 + 7)) ≠ 0 ∧ s.mem.wf) := by decide +kernel
theorem witness_stages : (diesAt 4 0 2).kiln.stage = 4 ∧ 1 ≤ (diesAt 3 0 2).kiln.stage ∧ (diesAt 3 0 2).kiln.stage ≤ 3 ∧ (2880 : Nat) < 2881 := by decide +kernel

/-- An input container of native text: one kernel, and one word w at offset 128. -/
def kernelFile (kind secver w : Nat) : List Byte :=
  nBytes 4 0x4F4C544B ++ nBytes 1 kind ++ nBytes 1 1 ++ nBytes 2 1 ++ nBytes 4 secver ++ nBytes 4 0 ++ nBytes 8 4 ++ nBytes 8 0 ++ nBytes 8 128 ++ nBytes 8 192
    ++ nBytes 8 64 ++ nBytes 8 0 ++ nBytes 4 0 ++ nBytes 4 0xFFFFFFFF ++ nBytes 8 0 ++ List.replicate 48 0 ++ nBytes 4 w ++ List.replicate 60 0
/-- Stage 3 with objects below version 2 revoked. -/
def installer : State := { diesAt 3 0 2 with kiln := { (diesAt 3 0 2).kiln with objv := 2 } }
theorem witness_containers :
    ([1, 2].all (fun k => containerOk (kernelFile k 5 0)) = true ∧ containerOk (kernelFile 3 5 0) = true)
      ∧ (containerOf (containerPart (kernelFile 1 1 0))).secver < installer.kiln.objv
      ∧ installer.kiln.objv ≤ (containerOf (containerPart (kernelFile 1 5 0))).secver
      ∧ installer.kiln.cache.find? (fun _ => true) = none
      ∧ textFault (containerOf (kernelFile 1 5 0)) (containerPart (kernelFile 1 5 0)) = some (0, 17)
      ∧ textFault (containerOf (kernelFile 1 5 0x94002000)) (containerPart (kernelFile 1 5 0x94002000)) = none := by decide +kernel

/-! ### Clauses of walks that wait, and of the other branches -/

/-- An engine owns the line of the table that holds page 1's leaf. -/
def walkOwned (s : State) : State := { s with coh := { s.coh with home := [⟨0x600, .G 1, []⟩] } }
theorem witness_walk_waits :
    leafOf (walkOwned desk) (me desk) 0 0x10000 = .error (7 + 0x600)
      ∧ errOf (checkAligned (walkOwned farLoad) (me farLoad) 0 0x10000 8 .read false) = some ⟨0, 0x600⟩
      ∧ (let s := walkOwned (memLane 0x10000 8)
         ([.vldm 7 2 0, .vstm 7 2 0, .vfill 31 2, .vspill 31 2] : List Instr).all (fun i =>
            errOf (checkRange (running s i) (me s) 0 (slotOf s i).xsv 1 .write false) == some (⟨0, 0x600⟩, 0x10000)) = true
          ∧ errOf (checkSite (running s (.vld 1 2 3 0 ⟨0, false⟩)) (unitSite (running s (.vld 1 2 3 0 ⟨0, false⟩)) (slotOf s (.vld 1 2 3 0 ⟨0, false⟩)) 3 0 0) .read
              false) = some ⟨0, 0x600⟩
          ∧ errOf (checkPage (running s (.smap 2 3 2)) (me s) 0 (slotOf s (.smap 2 3 2)).xsv .read true) = some ⟨0, 0x600⟩)
      ∧ errOf (checkAligned (walkOwned (issuer 0 0)) (me desk) 0 0x10000 8 .read false) = some ⟨0, 0x600⟩ := by
  refine ⟨error_of (by decide +kernel), by decide +kernel, ⟨by decide +kernel, by decide +kernel, by decide +kernel⟩, by decide +kernel⟩
/-- The whole moves off the end of the page, each with its failing address. -/
theorem witness_whole_faults :
    ([.vldm 7 2 0, .vstm 7 2 0] : List Instr).all (fun i =>
        errOf (checkRange (running (memLane 0x20000 0) i) (me desk) 0 ((slotOf (memLane 0x20000 0) i).xsv + 0) 1 .read false) == some (⟨3, 2⟩, 0x20000)) = true
      ∧ ([(.vfill 31 2, .read), (.vspill 31 2, .write)] : List (Instr × Access)).all (fun p =>
        (slotOf (memLane 0x20000 0) p.1).xsv.toNat % 64 == 0
          && errOf (checkRange (running (memLane 0x20000 0) p.1) (me desk) 0 (slotOf (memLane 0x20000 0) p.1).xsv 64 p.2 false) == some (⟨3, 2⟩, 0x20000)) = true := by
  decide +kernel
/-- The fault of a `vst` whose first four elements commit. -/
theorem witness_store_fault :
    let i := Instr.vst 1 2 3 0 ⟨0, false⟩
    let s := memLane 0x1FFE0 0
    let site := unitSite (running s i) (slotOf s i) 3 0
    readyFor s i = true ∧ errOf (checkSite (running s i) (site 4) .write false) = some ⟨3, 2⟩
      ∧ ((List.range 4).all (fun j => okB (checkSite (running s i) (site j) .write false)) = true)
      ∧ ((planOf (running s i) false site .write false (activeOf (running s i) (slotOf s i) ⟨0, false⟩)).held (running s i)).isNone = true
      ∧ (activeOf (running s i) (slotOf s i) ⟨0, false⟩).contains 4 = true ∧ s.mem.wf = true := by decide +kernel
theorem witness_load_fault_not_held :
    let i := Instr.vld 1 2 3 0 ⟨0, false⟩
    let s := memLane 0x1FFE0 0
    ((planOf (running s i) false (unitSite (running s i) (slotOf s i) 3 0) .read false (activeOf (running s i) (slotOf s i) ⟨0, false⟩)).held (running s i)).isNone = true := by
  decide +kernel
/-- A table whose header stands at the end of the page: the look-up of every position fails at its entry. -/
def tableEnd : State := indexed (put8 (put8 (memLane 0x1FFC0 0) 0xFFC0 8) 0xFFC8 (2 + 2 ^ 32 * 2 + 2 ^ 40 * 8)) 1
theorem witness_lookup_fault : ([.vxlate 1 4 2 ⟨0, false⟩, .vxlateff 1 4 2 ⟨0, false⟩] : List Instr).all (fun i =>
    readyFor tableEnd i && errOf (lookOf tableEnd i 0) == some (⟨3, 2⟩, 0x20000)
      && (List.range 8).all (fun e => (errOf (lookOf tableEnd i e)).any (fun x => x.1.cls != 0))
      && (linesOf (tablePas (running tableEnd i) (me desk) 0 (slotOf tableEnd i).xsv 64)).all (fun y => !engineLine tableEnd y)) = true := by decide +kernel

/-- The branches and jumps whose outcome is not what is recorded, and the same in the handler (R35, R37). -/
theorem witness_armature_jumps :
    (inHandler leadHart = false ∧ inHandler otherHart = false
        ∧ inHandler { leadHart with hart := { leadHart.hart with cr := { leadHart.hart.cr with ucause := 0x8000000000000000 } } } = true)
      ∧ ((Instr.bm 0 7 4).wf = true ∧ ownsM otherHart.role ((7 : BitVec 5).extractLsb' 0 3) = true)
      ∧ (getX otherHart 1 + (4 : BitVec 16).signExtend 64).toNat % 4 = 0
      ∧ outcomeWord true (otherHart.strand.pc + 4 * (1 : BitVec 22).signExtend 64) = 5 ∧ outcomeWord true (otherHart.strand.pc + 4 * (2 : BitVec 22).signExtend 64) ≠ 5 := by
  decide +kernel
/-- The instruction behind a convoy stands in text of the same kind as the convoy; a strand at its first word; the word that is no header. -/
theorem witness_same_text :
    (runState (fetchAt (pastConvoy (issued aheadText)))).strand.portable = (issued aheadText).strand.portable
      ∧ (issued addiText).strand.later.isNone = true ∧ (issued addiText).strand.convoy.isNone = true
      ∧ isHeader 0 = false := by decide +kernel
/-- A participant of a round of slot 0 that runs on another hart slot than the focused one. -/
def parkedRound : State :=
  { desk with
    parked := [⟨{ desk.hart with id := 1, key := ⟨0, 0, 1⟩ }, Strand.start 0, none⟩, ⟨{ desk.hart with id := 2, key := ⟨0, 0, 2⟩ }, Strand.start 0, none⟩]
    sched := { desk.sched with contenders := [{ hart := ⟨0, 0, 1⟩, slot := 0, tag := 0, word := 9 }] } }
theorem witness_parked_round :
    (greatest (roundOf parkedRound 0)).isSome = true ∧ ((roundOf parkedRound 0).find? (fun c => c.hart == ⟨0, 0, 1⟩)).isSome = true
      ∧ ((roundOf parkedRound 0).find? (fun c => c.hart == ⟨0, 0, 2⟩)).isNone = true ∧ parkedRound.parked.length = 2 := by decide +kernel
/-- Both streams of a sweep short, and the other one malformed while one is short (R208, R215). -/
theorem witness_sweep_short :
    stages (compressed 0 []) (.spsweepf 32 33 3 7) 32 33 128 sparseMain sparseMain = (1, 1)
      ∧ stages (compressed 5 []) (.spsweepf 32 1 3 7) 32 1 128 sparseMain sparseMain = (1, 2) := by decide +kernel

/-- Tile 160 with a line that an engine owns, in a `clear` of two tiles that waits for it, and after the engine has let it go. -/
def clearing (h : List HomeLine) : State :=
  let s := setDie desk 0 { dieRec desk 0 with glaze := { (dieRec desk 0).glaze with clearing := [160] } }
  { s with coh := { s.coh with home := h } }
theorem witness_clear_waits :
    blockedTiles (clearing []) 0 (fun t => decide (stackTile 0 + 160 ≤ t) && decide (t < stackTile 0 + 160 + 2)) = []
      ∧ blockedTiles (clearing [⟨2560, .G 3, []⟩]) 0 (fun t => decide (stackTile 0 + 160 ≤ t) && decide (t < stackTile 0 + 160 + 2)) = [160]
      ∧ (160 ∈ blockedTiles (clearing [⟨2560, .G 3, []⟩]) 0 [160].contains) ∧ blockedTiles (clearing []) 0 [160].contains = [] := by decide +kernel
/-- A machine whose tile 192 is held. -/
def holding (s : State) : State := { s with sealed := { s.sealed with held := [192] } }
/-- Where its set is full, the fill of tile 160 waits. -/
theorem fill_waits {s : State} (h : ∀ l, Config.setFull [192] l = true) (hl : s.sealed.inL2.contains 160 = false) : fillWaits (holding s) 160 = true := by
  have hn : ([192].filter (fun t => homeDieOf (2048 * t) == homeDieOf (128 * (16 * 160 + 0))
      && (List.range 16).any (fun i => sliceOf (2048 * t + 128 * i) == sliceOf (128 * (16 * 160 + 0))))) = [192] := by decide +kernel
  have hs : setFull (holding s) (16 * 160 + 0) = true := by
    simp only [setFull, holding, hn, h, List.isEmpty_cons, Bool.not_false, Bool.and_self]
  have ho : ((List.range 16).any (fun i => setFull (holding s) (16 * 160 + i))) = true := List.any_eq_true.mpr ⟨0, by decide, hs⟩
  simp only [fillWaits, ho, Bool.and_true]
  simpa [holding] using hl
/-- Tile 160 sealed, outside L2, beside a held tile of its die and slices; where its set is full its fill waits. -/
theorem witness_fill_waits (h : ∀ l, Config.setFull [192] l = true) :
    fillWaits (holding (sealing ⟨160, false, 1, 3, 0⟩ [] [] [])) 160 = true ∧ fillWaits (sealing ⟨160, false, 1, 3, 0⟩ [] [] []) 160 = false :=
  ⟨fill_waits h (by decide +kernel), by decide +kernel⟩
/-- A poisoned tile with a dirty line. -/
theorem witness_poisoned_reseal :
    let f := fillTile (sealing ⟨160, false, 2, 3, 0⟩ [] [] [2560]) 160
    f.sealed.dirty.any (fun l => l / 16 == 160) = true ∧ 2 ≤ (tileRec f 160).state
      ∧ fillWaits (sealing ⟨160, false, 2, 3, 0⟩ [] [] [2560]) 160 = false := by decide +kernel

/-- A host access of function 0 on link 0 waits. -/
theorem witness_register_behind :
    (∃ x ∈ ({ open1.host with waiting := [⟨pf, 0x100, 8, none, none, none⟩] } : HostSide).waiting, x.f.fn = pf.fn ∧ x.f.link = pf.link)
      ∧ ideMissing guarded pf = true ∧ servedNow State.reset pf 0 = false := ⟨⟨_, List.mem_cons_self, rfl, rfl⟩, by decide +kernel, by decide +kernel⟩
/-- An engine's claim of a poisoned line, and one that waits already. -/
theorem witness_claims :
    homeLine (lined (some (.P .lost)) none) 2560 = some (.P .lost)
      ∧ Waiting.claim 8 ∈ homeQueue (setHome desk 2560 (some (.G 7)) [.claim 8]) 2560
      ∧ Waiting.claim 8 ∉ homeQueue (setHome desk 2560 (some (.G 7)) []) 2560 := by decide +kernel
/-- A memory-only die of one owned frame, with room elsewhere and without. -/
def leaving : State := let s := setDie (diesAt 3 0 3) 3 { dieRec desk 3 with state := 2 }; { s with sealed := { s.sealed with owners := [⟨5, 0⟩] } }
theorem witness_evacuation :
    ownedFrames leaving 0 = [(5, (ownerOf leaving 5).toNat)] ∧ frameMovable leaving 5 (3 * 2 ^ 20 + 7) = true
      ∧ ownedFrames (evacuate leaving 0 []) 0 ≠ [] ∧ ((dieRec leaving 0).state = 3 ∧ (dieRec leaving 0).plinth = true)
      ∧ (diesAt 1 0 3).kiln.stage ≠ 2 ∧ (diesAt 1 0 3).kiln.stage ≠ 3 ∧ leaving.kiln.stage = 3 := by decide +kernel
/-- The unit of a corrected error in a queue, and a hart that retires. -/
theorem witness_soft_sites :
    siteUnit desk (.hartState 0 1) = .coreSram 0 0 ∧ siteUnit desk (.laneGroup 0 9 2) = .laneGroup 0 9 2 ∧ siteDie (.hartState 0 1) = 0
      ∧ (boxOf { desk with hart := { desk.hart with status := .retiring } } 0).map (fun b => (b.hart.live, b.hart.status)) = some (true, .retiring) := by
  decide +kernel
/-- The die of a hart asked to stop has a free slot that the device can reach. -/
theorem witness_slot_ready :
    slotReady (onIt (halting 0 0 1)) 0 = none ∧ ((freeSlot (onIt (halting 0 1 1)) 0) = some 0
      ∧ (onIt (halting 0 1 1)).sealed.held = [] ∧ (onIt (halting 0 1 1)).coh.home = []) := by decide +kernel
theorem witness_slot_ready_some : slotReady (onIt (halting 0 1 1)) 0 = some 0 := by
  have h : imageWaits (onIt (halting 0 1 1)) 0 0 = false := by
    have e1 : (onIt (halting 0 1 1)).sealed.held.isEmpty = true := by decide +kernel
    have e2 : (onIt (halting 0 1 1)).coh.home = [] := by decide +kernel
    simp only [imageWaits, e1, e2, Bool.not_true, Bool.false_and, List.any_nil, Bool.or_self]
  have f : freeSlot (onIt (halting 0 1 1)) 0 = some 0 := by decide +kernel
  simp only [slotReady, f, Option.filter, h, Bool.not_false, if_true]

/-! ### Clauses of what waits for a fill, a home or an engine's line -/

/-- A poisoned line of tile 160, whose fill waits or not. -/
theorem witness_poison_waits (h : ∀ l, Config.setFull [192] l = true) :
    linePoison (lined (some (.P .lost)) none) (128 * 2560) ≠ none ∧ fillWaits (lined (some (.P .lost)) none) 160 = false
      ∧ linePoison (holding (lined (some (.P .lost)) none)) (128 * 2560) ≠ none ∧ fillWaits (holding (lined (some (.P .lost)) none)) 160 = true :=
  ⟨by decide +kernel, by decide +kernel, by decide +kernel, fill_waits h (by decide +kernel)⟩

/-- n numbered messages of an agent unanswered at another die (R380). -/
def messages (src : DieId) (agent : BitVec 5) (dst : DieId) (n : Nat) (s : State) : State :=
  { s with coh := { s.coh with sent := (List.range n).map (fun i => ⟨src, agent, dst, BitVec.ofNat 16 i, 0, none, none⟩) } }
/-- Line 2560 in X at die 3, whose home has n messages unanswered at it. -/
def farOwner (n : Nat) : State := messages 0 homeAgent 3 n (lined (some (.X (.die 3))) none)
theorem witness_home_waits (h : ∀ l, Config.setFull [192] l = true) :
    [homeStuck (farOwner 63) 2560, homeFull (farOwner 64) 2560, homeStuck (farOwner 64) 2560, homeWaits (farOwner 63) 2560, homeWaits (farOwner 64) 2560]
        = [false, true, true, false, true]
      ∧ homeStuck (delay desk 2560 (.claim 8)) 2560 = true ∧ tileWaits (farOwner 63) 160 = false ∧ tileWaits (farOwner 64) 160 = true
      ∧ [63, 64].map (fun n => proxyFull (messages 3 proxyAgent 0 n desk) 3 2560) = [false, true]
      ∧ homeWaits (holding (lined none none)) 2560 = true ∧ tileWaits (holding desk) 160 = true := by
  refine ⟨by decide +kernel, by decide +kernel, by decide +kernel, by decide +kernel, by decide +kernel, ?_, ?_⟩
  · simp only [homeWaits, fill_waits (s := lined none none) h (by decide +kernel), Bool.true_or]
  · simp only [tileWaits, fill_waits (s := desk) h (by decide +kernel), Bool.true_or]
/-- Tile 160 sealed under the older slot, and a home of a line of it that may send no message. -/
theorem witness_scrub_waits :
    let s := sealing ⟨160, false, 1, 3, 0⟩ [oldKey, newKey] [] []
    let u := { s with coh := (farOwner 64).coh }
    let ts (s : State) := (s.sealed.tiles.filter (fun r => r.state == 1 && r.slot == false && homeDieOf (2048 * r.tile) == 0 && tileOwner s r.tile == 0)).map (·.tile)
    newerSlot s 0 0 = some (!false) ∧ newerSlot u 0 0 = some (!false) ∧ ts s = [160] ∧ tileWaits s 160 = false ∧ ts u = [160] ∧ tileWaits u 160 = true
      ∧ (∀ r ∈ s.sealed.tiles, ∀ q ∈ s.sealed.tiles, r.tile = q.tile → r = q) := by decide +kernel
theorem witness_reissue_die : [0, 3].map (dieFull desk) = [true, false] := by decide +kernel

/-- The address that `vxlate` gives for a position out of range is a base of its own kind (R299). -/
theorem witness_void_base :
    let i := Instr.vld 1 2 3 0 ⟨0, false⟩
    (slotOf (memLane (BitVec.allOnes 64) 0) i).xsv = BitVec.allOnes 64 ∧ (slotOf (memLane 0x10000 0) i).xsv ≠ BitVec.allOnes 64 := by decide +kernel
/-- A `vgl` that goes on after its first element. -/
theorem witness_linked_part : ({ slotOf lane (.vgl 1 2 4 0 ⟨0, false⟩) with ctr := Vector.replicate 8 1 } : Slot).ctr.toList.any (· != 0) = true := by decide +kernel

/-- A `cpywait` for a word on an engine's line, and through a table's line that an engine owns; `smap` through such a line too. -/
theorem witness_cpywait_waits :
    (let s := { busyWith 0 with coh := { desk.coh with home := [⟨0xA00, .G 1, []⟩] } }
     RunsSlot (running s (.cpywait 1 2)) (.cpywait 1 2) [capture s (.cpywait 1 2)] 0 (capture s (.cpywait 1 2))
       ∧ (match checkAligned (running s (.cpywait 1 2)) (me s) 0 (capture s (.cpywait 1 2)).xsv 8 .read false with
          | .ok p => engineLine (running s (.cpywait 1 2)) (lineOf p.1)
          | .error _ => false) = true)
      ∧ (let s := walkOwned (memLane 0x10000 8)
         errOf (checkAligned (running s (.cpywait 1 2)) (me s) 0 (capture s (.cpywait 1 2)).xsv 8 .read false) = some ⟨0, 0x600⟩
           ∧ errOf (checkPage (running s (.smap 2 3 2)) (me s) 0 (capture s (.smap 2 3 2)).xsv .read true) = some ⟨0, 0x600⟩)
      ∧ RunsSlot (running (busyWith 32) (.cpy 2)) (.cpy 2) [capture (busyWith 32) (.cpy 2)] 0 (capture (busyWith 32) (.cpy 2)) :=
  ⟨⟨runs_of _ _, by decide +kernel⟩, by decide +kernel, runs_of _ _⟩

/-- A waiting `vwait` behind which the fetch has read an instruction already. -/
theorem witness_interrupt_behind :
    let t := onIt (calling { vwaiting 3 with strand := { (vwaiting 3).strand with ahead := some (28, none) } })
    interruptDue t = true ∧ t.strand.ahead = some (28, none) ∧ t.strand.convoy.isSome = true ∧ (stallsOf t).contains .vwait = true := by decide +kernel

/-- The desk with one command, and another engine on line 0xA00, that of the completion word. -/
def ordered (c : Command) : State := { desk with sched := { desk.sched with commands := [c] } }
def wordOwned (c : Command) : State := { ordered c with coh := { desk.coh with home := [⟨0xA00, .G 3, []⟩] } }
theorem witness_command_word :
    (let c := { order 0 0x10000 7 0x10080 0x10100 64 0 with word := some 7 }
     (ordered c).sched.commands.find? (·.id == c.id) = some c ∧ commandReady (ordered c) c = true
       ∧ okB (unitStore (ordered c) 0 0 (c.desc.extractLsb' 0 64) 8 7 (engineAgent c)) = true ∧ commandDue (wordOwned c) c = false)
      ∧ (let c := order 0 0x10000 7 0x10080 0x10100 64 0
         (ordered c).sched.commands.find? (·.id == c.id) = some c ∧ commandReady (ordered c) c = true
           ∧ (wordOwned c).sched.commands.find? (·.id == c.id) = some c ∧ dataReady (wordOwned c) c = true ∧ wordWaits (wordOwned c) c = true) := by
  decide +kernel
theorem witness_completion_waits :
    let l := soleLaunch [⟨0, 0, 0⟩] none
    let s := withLaunch desk l
    let u := { s with coh := { desk.coh with home := [⟨0xA00, .G 3, []⟩] } }
    launchDone s l = true ∧ completionWaits s l = false ∧ launchDone u l = true ∧ completionWaits u l = true := by decide +kernel

theorem witness_record_waits :
    let s := trapped 15
    let u := { s with coh := { s.coh with home := [⟨lineOf 0x50000, .G 3, []⟩] } }
    [s, u].map (fun s => unitWaits s (dieOf 0) 0 (recordAddress s (dieOf 0)) 64 .write) = [false, true] := by decide +kernel

/-- A read of a register behind a waiting access, at PF0 BAR0 in stages 1, 2 and 4 outside the kiln block, and before stage 1. -/
theorem witness_register_reads :
    ([1, 2, 4].all (fun n =>
        let s := { open1 with kiln := { open1.kiln with stage := n } }
        present s pf && s.kiln.stage != 0 && !servedNow s pf 0 && !ideMissing s pf && decide (∀ x ∈ s.host.waiting, x.f.fn = pf.fn → x.f.link ≠ pf.link))) = true
      ∧ (let s := { open1 with kiln := { open1.kiln with stage := 0 } }; servedNow s pf 0 = false ∧ ¬(s.kiln.stage ≠ 0)) := by decide +kernel
/-- A ring that is to stop, its header on an engine's line or not. -/
theorem witness_header_free :
    let s := served0 true false false true 0 4
    let u := { s with coh := { s.coh with home := [⟨0xA00, .G 3, []⟩] } }
    (ringOf u 0 2).en = false ∧ headerFree u (ringOf u 0 2) = false ∧ headerFree s (ringOf s 0 2) = true := by decide +kernel
end Sys2Proof.Machine.Tests
end

section
/-! Division (R94), and the scalar queues (R15, R16, R106, R108). -/

namespace Sys2Proof.Machine

/-! ### The results of division at its edges -/

@[simp] theorem divide64_zero (a : Word) : divide64 a 0 = 0xFFFFFFFFFFFFFFFF := rfl
@[simp] theorem divideU64_zero (a : Word) : divideU64 a 0 = 0xFFFFFFFFFFFFFFFF := rfl
@[simp] theorem remainder64_zero (a : Word) : remainder64 a 0 = a := rfl
@[simp] theorem remainderU64_zero (a : Word) : remainderU64 a 0 = a := rfl

/-- The one quotient that no word holds, 2^63, wraps to the dividend. -/
theorem divide64_intMin_neg_one : divide64 0x8000000000000000 0xFFFFFFFFFFFFFFFF = 0x8000000000000000 := by decide
theorem remainder64_intMin_neg_one : remainder64 0x8000000000000000 0xFFFFFFFFFFFFFFFF = 0 := by decide

/-! ### Division retires its result -/

theorem exec_div (d a b : XReg) (s : State) : exec (.div d a b) s = retire d (divide64 (getX s a) (getX s b)) s := rfl
theorem exec_divu (d a b : XReg) (s : State) : exec (.divu d a b) s = retire d (divideU64 (getX s a) (getX s b)) s := rfl
theorem exec_rem (d a b : XReg) (s : State) : exec (.rem d a b) s = retire d (remainder64 (getX s a) (getX s b)) s := rfl
theorem exec_remu (d a b : XReg) (s : State) : exec (.remu d a b) s = retire d (remainderU64 (getX s a) (getX s b)) s := rfl

/-- Settles O6: each instruction retires its result, and the result at each edge is the table's. -/
theorem divisionEdges : Obligations.DivisionEdges := by
  intro d a b s
  refine ⟨fun hb => ?byZero, fun ha hb => ?overflow⟩
  case byZero =>
    rw [exec_div, exec_divu, exec_rem, exec_remu, hb, divide64_zero, divideU64_zero, remainder64_zero, remainderU64_zero]
    exact ⟨rfl, rfl, rfl, rfl⟩
  case overflow =>
    rw [exec_div, exec_rem, ha, hb, divide64_intMin_neg_one, remainder64_intMin_neg_one]
    exact ⟨rfl, rfl⟩

/-! ### What a queue instruction does on each strand -/

theorem exec_qpush (a : XReg) (s : State) : exec (.qpush a) s = execQpush a s := rfl
theorem exec_qpop (d : XReg) (s : State) : exec (.qpop d) s = execQpop d s := rfl
theorem exec_bqpush (a : XReg) (s : State) : exec (.bqpush a) s = execBqpush a s := rfl
theorem exec_bq (c : BitVec 4) (off : BitVec 12) (s : State) : exec (.bq c off) s = execBq c off s := rfl

section
variable {s : State}

theorem exec_qpush_access (a : XReg) (hr : s.role = .access) :
    exec (.qpush a) s = if 16 ≤ s.hart.q.xqAC.length then .next (stallOn s (.xqFull true))
      else .next (advance (setQueues s { s.hart.q with xqAC := s.hart.q.xqAC ++ [getX s a] })) := by
  simp only [exec_qpush, execQpush, hr]

theorem exec_qpush_compute (a : XReg) (hr : s.role = .compute) :
    exec (.qpush a) s = if 16 ≤ s.hart.q.xqCA.length then .next (stallOn s (.xqFull false))
      else .next (advance (setQueues s { s.hart.q with xqCA := s.hart.q.xqCA ++ [getX s a] })) := by
  simp only [exec_qpush, execQpush, hr]

theorem exec_bqpush_access (a : XReg) (hr : s.role = .access) :
    exec (.bqpush a) s = if 32 ≤ s.hart.q.bqAC.length then .next (stallOn s (.bqFull true))
      else .next (advance (setQueues s { s.hart.q with bqAC := s.hart.q.bqAC ++ [(getX s a).getLsbD 0] })) := by
  simp only [exec_bqpush, execBqpush, hr]

theorem exec_bqpush_compute (a : XReg) (hr : s.role = .compute) :
    exec (.bqpush a) s = if 32 ≤ s.hart.q.bqCA.length then .next (stallOn s (.bqFull false))
      else .next (advance (setQueues s { s.hart.q with bqCA := s.hart.q.bqCA ++ [(getX s a).getLsbD 0] })) := by
  simp only [exec_bqpush, execBqpush, hr]

theorem exec_qpop_access_nil (d : XReg) (hr : s.role = .access) (hq : s.hart.q.xqCA = []) :
    exec (.qpop d) s = .next (stallOn s (.xqEmpty false)) := by
  simp only [exec_qpop, execQpop, hr, hq]

theorem exec_qpop_compute_nil (d : XReg) (hr : s.role = .compute) (hq : s.hart.q.xqAC = []) :
    exec (.qpop d) s = .next (stallOn s (.xqEmpty true)) := by
  simp only [exec_qpop, execQpop, hr, hq]

theorem exec_qpop_access_cons (d : XReg) {v : Word} {r : List Word} (hr : s.role = .access) (hq : s.hart.q.xqCA = v :: r) :
    exec (.qpop d) s = .next (advance (setX (setQueues s { s.hart.q with xqCA := r }) d v)) := by
  simp only [exec_qpop, execQpop, hr, hq]

theorem exec_qpop_compute_cons (d : XReg) {v : Word} {r : List Word} (hr : s.role = .compute) (hq : s.hart.q.xqAC = v :: r) :
    exec (.qpop d) s = .next (advance (setX (setQueues s { s.hart.q with xqAC := r }) d v)) := by
  simp only [exec_qpop, execQpop, hr, hq]

theorem bqIn_access (hr : s.role = .access) : bqIn s = s.hart.q.bqCA := by simp [bqIn, hr]
theorem bqIn_compute (hr : s.role = .compute) : bqIn s = s.hart.q.bqAC := by simp [bqIn, hr]

/-- A legal `bq` waits while the strand's incoming queue is empty. -/
theorem exec_bq_empty {c : BitVec 4} (off : BitVec 12) (hc : (Instr.bq c off).wf = true) (hr : s.role ≠ .single) (hq : bqIn s = []) :
    exec (.bq c off) s = .next (stallOn s (.bqEmpty (s.role == .compute))) := by
  rw [exec_bq, execBq, if_neg hr, ifLegal_of s _ hc, hq]

/-- The scalar queue instructions are illegal on the single strand of coupled mode (R16). -/
theorem exec_queue_single {a d : XReg} {c : BitVec 4} {off : BitVec 12} {i : Instr} (hr : s.role = .single)
    (hi : i ∈ [Instr.qpush a, .qpop d, .bqpush a, .bq c off]) : exec i s = .next (illegal i s) := by
  simp only [List.mem_cons, List.not_mem_nil, or_false] at hi
  obtain rfl | rfl | rfl | rfl := hi
  · simp only [exec_qpush, execQpush, hr]
  · simp only [exec_qpop, execQpop, hr]
  · simp only [exec_bqpush, execBqpush, hr]
  · rw [exec_bq, execBq, if_pos hr]

end

/-- Settles O14: with room, or a word to pop, by the strand's equation for the instruction; a queue at its bound or empty makes the strand wait;
and the single strand has no queue. -/
theorem scalarQueueOrder : Obligations.ScalarQueueOrder := by
  refine ⟨fun s a d => ⟨fun hr => ⟨fun room => ?pushAC, fun v r hq => exec_qpop_access_cons d hr hq, fun room => ?bitAC⟩,
      fun hr => ⟨fun room => ?pushCA, fun v r hq => exec_qpop_compute_cons d hr hq, fun room => ?bitCA⟩⟩,
    fun s a d off => ⟨fun hr full => ?fullAC, fun hr full => ?fullCA, exec_qpop_access_nil d, exec_qpop_compute_nil d,
      fun hr full => ?bitFullAC, fun hr full => ?bitFullCA, fun hr hq => ?bitEmptyCA, fun hr hq => ?bitEmptyAC, fun hr i => exec_queue_single hr⟩⟩
  case pushAC => rw [exec_qpush_access a hr, if_neg (Nat.not_le.mpr room)]
  case bitAC => rw [exec_bqpush_access a hr, if_neg (Nat.not_le.mpr room)]
  case pushCA => rw [exec_qpush_compute a hr, if_neg (Nat.not_le.mpr room)]
  case bitCA => rw [exec_bqpush_compute a hr, if_neg (Nat.not_le.mpr room)]
  case fullAC => rw [exec_qpush_access a hr, if_pos full.ge]
  case fullCA => rw [exec_qpush_compute a hr, if_pos full.ge]
  case bitFullAC => rw [exec_bqpush_access a hr, if_pos full.ge]
  case bitFullCA => rw [exec_bqpush_compute a hr, if_pos full.ge]
  case bitEmptyCA => rw [exec_bq_empty off rfl (by simp [hr]) ((bqIn_access hr).trans hq), hr]; rfl
  case bitEmptyAC => rw [exec_bq_empty off rfl (by simp [hr]) ((bqIn_compute hr).trans hq), hr]; rfl

end Sys2Proof.Machine
end

section
/-! The mask instructions (R135), and copies and counts at ew (R136, R142, R143). -/

namespace Sys2Proof.Machine

/-! ### Copies and counts -/

/-- A row-wise instruction over the active elements, in native text: each active element e takes the value that the instruction gives the e-th place
of the row 0 to vl - 1. -/
theorem rowwise_active (i : Instr) (d : VOpd) (g : Gov) (f : State → Slot → List Nat → Nat → Nat → Nat) (val : State → Slot → Nat → Nat) (v : VInfo)
    (hv : infoOf i = some v) (hd : v.dst = some d) (ok : i.wf = true → vOk d = true)
    (he : ∀ s, exec i s = vectorStep i (rowwise i d (isActive g) f) s)
    (hf : ∀ s k e, e < s.strand.vl.toNat → f s k (List.range s.strand.vl.toNat) e e = val s k e) :
    ElementsAtEw i d (fun s k e => if e ∈ activeOf s k g then some (val s k e) else none) := by
  refine elementsAtEw_congr (rowwise_result i d (isActive g) f v hv hd ok he) fun s k hp => funext fun e => ?_
  simp only [mem_activeOf_native s k g e hp]
  split
  case isTrue h => rw [hf s k e h.1]
  case isFalse => rfl

/-- The places before one that lies in a row are the numbers below it. -/
theorem take_range_of_le {j n : Nat} (h : j ≤ n) : (List.range n).take j = List.range j := by
  rw [List.take_range, Nat.min_eq_left h]

/-- Settles O31: each of the four is row-wise over the active elements, and below vl the first e places of the row are the numbers below e. -/
theorem copiesAndCounts : Obligations.CopiesAndCounts := by
  intro d a m x g
  refine ⟨?vmv, ?vbcast, ?vprefixpop, ?vconflict⟩
  case vmv =>
    exact rowwise_active (.vmv d a g) d g _ (fun s _ e => atEw s a e) _ rfl rfl (fun h => Bool.and_elim_left (Bool.and_elim_left h)) (fun _ => rfl)
      fun _ _ _ _ => rfl
  case vbcast =>
    exact rowwise_active (.vbcast d x g) d g _ (fun _ k _ => k.xsv.toNat) _ rfl rfl Bool.and_elim_left (fun _ => rfl) fun _ _ _ _ => rfl
  case vprefixpop =>
    refine rowwise_active (.vprefixpop d m g) d g _ _ _ rfl rfl Bool.and_elim_left (fun _ => rfl) fun s k e h => ?_
    rw [take_range_of_le h]
  case vconflict =>
    refine rowwise_active (.vconflict d a g) d g _ _ _ rfl rfl (fun h => Bool.and_elim_left (Bool.and_elim_left h)) (fun _ => rfl) fun s k e h => ?_
    rw [take_range_of_le h.le]; rfl

/-! ### Mask bits, of a slot that may resume -/

/-- A mask destination's bits change that one mask alone. -/
theorem only_putMask (s : State) (i : Instr) (d : MReg) (l : List (Nat × Bool)) (hs : sourcesOf i = []) : OnlyOperands s (putMask s d l) i [d] := by
  refine ⟨rfl, fun r _ => getV_setM s d _ r, fun m hm => getM_setM_of_ne s _ (by simpa using hm), fun q _ _ _ => ?_⟩
  rw [hs]; rfl

/-- With no element beyond a stop point, the elements for a slot to complete are those its counters have not passed. -/
theorem openAt_of_beyond_nil {s : State} {k : Slot} (h : beyond s k = []) {e : Nat} (he : e ∈ positions s) : openAt s k e = !passed s k e := by
  have hw : within s k e = true := by
    have := List.filter_eq_nil_iff.mp h e he
    simpa using this
  rw [openAt, hw, Bool.and_true]

/-- What an instruction that writes mask bits does in native text: the bits below vl that its slot's counters have not passed take their values, and
every other bit stays. A bit that the counters have passed was written before the slot stopped, and is not written again (R32, R33). -/
theorem maskWrite_result {i : Instr} {d : MReg} {f : State → Nat → Bool} (he : ∀ s, exec i s = vectorStep i (maskWrite d f) s)
    (hs : sourcesOf i = []) {s : State} {ks : List Slot} {n : Nat} {k : Slot} (hp : s.strand.portable = false) (hr : RunsSlot s i ks n k) :
    ∃ t, exec i s = .next (completeSlot t ks n k) ∧ OnlyOperands s t i [d]
      ∧ ∀ e, e < 8192 → (getM t d).getLsbD e = if e < s.strand.vl.toNat ∧ passed s k e = false then f s e else (getM s d).getLsbD e := by
  obtain ⟨-, -, -, hb⟩ := id hr
  refine ⟨putMask s d (((positions s).filter (openAt s k)).map (fun e => (e, f s e))), ?runs, only_putMask s i d _ hs, fun e h => ?bits⟩
  case runs =>
    rw [he]; exact vectorStep_next hr _ (by simp only [maskWrite, endElems, hb, List.isEmpty_nil, if_true])
  case bits =>
    have hm : e ∈ (positions s).filter (openAt s k) ↔ e < s.strand.vl.toNat ∧ passed s k e = false := by
      rw [List.mem_filter, positions_native s hp, List.mem_range]
      refine and_congr_right fun hv => ?_
      rw [openAt_of_beyond_nil hb (by rwa [positions_native s hp, List.mem_range]), Bool.not_eq_true']
    rw [putMask, getM_setM_self, getLsbD_setBits_map _ _ _ e h]
    simp only [hm]

/-- One end of an execution gives the masks one value, by whatever state it is described. -/
theorem getM_eq_of_completeSlot {r : Result} {t u : State} {ks : List Slot} {n : Nat} {k : Slot} (ht : r = .next (completeSlot t ks n k))
    (hu : r = .next (completeSlot u ks n k)) (m : MReg) : getM t m = getM u m := by
  have h : completeSlot t ks n k = completeSlot u ks n k := Host.Outcome.next.inj (ht.symm.trans hu)
  obtain ⟨-, ht, -⟩ := completeSlot_keeps t ks n k
  obtain ⟨-, hu, -⟩ := completeSlot_keeps u ks n k
  have hregs : t.hart.regs = u.hart.regs := by rw [← ht, h, hu]
  simp only [getM, hregs]

/-- A slot of `mnot m1, m1` that has stopped and resumes: the eight elements of lane group 0 are complete, as in the case that the manual gives of R151. -/
def resumingNot : Slot :=
  { instr := .mnot 1 1, fmtw := 0, xsv := 0, xbv := 0, rbase := 0, ctr := #v[8, 0, 0, 0, 0, 0, 0, 0], pushed := false, done := false, desc := 0
    met := 0, staged := (0, 0), ew := 3, shadow := false, stop := none, held := none }

/-- The machine whose strand has that slot next to run, at 16 lanes and a length of 16: bits 0 to 7 of m1 are inverted already, from 0 to 1. -/
def halfInverted : State :=
  let s := setM State.reset 1 0xFF
  { s with
    hart := { s.hart with grant := { share := 1, cls := 9, groups := 2, banks := 1, vlen := 1024, short := false } }
    strand := { s.strand with vl := 16, convoy := some [resumingNot] } }

theorem halfInverted_runs : RunsSlot halfInverted (.mnot 1 1) [resumingNot] 0 resumingNot := ⟨rfl, rfl, rfl, rfl⟩
theorem halfInverted_passed : passed halfInverted resumingNot 0 = true := rfl
theorem halfInverted_bit : (getM halfInverted 1).getLsbD 0 = true := by decide +kernel

/-- Refutes O30: of a slot that resumes after a stop, the bits that its counters have passed are not written again (R33), so they need not be what
the instruction gives of the masks as they now stand. `mnot m1, m1` has inverted bit 0 before it stopped, and resumes: the statement asks for bit 0
to be inverted back. -/
theorem not_maskInstructions : ¬ Obligations.MaskInstructions := by
  intro h
  obtain ⟨-, -, -, -, hnot, -⟩ := h 1 1 1 0 false halfInverted [resumingNot] 0 resumingNot rfl
  obtain ⟨t, ht, -, htb⟩ := hnot halfInverted_runs
  obtain ⟨u, hu, -, hub⟩ := maskWrite_result (fun _ => rfl) rfl rfl halfInverted_runs
  have stated : (getM t 1).getLsbD 0 = false := by
    rw [htb 0 (by decide), if_pos (by decide)]; exact congrArg not halfInverted_bit
  have kept : (getM u 1).getLsbD 0 = true := by
    rw [hub 0 (by decide), if_neg (by simp [halfInverted_passed]), halfInverted_bit]
  rw [getM_eq_of_completeSlot ht hu, kept] at stated
  exact Bool.noConfusion stated

end Sys2Proof.Machine
end
